-- ==== Sys2Proof/Word.lean ====
section
/-! DEFINITION. The word types of the RBFC: a register word is 32 bits, a data byte 8 bits (00_scope.md R9), and a
port is named by three bits (10_state.md R42, R46: `LOCK_OWNER` and `FAULT.PORT` are three bits wide). -/

namespace Sys2Proof

/-- A register word (R9). -/
abbrev Word := BitVec 32

/-- A data byte (R9). -/
abbrev Byte := BitVec 8

/-- A port number. `NTHREAD` is at most 7 (R7), so the ports are `0 .. NTHREAD` within `0 .. 7`. -/
abbrev PortId := Fin 8

end Sys2Proof
end

