-- ==== Sys2Proof/Config.lean ====
section
/-! DEFINITION. What an implementation fixes (the parameters of 00_scope.md R7), the plain data a run is made of
(command lines, register accesses, events) and the two free values: which event comes next where the schedule ends,
and what host memory holds where nothing has been placed. -/

namespace Sys2Proof

/-- The implementation parameters of 00_scope.md R7. The two predicates of the table are lists of exceptions, so that
they are plain data (log 5): `IRQ_LINE_VALID n` holds when `n` is not in `irqInvalid`, and `HOSTMEM_OK a` when `a` is
not in `hostDeny`. -/
structure Params where
  capMax : Nat
  rxfDepth : Nat
  txfDepth : Nat
  rxThresh : Nat
  txThresh : Nat
  ncpu : Nat
  nthread : Nat
  /-- `cpu(p)` is entry `p` of this list (0 beyond its end). -/
  cpu : List Nat
  irqCpu : Nat
  blockBase : Word
  irqInvalid : List Word
  hostDeny : List Word
deriving DecidableEq, Repr, Inhabited

/-- R7's default column. `BLOCK_BASE` has no default there; 0 is the model's (DESIGN CHOICE, log 4). -/
def Params.default : Params where
  capMax := 256
  rxfDepth := 16
  txfDepth := 4
  rxThresh := 1
  txThresh := 3
  ncpu := 2
  nthread := 2
  cpu := [0, 1]
  irqCpu := 0
  blockBase := 0
  irqInvalid := [0]
  hostDeny := []

/-- One command of an agent's program: an `ARG0` value, an `ARG1` value and a `CMD` word (10_state.md R36). -/
structure Line where
  arg0 : Word
  arg1 : Word
  cmd : Word
deriving DecidableEq, Repr, Inhabited

/-- What a register access does. -/
inductive AccessKind where
  /-- a load -/
  | read
  /-- a store of a word -/
  | write (v : Word)
deriving DecidableEq, Repr, Inhabited

/-- One access of an agent to the host address space: who makes it, at which address, how many bits wide
(20_memory.md R71, R75). -/
structure Access where
  port : PortId
  addr : Word
  width : Nat
  kind : AccessKind
deriving DecidableEq, Repr, Inhabited

/-- What may be taken next in a run (60_exceptions.md R301). An event that is not enabled changes nothing (log 2). -/
inductive Event where
  /-- the next step of port `p`'s agent: issue its next program command, a later step, or an interrupt-port entry -/
  | port (p : PortId)
  /-- the spurious wake of port `p` (42_lock_wake.md R190) -/
  | spuriousWake (p : PortId)
  /-- one register access (20_memory.md R71 to R78) -/
  | access (a : Access)
  /-- a byte arrives from the line (46_environment.md R261) -/
  | lineRx (b : Byte)
  /-- the receive-timeout source becomes pending (R262) -/
  | lineRxTimeout
  /-- the device shifts a byte out (R263) -/
  | lineTx
  /-- the interrupt controller delivers the interrupt (R266) -/
  | deliver
  /-- the platform changes a byte of host memory (R85, R334) -/
  | hostStore (a : Word) (b : Byte)
  /-- the reset event (70_reset_and_hazards.md R320) -/
  | reset
deriving DecidableEq, Repr, Inhabited

/-- Which event the run takes at its `n`-th step when the schedule in State has none left: any event at all
(R301, R288). A free value: it has no body (log 1). -/
opaque Config.freeEvent : Nat → Event

/-- What the byte of host memory at an address holds where nothing has been placed: the parameter `HOSTMEM`
(R7, R73), for which the spec gives no contents. A free value: it has no body (log 6). -/
opaque Config.hostMem : Nat → Byte

end Sys2Proof
end

