-- ==== Sys2Proof/Syntax.lean ====
section
/-! DEFINITION. The twenty commands of the RBFC, one constructor for each row of the opcode table (30_encoding.md
R104), with the operands that stand in the command word (R103). Operands wider than a byte are in the issuing port's
`ARG0` and `ARG1`, so they are no part of the syntax (R107). -/

namespace Sys2Proof

/-- A command (R104). `w` is the wait or block flag, `n` the map-newline flag, `b` the byte operand (R103). -/
inductive Instr where
  /-- 0x10 `INIT_EARLY` (R241) -/
  | initEarly
  /-- 0x11 `INIT` (R244) -/
  | init
  /-- 0x12 `GETBYTE` (R162) -/
  | getbyte (w : Bool)
  /-- 0x13 `WRITE` (R202) -/
  | write (w n : Bool)
  /-- 0x14 `POLL_PUTC` (R233) -/
  | pollPutc (b : Byte)
  /-- 0x15 `POLL_GETC` (R235) -/
  | pollGetc
  /-- 0x16 `ENTER_FAIL` (R231) -/
  | enterFail
  /-- 0x20 `RB_INIT` (R143) -/
  | rbInit
  /-- 0x21 `RB_PUSH` (R145) -/
  | rbPush (b : Byte)
  /-- 0x22 `RB_POP` (R147) -/
  | rbPop (w : Bool)
  /-- 0x30 `LOCK_ACQ` (R180) -/
  | lockAcq
  /-- 0x31 `LOCK_REL` (R182) -/
  | lockRel
  /-- 0x32 `WAKE_SIGNAL` (R184) -/
  | wakeSignal
  /-- 0x33 `WAKE_WAIT` (R186) -/
  | wakeWait
  /-- 0x34 `YIELD` (R189) -/
  | yield
  /-- 0x40 `RX_MASK` (R163) -/
  | rxMask
  /-- 0x41 `RX_UNMASK` (R164) -/
  | rxUnmask
  /-- 0x42 `TX_MASK` (R210) -/
  | txMask
  /-- 0x43 `TX_UNMASK` (R211) -/
  | txUnmask
  /-- 0x50 `IRQ_DISPATCH` (R246) -/
  | irqDispatch
deriving DecidableEq, Repr, Inhabited

end Sys2Proof
end

