-- ==== Sys2Proof/WellFormed.lean ====
section
/-! DEFINITION. What is well formed: parameters that meet the constraints of 00_scope.md R7, a command on a port
of a kind its table row lists (30_encoding.md R104), a program short enough for its 32-bit index (10_state.md R36). -/

namespace Sys2Proof

/-- The two kinds of command port (10_state.md R33). -/
inductive PortKind where
  /-- a thread port, kind T -/
  | thread
  /-- the interrupt port, kind I -/
  | interrupt
deriving DecidableEq, Repr

/-- The port kinds of the opcode table's column "ports" (30_encoding.md R104): T, I, or both. -/
def Instr.ports : Instr → List PortKind
  | .initEarly | .init | .getbyte _ | .write _ _ | .pollPutc _ | .pollGetc | .rbInit | .rbPop _ | .lockAcq |
    .lockRel | .wakeWait | .yield => [.thread]
  | .enterFail | .wakeSignal | .rxMask | .rxUnmask | .txMask | .txUnmask => [.thread, .interrupt]
  | .rbPush _ | .irqDispatch => [.interrupt]

/-- A command is well placed on a port of a kind that its row lists (R104, R114). Its operands need no check: the
constructors' types hold each to the width of its field. -/
def Instr.wellPlaced (k : PortKind) (i : Instr) : Bool := i.ports.contains k

/-- The constraints of R7's table, in the table's order; `IRQ_LINE_VALID`, `HOSTMEM_OK` and `HOSTMEM` have none. -/
def Params.wf (c : Params) : Bool :=
  decide (1 ≤ c.capMax) && decide (1 ≤ c.rxfDepth) && decide (1 ≤ c.txfDepth)
    && (decide (1 ≤ c.rxThresh) && decide (c.rxThresh ≤ c.rxfDepth))
    && decide (c.txThresh < c.txfDepth)
    && decide (1 ≤ c.ncpu)
    && (decide (1 ≤ c.nthread) && decide (c.nthread ≤ 7))
    && (decide (c.cpu.length = c.nthread) && c.cpu.all fun k => decide (k < c.ncpu))
    && decide (c.irqCpu < c.ncpu)
    && decide (c.blockBase.toNat % 512 = 0)

/-- A program is a list of fewer than 2^32 commands (R36): the check of its length. -/
def programLengthOk (n : Nat) : Bool := decide (n < 2 ^ 32)

/-- The word of `IRQ_DISPATCH` (30_encoding.md R104, R119), which only the interrupt controller issues on the
interrupt port, by its delivery (46_environment.md R260, R266). -/
abbrev dispatchWord : Word := 0x00000050#32

/-- A program an agent on a port of kind `k` may have: short enough (R36), and on the interrupt port a program of the
commands other than `IRQ_DISPATCH` (46_environment.md R269). -/
def programOk (k : PortKind) (prog : List Line) : Bool :=
  programLengthOk prog.length
    && (decide (k = .thread) || prog.all fun l => decide (l.cmd ≠ dispatchWord))

end Sys2Proof
end

