-- ==== Sys2Proof/Decode.lean ====
section
/-! DEFINITION. The command word: field extraction, the total decoder of 30_encoding.md R113 (it refuses an illegal
word by naming what is wrong with it), the encoder, which port kind accepts which command (R114), and the opcode
table's masks and matches. -/

namespace Sys2Proof

/-- `OPC = w[7:0]` (R100). -/
def fieldOpc (w : Word) : Byte := w.extractLsb' 0 8

/-- `IMM8 = w[15:8]` (R100, R102). -/
def fieldImm8 (w : Word) : Byte := w.extractLsb' 8 8

/-- `W = w[16]` (R100, R102). -/
def fieldW (w : Word) : Bool := w.getLsbD 16

/-- `N = w[17]` (R100, R102). -/
def fieldN (w : Word) : Bool := w.getLsbD 17

/-- `RES = w[31:18]` (R100). -/
def fieldRes (w : Word) : BitVec 14 := w.extractLsb' 18 14

/-- The opcode of each command (R104). -/
def Instr.opcode : Instr → Byte
  | .initEarly => 0x10#8
  | .init => 0x11#8
  | .getbyte _ => 0x12#8
  | .write _ _ => 0x13#8
  | .pollPutc _ => 0x14#8
  | .pollGetc => 0x15#8
  | .enterFail => 0x16#8
  | .rbInit => 0x20#8
  | .rbPush _ => 0x21#8
  | .rbPop _ => 0x22#8
  | .lockAcq => 0x30#8
  | .lockRel => 0x31#8
  | .wakeSignal => 0x32#8
  | .wakeWait => 0x33#8
  | .yield => 0x34#8
  | .rxMask => 0x40#8
  | .rxUnmask => 0x41#8
  | .txMask => 0x42#8
  | .txUnmask => 0x43#8
  | .irqDispatch => 0x50#8

/-- The command an opcode names, given the operand fields (R104, R103); none for a reserved opcode (R105). -/
def byOpcode (opc imm8 : Byte) (w n : Bool) : Option Instr :=
  if opc = 0x10#8 then some .initEarly
  else if opc = 0x11#8 then some .init
  else if opc = 0x12#8 then some (.getbyte w)
  else if opc = 0x13#8 then some (.write w n)
  else if opc = 0x14#8 then some (.pollPutc imm8)
  else if opc = 0x15#8 then some .pollGetc
  else if opc = 0x16#8 then some .enterFail
  else if opc = 0x20#8 then some .rbInit
  else if opc = 0x21#8 then some (.rbPush imm8)
  else if opc = 0x22#8 then some (.rbPop w)
  else if opc = 0x30#8 then some .lockAcq
  else if opc = 0x31#8 then some .lockRel
  else if opc = 0x32#8 then some .wakeSignal
  else if opc = 0x33#8 then some .wakeWait
  else if opc = 0x34#8 then some .yield
  else if opc = 0x40#8 then some .rxMask
  else if opc = 0x41#8 then some .rxUnmask
  else if opc = 0x42#8 then some .txMask
  else if opc = 0x43#8 then some .txUnmask
  else if opc = 0x50#8 then some .irqDispatch
  else none

/-- Which opcodes leave `IMM8` free (R103, R113). -/
def usesImm8 (opc : Byte) : Bool := decide (opc = 0x14#8) || decide (opc = 0x21#8)

/-- Which opcodes leave `W` free (R103, R113). -/
def usesW (opc : Byte) : Bool := decide (opc = 0x12#8) || decide (opc = 0x13#8) || decide (opc = 0x22#8)

/-- Which opcodes leave `N` free (R103, R113). -/
def usesN (opc : Byte) : Bool := decide (opc = 0x13#8)

/-- Why a word is illegal: the checks of R113, in its order. -/
inductive Illegal where
  /-- a reserved opcode (R105) -/
  | reservedOpcode
  /-- a nonzero `RES` field (R106) -/
  | reservedBits
  /-- a nonzero `IMM8` where the command has none (R106) -/
  | strayImm8
  /-- `W` set where the command has none (R106) -/
  | strayW
  /-- `N` set where the command has none (R106) -/
  | strayN
deriving DecidableEq, Repr

/-- `decode(w)` of R113, with the name of the check that fails. -/
def decodeOrName (w : Word) : Except Illegal Instr :=
  match byOpcode (fieldOpc w) (fieldImm8 w) (fieldW w) (fieldN w) with
  | none => .error .reservedOpcode
  | some i =>
    if fieldRes w ≠ 0#14 then .error .reservedBits
    else if fieldImm8 w ≠ 0#8 ∧ usesImm8 (fieldOpc w) = false then .error .strayImm8
    else if fieldW w = true ∧ usesW (fieldOpc w) = false then .error .strayW
    else if fieldN w = true ∧ usesN (fieldOpc w) = false then .error .strayN
    else .ok i

/-- `decode(w)` of R113: total on every 32-bit word; none is ILLEGAL. -/
def decode (w : Word) : Option Instr :=
  match decodeOrName w with
  | .ok i => some i
  | .error _ => none

/-- A 32-bit register word from its four bytes, byte 0 first: little-endian (20_memory.md R74). -/
def wordOfBytes (b0 b1 b2 b3 : Byte) : Word := b3 ++ b2 ++ b1 ++ b0

/-- Byte `k` of a register word: bits `8k+7 : 8k` (R74). -/
def byteOfWord (w : Word) (k : Nat) : Byte := w.extractLsb' (8 * k) 8

/-- What the decoder reads from the table's number for an instruction: its `nbits` bits, the bits above them zero,
laid out as the four bytes of the `CMD` register and read back. -/
def decodeTableWord (nbits w : Nat) : Option Instr :=
  let v : Word := BitVec.ofNat 32 (w % 2 ^ nbits)
  decode (wordOfBytes (byteOfWord v 0) (byteOfWord v 1) (byteOfWord v 2) (byteOfWord v 3))

/-- A command word from its fields, `RES` zero (R100). -/
def packWord (opc imm8 : Byte) (w n : Bool) : Word :=
  0#14 ++ BitVec.ofBool n ++ BitVec.ofBool w ++ imm8 ++ opc

/-- The byte operand of a command, 0 where it has none (R103). -/
def Instr.imm8 : Instr → Byte
  | .pollPutc b => b
  | .rbPush b => b
  | .initEarly | .init | .getbyte _ | .write _ _ | .pollGetc | .enterFail | .rbInit | .rbPop _ | .lockAcq |
    .lockRel | .wakeSignal | .wakeWait | .yield | .rxMask | .rxUnmask | .txMask | .txUnmask | .irqDispatch => 0#8

/-- The `W` flag of a command, 0 where it has none (R103). -/
def Instr.flagW : Instr → Bool
  | .getbyte w => w
  | .write w _ => w
  | .rbPop w => w
  | .initEarly | .init | .pollPutc _ | .pollGetc | .enterFail | .rbInit | .rbPush _ | .lockAcq | .lockRel |
    .wakeSignal | .wakeWait | .yield | .rxMask | .rxUnmask | .txMask | .txUnmask | .irqDispatch => false

/-- The `N` flag of a command, 0 where it has none (R103). -/
def Instr.flagN : Instr → Bool
  | .write _ n => n
  | .initEarly | .init | .getbyte _ | .pollPutc _ | .pollGetc | .enterFail | .rbInit | .rbPush _ | .rbPop _ |
    .lockAcq | .lockRel | .wakeSignal | .wakeWait | .yield | .rxMask | .rxUnmask | .txMask | .txUnmask |
    .irqDispatch => false

/-- The command word of a command (R100, R103, R104). -/
def encode (i : Instr) : Word := packWord i.opcode i.imm8 i.flagW i.flagN

/-- Whether a command reads `ARG0` (R103). -/
def Instr.readsArg0 : Instr → Bool
  | .initEarly | .init | .write _ _ | .rbInit => true
  | .getbyte _ | .pollPutc _ | .pollGetc | .enterFail | .rbPush _ | .rbPop _ | .lockAcq | .lockRel |
    .wakeSignal | .wakeWait | .yield | .rxMask | .rxUnmask | .txMask | .txUnmask | .irqDispatch => false

/-- Whether a command reads `ARG1` (R103). -/
def Instr.readsArg1 : Instr → Bool
  | .initEarly | .init | .write _ _ => true
  | .getbyte _ | .pollPutc _ | .pollGetc | .enterFail | .rbInit | .rbPush _ | .rbPop _ | .lockAcq | .lockRel |
    .wakeSignal | .wakeWait | .yield | .rxMask | .rxUnmask | .txMask | .txUnmask | .irqDispatch => false

/-- `allowed(kind, opc)` of 30_encoding.md R114: which port kind accepts which command. -/
def allowed : PortKind → Instr → Bool
  | .thread, i =>
    match i with
    | .rbPush _ | .irqDispatch => false
    | .initEarly | .init | .getbyte _ | .write _ _ | .pollPutc _ | .pollGetc | .enterFail | .rbInit | .rbPop _ |
      .lockAcq | .lockRel | .wakeSignal | .wakeWait | .yield | .rxMask | .rxUnmask | .txMask | .txUnmask => true
  | .interrupt, i =>
    match i with
    | .irqDispatch | .rbPush _ | .wakeSignal | .rxMask | .rxUnmask | .txMask | .txUnmask | .enterFail => true
    | .initEarly | .init | .getbyte _ | .write _ _ | .pollPutc _ | .pollGetc | .rbInit | .rbPop _ | .lockAcq |
      .lockRel | .wakeWait | .yield => false

/-- The masks and matches of the opcode table, in its order (R113: `w` decodes to the row for which
`w & mask = match`). -/
def opcodeRows : List (Word × Word) :=
  [(0xFFFFFFFF#32, 0x10#32), (0xFFFFFFFF#32, 0x11#32), (0xFFFEFFFF#32, 0x12#32), (0xFFFCFFFF#32, 0x13#32),
   (0xFFFF00FF#32, 0x14#32), (0xFFFFFFFF#32, 0x15#32), (0xFFFFFFFF#32, 0x16#32), (0xFFFFFFFF#32, 0x20#32),
   (0xFFFF00FF#32, 0x21#32), (0xFFFEFFFF#32, 0x22#32), (0xFFFFFFFF#32, 0x30#32), (0xFFFFFFFF#32, 0x31#32),
   (0xFFFFFFFF#32, 0x32#32), (0xFFFFFFFF#32, 0x33#32), (0xFFFFFFFF#32, 0x34#32), (0xFFFFFFFF#32, 0x40#32),
   (0xFFFFFFFF#32, 0x41#32), (0xFFFFFFFF#32, 0x42#32), (0xFFFFFFFF#32, 0x43#32), (0xFFFFFFFF#32, 0x50#32)]

end Sys2Proof
end

