-- ==== Sys2Proof/Machine/State.lean ====
section
/-! DEFINITION. The architectural state of the RBFC (10_state.md), as plain data, its reset value (R52), and the
reasons for which a step of the model can stop. -/

namespace Sys2Proof.Machine

/-- Why the machine stops with a fault. The RBFC's own faults are no stops: they are recorded in `S.FAULT` and taken
as next states (60_exceptions.md R282). -/
inductive Fault where
  /-- Raised by `step` when the parameters break a constraint of 00_scope.md R7, which the platform "must settle
  before any rule holds" (70_reset_and_hazards.md R323). Safe (log 15). -/
  | badParams
deriving DecidableEq, Repr

/-- Why the model gives a step no meaning. -/
inductive Refusal where
  /-- Raised by an arm of `exec` for an instruction that has no meaning yet (no arm does). Safe. -/
  | notModelled (mnemonic : String)
  /-- Raised by a register access whose address is outside the block's window: "not an access to the RBFC and this
  spec says nothing of it" (20_memory.md R71). Safe (log 11). -/
  | outsideWindow
deriving DecidableEq, Repr

/-- The RBFC's fault codes, by name (60_exceptions.md R281). -/
inductive FaultCode where
  /-- invalid device base or interrupt line, or reserved configuration bits set; `INIT_EARLY`, `INIT` -/
  | configError
  /-- `INIT_EARLY` a second time, or `INIT` before `INIT_EARLY` -/
  | initOrder
  /-- the RingBuffer initialized a second time -/
  | rbReinit
  /-- capacity 0 -/
  | rbZeroCap
  /-- capacity above `CAP_MAX` -/
  | allocFailure
  /-- push into a full RingBuffer -/
  | rbPushFull
  /-- a command before the initialization it needs -/
  | notInit
  /-- a polling command while `S.FAILURE_MODE = 0` -/
  | pollOutsideFailure
  /-- an opcode the port's kind does not accept -/
  | contextViolation
  /-- the lock acquired twice, released by a non-holder, or a holder that would lock or suspend -/
  | lockMisuse
  /-- a word that decodes to ILLEGAL -/
  | illegalEncoding
  /-- `CMD` written while the port is busy -/
  | portBusy
  /-- a register access the window does not admit -/
  | busError
  /-- a second consumer command while one is in progress on another port -/
  | consumerConflict
deriving DecidableEq, Repr

/-- A command port's registers (10_state.md R33, R34). -/
structure Port where
  arg0 : Word := 0
  arg1 : Word := 0
  result : Word := 0
  opc : Byte := 0
  phase : Byte := 0
deriving DecidableEq, Repr, Inhabited

/-- An agent's transaction registers (10_state.md R35) and, the model's own, its program (R36, log 8). -/
structure Agent where
  src : Word := 0
  len : Word := 0
  idx : Word := 0
  blk : Bool := false
  nl : Bool := false
  crp : Bool := false
  out : Byte := 0
  wt : Bool := false
  data : Byte := 0
  byte : Byte := 0
  savedIe : Bool := false
  entryIe : Bool := false
  pc : Word := 0
  prog : List Line := []
deriving DecidableEq, Repr, Inhabited

/-- `S.IMASK`: 1 is masked (10_state.md R27). -/
structure IntMask where
  rxrdyM : Bool
  rxtoM : Bool
  txrdyM : Bool
deriving DecidableEq, Repr

/-- `S.FAULT` (10_state.md R39). `code = 0` is "no fault". -/
structure FaultRecord where
  code : Byte := 0
  opc : Byte := 0
  port : PortId := 0
  offset : BitVec 12 := 0
deriving DecidableEq, Repr

/-- A sparse byte memory: pairs of an address and a byte. -/
abbrev Memory := List Host.Cell

/-- The state of the machine: every element of 10_state.md R20, then the model's own fields. -/
structure State where
  /-- `S.EARLY_DONE` (R21) -/
  earlyDone : Bool
  /-- `S.INIT_DONE` (R21) -/
  initDone : Bool
  /-- `S.RB_INIT_DONE` (R21) -/
  rbInitDone : Bool
  /-- `S.MMIOBASE` (R22) -/
  mmioBase : Word
  /-- `S.IRQLINE` (R22) -/
  irqLine : Word
  /-- `S.TX_IRQ_EN` (R23) -/
  txIrqEn : Bool
  /-- `S.FAILURE_MODE` (R24) -/
  failureMode : Bool
  /-- `S.STORE` (R25): slot and byte; a slot that is not listed holds 0 (log 7) -/
  store : Memory
  /-- `S.CAP` (R25) -/
  cap : Nat
  /-- `S.RD` (R25) -/
  rd : Nat
  /-- `S.WR` (R25) -/
  wr : Nat
  /-- `S.IMASK` (R27) -/
  imask : IntMask
  /-- `S.rxf` (R28), oldest first -/
  rxf : List Byte
  /-- `S.txf` (R28), oldest first -/
  txf : List Byte
  /-- `S.RXTO_P` (R28) -/
  rxtoP : Bool
  /-- `S.LOCK_HELD` (R30) -/
  lockHeld : Bool
  /-- `S.LOCK_OWNER` (R30) -/
  lockOwner : PortId
  /-- `S.IE` (R31): core and bit; a core that is not listed has the bit 1, its reset value (log 14) -/
  ieBits : List (Nat × Bool)
  /-- `S.WAKE_PEND` (R32) -/
  wakePend : Bool
  /-- `S.WAITCNT` (R38) -/
  waitCnt : Word
  /-- `S.FULLCNT` (R38) -/
  fullCnt : Word
  /-- `S.FAULT` (R39) -/
  fault : FaultRecord
  /-- `S.RX_IN` (R40) -/
  rxIn : List Byte
  /-- `S.RX_OUT` (R40) -/
  rxOut : List Byte
  /-- `S.TX_LOG` (R40) -/
  txLog : List Byte
  /-- `S.LINE_OUT` (R40) -/
  lineOut : List Byte
  /-- `P[p]` (R33, R34); ports above `NTHREAD` do not exist (log 13) -/
  ports : Vector Port 8
  /-- `A[p]` (R35) -/
  agents : Vector Agent 8
  /-- the parameters of R7 (log 4) -/
  params : Params
  /-- host memory (20_memory.md R73), over the free value `Config.hostMem` (log 6) -/
  mem : Memory
  /-- how many commands `IC_DELIVER` has put on the interrupt port since reset (log 9) -/
  delivered : Word
  /-- the events the run takes next (R301, log 1) -/
  sched : List Event
  /-- how many steps the run has taken; the free value `Config.freeEvent` is applied to it (log 1) -/
  tick : Nat
  /-- the port whose agent acts (log 10) -/
  cur : PortId
  /-- the word the last register read returned (log 10) -/
  busData : Word
deriving DecidableEq, Repr

/-- The machine right after reset (10_state.md R52, 70_reset_and_hazards.md R320). The storage and the model's own
fields hold the values logs 1, 4, 6, 7, 8, 9 and 10 name. -/
def State.reset : State where
  earlyDone := false
  initDone := false
  rbInitDone := false
  mmioBase := 0
  irqLine := 0
  txIrqEn := false
  failureMode := false
  store := []
  cap := 0
  rd := 0
  wr := 0
  imask := ⟨true, true, true⟩
  rxf := []
  txf := []
  rxtoP := false
  lockHeld := false
  lockOwner := 0
  ieBits := []
  wakePend := false
  waitCnt := 0
  fullCnt := 0
  fault := {}
  rxIn := []
  rxOut := []
  txLog := []
  lineOut := []
  ports := Vector.replicate 8 {}
  agents := Vector.replicate 8 {}
  params := Params.default
  mem := []
  delivered := 0
  sched := []
  tick := 0
  cur := 0
  busData := 0

end Sys2Proof.Machine
end

