-- ==== Sys2Proof/Machine/Operands.lean ====
section
/-! DEFINITION. The encodings a command reads and writes besides its own word: the step codes (10_state.md R34), the
`RESULT` values (R51), the fault codes' numbers (60_exceptions.md R281), the operands a line carries (30_encoding.md
R103, R117) and the byte choice of the newline mapping (43_txpath.md R203). -/

namespace Sys2Proof.Machine

/-- The step codes of R34. `iPend` is the code of an interrupt-port command that has not entered. -/
abbrev Phase.idle : Byte := 0#8
abbrev Phase.gPop : Byte := 1#8
abbrev Phase.gLock : Byte := 2#8
abbrev Phase.gUnmask : Byte := 3#8
abbrev Phase.wSelect : Byte := 1#8
abbrev Phase.wLock : Byte := 2#8
abbrev Phase.wCheck : Byte := 3#8
abbrev Phase.wWait : Byte := 4#8
abbrev Phase.wYield : Byte := 5#8
abbrev Phase.qSpin : Byte := 1#8
abbrev Phase.pPop : Byte := 1#8
abbrev Phase.lSpin : Byte := 1#8
abbrev Phase.kWait : Byte := 1#8
abbrev Phase.iPend : Byte := 0x0F#8
abbrev Phase.iLock : Byte := 1#8
abbrev Phase.iRxsel : Byte := 2#8
abbrev Phase.iDrain : Byte := 3#8
abbrev Phase.iRxend : Byte := 4#8
abbrev Phase.iTx : Byte := 5#8
abbrev Phase.iExit : Byte := 6#8

/-- `DONE`, bit 10 of `RESULT` (R51). -/
def doneBit : Word := 0x400#32

/-- `BYTE(b)` (R51): `VALID` with the byte. -/
def resByte (b : Byte) : Word := b.setWidth 32 ||| 0x100#32

/-- `EMPTYRES` (R51): the explicit empty result. -/
def resEmpty : Word := 0x200#32

/-- `NONE` (R51). -/
def resNone : Word := 0#32

/-- The number of a fault code (R281). -/
def FaultCode.toByte : FaultCode → Byte
  | .configError => 0x01#8
  | .initOrder => 0x02#8
  | .rbReinit => 0x03#8
  | .rbZeroCap => 0x04#8
  | .allocFailure => 0x05#8
  | .rbPushFull => 0x06#8
  | .notInit => 0x07#8
  | .pollOutsideFailure => 0x08#8
  | .contextViolation => 0x09#8
  | .lockMisuse => 0x0A#8
  | .illegalEncoding => 0x0B#8
  | .portBusy => 0x0C#8
  | .busError => 0x0D#8
  | .consumerConflict => 0x0E#8

/-- The `OPC` a `BUS_ERROR` records (R39, R281). -/
def busErrorOpc : Byte := 0xFF#8

/-- `TX_IRQ_USE`, bit 0 of `INIT`'s `ARG1` (00_scope.md R8, 45_lifecycle_dispatch.md R244). -/
def cfgTxIrqUse (arg1 : Word) : Bool := arg1.getLsbD 0

/-- Whether `INIT`'s `ARG1[31:1]` is nonzero (R244). -/
def cfgReserved (arg1 : Word) : Bool := decide (arg1.extractLsb' 1 31 ≠ 0#31)

/-- `'\n'` and `'\r'` (00_scope.md R9). -/
def byteLf : Byte := 0x0A#8
def byteCr : Byte := 0x0D#8

/-- The choice of `W_SELECT` (43_txpath.md R203) for the input byte `c`, with the map-newline flag and the one-shot
"CR pending" flag: whether a CR is injected before the byte. -/
def injectsCr (nl crp : Bool) (c : Byte) : Bool := nl && decide (c = byteLf) && !crp

/-- The command in progress whose opcode is `opc`, with its operands read back from the agent's transaction
registers (10_state.md R35). -/
def commandOf (opc : Byte) (a : Agent) : Option Instr :=
  byOpcode opc a.byte (if opc = 0x13#8 then a.blk else a.wt) a.nl

end Sys2Proof.Machine
end

