-- ==== Sys2Proof/Machine/Flags.lean ====
section
/-! DEFINITION. Everything derived from the state and never stored: the sparse lookup, the registers of a port, the
RingBuffer's count, EMPTY, FULL and slot (10_state.md R26), the interrupt levels and the line (R29), who holds the
lock (42_lock_wake.md R188), who may step (60_exceptions.md R302), and the words of the register window
(R42 to R51). -/

namespace Sys2Proof.Machine

/-- What a sparse list of pairs holds at a key: its first entry for the key, or the value `d` gives an unlisted
key. -/
def sparseGet {α : Type} (d : Nat → α) : List (Nat × α) → Nat → α
  | [], k => d k
  | (a, v) :: m, k => if k = a then v else sparseGet d m k

/-- The registers of port `p` (R33). -/
def State.port (s : State) (p : PortId) : Port := s.ports[p]

/-- The transaction registers of the agent on port `p` (R35). -/
def State.agent (s : State) (p : PortId) : Agent := s.agents[p]

/-- The interrupt port, `NTHREAD` (R33). -/
def State.intPort (s : State) : PortId := Fin.ofNat 8 s.params.nthread

/-- Whether port `p` exists: `0 .. NTHREAD` (R33). -/
def State.hasPort (s : State) (p : PortId) : Bool := decide (p.val ≤ s.params.nthread)

/-- The kind of port `p` (R33, 60_exceptions.md R295). -/
def State.kind (s : State) (p : PortId) : PortKind := if p = s.intPort then .interrupt else .thread

/-- `core(p)` of 42_lock_wake.md R181. -/
def State.core (s : State) (p : PortId) : Nat :=
  if p = s.intPort then s.params.irqCpu else s.params.cpu.getD p.val 0

/-- `S.IE[c]` (R31). A core whose bit has not been written since reset has it 1 (R52). -/
def State.ie (s : State) (c : Nat) : Bool := sparseGet (fun _ => true) s.ieBits c

/-- `BUSY(p)` (R34). -/
def State.busy (s : State) (p : PortId) : Bool := decide ((s.port p).phase ≠ Phase.idle)

/-- `FAULTED` (R39). -/
def State.faulted (s : State) : Bool := decide (s.fault.code ≠ 0#8)

/-- `count` (R26): the difference of the cursors modulo `2·CAP`, 0 when `CAP = 0`. -/
def State.count (s : State) : Nat :=
  if s.cap = 0 then 0 else (((s.wr : Int) - (s.rd : Int)) % ((2 * s.cap : Nat) : Int)).toNat

/-- `EMPTY` (R26). -/
def State.isEmpty (s : State) : Bool := decide (s.count = 0)

/-- `FULL` (R26). -/
def State.isFull (s : State) : Bool := s.rbInitDone && decide (s.count = s.cap)

/-- `slot(c)` (R26). -/
def State.slot (s : State) (c : Nat) : Nat := c % s.cap

/-- `inc(c)` (40_ringbuffer.md R141). -/
def State.inc (s : State) (c : Nat) : Nat := (c + 1) % (2 * s.cap)

/-- `S.STORE[i]`: a slot that nothing has written since power-on holds 0 (DESIGN CHOICE, log 7). -/
def State.stored (s : State) (i : Nat) : Byte := sparseGet (fun _ => 0#8) s.store i

/-- "the hardware transmit FIFO reports full" (R28, 43_txpath.md R205). -/
def State.txFull (s : State) : Bool := decide (s.txf.length = s.params.txfDepth)

/-- `RXRDY_P` (R29). -/
def State.rxrdyP (s : State) : Bool := decide (s.params.rxThresh ≤ s.rxf.length)

/-- `TXRDY_P` (R29). -/
def State.txrdyP (s : State) : Bool := decide (s.txf.length ≤ s.params.txThresh)

/-- `RXRDY_A` (R29). -/
def State.rxrdyA (s : State) : Bool := s.rxrdyP && !s.imask.rxrdyM

/-- `RXTO_A` (R29). -/
def State.rxtoA (s : State) : Bool := s.rxtoP && !s.imask.rxtoM

/-- `TXRDY_A` (R29). -/
def State.txrdyA (s : State) : Bool := s.txrdyP && !s.imask.txrdyM

/-- `RX_A` (R29). -/
def State.rxA (s : State) : Bool := s.rxrdyA || s.rxtoA

/-- `IRQ_OUT` (R29). -/
def State.irqOut (s : State) : Bool := s.initDone && (s.rxA || s.txrdyA)

/-- `holds_lock(p)` (42_lock_wake.md R188). -/
def State.holdsLock (s : State) (p : PortId) : Bool := s.lockHeld && decide (s.lockOwner = p)

/-- `consumer_active(q)` (40_ringbuffer.md R148): a `GETBYTE` or `RB_POP` is in progress. -/
def State.consumerActive (s : State) (q : PortId) : Bool :=
  decide ((s.port q).opc = 0x12#8) || decide ((s.port q).opc = 0x22#8)

/-- The port numbers `0 .. 7`. -/
def allPorts : List PortId := [0, 1, 2, 3, 4, 5, 6, 7]

/-- `consumer_active(q)` for some port `q ≠ p` (R148). -/
def State.consumerElsewhere (s : State) (p : PortId) : Bool :=
  allPorts.any fun q => decide (q ≠ p) && s.hasPort q && s.consumerActive q

/-- "the interrupt port is entered" (60_exceptions.md R302). -/
def State.irqEntered (s : State) : Bool :=
  s.busy s.intPort && decide ((s.port s.intPort).phase ≠ Phase.iPend)

/-- Whether port `p`'s agent may step: the port exists and, for a thread port, the same-core exclusion of R302
does not bar it. -/
def State.mayStep (s : State) (p : PortId) : Bool :=
  s.hasPort p &&
    match s.kind p with
    | .interrupt => true
    | .thread =>
      !(s.irqEntered && decide (s.core p = s.params.irqCpu))
        && !(s.lockHeld && decide (s.kind s.lockOwner = .thread) && decide (s.lockOwner ≠ p)
          && decide (s.core s.lockOwner = s.core p))

/-- `entry enabled` of 60_exceptions.md R290, for the interrupt port in phase `I_PEND`. -/
def State.entryEnabled (s : State) (p : PortId) : Bool :=
  decide (s.kind p = .interrupt) && s.ie s.params.irqCpu && !s.faulted

/-- `IRQ_LINE_VALID(n)` (00_scope.md R7). -/
def State.irqLineValid (s : State) (n : Word) : Bool := !s.params.irqInvalid.contains n

/-- `HOSTMEM_OK(a)` (R7, 20_memory.md R73). -/
def State.hostOk (s : State) (a : Word) : Bool := !s.params.hostDeny.contains a

/-- `MemRead(a, 1)` (R73): the byte placed at the address, else what the parameter `HOSTMEM` holds there. -/
def State.hostByte (s : State) (a : Word) : Byte := sparseGet Config.hostMem s.mem a.toNat

/-- Bit `n` of a register word, from a flag. -/
def bitAt (b : Bool) (n : Nat) : Word := if b then 1#32 <<< n else 0#32

/-- `STATUS` (10_state.md R42). -/
def State.statusWord (s : State) : Word :=
  bitAt s.earlyDone 0 ||| bitAt s.initDone 1 ||| bitAt s.rbInitDone 2 ||| bitAt s.txIrqEn 3
    ||| bitAt s.failureMode 4 ||| bitAt s.isEmpty 5 ||| bitAt s.isFull 6 ||| bitAt s.lockHeld 7
    ||| (BitVec.ofNat 32 s.lockOwner.val <<< 8) ||| bitAt s.wakePend 11 ||| bitAt s.irqOut 12
    ||| bitAt s.faulted 13

/-- `IMASK` (R43). -/
def State.imaskWord (s : State) : Word :=
  bitAt s.imask.rxrdyM 0 ||| bitAt s.imask.rxtoM 1 ||| bitAt s.imask.txrdyM 2

/-- `IPEND` (R44). -/
def State.ipendWord (s : State) : Word :=
  bitAt s.rxrdyP 0 ||| bitAt s.rxtoP 1 ||| bitAt s.txrdyP 2
    ||| bitAt s.rxrdyA 4 ||| bitAt s.rxtoA 5 ||| bitAt s.txrdyA 6

/-- `FAULT` (R46): `OFFSET` in 31:20, bit 19 zero, `PORT` in 18:16, `OPC` in 15:8, `CODE` in 7:0. -/
def State.faultWord (s : State) : Word :=
  s.fault.offset ++ 0#1 ++ BitVec.ofNat 3 s.fault.port.val ++ s.fault.opc ++ s.fault.code

/-- `FIFOLVL` (R48): the receive level in 15:0, the transmit level in 31:16. -/
def State.fifoWord (s : State) : Word := BitVec.ofNat 16 s.txf.length ++ BitVec.ofNat 16 s.rxf.length

/-- `PSTATE` of port `p` (R50). -/
def State.pstateWord (s : State) (p : PortId) : Word :=
  ((s.port p).opc ++ (s.port p).phase).setWidth 32 ||| bitAt (s.busy p) 16
    ||| bitAt (decide (s.kind p = .interrupt)) 17 ||| bitAt (s.holdsLock p) 18

/-- What a read of the window at offset `o` returns (R41 to R51); none where no register of that offset can be read:
a reserved offset, or a port's `CMD` (20_memory.md R76). -/
def State.windowRead (s : State) (o : Nat) : Option Word :=
  if o = 0x000 then some s.statusWord
  else if o = 0x004 then some s.imaskWord
  else if o = 0x008 then some s.ipendWord
  else if o = 0x00C then some (BitVec.ofNat 32 s.cap)
  else if o = 0x010 then some (BitVec.ofNat 32 s.rd)
  else if o = 0x014 then some (BitVec.ofNat 32 s.wr)
  else if o = 0x018 then some s.faultWord
  else if o = 0x01C then some s.waitCnt
  else if o = 0x020 then some s.fullCnt
  else if o = 0x024 then some s.mmioBase
  else if o = 0x028 then some s.irqLine
  else if o = 0x02C then some s.fifoWord
  else if 0x100 ≤ o ∧ o < 0x100 + 0x20 * (s.params.nthread + 1) then
    let p : PortId := Fin.ofNat 8 ((o - 0x100) / 0x20)
    let k := (o - 0x100) % 0x20
    if k = 0x04 then some (s.port p).arg0
    else if k = 0x08 then some (s.port p).arg1
    else if k = 0x0C then some (s.port p).result
    else if k = 0x10 then some (s.pstateWord p)
    else none
  else none

end Sys2Proof.Machine
end

