-- ==== Sys2Proof/Machine/Ops.lean ====
section
/-! DEFINITION. The named operations the meanings are made of: sparse memory, the port and agent registers, `done`
and `goto` (10_state.md R33, R34), raising a fault (60_exceptions.md R282), the lock (42_lock_wake.md R181, R183),
the wake signal (R185, R187), the RingBuffer primitives (40_ringbuffer.md R142, R145, R149), the device FIFOs,
interrupt entry and return (R291, R292), and the shape every command has: issue, entry, later steps
(30_encoding.md R101, R115). -/

namespace Sys2Proof.Machine

/-! ### Sparse memory -/

/-- The list without its entries for the key `k`. -/
def sparseErase {α : Type} (k : Nat) (m : List (Nat × α)) : List (Nat × α) := m.filter fun e => decide (e.1 ≠ k)

/-- The list with an entry put before the first greater key. -/
def sparseInsert {α : Type} (k : Nat) (v : α) : List (Nat × α) → List (Nat × α)
  | [] => [(k, v)]
  | (a, w) :: m => if k < a then (k, v) :: (a, w) :: m else (a, w) :: sparseInsert k v m

/-- The list after a write of `v` at `k`. A value an unlisted key already has is not listed. -/
def sparsePut {α : Type} [DecidableEq α] (d : Nat → α) (k : Nat) (v : α) (m : List (Nat × α)) : List (Nat × α) :=
  if v = d k then sparseErase k m else sparseInsert k v (sparseErase k m)

/-- The canonical form: keys strictly rising, and no entry equal to what its key has unlisted. -/
def sparseWf {α : Type} [DecidableEq α] (d : Nat → α) : List (Nat × α) → Bool
  | [] => true
  | (a, v) :: m => decide (v ≠ d a) && m.all (fun e => decide (a < e.1)) && sparseWf d m

/-- A byte of host memory (20_memory.md R73). -/
def Memory.read (m : Memory) (a : Nat) : Byte := sparseGet Config.hostMem m a

/-- Host memory after the platform changes a byte of it (R85). -/
def Memory.write (m : Memory) (a : Nat) (b : Byte) : Memory := sparsePut Config.hostMem a b m

/-- Host memory has its canonical form. -/
def Memory.wf (m : Memory) : Bool := sparseWf Config.hostMem m

/-! ### Registers -/

/-- The state with port `p`'s registers replaced. -/
def State.setPort (s : State) (p : PortId) (x : Port) : State := { s with ports := s.ports.set p x }

/-- The state with agent `p`'s transaction registers replaced. -/
def State.setAgent (s : State) (p : PortId) (x : Agent) : State := { s with agents := s.agents.set p x }

/-- The state with `S.IE[c]` written (R31). -/
def State.setIe (s : State) (c : Nat) (b : Bool) : State :=
  { s with ieBits := sparsePut (fun _ => true) c b s.ieBits }

/-- The state with `S.LOCK_HELD` and `S.LOCK_OWNER` written (10_state.md R30). -/
def State.setLock (s : State) (held : Bool) (owner : PortId) : State :=
  { s with lockHeld := held, lockOwner := owner }

/-- `P[p].RESULT <- r`. -/
def State.setResult (s : State) (p : PortId) (r : Word) : State := s.setPort p { s.port p with result := r }

/-- `goto X`: the phase of port `p` becomes `ph` (00_scope.md R10). -/
def State.goto (s : State) (p : PortId) (ph : Byte) : State := s.setPort p { s.port p with phase := ph }

/-- `P[p].OPC <- opc; goto X`. -/
def State.begin (s : State) (p : PortId) (opc ph : Byte) : State :=
  s.setPort p { s.port p with opc := opc, phase := ph }

/-- `done(r)` (10_state.md R33). -/
def State.done (s : State) (p : PortId) (r : Word) : State :=
  (s.setPort p { s.port p with result := r ||| doneBit, opc := 0#8, phase := Phase.idle }).setAgent p
    { s.agent p with pc := (s.agent p).pc + 1#32 }

/-! ### Faults -/

/-- `raise Fault(code)` (60_exceptions.md R282): the fault is recorded, and no other write of the step takes
effect. `opc` and `offset` are what R281 records. -/
def State.raise (s : State) (p : PortId) (code : FaultCode) (opc : Byte) (offset : BitVec 12) : State :=
  { s with fault := { code := code.toByte, opc := opc, port := p, offset := offset } }

/-! ### Lock and wake signal -/

/-- The taking of the lock by port `p` (42_lock_wake.md R181), when it is free. -/
def State.takeLock (s : State) (p : PortId) : State :=
  ((s.setAgent p { s.agent p with savedIe := s.ie (s.core p) }).setIe (s.core p) false).setLock true p

/-- `acquire(p)` then `k` (R181): a hold while the lock is held. -/
def State.acquireThen (s : State) (p : PortId) (k : State → State) : State :=
  if s.lockHeld then s else k (s.takeLock p)

/-- `release(p)` (R183). -/
def State.release (s : State) (p : PortId) : State :=
  (s.setIe (s.core p) (s.agent p).savedIe).setLock false 0

/-- `Signal()` (R185). -/
def State.signal (s : State) : State := { s with wakePend := true }

/-- The wait step then `k` (R187): a hold while no wake is pending. -/
def State.waitThen (s : State) (k : State → State) : State :=
  if s.wakePend then k { s with wakePend := false } else s

/-- One more WakeSignal wait invocation (10_state.md R38). -/
def State.countWait (s : State) : State := { s with waitCnt := s.waitCnt + 1#32 }

/-- One more observation of a full transmit FIFO (R38). -/
def State.countFull (s : State) : State := { s with fullCnt := s.fullCnt + 1#32 }

/-! ### Interrupt masks -/

/-- Both receive sources masked (`true`) or unmasked: the pair is always written together (10_state.md R27). -/
def State.maskRx (s : State) (m : Bool) : State := { s with imask := { s.imask with rxrdyM := m, rxtoM := m } }

/-- The transmit-ready source masked or unmasked (R27). -/
def State.maskTx (s : State) (m : Bool) : State := { s with imask := { s.imask with txrdyM := m } }

/-! ### RingBuffer -/

/-- The checks of `RBInit(cap)`, in its order (40_ringbuffer.md R142). -/
def State.rbInitChecks (s : State) (cap : Word) : List (Bool × FaultCode) :=
  [(s.rbInitDone, .rbReinit), (decide (cap = 0#32), .rbZeroCap),
    (decide (s.params.capMax < cap.toNat), .allocFailure)]

/-- The writes of `RBInit(cap)` (R142). -/
def State.rbInit (s : State) (cap : Word) : State := { s with cap := cap.toNat, rd := 0, wr := 0, rbInitDone := true }

/-- `RBPush(b)` (R145): the byte and the cursor in one step (20_memory.md R78). -/
def State.rbPush (s : State) (b : Byte) : State :=
  { s with store := sparsePut (fun _ => 0#8) (s.slot s.wr) b s.store, wr := s.inc s.wr }

/-- The byte `RBPop()` returns (R149). -/
def State.rbHead (s : State) : Byte := s.stored (s.slot s.rd)

/-- The writes of `RBPop()` (R149). -/
def State.rbPop (s : State) : State := { s with rd := s.inc s.rd, rxOut := s.rxOut ++ [s.rbHead] }

/-! ### Device FIFOs -/

/-- The receive FIFO without its oldest byte; the step that empties it clears `S.RXTO_P` (10_state.md R28). -/
def State.rxfDrop (s : State) : State :=
  { s with rxf := s.rxf.tail, rxtoP := if s.rxf.tail.isEmpty then false else s.rxtoP }

/-- A byte placed into the transmit FIFO, and logged (43_txpath.md R205, 44_panic.md R233). -/
def State.txfPut (s : State) (b : Byte) : State := { s with txf := s.txf ++ [b], txLog := s.txLog ++ [b] }

/-! ### Interrupt entry and return -/

/-- What entry saves and changes (60_exceptions.md R291, 45_lifecycle_dispatch.md R247). -/
def State.irqEnter (s : State) (p : PortId) : State :=
  (s.setAgent p { s.agent p with entryIe := s.ie s.params.irqCpu }).setIe s.params.irqCpu false

/-- The return from the interrupt (R292, R253): the lock released, the interrupt enable restored. -/
def State.irqReturn (s : State) (p : PortId) : State :=
  (s.release p).setIe s.params.irqCpu (s.agent p).entryIe

/-! ### The shape of a command -/

/-- The first check of a list that fails: a command's checks are tried in the order its rule lists them
(60_exceptions.md R286). -/
def firstFailing : List (Bool × FaultCode) → Option FaultCode
  | [] => none
  | (bad, c) :: cs => if bad then some c else firstFailing cs

/-- The first step of a command on port `p` that is its own: the issue step of a thread-port command, the entry step
of an interrupt-port command. The checks come first and, if one fails, nothing else is written (60_exceptions.md R282,
R283). -/
def State.checked (s : State) (p : PortId) (opc : Byte) (check : Option FaultCode) (k : State → State)
    (t : State) : State :=
  match check with
  | some c => s.raise p c opc 0#12
  | none => k t

/-- One step of command `i` on the port whose agent acts.

* Halted: a hold (30_encoding.md R101).
* The port is idle: the issue of R101, after the word has been decoded. A command the port's kind does not accept
  raises `CONTEXT_VIOLATION` (R114). On the interrupt port the command is latched and waits in `I_PEND`; on a thread
  port its issue step is performed: `checks`, then `start`.
* The interrupt port is in `I_PEND`: the entry step (R115, 60_exceptions.md R290), when it is enabled: `checks`, then
  `start`.
* Otherwise the step `later` of the command in progress; a phase of no step of `i` is a hold (log 17).

`latch` is what the interrupt port copies at issue (R101). -/
def State.command (s : State) (i : Instr) (latch : Agent → Agent) (checks : List (Bool × FaultCode))
    (start : State → State) (later : Byte → State → State) : State :=
  let p := s.cur
  let x := s.port p
  if s.faulted then s
  else if x.phase = Phase.idle then
    if allowed (s.kind p) i = false then s.raise p .contextViolation i.opcode 0#12
    else
      match s.kind p with
      | .interrupt =>
        (s.setPort p { x with result := 0#32, opc := i.opcode, phase := Phase.iPend }).setAgent p (latch (s.agent p))
      | .thread => s.checked p i.opcode (firstFailing checks) start (s.setResult p 0#32)
  else if x.opc ≠ i.opcode then s
  else if x.phase = Phase.iPend then
    if s.entryEnabled p then s.checked p x.opc (firstFailing checks) start s else s
  else later x.phase s

/-- A command that has no step after its first (30_encoding.md R101, 45_lifecycle_dispatch.md R254). -/
def State.oneStep (s : State) (i : Instr) (latch : Agent → Agent) (checks : List (Bool × FaultCode))
    (start : State → State) : State :=
  s.command i latch checks start fun _ t => t

end Sys2Proof.Machine
end

