-- ==== Sys2Proof/Machine/Environment.lean ====
section
/-! DEFINITION. The steps that are not commands: the line agent (46_environment.md R261 to R263), the spurious wake
(42_lock_wake.md R190), the platform's change of host memory (20_memory.md R85) and the reset event
(70_reset_and_hazards.md R320). None but the last two is enabled while the block is halted (R260). -/

namespace Sys2Proof.Machine

/-- `E_RX(b)` (R261): an arrival that finds the receive FIFO full is lost. -/
def State.lineRx (s : State) (b : Byte) : State :=
  if s.faulted then s
  else if s.rxf.length < s.params.rxfDepth then { s with rxf := s.rxf ++ [b], rxIn := s.rxIn ++ [b] }
  else s

/-- `E_RXTO` (R262). -/
def State.lineRxTimeout (s : State) : State :=
  if s.faulted then s
  else if 0 < s.rxf.length ∧ s.rxtoP = false then { s with rxtoP := true }
  else s

/-- `E_TX` (R263). -/
def State.lineTx (s : State) : State :=
  if s.faulted then s
  else
    match s.txf with
    | [] => s
    | b :: rest => { s with txf := rest, lineOut := s.lineOut ++ [b] }

/-- The spurious wake of port `p` (R190), in `K_WAIT` or `W_WAIT`. It is a step of the thread, so the thread must be
able to step (60_exceptions.md R302, log 16). -/
def State.spuriousWake (s : State) (p : PortId) : State :=
  if s.faulted || !s.mayStep p || decide (s.kind p = .interrupt) then s
  else if (s.port p).opc = 0x33#8 ∧ (s.port p).phase = Phase.kWait then s.done p resNone
  else if (s.port p).opc = 0x13#8 ∧ (s.port p).phase = Phase.wWait then s.goto p Phase.wLock
  else s

/-- The platform writes a byte of host memory (R85, R334); the RBFC has no part in it. -/
def State.hostStore (s : State) (a : Word) (b : Byte) : State := { s with mem := s.mem.write a.toNat b }

/-- The reset event (R320, R321): every state element of 10_state.md R52 at its reset value and every agent at the
start of its program; host memory, the storage's contents, the parameters, the programs and the schedule stay. -/
def State.resetEvent (s : State) : State :=
  { State.reset with
    store := s.store
    params := s.params
    mem := s.mem
    sched := s.sched
    tick := s.tick
    agents := s.agents.map fun a => { prog := a.prog } }

end Sys2Proof.Machine
end

