-- ==== Sys2Proof/Machine/RxPath.lean ====
section
/-! DEFINITION. The receive path: `GETBYTE`, `RX_MASK`, `RX_UNMASK` and the receive service of `IRQ_DISPATCH`
(41_rxpath.md). -/

namespace Sys2Proof.Machine

/-- Step `G_POP` (R165). -/
def stepGPop (p : PortId) (s : State) : State :=
  if !s.isEmpty then (s.rbPop.setAgent p { s.agent p with data := s.rbHead }).goto p Phase.gLock
  else if (s.agent p).wt = false then s.done p resEmpty
  else s

/-- Step `G_LOCK` (R166). -/
def stepGLock (p : PortId) (s : State) : State := s.acquireThen p fun t => t.goto p Phase.gUnmask

/-- Step `G_UNMASK` (R166): the unmask decision, under the lock. -/
def stepGUnmask (p : PortId) (s : State) : State :=
  ((if s.isFull then s else s.maskRx false).release p).done p (resByte (s.agent p).data)

/-- `GETBYTE` (R162). -/
def execGetbyte (w : Bool) (s : State) : Host.Outcome State Fault Refusal :=
  let p := s.cur
  .next (s.command (.getbyte w) id
    [(!s.initDone, .notInit), (s.holdsLock p, .lockMisuse), (s.consumerElsewhere p, .consumerConflict)]
    (fun t => (t.setAgent p { t.agent p with wt := w }).begin p 0x12#8 Phase.gPop)
    fun ph t =>
      if ph = Phase.gPop then stepGPop p t
      else if ph = Phase.gLock then stepGLock p t
      else if ph = Phase.gUnmask then stepGUnmask p t
      else t)

/-- `RX_MASK` (R163). -/
def execRxMask (s : State) : Host.Outcome State Fault Refusal :=
  .next (s.oneStep .rxMask id [(!s.earlyDone, .notInit)] fun t => (t.maskRx true).done s.cur resNone)

/-- `RX_UNMASK` (R164). -/
def execRxUnmask (s : State) : Host.Outcome State Fault Refusal :=
  .next (s.oneStep .rxUnmask id [(!s.earlyDone, .notInit)] fun t => (t.maskRx false).done s.cur resNone)

/-- Step `I_RXSEL` (R167). -/
def stepIRxsel (p : PortId) (s : State) : State := if s.rxA then s.goto p Phase.iDrain else s.goto p Phase.iTx

/-- Step `I_DRAIN` (R168): one byte a step. -/
def stepIDrain (p : PortId) (s : State) : State :=
  match s.rxf with
  | [] => s.goto p Phase.iRxend
  | b :: _ => if s.isFull then s.goto p Phase.iRxend else (s.rxfDrop.rbPush b).goto p Phase.iDrain

/-- Step `I_RXEND` (R169): the mask decision. -/
def stepIRxend (p : PortId) (s : State) : State := (if s.isFull then s.maskRx true else s).goto p Phase.iTx

end Sys2Proof.Machine
end

