-- ==== Sys2Proof/Machine/TxPath.lean ====
section
/-! DEFINITION. The transmit path: `WRITE`, `TX_MASK`, `TX_UNMASK` and the transmit service of `IRQ_DISPATCH`
(43_txpath.md). -/

namespace Sys2Proof.Machine

/-- The issue step of `WRITE`, after its checks (R202). -/
def startWrite (p : PortId) (w n : Bool) (s : State) : State :=
  let len := (s.port p).arg1
  let t := s.setAgent p
    { s.agent p with src := (s.port p).arg0, len := len, idx := 0#32, blk := w, nl := n, crp := false }
  if len = 0#32 then t.done p resNone else t.begin p 0x13#8 Phase.wSelect

/-- Step `W_SELECT` (R203). A read of an address the platform does not allow has no step (20_memory.md R73). -/
def stepWSelect (p : PortId) (s : State) : State :=
  let a := s.agent p
  let addr := a.src + a.idx
  if s.hostOk addr then
    let c := s.hostByte addr
    if injectsCr a.nl a.crp c then (s.setAgent p { a with out := byteCr, crp := true }).goto p Phase.wLock
    else (s.setAgent p { a with out := c, crp := false, idx := a.idx + 1#32 }).goto p Phase.wLock
  else s

/-- Step `W_LOCK` (R204). -/
def stepWLock (p : PortId) (s : State) : State := s.acquireThen p fun t => t.goto p Phase.wCheck

/-- Step `W_CHECK` (R205). -/
def stepWCheck (p : PortId) (s : State) : State :=
  let a := s.agent p
  if s.txFull then
    if a.blk && s.txIrqEn then (((s.countFull.maskTx false).release p).countWait).goto p Phase.wWait
    else (s.countFull.release p).goto p Phase.wYield
  else
    let t := (s.txfPut a.out).release p
    if a.idx = a.len ∧ a.crp = false then t.done p resNone else t.goto p Phase.wSelect

/-- Step `W_WAIT` (R206, 42_lock_wake.md R187). -/
def stepWWait (p : PortId) (s : State) : State := s.waitThen fun t => t.goto p Phase.wLock

/-- Step `W_YIELD` (R207). -/
def stepWYield (p : PortId) (s : State) : State := s.goto p Phase.wLock

/-- `WRITE` (R202). -/
def execWrite (w n : Bool) (s : State) : Host.Outcome State Fault Refusal :=
  let p := s.cur
  .next (s.command (.write w n) id [(!s.earlyDone, .notInit), (s.holdsLock p, .lockMisuse)]
    (startWrite p w n)
    fun ph t =>
      if ph = Phase.wSelect then stepWSelect p t
      else if ph = Phase.wLock then stepWLock p t
      else if ph = Phase.wCheck then stepWCheck p t
      else if ph = Phase.wWait then stepWWait p t
      else if ph = Phase.wYield then stepWYield p t
      else t)

/-- `TX_MASK` (R210). -/
def execTxMask (s : State) : Host.Outcome State Fault Refusal :=
  .next (s.oneStep .txMask id [(!s.earlyDone, .notInit)] fun t => (t.maskTx true).done s.cur resNone)

/-- `TX_UNMASK` (R211). -/
def execTxUnmask (s : State) : Host.Outcome State Fault Refusal :=
  .next (s.oneStep .txUnmask id [(!s.earlyDone, .notInit)] fun t => (t.maskTx false).done s.cur resNone)

/-- Step `I_TX` (R212). -/
def stepITx (p : PortId) (s : State) : State :=
  (if s.txrdyA then s.signal.maskTx true else s).goto p Phase.iExit

end Sys2Proof.Machine
end

