-- ==== Sys2Proof/Machine/Lifecycle.lean ====
section
/-! DEFINITION. Initialization and interrupt dispatch: `INIT_EARLY`, `INIT`, `IRQ_DISPATCH`
(45_lifecycle_dispatch.md). -/

namespace Sys2Proof.Machine

/-- `INIT_EARLY` (R241). -/
def execInitEarly (s : State) : Host.Outcome State Fault Refusal :=
  let p := s.cur
  let base := (s.port p).arg0
  let line := (s.port p).arg1
  .next (s.oneStep .initEarly id
    [(s.earlyDone, .initOrder), (decide (base = 0#32) || decide (base.toNat % 4 ≠ 0), .configError),
      (!s.irqLineValid line, .configError)]
    fun t => ({ t with mmioBase := base, irqLine := line, earlyDone := true }).done p resNone)

/-- `INIT` (R244). -/
def execInit (s : State) : Host.Outcome State Fault Refusal :=
  let p := s.cur
  let cap := (s.port p).arg0
  let flags := (s.port p).arg1
  .next (s.oneStep .init id
    ((!s.earlyDone, .initOrder) :: s.rbInitChecks cap ++ [(cfgReserved flags, .configError)])
    fun t =>
      ({ (t.rbInit cap).maskRx false with
          txIrqEn := cfgTxIrqUse flags && !t.failureMode, initDone := true }).done p resNone)

/-- Step `I_LOCK` (R248). -/
def stepILock (p : PortId) (s : State) : State := s.acquireThen p fun t => t.goto p Phase.iRxsel

/-- Step `I_EXIT` (R253). -/
def stepIExit (p : PortId) (s : State) : State := (s.irqReturn p).done p resNone

/-- `IRQ_DISPATCH` (R246): entry (R247), then `I_LOCK` to `I_EXIT`. -/
def execIrqDispatch (s : State) : Host.Outcome State Fault Refusal :=
  let p := s.cur
  .next (s.command .irqDispatch id [(!s.initDone, .notInit)]
    (fun t => (t.irqEnter p).goto p Phase.iLock)
    fun ph t =>
      if ph = Phase.iLock then stepILock p t
      else if ph = Phase.iRxsel then stepIRxsel p t
      else if ph = Phase.iDrain then stepIDrain p t
      else if ph = Phase.iRxend then stepIRxend p t
      else if ph = Phase.iTx then stepITx p t
      else if ph = Phase.iExit then stepIExit p t
      else t)

end Sys2Proof.Machine
end

