-- ==== Sys2Proof/Machine/LockWake.lean ====
section
/-! DEFINITION. The lock and wake commands: `LOCK_ACQ`, `LOCK_REL`, `WAKE_SIGNAL`, `WAKE_WAIT`, `YIELD`
(42_lock_wake.md). -/

namespace Sys2Proof.Machine

/-- Step `L_SPIN` (R180). -/
def stepLSpin (p : PortId) (s : State) : State := s.acquireThen p fun t => t.done p resNone

/-- `LOCK_ACQ` (R180). -/
def execLockAcq (s : State) : Host.Outcome State Fault Refusal :=
  let p := s.cur
  .next (s.command .lockAcq id [(s.holdsLock p, .lockMisuse)] (fun t => t.begin p 0x30#8 Phase.lSpin)
    fun ph t => if ph = Phase.lSpin then stepLSpin p t else t)

/-- `LOCK_REL` (R182). -/
def execLockRel (s : State) : Host.Outcome State Fault Refusal :=
  let p := s.cur
  .next (s.oneStep .lockRel id [(!s.holdsLock p, .lockMisuse)] fun t => (t.release p).done p resNone)

/-- `WAKE_SIGNAL` (R184). -/
def execWakeSignal (s : State) : Host.Outcome State Fault Refusal :=
  .next (s.oneStep .wakeSignal id [] fun t => t.signal.done s.cur resNone)

/-- Step `K_WAIT` (R186, R187). -/
def stepKWait (p : PortId) (s : State) : State := s.waitThen fun t => t.done p resNone

/-- `WAKE_WAIT` (R186). -/
def execWakeWait (s : State) : Host.Outcome State Fault Refusal :=
  let p := s.cur
  .next (s.command .wakeWait id [(s.holdsLock p, .lockMisuse)]
    (fun t => t.countWait.begin p 0x33#8 Phase.kWait)
    fun ph t => if ph = Phase.kWait then stepKWait p t else t)

/-- `YIELD` (R189). -/
def execYield (s : State) : Host.Outcome State Fault Refusal :=
  .next (s.oneStep .yield id [] fun t => t.done s.cur resNone)

end Sys2Proof.Machine
end

