-- ==== Sys2Proof/Machine/Panic.lean ====
section
/-! DEFINITION. The panic path: `ENTER_FAIL`, `POLL_PUTC`, `POLL_GETC` (44_panic.md). -/

namespace Sys2Proof.Machine

/-- `ENTER_FAIL` (R231). -/
def execEnterFail (s : State) : Host.Outcome State Fault Refusal :=
  .next (s.oneStep .enterFail id [] fun t =>
    ({ t with txIrqEn := false, failureMode := true }).done s.cur resNone)

/-- Step `Q_SPIN` (R233): a hold while the transmit FIFO has no room. -/
def stepQSpin (p : PortId) (s : State) : State :=
  if s.txf.length < s.params.txfDepth then (s.txfPut (s.agent p).byte).done p resNone else s

/-- `POLL_PUTC` (R233). -/
def execPollPutc (b : Byte) (s : State) : Host.Outcome State Fault Refusal :=
  let p := s.cur
  .next (s.command (.pollPutc b) id
    [(!s.earlyDone, .notInit), (!s.failureMode, .pollOutsideFailure)]
    (fun t => (t.setAgent p { t.agent p with byte := b }).begin p 0x14#8 Phase.qSpin)
    fun ph t => if ph = Phase.qSpin then stepQSpin p t else t)

/-- The issue step of `POLL_GETC`, after its checks (R235). -/
def startPollGetc (p : PortId) (s : State) : State :=
  match s.rxf with
  | [] => s.done p resEmpty
  | b :: _ => ({ s.rxfDrop with rxOut := s.rxOut ++ [b] }).done p (resByte b)

/-- `POLL_GETC` (R235). -/
def execPollGetc (s : State) : Host.Outcome State Fault Refusal :=
  .next (s.oneStep .pollGetc id
    [(!s.earlyDone, .notInit), (!s.failureMode, .pollOutsideFailure)] (startPollGetc s.cur))

end Sys2Proof.Machine
end

