-- ==== Sys2Proof/Machine/RingBuffer.lean ====
section
/-! DEFINITION. The RingBuffer commands: `RB_INIT`, `RB_PUSH`, `RB_POP` (40_ringbuffer.md). -/

namespace Sys2Proof.Machine

/-- `RB_INIT` (R143). -/
def execRbInit (s : State) : Host.Outcome State Fault Refusal :=
  let p := s.cur
  let cap := (s.port p).arg0
  .next (s.oneStep .rbInit id (s.rbInitChecks cap) fun t => (t.rbInit cap).done p resNone)

/-- `RB_PUSH` (R145): the byte is latched at issue, the push is the entry step. -/
def execRbPush (b : Byte) (s : State) : Host.Outcome State Fault Refusal :=
  let p := s.cur
  .next (s.oneStep (.rbPush b) (fun a => { a with byte := b })
    [(!s.rbInitDone, .notInit), (s.isFull, .rbPushFull)]
    fun t => (t.rbPush (t.agent p).byte).done p resNone)

/-- Step `P_POP` (R149). -/
def stepPPop (p : PortId) (s : State) : State :=
  if !s.isEmpty then s.rbPop.done p (resByte s.rbHead)
  else if (s.agent p).wt = false then s.done p resEmpty
  else s

/-- `RB_POP` (R147, R149). -/
def execRbPop (w : Bool) (s : State) : Host.Outcome State Fault Refusal :=
  let p := s.cur
  .next (s.command (.rbPop w) id
    [(!s.rbInitDone, .notInit), (w && s.holdsLock p, .lockMisuse), (s.consumerElsewhere p, .consumerConflict)]
    (fun t => (t.setAgent p { t.agent p with wt := w }).begin p 0x22#8 Phase.pPop)
    fun ph t => if ph = Phase.pPop then stepPPop p t else t)

end Sys2Proof.Machine
end

