-- ==== Sys2Proof/Machine/Dispatch.lean ====
section
/-! DEFINITION. `exec`: one step of a command on the port whose agent acts, one arm a command. -/

namespace Sys2Proof.Machine

/-- One step of command `i` (its issue step, its entry, or its next step) on the port `s.cur` (log 17). -/
def exec (i : Instr) (s : State) : Host.Outcome State Fault Refusal :=
  match i with
  | .initEarly => Sys2Proof.Machine.execInitEarly s
  | .init => Sys2Proof.Machine.execInit s
  | .getbyte w => Sys2Proof.Machine.execGetbyte w s
  | .write w n => Sys2Proof.Machine.execWrite w n s
  | .pollPutc b => Sys2Proof.Machine.execPollPutc b s
  | .pollGetc => Sys2Proof.Machine.execPollGetc s
  | .enterFail => Sys2Proof.Machine.execEnterFail s
  | .rbInit => Sys2Proof.Machine.execRbInit s
  | .rbPush b => Sys2Proof.Machine.execRbPush b s
  | .rbPop w => Sys2Proof.Machine.execRbPop w s
  | .lockAcq => Sys2Proof.Machine.execLockAcq s
  | .lockRel => Sys2Proof.Machine.execLockRel s
  | .wakeSignal => Sys2Proof.Machine.execWakeSignal s
  | .wakeWait => Sys2Proof.Machine.execWakeWait s
  | .yield => Sys2Proof.Machine.execYield s
  | .rxMask => Sys2Proof.Machine.execRxMask s
  | .rxUnmask => Sys2Proof.Machine.execRxUnmask s
  | .txMask => Sys2Proof.Machine.execTxMask s
  | .txUnmask => Sys2Proof.Machine.execTxUnmask s
  | .irqDispatch => Sys2Proof.Machine.execIrqDispatch s

end Sys2Proof.Machine
end

