-- ==== Sys2Proof/Machine/Issue.lean ====
section
/-! DEFINITION. How commands come to run: the write of a `CMD` register (30_encoding.md R101), the program line an
idle agent performs (10_state.md R36, 30_encoding.md R117), the step of a busy port, the delivery of the interrupt
(46_environment.md R266) and the register accesses of the window (20_memory.md R71 to R78). -/

namespace Sys2Proof.Machine

/-- A write of word `w` to `P[p].CMD` by port `p`'s agent (R101), up to the decoding; `exec` does the rest. -/
def State.writeCmd (s : State) (p : PortId) (w : Word) : Host.Outcome State Fault Refusal :=
  if s.faulted then .next s
  else if s.busy p then .next (s.raise p .portBusy (fieldOpc w) 0#12)
  else
    match decode w with
    | none => .next (s.raise p .illegalEncoding (fieldOpc w) 0#12)
    | some i => exec i { s with cur := p }

/-- The operands of a line, written before its `CMD` word as far as the command reads them (R117, R103). -/
def State.writeArgs (s : State) (p : PortId) (l : Line) : State :=
  match decode l.cmd with
  | none => s
  | some i =>
    s.setPort p
      { s.port p with
        arg0 := if i.readsArg0 then l.arg0 else (s.port p).arg0
        arg1 := if i.readsArg1 then l.arg1 else (s.port p).arg1 }

/-- The index of the agent's next program line: `A[p].pc` (R36), less, on the interrupt port, the commands that
`IC_DELIVER` put there between the lines of a test program (46_environment.md R269, log 9). -/
def State.lineIndex (s : State) (p : PortId) : Nat :=
  ((s.agent p).pc - if s.kind p = .interrupt then s.delivered else 0#32).toNat

/-- The agent's next program line, if it has not finished (R36). -/
def State.nextLine (s : State) (p : PortId) : Option Line := (s.agent p).prog[s.lineIndex p]?

/-- Whether word `w` is one that port `p`'s agent never writes to its `CMD`: the `IRQ_DISPATCH` word on the interrupt
port, of which `IC_DELIVER` is the only issuer (46_environment.md R260, R269). Such a line or access is no step of the
agent, so it is not enabled (log 29). -/
def State.deliverOnly (s : State) (p : PortId) (w : Word) : Bool :=
  decide (s.kind p = .interrupt) && decide (w = dispatchWord)

/-- The next step of port `p`'s agent (60_exceptions.md R301): if its port is idle, its next program line, else the
next step of the command in progress. Where it may not step, has finished or is halted, nothing happens (log 2). -/
def State.agentStep (s : State) (p : PortId) : Host.Outcome State Fault Refusal :=
  if s.faulted || !s.mayStep p then .next s
  else if s.busy p then
    match commandOf (s.port p).opc (s.agent p) with
    | some i => exec i { s with cur := p }
    | none => .next s
  else
    match s.nextLine p with
    | some l => if s.deliverOnly p l.cmd then .next s else (s.writeArgs p l).writeCmd p l.cmd
    | none => .next s

/-- Whether `IC_DELIVER` is enabled (R266). -/
def State.deliverEnabled (s : State) : Bool :=
  !s.faulted && s.irqOut && !s.busy s.intPort && s.ie s.params.irqCpu

/-- `IC_DELIVER` (R266): the `IRQ_DISPATCH` word is written to the interrupt port's `CMD`. -/
def State.deliver (s : State) : Host.Outcome State Fault Refusal :=
  if s.deliverEnabled then { s with delivered := s.delivered + 1#32 }.writeCmd s.intPort dispatchWord
  else .next s

/-- `Fault(BUS_ERROR)` (R75, R76), where the block is not halted already (R282, log 12). -/
def State.busFault (s : State) (p : PortId) (o : Nat) : State :=
  if s.faulted then s else s.raise p .busError busErrorOpc (BitVec.ofNat 12 o)

/-- A write of word `v` at the 4-aligned offset `o` of the window by port `p`'s agent: only `CMD`, `ARG0` and `ARG1`
of its own bank can be written (10_state.md R49, 20_memory.md R76, R77). -/
def State.windowWrite (s : State) (p : PortId) (o : Nat) (v : Word) : Host.Outcome State Fault Refusal :=
  if o = 0x100 + 0x20 * p.val then s.writeCmd p v
  else if o = 0x104 + 0x20 * p.val then
    .next (if s.faulted then s else s.setPort p { s.port p with arg0 := v })
  else if o = 0x108 + 0x20 * p.val then
    .next (if s.faulted then s else s.setPort p { s.port p with arg1 := v })
  else .next (s.busFault p o)

/-- Whether an access is a write of the `IRQ_DISPATCH` word to the interrupt port's own `CMD`, which is no step of
that port's agent (46_environment.md R260, log 29). -/
def State.dispatchAccess (s : State) (a : Access) : Bool :=
  decide (a.width = 32) && decide ((a.addr - s.params.blockBase).toNat = 0x100 + 0x20 * a.port.val)
    && match a.kind with
      | .read => false
      | .write v => s.deliverOnly a.port v

/-- One access of an agent to the host address space (R71, R75 to R78). A read leaves its word in `busData`
(log 10). -/
def State.access (s : State) (a : Access) : Host.Outcome State Fault Refusal :=
  let o := (a.addr - s.params.blockBase).toNat
  if !s.mayStep a.port || s.dispatchAccess a then .next s
  else if 0x200 ≤ o then .refused .outsideWindow
  else if a.width ≠ 32 ∨ o % 4 ≠ 0 then .next (s.busFault a.port o)
  else
    match a.kind with
    | .read =>
      match s.windowRead o with
      | some v => .next { s with busData := v }
      | none => .next (s.busFault a.port o)
    | .write v => s.windowWrite a.port o v

end Sys2Proof.Machine
end

