-- ==== Sys2Proof/Machine/Schedule.lean ====
section
/-! DEFINITION. Which event a step takes (60_exceptions.md R301) and what it does. -/

namespace Sys2Proof.Machine

/-- The event the next step takes: the schedule's next, or, where it has none left, a free choice (R301, log 1). -/
def State.nextEvent (s : State) : Event :=
  match s.sched with
  | e :: _ => e
  | [] => Config.freeEvent s.tick

/-- The state with its next event taken off the schedule. -/
def State.advance (s : State) : State := { s with sched := s.sched.tail, tick := s.tick + 1 }

/-- What an event does. An event that is not enabled leaves the state as it is (log 2). -/
def State.runEvent (s : State) : Event → Host.Outcome State Fault Refusal
  | .port p => s.agentStep p
  | .spuriousWake p => .next (s.spuriousWake p)
  | .access a => s.access a
  | .lineRx b => .next (s.lineRx b)
  | .lineRxTimeout => .next s.lineRxTimeout
  | .lineTx => .next s.lineTx
  | .deliver => s.deliver
  | .hostStore a b => .next (s.hostStore a b)
  | .reset => .next s.resetEvent

/-- The port on which a word other than `IRQ_DISPATCH`'s, placed for the next step, is issued: the interrupt port if only it accepts the command
(30_encoding.md R114), else thread port 0 (log 18). -/
def State.fetchPort (s : State) (w : Word) : PortId :=
  match decode w with
  | some i => if allowed .thread i then 0 else s.intPort
  | none => 0

/-- The state with word `w` as the one line of port `p`'s program, the port idle and at the start of that program,
and port `p`'s agent next in the schedule. -/
def State.placeCommand (s : State) (p : PortId) (w : Word) : State :=
  { (s.setPort p { s.port p with opc := 0#8, phase := Phase.idle }).setAgent p
      { s.agent p with
        pc := if s.kind p = .interrupt then s.delivered else 0#32
        prog := [{ arg0 := (s.port p).arg0, arg1 := (s.port p).arg1, cmd := w }] } with
    sched := .port p :: s.sched }

/-- The state in which the interrupt controller delivers next, and may (46_environment.md R266): the interrupt port
idle, interrupts on `IRQ_CPU` enabled, and the line up (if it is down, `INIT_DONE` set and the transmit-ready source,
with an empty transmit FIFO, unmasked). -/
def State.placeDelivery (s : State) : State :=
  let t := (s.setPort s.intPort { s.port s.intPort with opc := 0#8, phase := Phase.idle }).setIe s.params.irqCpu true
  { (if t.irqOut then t else { t with initDone := true, txf := [], imask := { t.imask with txrdyM := false } }) with
    sched := .deliver :: s.sched }

/-- The state in which the very next step issues the command word `w`: the `IRQ_DISPATCH` word by a delivery, its only
issuer (R260), every other word as a program line. -/
def State.placeWord (s : State) (w : Word) : State :=
  if w = dispatchWord then s.placeDelivery else s.placeCommand (s.fetchPort w) w

end Sys2Proof.Machine
end

