-- ==== Sys2Proof/Machine/Step.lean ====
section
/-! DEFINITION. One step of the machine, and the placing of an instruction where the next step fetches it. -/

namespace Sys2Proof.Machine

/-- One step of a run: the next event is taken and performed. "What the platform must settle before any rule holds"
(70_reset_and_hazards.md R323) is checked first (log 15). -/
def step (s : State) : Host.Outcome State Fault Refusal :=
  if s.params.wf then s.advance.runEvent s.nextEvent else .fault .badParams

/-- The state in which the very next step fetches and issues the command word `w` (logs 8, 18). -/
def State.withFetchWord (s : State) (nbits w : Nat) : State :=
  let v : Word := BitVec.ofNat 32 (w % 2 ^ nbits)
  s.placeWord v

end Sys2Proof.Machine
end

