-- ==== Sys2Proof/Safety.lean ====
section
/-! DEFINITION. The terms in which claims about runs are written: the bytes the RingBuffer holds, what well-formed
states are (10_state.md R53 with what it takes to be kept by every step), which events are enabled
(60_exceptions.md R290, R296, R301, R302), how a run ends (70_reset_and_hazards.md R342), fairness (R340), the states
in which a command's step is about to happen, and the byte sequence a mapped write sends (43_txpath.md R201). -/

namespace Sys2Proof.Machine

/-- The bytes in the RingBuffer, oldest first (10_state.md R25, R26). -/
def State.ring (s : State) : List Byte := (List.range s.count).map fun k => s.stored (s.slot (s.rd + k))

/-! ### The invariant -/

/-- A port's step code is one of its command's (10_state.md R34), and the command is one its kind accepts. -/
def Port.shapeOk (k : PortKind) (x : Port) : Bool :=
  if x.phase = Phase.idle then decide (x.opc = 0#8)
  else
    match k with
    | .thread =>
      (decide (x.opc = 0x12#8) && decide (x.phase.toNat ≤ 3))
        || (decide (x.opc = 0x13#8) && decide (x.phase.toNat ≤ 5))
        || ((decide (x.opc = 0x14#8) || decide (x.opc = 0x22#8) || decide (x.opc = 0x30#8)
          || decide (x.opc = 0x33#8)) && decide (x.phase.toNat ≤ 1))
    | .interrupt =>
      (decide (x.opc = 0x50#8) && decide (x.phase.toNat ≤ 6))
        || ((decide (x.opc = 0x16#8) || decide (x.opc = 0x21#8) || decide (x.opc = 0x32#8)
          || decide (x.opc = 0x40#8) || decide (x.opc = 0x41#8) || decide (x.opc = 0x42#8)
          || decide (x.opc = 0x43#8) || decide (x.opc = 0x50#8)) && decide (x.phase = Phase.iPend))

/-- The steps a port takes with the lock held: `G_UNMASK`, `W_CHECK`, and `I_RXSEL` to `I_EXIT`. -/
def Port.inLockedStep (k : PortKind) (x : Port) : Bool :=
  match k with
  | .thread => (decide (x.opc = 0x12#8) || decide (x.opc = 0x13#8)) && decide (x.phase = 3#8)
  | .interrupt => decide (x.opc = 0x50#8) && decide (2 ≤ x.phase.toNat) && decide (x.phase.toNat ≤ 6)

/-- A `RESULT` word of 10_state.md R51: reserved bits 0, `VALID` and `EMPTY` not both 1, `DATA` 0 unless `VALID`. -/
def resultOk (r : Word) : Bool :=
  decide (r.extractLsb' 11 21 = 0#21) && !(r.getLsbD 8 && r.getLsbD 9)
    && (r.getLsbD 8 || decide (r.extractLsb' 0 8 = 0#8))

/-- What every state reachable from reset satisfies: the invariants (a) to (h) of 10_state.md R53 that speak of one
state, and the facts they rest on. -/
structure State.Inv (s : State) : Prop where
  /-- the parameters meet R7 -/
  params_wf : s.params.wf = true
  /-- host memory has its canonical form -/
  mem_wf : s.mem.wf = true
  /-- the storage has its canonical form -/
  store_wf : sparseWf (fun _ => 0#8) s.store = true
  /-- the interrupt-enable bits have their canonical form -/
  ie_wf : sparseWf (fun _ => true) s.ieBits = true
  /-- the storage has `CAP_MAX` slots (R25) -/
  store_slots : ∀ e ∈ s.store, e.1 < s.params.capMax
  /-- `S.CAP` is in `0 .. CAP_MAX` (R25) -/
  cap_le : s.cap ≤ s.params.capMax
  /-- before initialization (R25) -/
  ring_before : s.rbInitDone = false → s.cap = 0 ∧ s.rd = 0 ∧ s.wr = 0
  /-- once initialized, the cursors are in `0 .. 2·CAP − 1` (R25) -/
  ring_after : s.rbInitDone = true → 1 ≤ s.cap ∧ s.rd < 2 * s.cap ∧ s.wr < 2 * s.cap
  /-- (a) -/
  count_le : s.count ≤ s.cap
  /-- (b) -/
  rx_pair : s.imask.rxrdyM = s.imask.rxtoM
  /-- (c) -/
  lock_free : s.lockHeld = false → s.lockOwner = 0
  /-- (d) -/
  lock_ie : s.lockHeld = true → s.hasPort s.lockOwner = true ∧ s.ie (s.core s.lockOwner) = false
  /-- (e) -/
  fail_mode : s.failureMode = true → s.txIrqEn = false
  /-- (g) -/
  rxf_le : s.rxf.length ≤ s.params.rxfDepth
  /-- (g) -/
  txf_le : s.txf.length ≤ s.params.txfDepth
  /-- (h) -/
  rxto_empty : s.rxf = [] → s.rxtoP = false
  /-- `INIT` comes after `INIT_EARLY` and initializes the RingBuffer (45_lifecycle_dispatch.md R244) -/
  boot_order : s.initDone = true → s.earlyDone = true ∧ s.rbInitDone = true
  /-- R34 -/
  port_shape : ∀ p, (s.port p).shapeOk (s.kind p) = true
  /-- a port above `NTHREAD` is never used (R33) -/
  port_absent : ∀ p, s.hasPort p = false → (s.port p).phase = Phase.idle
  /-- a port in a step that runs under the lock holds it (41_rxpath.md R166, 43_txpath.md R205, R248) -/
  locked_step : ∀ p, (s.port p).inLockedStep (s.kind p) = true → s.holdsLock p = true
  /-- at most one consumer command is in progress (40_ringbuffer.md R148) -/
  one_consumer : ∀ p q, s.consumerActive p = true → s.consumerActive q = true → p = q
  /-- R51 -/
  result_ok : ∀ p, resultOk (s.port p).result = true
  /-- `RESULT` is 0 from the issue step until `done` (70_reset_and_hazards.md R333) -/
  result_busy : ∀ p, s.busy p = true → (s.port p).result = 0#32
  /-- while the handler runs, interrupts on its core are off (60_exceptions.md R293) and `INIT` has been done -/
  handler : s.irqEntered = true → s.ie s.params.irqCpu = false ∧ s.initDone = true
  /-- codes 0x0F to 0xFF are never recorded (60_exceptions.md R281), and `FAULT` reads 0 while none is -/
  fault_code : s.fault.code.toNat ≤ 0x0E ∧ (s.fault.code = 0#8 → s.fault = {})

/-! ### Enabled events, the end of a run, fairness -/

/-- Whether the step of command opcode `opc` at phase `ph` is enabled (R296): what lifts each hold. -/
def State.stepEnabled (s : State) (p : PortId) : Bool :=
  let x := s.port p
  let a := s.agent p
  match s.kind p with
  | .interrupt =>
    if x.phase = Phase.iPend then s.ie s.params.irqCpu
    else if x.phase = Phase.iLock then !s.lockHeld
    else true
  | .thread =>
    if x.opc = 0x12#8 then
      if x.phase = Phase.gPop then !s.isEmpty || !a.wt else if x.phase = Phase.gLock then !s.lockHeld else true
    else if x.opc = 0x13#8 then
      if x.phase = Phase.wSelect then s.hostOk (a.src + a.idx)
      else if x.phase = Phase.wLock then !s.lockHeld
      else if x.phase = Phase.wWait then s.wakePend
      else true
    else if x.opc = 0x14#8 then decide (s.txf.length < s.params.txfDepth)
    else if x.opc = 0x22#8 then !s.isEmpty || !a.wt
    else if x.opc = 0x30#8 then !s.lockHeld
    else s.wakePend

/-- Whether the next step of port `p`'s agent is enabled: a line to issue, or an enabled step of its command. -/
def State.portEnabled (s : State) (p : PortId) : Bool :=
  !s.faulted && s.mayStep p &&
    (if s.busy p then s.stepEnabled p else (s.nextLine p).any fun l => !s.deliverOnly p l.cmd)

/-- Whether an event is enabled (R301). The platform's three are always; an access is if its agent may step. -/
def State.enabled (s : State) : Event → Bool
  | .port p => s.portEnabled p
  | .spuriousWake p =>
    !s.faulted && s.mayStep p && decide (s.kind p = .thread)
      && ((decide ((s.port p).opc = 0x33#8) && decide ((s.port p).phase = Phase.kWait))
        || (decide ((s.port p).opc = 0x13#8) && decide ((s.port p).phase = Phase.wWait)))
  | .access a => s.mayStep a.port && !s.dispatchAccess a
  | .lineRx _ => !s.faulted
  | .lineRxTimeout => !s.faulted && decide (0 < s.rxf.length) && !s.rxtoP
  | .lineTx => !s.faulted && decide (0 < s.txf.length)
  | .deliver => s.deliverEnabled
  | .hostStore _ _ => true
  | .reset => true

/-- A thread agent has finished its program (10_state.md R36). -/
def State.agentDone (s : State) (p : PortId) : Bool := !s.busy p && (s.nextLine p).isNone

/-- R342: the run is finished. -/
def State.finished (s : State) : Bool :=
  (allPorts.all fun p => !s.hasPort p || decide (s.kind p = .interrupt) || s.agentDone p)
    && !s.busy s.intPort && !s.deliverEnabled

/-- R342: the run is stuck: neither finished nor halted, and no step but a spurious wake, `E_RX` or `E_RXTO` is
enabled. Register accesses, the platform's changes of host memory and reset, which R342 does not name and which are
always possible, do not count as steps here (DEDUCED, log 28). -/
def State.stuck (s : State) : Bool :=
  !s.finished && !s.faulted && allPorts.all (fun p => !s.portEnabled p) && !s.deliverEnabled
    && !s.enabled .lineTx

/-- An infinite run: each state is the step of the one before. -/
def IsRun (r : Nat → State) : Prop := ∀ n, step (r n) = .next (r (n + 1))

/-- An event that stays enabled, in states for which `c` holds, from some point on is taken after it. -/
def WeaklyFairWhile (c : State → Bool) (r : Nat → State) (e : Event) : Prop :=
  ∀ n, (∀ m, n ≤ m → c (r m) = true ∧ (r m).enabled e = true) → ∃ m, n ≤ m ∧ (r m).nextEvent = e

/-- Weak fairness of an event in a run (R340): if it stays enabled from some point on, it is taken after it. -/
def WeaklyFair (r : Nat → State) (e : Event) : Prop := WeaklyFairWhile (fun _ => true) r e

/-- Weak fairness of a command port (R340 (a)): a step of the busy port that stays enabled is taken. On the interrupt
port that covers the entry step (R340 (c)). The issue by an idle port is not forced, nor is a spurious wake. -/
def PortFair (r : Nat → State) (p : PortId) : Prop := WeaklyFairWhile (fun s => s.busy p) r (.port p)

/-- The fairness a liveness claim may assume (R340): (a) the steps of every busy command port, (b) `E_TX`,
(c) `IC_DELIVER` and, as a step of the busy interrupt port, interrupt entry. -/
def FairRun (r : Nat → State) : Prop :=
  IsRun r ∧ (∀ p, PortFair r p) ∧ WeaklyFair r .lineTx ∧ WeaklyFair r .deliver

/-! ### Where a command stands -/

/-- Port `p`'s agent acts, its port is an idle thread port, and the block is not halted. -/
abbrev State.atIssue (s : State) (p : PortId) : Prop :=
  s.cur = p ∧ s.kind p = .thread ∧ s.faulted = false ∧ (s.port p).phase = Phase.idle

/-- Port `p`'s agent acts, its port is the idle interrupt port, and the block is not halted. -/
abbrev State.atInterruptIssue (s : State) (p : PortId) : Prop :=
  s.cur = p ∧ s.kind p = .interrupt ∧ s.faulted = false ∧ (s.port p).phase = Phase.idle

/-- Port `p` is the interrupt port, opcode `opc` waits there in `I_PEND`, and its entry step is enabled (R290). -/
abbrev State.atEntry (s : State) (p : PortId) (opc : Byte) : Prop :=
  s.cur = p ∧ s.kind p = .interrupt ∧ s.faulted = false ∧ (s.port p).opc = opc
    ∧ (s.port p).phase = Phase.iPend ∧ s.ie s.params.irqCpu = true

/-- Port `p`'s command `opc` is in progress at step `ph`, and the block is not halted. -/
abbrev State.atStep (s : State) (p : PortId) (opc ph : Byte) : Prop :=
  s.cur = p ∧ s.faulted = false ∧ (s.port p).opc = opc ∧ (s.port p).phase = ph

/-- The state after port `p`'s command has completed with the `RESULT` word `r`, nothing else changed (R33). -/
def State.completed (s : State) (p : PortId) (r : Word) : State :=
  { s with
    ports := s.ports.set p { s.port p with result := r, opc := 0#8, phase := 0#8 }
    agents := s.agents.set p { s.agent p with pc := (s.agent p).pc + 1#32 } }

/-- The state after port `p`'s command `opc` has been issued and stands at step `ph`, nothing else changed. -/
def State.begun (s : State) (p : PortId) (opc ph : Byte) : State :=
  { s with ports := s.ports.set p { s.port p with result := 0#32, opc := opc, phase := ph } }

/-- The state with port `p` moved to step `ph`, nothing else changed. -/
def State.movedTo (s : State) (p : PortId) (ph : Byte) : State :=
  { s with ports := s.ports.set p { s.port p with phase := ph } }

/-- The state with a fault recorded, nothing else changed (60_exceptions.md R282). -/
def State.faultedWith (s : State) (p : PortId) (code opc : Byte) : State :=
  { s with fault := { code := code, opc := opc, port := p, offset := 0#12 } }

/-- `n` steps of command `i`, one after the other on the port whose agent acts. -/
def runCommand (i : Instr) : Nat → State → Host.Outcome State Fault Refusal
  | 0, s => .next s
  | n + 1, s =>
    match exec i s with
    | .next t => runCommand i n t
    | .fault r => .fault r
    | .refused r => .refused r

/-- The `n` bytes of host memory from an address on (20_memory.md R73). -/
def State.hostBytes (s : State) (a : Word) (n : Nat) : List Byte :=
  (List.range n).map fun k => s.hostByte (a + BitVec.ofNat 32 k)

/-- What one `WRITE` sends for an input (43_txpath.md R201). -/
def mapNewline (nl : Bool) (l : List Byte) : List Byte :=
  l.flatMap fun c => if nl ∧ c = 0x0A#8 then [0x0D#8, 0x0A#8] else [c]

end Sys2Proof.Machine
end

