-- ==== Sys2Proof/Certificates/Slice0/Obligations.lean ====
section
/-! DEFINITION. The statements about the model, each from the rules of spec/ that its docstring cites. A statement
gives a next state as an equation: what the record update does not name is unchanged, and that is its frame (every
register, flag, counter, log, port, agent and byte of memory). -/

open Sys2Proof Sys2Proof.Machine

/-! ### The command word -/

/-- Decoding and encoding are inverse: no bit of a command is dropped, and no word has two readings (R100, R103,
R104, R113). -/
def Obligations.DecodeInvertsEncode : Prop :=
  (∀ i : Instr, decode (encode i) = some i) ∧ ∀ (w : Word) (i : Instr), decode w = some i → encode i = w

/-- The words of R119, legal and illegal. -/
def Obligations.ExampleWordsDecode : Prop :=
  decode 0x00000012#32 = some (.getbyte false) ∧ decode 0x00010012#32 = some (.getbyte true)
    ∧ decode 0x00000013#32 = some (.write false false) ∧ decode 0x00010013#32 = some (.write true false)
    ∧ decode 0x00020013#32 = some (.write false true) ∧ decode 0x00030013#32 = some (.write true true)
    ∧ decode 0x00007814#32 = some (.pollPutc 0x78#8) ∧ decode 0x00004121#32 = some (.rbPush 0x41#8)
    ∧ decode 0x00010022#32 = some (.rbPop true) ∧ decode 0x00000010#32 = some .initEarly
    ∧ decode 0x00000011#32 = some .init ∧ decode 0x00000050#32 = some .irqDispatch
    ∧ decode 0x00000016#32 = some .enterFail
    ∧ decode 0x00000000#32 = none ∧ decode 0x00010014#32 = none ∧ decode 0x00004112#32 = none
    ∧ decode 0x00040013#32 = none ∧ decode 0x00000051#32 = none

/-- R113: the decoder's checks, and the opcode table's rows, which are disjoint. -/
def Obligations.DecodeFollowsTableRows : Prop :=
  (∀ w : Word, decode w =
    if w.extractLsb' 0 8 ∉ [0x10#8, 0x11#8, 0x12#8, 0x13#8, 0x14#8, 0x15#8, 0x16#8, 0x20#8, 0x21#8, 0x22#8, 0x30#8,
        0x31#8, 0x32#8, 0x33#8, 0x34#8, 0x40#8, 0x41#8, 0x42#8, 0x43#8, 0x50#8] then none
    else if w.extractLsb' 18 14 ≠ 0#14 then none
    else if w.extractLsb' 8 8 ≠ 0#8 ∧ w.extractLsb' 0 8 ∉ [0x14#8, 0x21#8] then none
    else if w.getLsbD 16 = true ∧ w.extractLsb' 0 8 ∉ [0x12#8, 0x13#8, 0x22#8] then none
    else if w.getLsbD 17 = true ∧ w.extractLsb' 0 8 ≠ 0x13#8 then none
    else byOpcode (w.extractLsb' 0 8) (w.extractLsb' 8 8) (w.getLsbD 16) (w.getLsbD 17))
  ∧ (∀ w : Word, (decode w).isSome = true ↔ ∃ r ∈ opcodeRows, w &&& r.1 = r.2)
  ∧ (∀ (w : Word) (i : Instr), decode w = some i → ∃ r ∈ opcodeRows, w &&& r.1 = r.2 ∧ r.2 = i.opcode.setWidth 32)
  ∧ ∀ r ∈ opcodeRows, ∀ q ∈ opcodeRows, r ≠ q → ∀ w : Word, w &&& r.1 = r.2 → w &&& q.1 ≠ q.2

/-- R105 and R106: a reserved opcode, a nonzero `RES`, and a field a command does not use make a word illegal, and
issuing an illegal word raises `ILLEGAL_ENCODING` (code 0x0B) with the word's low byte and changes nothing else. -/
def Obligations.IllegalWordsFaultAtIssue : Prop :=
  (∀ w : Word, w.extractLsb' 0 8 ∉ [0x10#8, 0x11#8, 0x12#8, 0x13#8, 0x14#8, 0x15#8, 0x16#8, 0x20#8, 0x21#8, 0x22#8,
      0x30#8, 0x31#8, 0x32#8, 0x33#8, 0x34#8, 0x40#8, 0x41#8, 0x42#8, 0x43#8, 0x50#8] → decode w = none)
  ∧ (∀ w : Word, w.extractLsb' 18 14 ≠ 0#14 → decode w = none)
  ∧ (∀ w : Word, w.extractLsb' 8 8 ≠ 0#8 → w.extractLsb' 0 8 ≠ 0x14#8 → w.extractLsb' 0 8 ≠ 0x21#8 → decode w = none)
  ∧ (∀ w : Word, w.getLsbD 16 = true → w.extractLsb' 0 8 ≠ 0x12#8 → w.extractLsb' 0 8 ≠ 0x13#8 →
      w.extractLsb' 0 8 ≠ 0x22#8 → decode w = none)
  ∧ (∀ w : Word, w.getLsbD 17 = true → w.extractLsb' 0 8 ≠ 0x13#8 → decode w = none)
  ∧ ∀ (s : State) (p : PortId) (w : Word), s.faulted = false → s.busy p = false → decode w = none →
      s.writeCmd p w = .next (s.faultedWith p 0x0B#8 (w.extractLsb' 0 8))

/-- R114: a thread port accepts every opcode but `RB_PUSH` and `IRQ_DISPATCH`; the interrupt port accepts exactly
eight. A command issued on an idle port of a kind that does not accept it raises `CONTEXT_VIOLATION` (code 0x09) and
changes nothing else (R101). -/
def Obligations.PortKindsAcceptTheirCommands : Prop :=
  (∀ i : Instr, allowed .thread i = true ↔ i.opcode ∉ [0x21#8, 0x50#8])
  ∧ (∀ i : Instr, allowed .interrupt i = true ↔
      i.opcode ∈ [0x50#8, 0x21#8, 0x32#8, 0x40#8, 0x41#8, 0x42#8, 0x43#8, 0x16#8])
  ∧ (∀ (k : PortKind) (i : Instr), allowed k i = i.wellPlaced k)
  ∧ ∀ (i : Instr) (s : State) (p : PortId), s.cur = p → s.faulted = false → (s.port p).phase = Phase.idle →
      allowed (s.kind p) i = false → exec i s = .next (s.faultedWith p 0x09#8 i.opcode)

/-! ### Issue, entry, and the step of the machine -/

/-- R101: the checks of a `CMD` write, in order. Halted: a hold. Busy: `PORT_BUSY` (code 0x0C). Illegal:
`ILLEGAL_ENCODING`. A legal word runs its command on that port (`cur` is the model's own, log 10), where the port's
kind is checked. An agent's 32-bit write of the word to its own `CMD` register is such a write (R49, R77); that the
same-core exclusion must allow its access is the model's reading (log 16). The agents never write the `IRQ_DISPATCH`
word to the interrupt port's `CMD`, which only a delivery does (R260): that such an access changes nothing is the
model's form of it (log 29). -/
def Obligations.CommandWriteChecksInOrder : Prop :=
  ∀ (s : State) (p : PortId) (w : Word),
    (s.faulted = true → s.writeCmd p w = .next s)
    ∧ (s.faulted = false → s.busy p = true → s.writeCmd p w = .next (s.faultedWith p 0x0C#8 (w.extractLsb' 0 8)))
    ∧ (s.faulted = false → s.busy p = false → decode w = none →
        s.writeCmd p w = .next (s.faultedWith p 0x0B#8 (w.extractLsb' 0 8)))
    ∧ (∀ i, s.faulted = false → s.busy p = false → decode w = some i →
        s.writeCmd p w = exec i { s with cur := p }
        ∧ (allowed (s.kind p) i = false →
            s.writeCmd p w = .next ({ s with cur := p }.faultedWith p 0x09#8 i.opcode)))
    ∧ ∀ a : Access, a.port = p → a.width = 32 → a.kind = .write w → s.mayStep p = true →
        (a.addr - s.params.blockBase).toNat = 0x100 + 0x20 * p.val →
        (¬(s.kind p = .interrupt ∧ w = 0x00000050#32) → s.runEvent (.access a) = s.writeCmd p w)
        ∧ (s.kind p = .interrupt → w = 0x00000050#32 → s.runEvent (.access a) = .next s)

/-- R101, R115, R290: a command issued on the interrupt port writes `RESULT <- 0`, is latched (only `RB_PUSH` has an
operand there) and waits in `I_PEND`; while interrupts on `IRQ_CPU` are off it stays there and nothing changes. -/
def Obligations.InterruptCommandsWaitForEntry : Prop :=
  ∀ (i : Instr) (s : State) (p : PortId), allowed .interrupt i = true →
    (s.atInterruptIssue p →
      exec i s = .next
        { s.begun p i.opcode 0x0F#8 with
          agents := s.agents.set p
            { s.agent p with
              byte := match i with
                | .rbPush b => b
                | _ => (s.agent p).byte } })
    ∧ (s.cur = p → s.faulted = false → (s.port p).opc = i.opcode → (s.port p).phase = 0x0F#8 →
        s.ie s.params.irqCpu = false → exec i s = .next s)

/-- A step runs the decoded instruction (R36, R117, R301). The step takes the schedule's next event and performs it.
When that is port `p`, whose agent may step: if the port is idle, its next program line is the one `A[p].pc` indexes
(R36); if that decodes to `i`, the step writes the operands `i` reads (R103) and performs `i` on that port, and if it
decodes to nothing, the step records `ILLEGAL_ENCODING` (R101, R105); with no line left nothing happens. A line of
the interrupt port is not `IRQ_DISPATCH` (R260, R269: only a delivery issues that). If the port is busy, the step performs the next step of the command in progress: the one of the port's opcode, with the flags and
the byte of the agent's registers (R34, R35, R300).

The model's own: the operand writes and the issue of a line are joined in one step (log 8: R117 has them as writes of
their own), which line of the interrupt port is next (log 9), the fields `sched`, `tick` and `cur` and the event
beyond the schedule's end (logs 1, 10), the stop on parameters that break R7 (log 15), and that an `IRQ_DISPATCH`
line on the interrupt port changes nothing (log 29). -/
def Obligations.StepRunsDecodedCommand : Prop :=
  (∀ (s : State) (e : Event) (rest : List Event), s.params.wf = true → s.sched = e :: rest →
    step s = { s with sched := rest, tick := s.tick + 1 }.runEvent e)
  ∧ (∀ s : State, s.params.wf = true → s.sched = [] →
      step s = { s with tick := s.tick + 1 }.runEvent (Config.freeEvent s.tick))
  ∧ (∀ s : State, s.params.wf = false → step s = .fault .badParams)
  ∧ (∀ (s : State) (p : PortId), s.params.nthread ≤ 7 →
      (p.val ≠ s.params.nthread → s.nextLine p = (s.agent p).prog[(s.agent p).pc.toNat]?)
      ∧ (p.val = s.params.nthread → s.nextLine p = (s.agent p).prog[((s.agent p).pc - s.delivered).toNat]?))
  ∧ (∀ i : Instr, (i.readsArg0 = true ↔ i.opcode ∈ [0x10#8, 0x11#8, 0x13#8, 0x20#8])
      ∧ (i.readsArg1 = true ↔ i.opcode ∈ [0x10#8, 0x11#8, 0x13#8]))
  ∧ (∀ a : Agent,
      commandOf 0x12#8 a = some (.getbyte a.wt) ∧ commandOf 0x13#8 a = some (.write a.blk a.nl)
      ∧ commandOf 0x14#8 a = some (.pollPutc a.byte) ∧ commandOf 0x22#8 a = some (.rbPop a.wt)
      ∧ commandOf 0x30#8 a = some .lockAcq ∧ commandOf 0x33#8 a = some .wakeWait
      ∧ commandOf 0x50#8 a = some .irqDispatch ∧ commandOf 0x21#8 a = some (.rbPush a.byte)
      ∧ commandOf 0x16#8 a = some .enterFail ∧ commandOf 0x32#8 a = some .wakeSignal
      ∧ commandOf 0x40#8 a = some .rxMask ∧ commandOf 0x41#8 a = some .rxUnmask
      ∧ commandOf 0x42#8 a = some .txMask ∧ commandOf 0x43#8 a = some .txUnmask)
  ∧ (∀ (s : State) (p : PortId) (rest : List Event),
      s.params.wf = true → s.sched = .port p :: rest → s.faulted = false → s.mayStep p = true → s.busy p = false →
      (s.nextLine p = none → step s = .next { s with sched := rest, tick := s.tick + 1 })
      ∧ ∀ l : Line, s.nextLine p = some l → decode l.cmd = none →
          step s = .next
            ({ s with sched := rest, tick := s.tick + 1 }.faultedWith p 0x0B#8 (l.cmd.extractLsb' 0 8)))
  ∧ (∀ (s : State) (p : PortId) (rest : List Event) (l : Line) (i : Instr),
      s.params.wf = true → s.sched = .port p :: rest → s.faulted = false → s.mayStep p = true → s.busy p = false →
      s.nextLine p = some l → decode l.cmd = some i →
      (¬(s.kind p = .interrupt ∧ i = .irqDispatch) →
        step s = exec i
          { s with
            sched := rest
            tick := s.tick + 1
            cur := p
            ports := s.ports.set p
              { s.port p with
                arg0 := if i.readsArg0 then l.arg0 else (s.port p).arg0
                arg1 := if i.readsArg1 then l.arg1 else (s.port p).arg1 } })
      ∧ (s.kind p = .interrupt → i = .irqDispatch → step s = .next { s with sched := rest, tick := s.tick + 1 }))
  ∧ ∀ (s : State) (p : PortId) (rest : List Event) (i : Instr),
      s.params.wf = true → s.sched = .port p :: rest → s.faulted = false → s.mayStep p = true → s.busy p = true →
      commandOf (s.port p).opc (s.agent p) = some i →
      step s = exec i { s with sched := rest, tick := s.tick + 1, cur := p }

/-! ### Initialization -/

/-- `INIT_EARLY` (R241): on operands it accepts it records the device and completes; otherwise the first failing
check, in its order, is recorded and nothing else changes. -/
def Obligations.InitEarlyRecordsDeviceOrFaults : Prop :=
  ∀ (s : State) (p : PortId), s.atIssue p →
    (s.earlyDone = false → (s.port p).arg0 ≠ 0#32 → (s.port p).arg0.toNat % 4 = 0 →
      (s.port p).arg1 ∉ s.params.irqInvalid →
      exec .initEarly s = .next
        ({ s with mmioBase := (s.port p).arg0, irqLine := (s.port p).arg1, earlyDone := true }.completed p 0x400#32))
    ∧ (s.earlyDone = true → exec .initEarly s = .next (s.faultedWith p 0x02#8 0x10#8))
    ∧ (s.earlyDone = false →
        ((s.port p).arg0 = 0#32 ∨ (s.port p).arg0.toNat % 4 ≠ 0 ∨ (s.port p).arg1 ∈ s.params.irqInvalid) →
        exec .initEarly s = .next (s.faultedWith p 0x01#8 0x10#8))

/-- `INIT` (R244): the RingBuffer set up, the receive pair unmasked, the mode flag set from `TX_IRQ_USE` unless in
failure mode, all in one step; otherwise the first failing check, in its order. -/
def Obligations.InitStartsReceptionOrFaults : Prop :=
  ∀ (s : State) (p : PortId), s.atIssue p →
    (s.earlyDone = true → s.rbInitDone = false → (s.port p).arg0 ≠ 0#32 → (s.port p).arg0.toNat ≤ s.params.capMax →
      (s.port p).arg1.extractLsb' 1 31 = 0#31 →
      exec .init s = .next
        ({ s with
            cap := (s.port p).arg0.toNat, rd := 0, wr := 0, rbInitDone := true
            txIrqEn := (s.port p).arg1.getLsbD 0 && !s.failureMode
            imask := { s.imask with rxrdyM := false, rxtoM := false }
            initDone := true }.completed p 0x400#32))
    ∧ (s.earlyDone = false → exec .init s = .next (s.faultedWith p 0x02#8 0x11#8))
    ∧ (s.earlyDone = true → s.rbInitDone = true → exec .init s = .next (s.faultedWith p 0x03#8 0x11#8))
    ∧ (s.earlyDone = true → s.rbInitDone = false → (s.port p).arg0 = 0#32 →
        exec .init s = .next (s.faultedWith p 0x04#8 0x11#8))
    ∧ (s.earlyDone = true → s.rbInitDone = false → (s.port p).arg0 ≠ 0#32 →
        s.params.capMax < (s.port p).arg0.toNat → exec .init s = .next (s.faultedWith p 0x05#8 0x11#8))
    ∧ (s.earlyDone = true → s.rbInitDone = false → (s.port p).arg0 ≠ 0#32 →
        (s.port p).arg0.toNat ≤ s.params.capMax → (s.port p).arg1.extractLsb' 1 31 ≠ 0#31 →
        exec .init s = .next (s.faultedWith p 0x01#8 0x11#8))

/-! ### RingBuffer commands -/

/-- `RB_INIT` (R142, R143). -/
def Obligations.RbInitSetsCapacityOrFaults : Prop :=
  ∀ (s : State) (p : PortId), s.atIssue p →
    (s.rbInitDone = false → (s.port p).arg0 ≠ 0#32 → (s.port p).arg0.toNat ≤ s.params.capMax →
      exec .rbInit s = .next
        ({ s with cap := (s.port p).arg0.toNat, rd := 0, wr := 0, rbInitDone := true }.completed p 0x400#32))
    ∧ (s.rbInitDone = true → exec .rbInit s = .next (s.faultedWith p 0x03#8 0x20#8))
    ∧ (s.rbInitDone = false → (s.port p).arg0 = 0#32 → exec .rbInit s = .next (s.faultedWith p 0x04#8 0x20#8))
    ∧ (s.rbInitDone = false → (s.port p).arg0 ≠ 0#32 → s.params.capMax < (s.port p).arg0.toNat →
        exec .rbInit s = .next (s.faultedWith p 0x05#8 0x20#8))

/-- `RB_PUSH` at its entry step (R145, R146): the latched byte goes to the slot of the write cursor and the cursor
advances; no other slot changes. On a full buffer, or before initialization, it faults and writes neither. -/
def Obligations.RbPushStoresByteOrFaults : Prop :=
  ∀ (s : State) (p : PortId) (b : Byte), s.atEntry p 0x21#8 →
    (s.rbInitDone = true → s.isFull = false →
      ∃ t, exec (.rbPush b) s = .next t
        ∧ t.stored (s.wr % s.cap) = (s.agent p).byte
        ∧ (∀ k, k ≠ s.wr % s.cap → t.stored k = s.stored k)
        ∧ t = { s.completed p 0x400#32 with store := t.store, wr := (s.wr + 1) % (2 * s.cap) })
    ∧ (s.rbInitDone = false → exec (.rbPush b) s = .next (s.faultedWith p 0x07#8 0x21#8))
    ∧ (s.rbInitDone = true → s.isFull = true → exec (.rbPush b) s = .next (s.faultedWith p 0x06#8 0x21#8))

/-- The issue step of `RB_POP` (R147, R148): it moves to `P_POP` with its wait flag, or the first failing check, in
its order, is recorded. A consumer elsewhere is a `GETBYTE` or `RB_POP` in progress on another port. -/
def Obligations.RbPopIssuesOrFaults : Prop :=
  ∀ (s : State) (p : PortId) (w : Bool), s.atIssue p →
    (s.consumerElsewhere p = true ↔
      ∃ q, q ≠ p ∧ q.val ≤ s.params.nthread ∧ ((s.port q).opc = 0x12#8 ∨ (s.port q).opc = 0x22#8))
    ∧ (s.rbInitDone = true → (w = true → s.holdsLock p = false) → s.consumerElsewhere p = false →
      exec (.rbPop w) s = .next
        { s.begun p 0x22#8 0x01#8 with agents := s.agents.set p { s.agent p with wt := w } })
    ∧ (s.rbInitDone = false → exec (.rbPop w) s = .next (s.faultedWith p 0x07#8 0x22#8))
    ∧ (s.rbInitDone = true → w = true → s.holdsLock p = true →
        exec (.rbPop w) s = .next (s.faultedWith p 0x0A#8 0x22#8))
    ∧ (s.rbInitDone = true → (w = true → s.holdsLock p = false) → s.consumerElsewhere p = true →
        exec (.rbPop w) s = .next (s.faultedWith p 0x0E#8 0x22#8))

/-- Step `P_POP` (R149): the oldest byte is returned and logged and the read cursor advances; on an empty buffer the
wait flag decides between the empty result and a hold. -/
def Obligations.PPopReturnsOldestByte : Prop :=
  ∀ (s : State) (p : PortId) (w : Bool), s.atStep p 0x22#8 0x01#8 →
    (s.isEmpty = false →
      exec (.rbPop w) s = .next
        ({ s with
            rd := (s.rd + 1) % (2 * s.cap)
            rxOut := s.rxOut ++ [s.stored (s.rd % s.cap)] }.completed p
          ((s.stored (s.rd % s.cap)).setWidth 32 ||| 0x500#32)))
    ∧ (s.isEmpty = true → (s.agent p).wt = false → exec (.rbPop w) s = .next (s.completed p 0x600#32))
    ∧ (s.isEmpty = true → (s.agent p).wt = true → exec (.rbPop w) s = .next s)

/-- R151: a non-blocking pop on an empty buffer, by `RB_POP` or by `GETBYTE`, writes only `RESULT` (the empty result
with `DONE`), the port's idle fields and the agent's command index. -/
def Obligations.EmptyPopWritesOnlyResult : Prop :=
  ∀ (s : State) (p : PortId) (w : Bool), s.isEmpty = true → (s.agent p).wt = false →
    (s.atStep p 0x22#8 0x01#8 → exec (.rbPop w) s = .next (s.completed p 0x600#32))
    ∧ (s.atStep p 0x12#8 0x01#8 → exec (.getbyte w) s = .next (s.completed p 0x600#32))

/-- The RingBuffer is first-in first-out (R152): a push on a buffer that is not full adds its byte at the end of what
the buffer holds; a pop on one that is not empty takes the first byte away and returns it. -/
def Obligations.PushAppendsAndPopTakesFirst : Prop :=
  ∀ (s : State), s.Inv → s.rbInitDone = true →
    (∀ b, s.isFull = false → (s.rbPush b).ring = s.ring ++ [b])
    ∧ (s.isEmpty = false → s.ring = s.rbHead :: s.rbPop.ring)
    ∧ s.ring.length = s.count

/-! ### Receive path -/

/-- The issue step of `GETBYTE` (R162, R148). -/
def Obligations.GetbyteIssuesOrFaults : Prop :=
  ∀ (s : State) (p : PortId) (w : Bool), s.atIssue p →
    (s.initDone = true → s.holdsLock p = false → s.consumerElsewhere p = false →
      exec (.getbyte w) s = .next
        { s.begun p 0x12#8 0x01#8 with agents := s.agents.set p { s.agent p with wt := w } })
    ∧ (s.initDone = false → exec (.getbyte w) s = .next (s.faultedWith p 0x07#8 0x12#8))
    ∧ (s.initDone = true → s.holdsLock p = true → exec (.getbyte w) s = .next (s.faultedWith p 0x0A#8 0x12#8))
    ∧ (s.initDone = true → s.holdsLock p = false → s.consumerElsewhere p = true →
        exec (.getbyte w) s = .next (s.faultedWith p 0x0E#8 0x12#8))

/-- Step `G_POP` (R165): the oldest byte is popped and kept, with the next step `G_LOCK`; on an empty buffer the wait
flag decides between the empty result and suspension. -/
def Obligations.GPopTakesOldestByte : Prop :=
  ∀ (s : State) (p : PortId) (w : Bool), s.atStep p 0x12#8 0x01#8 →
    (s.isEmpty = false →
      exec (.getbyte w) s = .next
        { s.movedTo p 0x02#8 with
          rd := (s.rd + 1) % (2 * s.cap)
          rxOut := s.rxOut ++ [s.stored (s.rd % s.cap)]
          agents := s.agents.set p { s.agent p with data := s.stored (s.rd % s.cap) } })
    ∧ (s.isEmpty = true → (s.agent p).wt = false → exec (.getbyte w) s = .next (s.completed p 0x600#32))
    ∧ (s.isEmpty = true → (s.agent p).wt = true → exec (.getbyte w) s = .next s)

/-- Steps `G_LOCK` and `G_UNMASK` (R166, R181, R183): the lock is taken when it is free (else a hold), and under it
the receive pair is unmasked unless the buffer is full; the lock and the interrupt enable are given back. -/
def Obligations.GUnmaskDecidesUnderLock : Prop :=
  ∀ (s : State) (p : PortId) (w : Bool),
    (s.atStep p 0x12#8 0x02#8 →
      (s.lockHeld = true → exec (.getbyte w) s = .next s)
      ∧ (s.lockHeld = false →
          ∃ t, exec (.getbyte w) s = .next t
            ∧ t.ie (s.core p) = false ∧ (∀ c, c ≠ s.core p → t.ie c = s.ie c)
            ∧ t = { s.movedTo p 0x03#8 with
                    lockHeld := true, lockOwner := p, ieBits := t.ieBits
                    agents := s.agents.set p { s.agent p with savedIe := s.ie (s.core p) } }))
    ∧ (s.atStep p 0x12#8 0x03#8 →
        ∃ t, exec (.getbyte w) s = .next t
          ∧ t.ie (s.core p) = (s.agent p).savedIe ∧ (∀ c, c ≠ s.core p → t.ie c = s.ie c)
          ∧ t = { s.completed p ((s.agent p).data.setWidth 32 ||| 0x500#32) with
                  lockHeld := false, lockOwner := 0, ieBits := t.ieBits
                  imask := if s.isFull = true then s.imask
                    else { s.imask with rxrdyM := false, rxtoM := false } })

/-- `GETBYTE` completes (R162, R165, R166): on a buffer that holds a byte, with the lock free, its issue and three
steps return the oldest byte, take it from the buffer, unmask the receive pair, and leave the lock free and every
interrupt enable as it was. -/
def Obligations.GetbyteReturnsOldestByteInFourSteps : Prop :=
  ∀ (s : State) (p : PortId) (w : Bool) (b : Byte) (rest : List Byte),
    s.Inv → s.atIssue p → s.initDone = true → s.lockHeld = false → s.consumerElsewhere p = false →
    s.ring = b :: rest →
    ∃ t, runCommand (.getbyte w) 4 s = .next t
      ∧ (t.port p).result = b.setWidth 32 ||| 0x500#32 ∧ (t.port p).phase = 0x00#8 ∧ (t.port p).opc = 0x00#8
      ∧ (t.agent p).pc = (s.agent p).pc + 1#32
      ∧ t.ring = rest ∧ t.rxOut = s.rxOut ++ [b]
      ∧ t.imask = { s.imask with rxrdyM := false, rxtoM := false }
      ∧ t.lockHeld = false ∧ (∀ c, t.ie c = s.ie c)
      ∧ t.rxf = s.rxf ∧ t.txf = s.txf ∧ t.txLog = s.txLog ∧ t.wakePend = s.wakePend ∧ t.mem = s.mem
      ∧ (∀ q, q ≠ p → t.port q = s.port q ∧ t.agent q = s.agent q)

/-- `RX_MASK` and `RX_UNMASK` (R163, R164), on a thread port at issue and on the interrupt port at entry: both
receive bits are written, nothing else but the completion; before `INIT_EARLY` they raise `NOT_INIT`. -/
def Obligations.RxMaskCommandsWriteThePair : Prop :=
  ∀ (s : State) (p : PortId),
    (s.atIssue p ∨ s.atEntry p 0x40#8 →
      (s.earlyDone = true → exec .rxMask s = .next
        ({ s with imask := { s.imask with rxrdyM := true, rxtoM := true } }.completed p 0x400#32))
      ∧ (s.earlyDone = false → exec .rxMask s = .next (s.faultedWith p 0x07#8 0x40#8)))
    ∧ (s.atIssue p ∨ s.atEntry p 0x41#8 →
      (s.earlyDone = true → exec .rxUnmask s = .next
        ({ s with imask := { s.imask with rxrdyM := false, rxtoM := false } }.completed p 0x400#32))
      ∧ (s.earlyDone = false → exec .rxUnmask s = .next (s.faultedWith p 0x07#8 0x41#8)))

/-! ### Lock and wake signal -/

/-- `LOCK_ACQ` (R180, R181): issue, then the lock taken when free, with the core's interrupt enable saved and
cleared; a hold while it is held. The core is `cpu(p)`, or `IRQ_CPU` on the interrupt port. -/
def Obligations.LockAcqTakesFreeLock : Prop :=
  ∀ (s : State) (p : PortId),
    (s.params.nthread ≤ 7 →
      s.core p = if p.val = s.params.nthread then s.params.irqCpu else s.params.cpu.getD p.val 0)
    ∧ (s.atIssue p → s.holdsLock p = false → exec .lockAcq s = .next (s.begun p 0x30#8 0x01#8))
    ∧ (s.atStep p 0x30#8 0x01#8 → s.lockHeld = true → exec .lockAcq s = .next s)
    ∧ (s.atStep p 0x30#8 0x01#8 → s.lockHeld = false →
        ∃ t, exec .lockAcq s = .next t
          ∧ t.ie (s.core p) = false ∧ (∀ c, c ≠ s.core p → t.ie c = s.ie c)
          ∧ t = { s.completed p 0x400#32 with
                  lockHeld := true, lockOwner := p, ieBits := t.ieBits
                  agents := s.agents.set p
                    { s.agent p with savedIe := s.ie (s.core p), pc := (s.agent p).pc + 1#32 } })

/-- `LOCK_REL` (R182, R183): the holder's release frees the lock and restores the interrupt enable its acquire
saved; a port that does not hold it raises `LOCK_MISUSE`. -/
def Obligations.LockRelRestoresInterruptEnable : Prop :=
  ∀ (s : State) (p : PortId), s.atIssue p →
    (s.holdsLock p = true →
      ∃ t, exec .lockRel s = .next t
        ∧ t.ie (s.core p) = (s.agent p).savedIe ∧ (∀ c, c ≠ s.core p → t.ie c = s.ie c)
        ∧ t = { s.completed p 0x400#32 with lockHeld := false, lockOwner := 0, ieBits := t.ieBits })
    ∧ (s.holdsLock p = false → exec .lockRel s = .next (s.faultedWith p 0x0A#8 0x31#8))

/-- R188: what raises `LOCK_MISUSE` (code 0x0A) at issue. -/
def Obligations.LockMisuseFaultsAtIssue : Prop :=
  ∀ (s : State) (p : PortId), s.atIssue p →
    (s.holdsLock p = true ↔ s.lockHeld = true ∧ s.lockOwner = p)
    ∧ (s.holdsLock p = false → exec .lockRel s = .next (s.faultedWith p 0x0A#8 0x31#8))
    ∧ (s.holdsLock p = true →
        exec .lockAcq s = .next (s.faultedWith p 0x0A#8 0x30#8)
        ∧ exec .wakeWait s = .next (s.faultedWith p 0x0A#8 0x33#8)
        ∧ (∀ w, s.initDone = true → exec (.getbyte w) s = .next (s.faultedWith p 0x0A#8 0x12#8))
        ∧ (∀ w n, s.earlyDone = true → exec (.write w n) s = .next (s.faultedWith p 0x0A#8 0x13#8))
        ∧ (s.rbInitDone = true → exec (.rbPop true) s = .next (s.faultedWith p 0x0A#8 0x22#8)))

/-- `WAKE_SIGNAL` (R184, R185): one wake pends, whatever pended before; no initialization is needed. -/
def Obligations.WakeSignalLeavesOneWakePending : Prop :=
  ∀ (s : State) (p : PortId), s.atIssue p ∨ s.atEntry p 0x32#8 →
    exec .wakeSignal s = .next ({ s with wakePend := true }.completed p 0x400#32)

/-- `WAKE_WAIT` (R186, R187): the issue counts one wait and moves to `K_WAIT`, which consumes a pending wake and
completes, or holds while none pends. -/
def Obligations.WakeWaitConsumesPendingWake : Prop :=
  ∀ (s : State) (p : PortId),
    (s.atIssue p → s.holdsLock p = false →
      exec .wakeWait s = .next { s.begun p 0x33#8 0x01#8 with waitCnt := s.waitCnt + 1#32 })
    ∧ (s.atStep p 0x33#8 0x01#8 → s.wakePend = true →
        exec .wakeWait s = .next ({ s with wakePend := false }.completed p 0x400#32))
    ∧ (s.atStep p 0x33#8 0x01#8 → s.wakePend = false → exec .wakeWait s = .next s)

/-- R190: a spurious wake of a thread that may step writes nothing but its own phase, whatever `S.WAKE_PEND` is: in
`K_WAIT` the command is done, in `W_WAIT` the next step is `W_LOCK`. -/
def Obligations.SpuriousWakeWritesOnlyThePort : Prop :=
  ∀ (s : State) (p : PortId), s.faulted = false → s.mayStep p = true → s.kind p = .thread →
    ((s.port p).opc = 0x33#8 → (s.port p).phase = 0x01#8 →
      s.runEvent (.spuriousWake p) = .next (s.completed p 0x400#32))
    ∧ ((s.port p).opc = 0x13#8 → (s.port p).phase = 0x04#8 →
        s.runEvent (.spuriousWake p) = .next (s.movedTo p 0x02#8))

/-- R191: after `k ≥ 1` signals, of two agents that wait one proceeds and the other holds. -/
def Obligations.SignalsCoalesceToOneWake : Prop :=
  ∀ (s : State) (k : Nat) (p q : PortId), 1 ≤ k → p ≠ q →
    let t := Nat.repeat State.signal k s
    let u := stepKWait p t
    t = { s with wakePend := true }
    ∧ u = { s with wakePend := false }.completed p 0x400#32
    ∧ stepKWait q u = u ∧ stepWWait q u = u

/-- `YIELD` (R189) changes nothing but the completion. -/
def Obligations.YieldOnlyCompletes : Prop :=
  ∀ (s : State) (p : PortId), s.atIssue p → exec .yield s = .next (s.completed p 0x400#32)

/-- R193: the lock, once held, leaves its holder only by a step of the holder or by reset, and while it is held no
other port takes it. -/
def Obligations.LockLeavesOnlyByItsOwner : Prop :=
  ∀ (s t : State), s.Inv → s.lockHeld = true → step s = .next t →
    (t.lockHeld = true ∧ t.lockOwner = s.lockOwner)
    ∨ (t.lockHeld = false ∧
        (s.nextEvent = .reset ∨ s.nextEvent = .port s.lockOwner
          ∨ ∃ a, s.nextEvent = .access a ∧ a.port = s.lockOwner))

/-! ### Transmit path -/

/-- The issue step of `WRITE` (R202): the operands are copied, and a length of 0 completes at once. -/
def Obligations.WriteIssuesOrFaults : Prop :=
  ∀ (s : State) (p : PortId) (w n : Bool), s.atIssue p →
    (s.earlyDone = true → s.holdsLock p = false → (s.port p).arg1 ≠ 0#32 →
      exec (.write w n) s = .next
        { s.begun p 0x13#8 0x01#8 with
          agents := s.agents.set p
            { s.agent p with
              src := (s.port p).arg0, len := (s.port p).arg1, idx := 0#32, blk := w, nl := n, crp := false } })
    ∧ (s.earlyDone = true → s.holdsLock p = false → (s.port p).arg1 = 0#32 →
        exec (.write w n) s = .next
          { s.completed p 0x400#32 with
            agents := s.agents.set p
              { s.agent p with
                src := (s.port p).arg0, len := 0#32, idx := 0#32, blk := w, nl := n, crp := false
                pc := (s.agent p).pc + 1#32 } })
    ∧ (s.earlyDone = false → exec (.write w n) s = .next (s.faultedWith p 0x07#8 0x13#8))
    ∧ (s.earlyDone = true → s.holdsLock p = true → exec (.write w n) s = .next (s.faultedWith p 0x0A#8 0x13#8))

/-- Step `W_SELECT` (R203): the next byte of the source, or the CR injected before a newline; a source address the
platform does not allow leaves the agent stuck (R73). The source byte is what host memory holds at that address: at
reset the free contents `Config.hostMem`, and after the platform's change of one byte that byte there and what was
before elsewhere (R73, R85; the event `hostStore` and the free contents are the model's form of it, log 6). -/
def Obligations.WSelectChoosesNextByte : Prop :=
  (∀ a : Word, State.reset.hostByte a = Config.hostMem a.toNat)
  ∧ (∀ (s : State) (a : Word) (b : Byte),
      ∃ t, s.runEvent (.hostStore a b) = .next t ∧ t = { s with mem := t.mem }
        ∧ t.hostByte a = b ∧ ∀ c, c ≠ a → t.hostByte c = s.hostByte c)
  ∧ ∀ (s : State) (p : PortId) (w n : Bool), s.atStep p 0x13#8 0x01#8 →
    let a := s.agent p
    let c := s.hostByte (a.src + a.idx)
    (a.src + a.idx ∈ s.params.hostDeny → exec (.write w n) s = .next s)
    ∧ (a.src + a.idx ∉ s.params.hostDeny → a.nl = true → c = 0x0A#8 → a.crp = false →
        exec (.write w n) s = .next
          { s.movedTo p 0x02#8 with agents := s.agents.set p { a with out := 0x0D#8, crp := true } })
    ∧ (a.src + a.idx ∉ s.params.hostDeny → (a.nl = false ∨ c ≠ 0x0A#8 ∨ a.crp = true) →
        exec (.write w n) s = .next
          { s.movedTo p 0x02#8 with
            agents := s.agents.set p { a with out := c, crp := false, idx := a.idx + 1#32 } })

/-- Steps `W_LOCK`, `W_WAIT` and `W_YIELD` (R204, R206, R207): the lock is taken when free; a pending wake is
consumed; the polled path only goes back to `W_LOCK`. -/
def Obligations.WLockWaitAndYieldSteps : Prop :=
  ∀ (s : State) (p : PortId) (w n : Bool),
    (s.atStep p 0x13#8 0x02#8 → s.lockHeld = true → exec (.write w n) s = .next s)
    ∧ (s.atStep p 0x13#8 0x02#8 → s.lockHeld = false →
        ∃ t, exec (.write w n) s = .next t
          ∧ t.ie (s.core p) = false ∧ (∀ c, c ≠ s.core p → t.ie c = s.ie c)
          ∧ t = { s.movedTo p 0x03#8 with
                  lockHeld := true, lockOwner := p, ieBits := t.ieBits
                  agents := s.agents.set p { s.agent p with savedIe := s.ie (s.core p) } })
    ∧ (s.atStep p 0x13#8 0x04#8 → s.wakePend = true →
        exec (.write w n) s = .next { s.movedTo p 0x02#8 with wakePend := false })
    ∧ (s.atStep p 0x13#8 0x04#8 → s.wakePend = false → exec (.write w n) s = .next s)
    ∧ (s.atStep p 0x13#8 0x05#8 → exec (.write w n) s = .next (s.movedTo p 0x02#8))

/-- Step `W_CHECK` (R205): on a full FIFO a blocking writer with interrupt-driven transmit arms the transmit-ready
source and waits, any other goes the polled way; with room the byte goes into the FIFO and its log. The lock and the
interrupt enable are given back in every case, and one full observation of a blocking writer is one wait
(R213 (a)). -/
def Obligations.WCheckPutsByteOrWaits : Prop :=
  ∀ (s : State) (p : PortId) (w n : Bool), s.atStep p 0x13#8 0x03#8 →
    ∃ t, exec (.write w n) s = .next t
      ∧ t.ie (s.core p) = (s.agent p).savedIe ∧ (∀ c, c ≠ s.core p → t.ie c = s.ie c)
      ∧ (s.txf.length = s.params.txfDepth → (s.agent p).blk = true → s.txIrqEn = true →
          t = { s.movedTo p 0x04#8 with
                lockHeld := false, lockOwner := 0, ieBits := t.ieBits
                fullCnt := s.fullCnt + 1#32, waitCnt := s.waitCnt + 1#32
                imask := { s.imask with txrdyM := false } })
      ∧ (s.txf.length = s.params.txfDepth → ((s.agent p).blk = false ∨ s.txIrqEn = false) →
          t = { s.movedTo p 0x05#8 with
                lockHeld := false, lockOwner := 0, ieBits := t.ieBits, fullCnt := s.fullCnt + 1#32 })
      ∧ (s.txf.length ≠ s.params.txfDepth → (s.agent p).idx = (s.agent p).len → (s.agent p).crp = false →
          t = { s.completed p 0x400#32 with
                lockHeld := false, lockOwner := 0, ieBits := t.ieBits
                txf := s.txf ++ [(s.agent p).out], txLog := s.txLog ++ [(s.agent p).out] })
      ∧ (s.txf.length ≠ s.params.txfDepth → ((s.agent p).idx ≠ (s.agent p).len ∨ (s.agent p).crp = true) →
          t = { s.movedTo p 0x01#8 with
                lockHeld := false, lockOwner := 0, ieBits := t.ieBits
                txf := s.txf ++ [(s.agent p).out], txLog := s.txLog ++ [(s.agent p).out] })

/-- What one `WRITE` sends (R201, R203, R205): with the lock free and room for all of it, the command's steps put the
mapped input, in order, into the transmit FIFO and its log, complete, and give the lock and every interrupt enable
back. It is a run of the one command with no other step in between. -/
def Obligations.WriteSendsMappedInput : Prop :=
  ∀ (s : State) (p : PortId) (w n : Bool),
    s.atIssue p → s.earlyDone = true → s.lockHeld = false →
    (∀ k, k < (s.port p).arg1.toNat → (s.port p).arg0 + BitVec.ofNat 32 k ∉ s.params.hostDeny) →
    let sent := mapNewline n (s.hostBytes (s.port p).arg0 (s.port p).arg1.toNat)
    s.txf.length + sent.length ≤ s.params.txfDepth →
    ∃ t, runCommand (.write w n) (1 + 3 * sent.length) s = .next t
      ∧ t.txf = s.txf ++ sent ∧ t.txLog = s.txLog ++ sent
      ∧ (t.port p).result = 0x400#32 ∧ (t.port p).phase = 0x00#8 ∧ (t.port p).opc = 0x00#8
      ∧ (t.agent p).pc = (s.agent p).pc + 1#32
      ∧ t.lockHeld = false ∧ (∀ c, t.ie c = s.ie c)
      ∧ t.waitCnt = s.waitCnt ∧ t.fullCnt = s.fullCnt ∧ t.imask = s.imask ∧ t.wakePend = s.wakePend
      ∧ t.rxf = s.rxf ∧ t.ring = s.ring ∧ t.mem = s.mem
      ∧ (∀ q, q ≠ p → t.port q = s.port q ∧ t.agent q = s.agent q)

/-- `TX_MASK` and `TX_UNMASK` (R210, R211), on a thread port at issue and on the interrupt port at entry. -/
def Obligations.TxMaskCommandsWriteTheBit : Prop :=
  ∀ (s : State) (p : PortId),
    (s.atIssue p ∨ s.atEntry p 0x42#8 →
      (s.earlyDone = true → exec .txMask s = .next
        ({ s with imask := { s.imask with txrdyM := true } }.completed p 0x400#32))
      ∧ (s.earlyDone = false → exec .txMask s = .next (s.faultedWith p 0x07#8 0x42#8)))
    ∧ (s.atIssue p ∨ s.atEntry p 0x43#8 →
      (s.earlyDone = true → exec .txUnmask s = .next
        ({ s with imask := { s.imask with txrdyM := false } }.completed p 0x400#32))
      ∧ (s.earlyDone = false → exec .txUnmask s = .next (s.faultedWith p 0x07#8 0x43#8)))

/-- R213 (c): the transmit-ready mask goes to 0 only in the `W_CHECK` of a blocking `WRITE` that found the FIFO full
with interrupt-driven transmit enabled, or by `TX_UNMASK` (issued by a program line or by an agent's write of its own
`CMD` register, or entered on the interrupt port); it goes to 1 only in `I_TX`, by `TX_MASK`, or at reset. -/
def Obligations.TransmitMaskHasTheseWritersOnly : Prop :=
  ∀ (s t : State), s.Inv → step s = .next t → t.imask.txrdyM ≠ s.imask.txrdyM →
    (t.imask.txrdyM = false ∧
      ((∃ p, s.nextEvent = .port p ∧ (s.port p).opc = 0x13#8 ∧ (s.port p).phase = 0x03#8 ∧ (s.agent p).blk = true
          ∧ s.txIrqEn = true ∧ s.txf.length = s.params.txfDepth)
        ∨ (∃ p l, s.nextEvent = .port p ∧ s.busy p = false ∧ s.nextLine p = some l ∧ l.cmd = 0x43#32)
        ∨ (∃ p, s.nextEvent = .port p ∧ (s.port p).opc = 0x43#8 ∧ (s.port p).phase = 0x0F#8)
        ∨ (∃ a, s.nextEvent = .access a ∧ a.kind = .write 0x43#32
            ∧ (a.addr - s.params.blockBase).toNat = 0x100 + 0x20 * a.port.val)))
    ∨ (t.imask.txrdyM = true ∧
      (s.nextEvent = .reset
        ∨ (∃ p, s.nextEvent = .port p ∧ (s.port p).opc = 0x50#8 ∧ (s.port p).phase = 0x05#8)
        ∨ (∃ p l, s.nextEvent = .port p ∧ s.busy p = false ∧ s.nextLine p = some l ∧ l.cmd = 0x42#32)
        ∨ (∃ p, s.nextEvent = .port p ∧ (s.port p).opc = 0x42#8 ∧ (s.port p).phase = 0x0F#8)
        ∨ (∃ a, s.nextEvent = .access a ∧ a.kind = .write 0x42#32
            ∧ (a.addr - s.params.blockBase).toNat = 0x100 + 0x20 * a.port.val)))

/-! ### Panic path -/

/-- `ENTER_FAIL` (R231), on a thread port at issue and on the interrupt port at entry, at any stage: the mode flag is
cleared and failure mode recorded; a second one writes the same values. -/
def Obligations.EnterFailClearsModeFlag : Prop :=
  ∀ (s : State) (p : PortId), s.atIssue p ∨ s.atEntry p 0x16#8 →
    exec .enterFail s = .next ({ s with txIrqEn := false, failureMode := true }.completed p 0x400#32)

/-- `POLL_PUTC` (R233): issue or its faults, then the byte into the FIFO and its log when there is room, else a
hold. -/
def Obligations.PollPutcPutsByteWhenRoom : Prop :=
  ∀ (s : State) (p : PortId) (b : Byte),
    (s.atIssue p →
      (s.earlyDone = true → s.failureMode = true →
        exec (.pollPutc b) s = .next
          { s.begun p 0x14#8 0x01#8 with agents := s.agents.set p { s.agent p with byte := b } })
      ∧ (s.earlyDone = false → exec (.pollPutc b) s = .next (s.faultedWith p 0x07#8 0x14#8))
      ∧ (s.earlyDone = true → s.failureMode = false →
          exec (.pollPutc b) s = .next (s.faultedWith p 0x08#8 0x14#8)))
    ∧ (s.atStep p 0x14#8 0x01#8 → s.txf.length < s.params.txfDepth →
        exec (.pollPutc b) s = .next
          ({ s with
              txf := s.txf ++ [(s.agent p).byte], txLog := s.txLog ++ [(s.agent p).byte] }.completed p 0x400#32))
    ∧ (s.atStep p 0x14#8 0x01#8 → s.params.txfDepth ≤ s.txf.length → exec (.pollPutc b) s = .next s)

/-- `POLL_GETC` (R235): the oldest byte of the receive FIFO, returned and logged, the receive timeout cleared when
that empties the FIFO; the empty result on an empty FIFO; or its faults. -/
def Obligations.PollGetcReadsReceiveFifo : Prop :=
  ∀ (s : State) (p : PortId), s.atIssue p →
    (∀ b rest, s.earlyDone = true → s.failureMode = true → s.rxf = b :: rest →
      exec .pollGetc s = .next
        ({ s with
            rxf := rest, rxtoP := if rest = [] then false else s.rxtoP
            rxOut := s.rxOut ++ [b] }.completed p (b.setWidth 32 ||| 0x500#32)))
    ∧ (s.earlyDone = true → s.failureMode = true → s.rxf = [] → exec .pollGetc s = .next (s.completed p 0x600#32))
    ∧ (s.earlyDone = false → exec .pollGetc s = .next (s.faultedWith p 0x07#8 0x15#8))
    ∧ (s.earlyDone = true → s.failureMode = false → exec .pollGetc s = .next (s.faultedWith p 0x08#8 0x15#8))

/-- R237: in failure mode `S.WAITCNT` changes only by the issue of a `WAKE_WAIT`, by a program line or by an agent's
write of its own `CMD` register (or by reset, which ends failure mode). -/
def Obligations.FailureModeCountsOnlyWakeWaits : Prop :=
  ∀ (s t : State), s.Inv → s.failureMode = true → step s = .next t → t.waitCnt ≠ s.waitCnt →
    s.nextEvent = .reset
    ∨ (∃ p l, s.nextEvent = .port p ∧ s.busy p = false ∧ s.nextLine p = some l ∧ l.cmd = 0x33#32)
    ∨ ∃ a, s.nextEvent = .access a ∧ a.kind = .write 0x33#32
        ∧ (a.addr - s.params.blockBase).toNat = 0x100 + 0x20 * a.port.val

/-! ### Interrupt dispatch -/

/-- Entry of `IRQ_DISPATCH` (R247, R291): the interrupt enable of `IRQ_CPU` is saved and cleared, nothing of any
other port changes; before `INIT` it faults. -/
def Obligations.DispatchEntrySavesInterruptEnable : Prop :=
  ∀ (s : State) (p : PortId), s.atEntry p 0x50#8 →
    (s.initDone = true →
      ∃ t, exec .irqDispatch s = .next t
        ∧ t.ie s.params.irqCpu = false ∧ (∀ c, c ≠ s.params.irqCpu → t.ie c = s.ie c)
        ∧ t = { s.movedTo p 0x01#8 with
                ieBits := t.ieBits
                agents := s.agents.set p { s.agent p with entryIe := s.ie s.params.irqCpu } })
    ∧ (s.initDone = false → exec .irqDispatch s = .next (s.faultedWith p 0x07#8 0x50#8))

/-- `I_DRAIN` (R168): with a byte in the receive FIFO and room in the buffer, the oldest byte is moved and the step
repeats; otherwise the mask decision follows and nothing moves. -/
def Obligations.DrainMovesOneByteAStep : Prop :=
  ∀ (s : State) (p : PortId), s.atStep p 0x50#8 0x03#8 →
    (∀ b rest, s.rxf = b :: rest → s.isFull = false →
      ∃ t, exec .irqDispatch s = .next t
        ∧ t.stored (s.wr % s.cap) = b ∧ (∀ k, k ≠ s.wr % s.cap → t.stored k = s.stored k)
        ∧ t = { s with
                rxf := rest, rxtoP := if rest = [] then false else s.rxtoP
                store := t.store, wr := (s.wr + 1) % (2 * s.cap) })
    ∧ ((s.rxf = [] ∨ s.isFull = true) → exec .irqDispatch s = .next (s.movedTo p 0x04#8))

/-- `I_LOCK`, `I_RXSEL`, `I_RXEND` and `I_TX` (R248, R167, R169, R212): the lock is taken when free, else a hold; the
drain follows only if a receive source is active; the receive pair is masked exactly when the drain ended with the
buffer full; an active transmit-ready source signals the wake and is masked. -/
def Obligations.DispatchLockSelectAndMaskSteps : Prop :=
  ∀ (s : State) (p : PortId),
    (s.atStep p 0x50#8 0x01#8 → s.lockHeld = true → exec .irqDispatch s = .next s)
    ∧ (s.atStep p 0x50#8 0x01#8 → s.lockHeld = false →
        ∃ t, exec .irqDispatch s = .next t
          ∧ t.ie (s.core p) = false ∧ (∀ c, c ≠ s.core p → t.ie c = s.ie c)
          ∧ t = { s.movedTo p 0x02#8 with
                  lockHeld := true, lockOwner := p, ieBits := t.ieBits
                  agents := s.agents.set p { s.agent p with savedIe := s.ie (s.core p) } })
    ∧ (s.atStep p 0x50#8 0x02#8 → s.rxA = true → exec .irqDispatch s = .next (s.movedTo p 0x03#8))
    ∧ (s.atStep p 0x50#8 0x02#8 → s.rxA = false → exec .irqDispatch s = .next (s.movedTo p 0x05#8))
    ∧ (s.atStep p 0x50#8 0x04#8 →
        exec .irqDispatch s = .next
          { s.movedTo p 0x05#8 with
            imask := if s.isFull = true then { s.imask with rxrdyM := true, rxtoM := true } else s.imask })
    ∧ (s.atStep p 0x50#8 0x05#8 → s.txrdyA = true →
        exec .irqDispatch s = .next
          { s.movedTo p 0x06#8 with wakePend := true, imask := { s.imask with txrdyM := true } })
    ∧ (s.atStep p 0x50#8 0x05#8 → s.txrdyA = false → exec .irqDispatch s = .next (s.movedTo p 0x06#8))

/-- `I_EXIT` (R253, R292): the lock is released, the interrupt enable of `IRQ_CPU` restored from what entry saved,
and the command completed. -/
def Obligations.DispatchExitRestoresInterruptEnable : Prop :=
  ∀ (s : State) (p : PortId), s.kind p = .interrupt → s.atStep p 0x50#8 0x06#8 →
    ∃ t, exec .irqDispatch s = .next t
      ∧ t.ie s.params.irqCpu = (s.agent p).entryIe ∧ (∀ c, c ≠ s.params.irqCpu → t.ie c = s.ie c)
      ∧ t = { s.completed p 0x400#32 with lockHeld := false, lockOwner := 0, ieBits := t.ieBits }

/-- One dispatch with no other step in between (R246 to R253, R160, R338): from its entry, with the lock free and a
receive source active (`DispatchLockSelectAndMaskSteps` has the steps when none is), it moves as many of the oldest
bytes of the receive FIFO as there is room for, in order, masks the receive pair exactly if the buffer is then full,
and gives the lock and the interrupt enable back. -/
def Obligations.DispatchDrainsWhatFits : Prop :=
  ∀ (s : State) (p : PortId), s.Inv → s.atEntry p 0x50#8 → s.initDone = true → s.lockHeld = false → s.rxA = true →
    let k := min s.rxf.length (s.cap - s.count)
    ∃ t, runCommand .irqDispatch (k + 7) s = .next t
      ∧ t.ring = s.ring ++ s.rxf.take k ∧ t.rxf = s.rxf.drop k
      ∧ t.imask.rxrdyM = (if t.count = t.cap then true else s.imask.rxrdyM)
      ∧ t.imask.rxtoM = (if t.count = t.cap then true else s.imask.rxtoM)
      ∧ t.lockHeld = false ∧ (∀ c, t.ie c = s.ie c)
      ∧ t.wakePend = (s.wakePend || s.txrdyA) ∧ t.imask.txrdyM = (s.imask.txrdyM || s.txrdyA)
      ∧ (t.port p).result = 0x400#32 ∧ (t.port p).phase = 0x00#8
      ∧ t.rxOut = s.rxOut ∧ t.txf = s.txf ∧ t.mem = s.mem
      ∧ (∀ q, q ≠ p → t.port q = s.port q ∧ t.agent q = s.agent q)

/-- `IC_DELIVER` (R266): with the line up, the interrupt port idle and interrupts on `IRQ_CPU` enabled, the
`IRQ_DISPATCH` word is issued on the interrupt port, which then waits in `I_PEND`; otherwise nothing happens. It is
the only issuer of `IRQ_DISPATCH` (R260): a step after which that command is in progress on the interrupt port, and
before which it was not, is a delivery, and was enabled. -/
def Obligations.DeliverIssuesDispatch : Prop :=
  (∀ s t : State, step s = .next t → (t.port s.intPort).opc = 0x50#8 → (s.port s.intPort).opc ≠ 0x50#8 →
    s.nextEvent = .deliver ∧ s.faulted = false ∧ s.irqOut = true ∧ s.busy s.intPort = false
      ∧ s.ie s.params.irqCpu = true)
  ∧ ∀ (s : State),
    (s.faulted = false → s.irqOut = true → s.busy s.intPort = false → s.ie s.params.irqCpu = true →
      s.runEvent .deliver = .next
        { s.begun s.intPort 0x50#8 0x0F#8 with delivered := s.delivered + 1#32, cur := s.intPort })
    ∧ (s.faulted = true ∨ s.irqOut = false ∨ s.busy s.intPort = true ∨ s.ie s.params.irqCpu = false →
        s.runEvent .deliver = .next s)

/-! ### The line -/

/-- R261 to R263: an arrival is appended or, on a full FIFO, lost without trace; the receive timeout rises only with
a byte in the FIFO; a departure takes the oldest byte of the transmit FIFO. -/
def Obligations.LineAgentSteps : Prop :=
  ∀ (s : State), s.faulted = false →
    (∀ b, s.rxf.length < s.params.rxfDepth →
      s.runEvent (.lineRx b) = .next { s with rxf := s.rxf ++ [b], rxIn := s.rxIn ++ [b] })
    ∧ (∀ b, s.params.rxfDepth ≤ s.rxf.length → s.runEvent (.lineRx b) = .next s)
    ∧ (s.rxf ≠ [] → s.rxtoP = false → s.runEvent .lineRxTimeout = .next { s with rxtoP := true })
    ∧ (s.rxf = [] ∨ s.rxtoP = true → s.runEvent .lineRxTimeout = .next s)
    ∧ (∀ b rest, s.txf = b :: rest →
        s.runEvent .lineTx = .next { s with txf := rest, lineOut := s.lineOut ++ [b] })
    ∧ (s.txf = [] → s.runEvent .lineTx = .next s)

/-! ### The register window -/

/-- R42 to R48, R50: what each register of the window reads: the fields of `STATUS`, `IMASK`, `IPEND`, `FAULT`,
`FIFOLVL` and each port's `PSTATE`, with their reserved bits 0, and the registers that hold one value; and what the
derived bits are (R26, R29, R33, R34, R39, R188). `RBCAP`, `RBRD` and `RBWR` show the number itself below 2^32; that one
which does not fit shows its low bits is the model's (log 22). -/
def Obligations.WindowWordsHoldTheirFields : Prop :=
  ∀ (s : State),
    (s.windowRead 0x000 = some s.statusWord
      ∧ s.statusWord.getLsbD 0 = s.earlyDone ∧ s.statusWord.getLsbD 1 = s.initDone
      ∧ s.statusWord.getLsbD 2 = s.rbInitDone ∧ s.statusWord.getLsbD 3 = s.txIrqEn
      ∧ s.statusWord.getLsbD 4 = s.failureMode ∧ s.statusWord.getLsbD 5 = s.isEmpty
      ∧ s.statusWord.getLsbD 6 = s.isFull ∧ s.statusWord.getLsbD 7 = s.lockHeld
      ∧ (s.statusWord.extractLsb' 8 3).toNat = s.lockOwner.val
      ∧ s.statusWord.getLsbD 11 = s.wakePend ∧ s.statusWord.getLsbD 12 = s.irqOut
      ∧ s.statusWord.getLsbD 13 = s.faulted ∧ s.statusWord.extractLsb' 14 18 = 0#18)
    ∧ (s.windowRead 0x004 = some s.imaskWord ∧ s.imaskWord.getLsbD 0 = s.imask.rxrdyM
      ∧ s.imaskWord.getLsbD 1 = s.imask.rxtoM ∧ s.imaskWord.getLsbD 2 = s.imask.txrdyM
      ∧ s.imaskWord.extractLsb' 3 29 = 0#29)
    ∧ (s.windowRead 0x008 = some s.ipendWord ∧ s.ipendWord.getLsbD 0 = s.rxrdyP ∧ s.ipendWord.getLsbD 1 = s.rxtoP
      ∧ s.ipendWord.getLsbD 2 = s.txrdyP ∧ s.ipendWord.getLsbD 3 = false ∧ s.ipendWord.getLsbD 4 = s.rxrdyA
      ∧ s.ipendWord.getLsbD 5 = s.rxtoA ∧ s.ipendWord.getLsbD 6 = s.txrdyA ∧ s.ipendWord.extractLsb' 7 25 = 0#25)
    ∧ (s.windowRead 0x018 = some s.faultWord ∧ s.faultWord.extractLsb' 0 8 = s.fault.code
      ∧ s.faultWord.extractLsb' 8 8 = s.fault.opc ∧ (s.faultWord.extractLsb' 16 3).toNat = s.fault.port.val
      ∧ s.faultWord.getLsbD 19 = false ∧ s.faultWord.extractLsb' 20 12 = s.fault.offset)
    ∧ (s.windowRead 0x02C = some s.fifoWord
      ∧ (s.rxf.length < 65536 → (s.fifoWord.extractLsb' 0 16).toNat = s.rxf.length)
      ∧ (s.txf.length < 65536 → (s.fifoWord.extractLsb' 16 16).toNat = s.txf.length))
    ∧ (s.windowRead 0x00C = some (BitVec.ofNat 32 s.cap) ∧ s.windowRead 0x010 = some (BitVec.ofNat 32 s.rd)
      ∧ s.windowRead 0x014 = some (BitVec.ofNat 32 s.wr) ∧ s.windowRead 0x01C = some s.waitCnt
      ∧ s.windowRead 0x020 = some s.fullCnt ∧ s.windowRead 0x024 = some s.mmioBase
      ∧ s.windowRead 0x028 = some s.irqLine)
    ∧ (s.rxrdyP = decide (s.params.rxThresh ≤ s.rxf.length) ∧ s.txrdyP = decide (s.txf.length ≤ s.params.txThresh)
      ∧ s.rxrdyA = (decide (s.params.rxThresh ≤ s.rxf.length) && !s.imask.rxrdyM)
      ∧ s.rxtoA = (s.rxtoP && !s.imask.rxtoM)
      ∧ s.txrdyA = (decide (s.txf.length ≤ s.params.txThresh) && !s.imask.txrdyM)
      ∧ s.rxA = (s.rxrdyA || s.rxtoA) ∧ s.irqOut = (s.initDone && (s.rxrdyA || s.rxtoA || s.txrdyA)))
    ∧ ((s.cap = 0 → s.count = 0)
      ∧ (s.rd < 2 * s.cap → s.wr < 2 * s.cap →
        s.count = if s.rd ≤ s.wr then s.wr - s.rd else 2 * s.cap + s.wr - s.rd)
      ∧ s.isEmpty = decide (s.count = 0) ∧ s.isFull = (s.rbInitDone && decide (s.count = s.cap))
      ∧ s.faulted = decide (s.fault.code ≠ 0x00#8))
    ∧ ∀ p : PortId, s.params.nthread ≤ 7 → p.val ≤ s.params.nthread →
        s.windowRead (0x104 + 0x20 * p.val) = some (s.port p).arg0
        ∧ s.windowRead (0x108 + 0x20 * p.val) = some (s.port p).arg1
        ∧ s.windowRead (0x10C + 0x20 * p.val) = some (s.port p).result
        ∧ s.windowRead (0x110 + 0x20 * p.val) = some (s.pstateWord p)
        ∧ (s.pstateWord p).extractLsb' 0 8 = (s.port p).phase ∧ (s.pstateWord p).extractLsb' 8 8 = (s.port p).opc
        ∧ (s.pstateWord p).getLsbD 16 = s.busy p ∧ (s.pstateWord p).getLsbD 17 = decide (s.kind p = .interrupt)
        ∧ (s.pstateWord p).getLsbD 18 = s.holdsLock p ∧ (s.pstateWord p).extractLsb' 19 13 = 0#13
        ∧ s.busy p = decide ((s.port p).phase ≠ 0x00#8) ∧ (s.kind p = .interrupt ↔ p.val = s.params.nthread)
        ∧ s.holdsLock p = (s.lockHeld && decide (s.lockOwner = p))

/-- R75, R76: an access of another width or alignment, to a reserved offset (0x030 to 0x0FF, from 0x14 on in a port's
bank, above the last port's bank), a write to a read-only register or to another port's bank, and a read of `CMD`
(at 0x00 of a bank) record `BUS_ERROR` (code 0x0D, `OPC` 0xFF) with the offset, and change nothing else. The aligned
offsets that cannot be read are just these. An access outside the window is none of the RBFC's (R71): the model
refuses it by name (log 11). -/
def Obligations.BadAccessRaisesBusError : Prop :=
  (∀ (s : State) (o : Nat), o < 0x200 → o % 4 = 0 →
    (s.windowRead o = none ↔
      (0x030 ≤ o ∧ o < 0x100) ∨ (0x100 ≤ o ∧ (o % 0x20 = 0x00 ∨ 0x14 ≤ o % 0x20))
        ∨ 0x100 + 0x20 * (s.params.nthread + 1) ≤ o))
  ∧ (∀ (s : State) (a : Access), s.mayStep a.port = true → 0x200 ≤ (a.addr - s.params.blockBase).toNat →
      s.runEvent (.access a) = .refused .outsideWindow)
  ∧ ∀ (s : State) (a : Access), s.faulted = false → s.mayStep a.port = true →
    let o := (a.addr - s.params.blockBase).toNat
    o < 0x200 →
    (a.width ≠ 32 ∨ o % 4 ≠ 0
      ∨ (a.kind = .read ∧
          ((0x030 ≤ o ∧ o < 0x100) ∨ (0x100 ≤ o ∧ (o % 0x20 = 0x00 ∨ 0x14 ≤ o % 0x20))
            ∨ 0x100 + 0x20 * (s.params.nthread + 1) ≤ o))
      ∨ (∃ v, a.kind = .write v ∧ o ≠ 0x100 + 0x20 * a.port.val ∧ o ≠ 0x104 + 0x20 * a.port.val
          ∧ o ≠ 0x108 + 0x20 * a.port.val)) →
    s.runEvent (.access a) = .next
      { s with fault := { code := 0x0D#8, opc := 0xFF#8, port := a.port, offset := BitVec.ofNat 12 o } }

/-- R77: a read that the window admits returns the register's value and changes nothing (`busData`, the model's own,
is the word returned, log 10); a write of an agent's own `ARG0` or `ARG1` stores the word and has no other effect. -/
def Obligations.ReadsAndOperandWritesHaveNoOtherEffect : Prop :=
  ∀ (s : State) (a : Access), s.mayStep a.port = true →
    let o := (a.addr - s.params.blockBase).toNat
    o < 0x200 → a.width = 32 → o % 4 = 0 →
    (∀ v, a.kind = .read → s.windowRead o = some v → s.runEvent (.access a) = .next { s with busData := v })
    ∧ (∀ v, a.kind = .write v → s.faulted = false → o = 0x104 + 0x20 * a.port.val →
        s.runEvent (.access a) = .next { s with ports := s.ports.set a.port { s.port a.port with arg0 := v } })
    ∧ (∀ v, a.kind = .write v → s.faulted = false → o = 0x108 + 0x20 * a.port.val →
        s.runEvent (.access a) = .next { s with ports := s.ports.set a.port { s.port a.port with arg1 := v } })

/-! ### Faults and halting -/

/-- R282: once a fault is recorded, every step but the reset event leaves every state element of the block as it is;
only host memory, which the platform owns, the schedule and the word a read returned can change. -/
def Obligations.HaltedBlockKeepsItsState : Prop :=
  ∀ (s t : State), s.faulted = true → s.nextEvent ≠ .reset → step s = .next t →
    t = { s with mem := t.mem, sched := t.sched, tick := t.tick, cur := t.cur, busData := t.busData }
    ∧ ((∀ a b, s.nextEvent ≠ .hostStore a b) → t.mem = s.mem)

/-- R283: a step that records a fault is an issue by an idle port, an interrupt-port entry or a register access, and
changes nothing else of the block. Only where it issues a program line can the ports change: they are then what the
line's operand writes made them before the `CMD` write (that those writes stay, in the one step of the line, is the
model's choice, log 8). The schedule, `tick` and `cur` are the model's own (logs 1, 10). -/
def Obligations.FaultsArePrecise : Prop :=
  ∀ (s t : State), s.faulted = false → step s = .next t → t.faulted = true →
    t = { s with fault := t.fault, ports := t.ports, sched := s.sched.tail, tick := s.tick + 1, cur := t.cur }
    ∧ ((∃ p l, s.nextEvent = .port p ∧ s.busy p = false ∧ s.nextLine p = some l
          ∧ t.ports = (s.writeArgs p l).ports)
      ∨ ((∃ p, s.nextEvent = .port p ∧ s.kind p = .interrupt ∧ (s.port p).phase = 0x0F#8) ∧ t.ports = s.ports)
      ∨ ((∃ a, s.nextEvent = .access a) ∧ t.ports = s.ports))

/-- R324, R144: no step but reset clears a lifecycle flag or failure mode, and none changes the capacity once it is
set. -/
def Obligations.LifecycleIsNeverUndone : Prop :=
  ∀ (s t : State), s.nextEvent ≠ .reset → step s = .next t →
    (s.earlyDone = true → t.earlyDone = true) ∧ (s.initDone = true → t.initDone = true)
    ∧ (s.rbInitDone = true → t.rbInitDone = true ∧ t.cap = s.cap)
    ∧ (s.failureMode = true → t.failureMode = true)
    ∧ (s.earlyDone = true → t.mmioBase = s.mmioBase ∧ t.irqLine = s.irqLine)
    ∧ t.params = s.params

/-- R296, R302, R290, R266, R282: an event that is not enabled changes nothing of the machine (`cur` is the model's
own, log 10). In R302's own terms: a thread port steps unless the interrupt port is entered and the thread is on
`IRQ_CPU`, or another thread port of the same core holds the lock; while it is barred, its agent's step changes
nothing. The interrupt port is never barred. That a register access and a spurious wake are steps of the thread, barred like the others, is the model's
reading (log 16). -/
def Obligations.DisabledEventsChangeNothing : Prop :=
  (∀ (s : State) (e : Event), s.Inv → s.enabled e = false → ∃ c, s.runEvent e = .next { s with cur := c })
  ∧ (∀ (s : State) (i : PortId), s.params.nthread ≤ 7 → i.val = s.params.nthread → s.mayStep i = true)
  ∧ ∀ (s : State) (q : PortId), s.Inv → q.val < s.params.nthread →
      let barred :=
        (∃ i : PortId, i.val = s.params.nthread ∧ (s.port i).phase ≠ 0x00#8 ∧ (s.port i).phase ≠ 0x0F#8
          ∧ s.params.cpu.getD q.val 0 = s.params.irqCpu)
        ∨ ∃ r : PortId, r.val < s.params.nthread ∧ r ≠ q ∧ s.lockHeld = true ∧ s.lockOwner = r
          ∧ s.params.cpu.getD r.val 0 = s.params.cpu.getD q.val 0
      (s.mayStep q = true ↔ ¬barred)
      ∧ (barred →
          s.runEvent (.port q) = .next s ∧ s.runEvent (.spuriousWake q) = .next s
          ∧ ∀ a : Access, a.port = q → s.runEvent (.access a) = .next s)

/-! ### Reset and the invariant -/

/-- R52: the values after reset that the spec gives (the storage's contents and the model's own fields are not among
them). -/
def Obligations.ResetHasSpecValues : Prop :=
  let s := State.reset
  s.earlyDone = false ∧ s.initDone = false ∧ s.rbInitDone = false ∧ s.mmioBase = 0#32 ∧ s.irqLine = 0#32
    ∧ s.txIrqEn = false ∧ s.failureMode = false ∧ s.cap = 0 ∧ s.rd = 0 ∧ s.wr = 0
    ∧ s.imask.rxrdyM = true ∧ s.imask.rxtoM = true ∧ s.imask.txrdyM = true
    ∧ s.rxf = [] ∧ s.txf = [] ∧ s.rxtoP = false ∧ s.lockHeld = false ∧ s.lockOwner = 0
    ∧ (∀ c, s.ie c = true) ∧ s.wakePend = false ∧ s.waitCnt = 0#32 ∧ s.fullCnt = 0#32 ∧ s.faultWord = 0#32
    ∧ s.rxIn = [] ∧ s.rxOut = [] ∧ s.txLog = [] ∧ s.lineOut = []
    ∧ (∀ p, (s.port p).arg0 = 0#32 ∧ (s.port p).arg1 = 0#32 ∧ (s.port p).result = 0#32 ∧ (s.port p).opc = 0#8
        ∧ (s.port p).phase = 0#8)
    ∧ ∀ p, s.agent p = { prog := (s.agent p).prog }

/-- R320, R321: the reset event, from any state, halted or not, puts every state element at its reset value and every
agent at the start of its program; host memory, the storage's contents, the parameters and the programs stay. -/
def Obligations.ResetEventRestoresResetValues : Prop :=
  ∀ (s t : State), s.params.wf = true → s.nextEvent = .reset → step s = .next t →
    t = { State.reset with
          store := s.store, params := s.params, mem := s.mem, sched := s.sched.tail, tick := s.tick + 1
          agents := t.agents }
    ∧ ∀ p, t.agent p = { prog := (s.agent p).prog }

/-- The invariant of every reachable state (R53 and what it rests on) holds at reset. -/
def Obligations.InvariantHoldsAtReset : Prop := State.reset.Inv

/-- The invariant is kept by every step, whatever event it takes (R53). -/
def Obligations.EveryStepKeepsInvariant : Prop := ∀ (s t : State), s.Inv → step s = .next t → t.Inv

/-- R172, R81: as long as no byte is pushed by an `RB_PUSH` command and none is taken by `POLL_GETC` (which needs
failure mode) and no reset comes, the bytes accepted from the line are, in order, those returned to consumers, then
those in the RingBuffer, then those in the receive FIFO: every step keeps that. -/
def Obligations.ReceiveKeepsArrivalOrder : Prop :=
  ∀ (s t : State), s.Inv → s.failureMode = false → (s.port s.intPort).opc ≠ 0x21#8 → s.nextEvent ≠ .reset →
    s.rxIn = s.rxOut ++ s.ring ++ s.rxf → step s = .next t →
    t.rxIn = t.rxOut ++ t.ring ++ t.rxf
end

