-- ==== Sys2Proof/Laws/Sparse.lean ====
section
/-! SUPPORT. The laws of sparse memory: a read after a write, and the canonical form that every write keeps. -/

namespace Sys2Proof.Machine

variable {α : Type}

theorem sparseErase_cons (k a : Nat) (v : α) (m : List (Nat × α)) :
    sparseErase k ((a, v) :: m) = if a = k then sparseErase k m else (a, v) :: sparseErase k m := by
  by_cases h : a = k <;> simp [sparseErase, h]

theorem sparseGet_erase_same (d : Nat → α) (k : Nat) (m : List (Nat × α)) : sparseGet d (sparseErase k m) k = d k := by
  induction m with
  | nil => rfl
  | cons e m ih =>
    rw [sparseErase_cons]
    split
    · exact ih
    · next h => simp [sparseGet, Ne.symm h, ih]

theorem sparseGet_erase_other (d : Nat → α) {k j : Nat} (m : List (Nat × α)) (h : j ≠ k) :
    sparseGet d (sparseErase k m) j = sparseGet d m j := by
  induction m with
  | nil => rfl
  | cons e m ih =>
    obtain ⟨a, v⟩ := e
    rw [sparseErase_cons]
    split
    · next ha => simp [sparseGet, ha, h, ih]
    · simp [sparseGet, ih]

theorem sparseGet_insert_same (d : Nat → α) (k : Nat) (v : α) (m : List (Nat × α)) (h : ∀ e ∈ m, e.1 ≠ k) :
    sparseGet d (sparseInsert k v m) k = v := by
  induction m with
  | nil => simp [sparseInsert, sparseGet]
  | cons e m ih =>
    obtain ⟨a, w⟩ := e
    have ha : k ≠ a := fun c => h (a, w) (by simp) c.symm
    simp only [sparseInsert]
    split
    · simp [sparseGet]
    · simp [sparseGet, ha, ih fun e he => h e (by simp [he])]

theorem sparseGet_insert_other (d : Nat → α) {k j : Nat} (v : α) (m : List (Nat × α)) (h : j ≠ k) :
    sparseGet d (sparseInsert k v m) j = sparseGet d m j := by
  induction m with
  | nil => simp [sparseInsert, sparseGet, h]
  | cons e m ih =>
    obtain ⟨a, w⟩ := e
    simp only [sparseInsert]
    split <;> simp [sparseGet, h, ih]

theorem sparseErase_keys {k : Nat} {m : List (Nat × α)} : ∀ e ∈ sparseErase k m, e.1 ≠ k := by
  simp [sparseErase]

theorem sparseErase_mem {k : Nat} {m : List (Nat × α)} {e : Nat × α} (h : e ∈ sparseErase k m) : e ∈ m :=
  List.mem_of_mem_filter h

theorem sparseInsert_mem {k : Nat} {v : α} {m : List (Nat × α)} {e : Nat × α} (h : e ∈ sparseInsert k v m) :
    e = (k, v) ∨ e ∈ m := by
  induction m with
  | nil => simpa [sparseInsert] using h
  | cons x m ih =>
    obtain ⟨a, w⟩ := x
    simp only [sparseInsert] at h
    split at h
    · simpa using h
    · rcases List.mem_cons.mp h with rfl | h
      · simp
      · rcases ih h with h | h <;> simp [h]

variable [DecidableEq α]

/-- A read after a write at the same key gives the value written. -/
@[simp] theorem sparseGet_put_same (d : Nat → α) (k : Nat) (v : α) (m : List (Nat × α)) :
    sparseGet d (sparsePut d k v m) k = v := by
  unfold sparsePut
  split
  · next h => rw [sparseGet_erase_same, h]
  · exact sparseGet_insert_same d k v _ sparseErase_keys

/-- A write leaves every other key alone. -/
theorem sparseGet_put_other (d : Nat → α) {k j : Nat} (v : α) (m : List (Nat × α)) (h : j ≠ k) :
    sparseGet d (sparsePut d k v m) j = sparseGet d m j := by
  unfold sparsePut
  split
  · exact sparseGet_erase_other d m h
  · rw [sparseGet_insert_other d v _ h, sparseGet_erase_other d m h]

theorem sparseGet_put (d : Nat → α) (k j : Nat) (v : α) (m : List (Nat × α)) :
    sparseGet d (sparsePut d k v m) j = if j = k then v else sparseGet d m j := by
  split
  · next h => subst h; exact sparseGet_put_same d j v m
  · next h => exact sparseGet_put_other d v m h

/-- The entries after a write: the one written, and old ones. -/
theorem sparsePut_mem {d : Nat → α} {k : Nat} {v : α} {m : List (Nat × α)} {e : Nat × α}
    (h : e ∈ sparsePut d k v m) : e = (k, v) ∨ e ∈ m := by
  unfold sparsePut at h
  split at h
  · exact .inr (sparseErase_mem h)
  · exact (sparseInsert_mem h).imp_right sparseErase_mem

theorem sparseErase_wf (d : Nat → α) (k : Nat) (m : List (Nat × α)) (h : sparseWf d m = true) :
    sparseWf d (sparseErase k m) = true := by
  induction m with
  | nil => rfl
  | cons e m ih =>
    obtain ⟨a, v⟩ := e
    simp only [sparseWf, Bool.and_eq_true, decide_eq_true_eq, List.all_eq_true] at h
    obtain ⟨⟨h1, h2⟩, h3⟩ := h
    rw [sparseErase_cons]
    split
    · exact ih h3
    · simp only [sparseWf, Bool.and_eq_true, decide_eq_true_eq, List.all_eq_true]
      exact ⟨⟨h1, fun e he => h2 e (sparseErase_mem he)⟩, ih h3⟩

theorem sparseInsert_wf (d : Nat → α) (k : Nat) (v : α) (m : List (Nat × α)) (hv : v ≠ d k)
    (hk : ∀ e ∈ m, e.1 ≠ k) (h : sparseWf d m = true) : sparseWf d (sparseInsert k v m) = true := by
  induction m with
  | nil => simp [sparseInsert, sparseWf, hv]
  | cons e m ih =>
    obtain ⟨a, w⟩ := e
    have hm := h
    simp only [sparseWf, Bool.and_eq_true, decide_eq_true_eq, List.all_eq_true] at h
    obtain ⟨⟨h1, h2⟩, h3⟩ := h
    have hak : a ≠ k := hk (a, w) (by simp)
    simp only [sparseInsert]
    split
    · next hlt =>
      rw [sparseWf, hm]
      simp only [Bool.and_eq_true, decide_eq_true_eq, List.all_eq_true, Bool.and_true]
      refine ⟨hv, fun e he => ?_⟩
      rcases List.mem_cons.mp he with rfl | he
      · exact hlt
      · exact lt_trans hlt (h2 e he)
    · next hlt =>
      simp only [sparseWf, Bool.and_eq_true, decide_eq_true_eq, List.all_eq_true]
      refine ⟨⟨h1, fun e he => ?_⟩, ih (fun e he => hk e (by simp [he])) h3⟩
      rcases sparseInsert_mem he with rfl | he
      · show a < k; omega
      · exact h2 e he

/-- A write keeps the canonical form. -/
theorem sparsePut_wf (d : Nat → α) (k : Nat) (v : α) (m : List (Nat × α)) (h : sparseWf d m = true) :
    sparseWf d (sparsePut d k v m) = true := by
  unfold sparsePut
  split
  · exact sparseErase_wf d k m h
  · next hv => exact sparseInsert_wf d k v _ hv sparseErase_keys (sparseErase_wf d k m h)

/-- Host memory keeps its canonical form under a write. -/
theorem Memory.write_wf (m : Memory) (a : Nat) (b : Byte) (h : m.wf = true) : (m.write a b).wf = true :=
  sparsePut_wf Config.hostMem a b m h

/-- A read of host memory after a write. -/
theorem Memory.read_write (m : Memory) (a c : Nat) (b : Byte) :
    (m.write a b).read c = if c = a then b else m.read c :=
  sparseGet_put Config.hostMem a c b m

/-- Host memory at reset has its canonical form. -/
theorem Memory.reset_wf : State.reset.mem.wf = true := rfl

end Sys2Proof.Machine
end

