-- ==== Sys2Proof/Laws/State.lean ====
section
/-! SUPPORT. What each named update of the state does to each field, and to each value derived from the state that it
leaves as it was: true by unfolding, so that no later proof unfolds a record update. -/

namespace Sys2Proof.Machine

variable (s : State)

/-! ### `setPort` -/

@[simp] theorem State.setPort_earlyDone (p : PortId) (x : Port) : (s.setPort p x).earlyDone = s.earlyDone := rfl
@[simp] theorem State.setPort_initDone (p : PortId) (x : Port) : (s.setPort p x).initDone = s.initDone := rfl
@[simp] theorem State.setPort_rbInitDone (p : PortId) (x : Port) : (s.setPort p x).rbInitDone = s.rbInitDone := rfl
@[simp] theorem State.setPort_mmioBase (p : PortId) (x : Port) : (s.setPort p x).mmioBase = s.mmioBase := rfl
@[simp] theorem State.setPort_irqLine (p : PortId) (x : Port) : (s.setPort p x).irqLine = s.irqLine := rfl
@[simp] theorem State.setPort_txIrqEn (p : PortId) (x : Port) : (s.setPort p x).txIrqEn = s.txIrqEn := rfl
@[simp] theorem State.setPort_failureMode (p : PortId) (x : Port) : (s.setPort p x).failureMode = s.failureMode := rfl
@[simp] theorem State.setPort_store (p : PortId) (x : Port) : (s.setPort p x).store = s.store := rfl
@[simp] theorem State.setPort_cap (p : PortId) (x : Port) : (s.setPort p x).cap = s.cap := rfl
@[simp] theorem State.setPort_rd (p : PortId) (x : Port) : (s.setPort p x).rd = s.rd := rfl
@[simp] theorem State.setPort_wr (p : PortId) (x : Port) : (s.setPort p x).wr = s.wr := rfl
@[simp] theorem State.setPort_imask (p : PortId) (x : Port) : (s.setPort p x).imask = s.imask := rfl
@[simp] theorem State.setPort_rxf (p : PortId) (x : Port) : (s.setPort p x).rxf = s.rxf := rfl
@[simp] theorem State.setPort_txf (p : PortId) (x : Port) : (s.setPort p x).txf = s.txf := rfl
@[simp] theorem State.setPort_rxtoP (p : PortId) (x : Port) : (s.setPort p x).rxtoP = s.rxtoP := rfl
@[simp] theorem State.setPort_lockHeld (p : PortId) (x : Port) : (s.setPort p x).lockHeld = s.lockHeld := rfl
@[simp] theorem State.setPort_lockOwner (p : PortId) (x : Port) : (s.setPort p x).lockOwner = s.lockOwner := rfl
@[simp] theorem State.setPort_ieBits (p : PortId) (x : Port) : (s.setPort p x).ieBits = s.ieBits := rfl
@[simp] theorem State.setPort_wakePend (p : PortId) (x : Port) : (s.setPort p x).wakePend = s.wakePend := rfl
@[simp] theorem State.setPort_waitCnt (p : PortId) (x : Port) : (s.setPort p x).waitCnt = s.waitCnt := rfl
@[simp] theorem State.setPort_fullCnt (p : PortId) (x : Port) : (s.setPort p x).fullCnt = s.fullCnt := rfl
@[simp] theorem State.setPort_fault (p : PortId) (x : Port) : (s.setPort p x).fault = s.fault := rfl
@[simp] theorem State.setPort_rxIn (p : PortId) (x : Port) : (s.setPort p x).rxIn = s.rxIn := rfl
@[simp] theorem State.setPort_rxOut (p : PortId) (x : Port) : (s.setPort p x).rxOut = s.rxOut := rfl
@[simp] theorem State.setPort_txLog (p : PortId) (x : Port) : (s.setPort p x).txLog = s.txLog := rfl
@[simp] theorem State.setPort_lineOut (p : PortId) (x : Port) : (s.setPort p x).lineOut = s.lineOut := rfl
@[simp] theorem State.setPort_ports (p : PortId) (x : Port) : (s.setPort p x).ports = s.ports.set p x := rfl
@[simp] theorem State.setPort_agents (p : PortId) (x : Port) : (s.setPort p x).agents = s.agents := rfl
@[simp] theorem State.setPort_params (p : PortId) (x : Port) : (s.setPort p x).params = s.params := rfl
@[simp] theorem State.setPort_mem (p : PortId) (x : Port) : (s.setPort p x).mem = s.mem := rfl
@[simp] theorem State.setPort_delivered (p : PortId) (x : Port) : (s.setPort p x).delivered = s.delivered := rfl
@[simp] theorem State.setPort_sched (p : PortId) (x : Port) : (s.setPort p x).sched = s.sched := rfl
@[simp] theorem State.setPort_tick (p : PortId) (x : Port) : (s.setPort p x).tick = s.tick := rfl
@[simp] theorem State.setPort_cur (p : PortId) (x : Port) : (s.setPort p x).cur = s.cur := rfl
@[simp] theorem State.setPort_busData (p : PortId) (x : Port) : (s.setPort p x).busData = s.busData := rfl
@[simp] theorem State.setPort_agent (p : PortId) (x : Port) (q : PortId) : (s.setPort p x).agent q = s.agent q := rfl
@[simp] theorem State.setPort_ie (p : PortId) (x : Port) (c' : Nat) : (s.setPort p x).ie c' = s.ie c' := rfl
@[simp] theorem State.setPort_kind (p : PortId) (x : Port) (q : PortId) : (s.setPort p x).kind q = s.kind q := rfl
@[simp] theorem State.setPort_core (p : PortId) (x : Port) (q : PortId) : (s.setPort p x).core q = s.core q := rfl
@[simp] theorem State.setPort_intPort (p : PortId) (x : Port) : (s.setPort p x).intPort = s.intPort := rfl
@[simp] theorem State.setPort_hasPort (p : PortId) (x : Port) (q : PortId) :
    (s.setPort p x).hasPort q = s.hasPort q := rfl
@[simp] theorem State.setPort_faulted (p : PortId) (x : Port) : (s.setPort p x).faulted = s.faulted := rfl
@[simp] theorem State.setPort_holdsLock (p : PortId) (x : Port) (q : PortId) :
    (s.setPort p x).holdsLock q = s.holdsLock q := rfl
@[simp] theorem State.setPort_count (p : PortId) (x : Port) : (s.setPort p x).count = s.count := rfl
@[simp] theorem State.setPort_isEmpty (p : PortId) (x : Port) : (s.setPort p x).isEmpty = s.isEmpty := rfl
@[simp] theorem State.setPort_isFull (p : PortId) (x : Port) : (s.setPort p x).isFull = s.isFull := rfl
@[simp] theorem State.setPort_stored (p : PortId) (x : Port) (i : Nat) : (s.setPort p x).stored i = s.stored i := rfl
@[simp] theorem State.setPort_slot (p : PortId) (x : Port) (i : Nat) : (s.setPort p x).slot i = s.slot i := rfl
@[simp] theorem State.setPort_inc (p : PortId) (x : Port) (i : Nat) : (s.setPort p x).inc i = s.inc i := rfl
@[simp] theorem State.setPort_rbHead (p : PortId) (x : Port) : (s.setPort p x).rbHead = s.rbHead := rfl
@[simp] theorem State.setPort_txFull (p : PortId) (x : Port) : (s.setPort p x).txFull = s.txFull := rfl
@[simp] theorem State.setPort_txrdyA (p : PortId) (x : Port) : (s.setPort p x).txrdyA = s.txrdyA := rfl
@[simp] theorem State.setPort_rxA (p : PortId) (x : Port) : (s.setPort p x).rxA = s.rxA := rfl
@[simp] theorem State.setPort_hostByte (p : PortId) (x : Port) (a : Word) :
    (s.setPort p x).hostByte a = s.hostByte a := rfl
@[simp] theorem State.setPort_hostOk (p : PortId) (x : Port) (a : Word) : (s.setPort p x).hostOk a = s.hostOk a := rfl

/-! ### `setAgent` -/

@[simp] theorem State.setAgent_earlyDone (p : PortId) (x : Agent) : (s.setAgent p x).earlyDone = s.earlyDone := rfl
@[simp] theorem State.setAgent_initDone (p : PortId) (x : Agent) : (s.setAgent p x).initDone = s.initDone := rfl
@[simp] theorem State.setAgent_rbInitDone (p : PortId) (x : Agent) : (s.setAgent p x).rbInitDone = s.rbInitDone := rfl
@[simp] theorem State.setAgent_mmioBase (p : PortId) (x : Agent) : (s.setAgent p x).mmioBase = s.mmioBase := rfl
@[simp] theorem State.setAgent_irqLine (p : PortId) (x : Agent) : (s.setAgent p x).irqLine = s.irqLine := rfl
@[simp] theorem State.setAgent_txIrqEn (p : PortId) (x : Agent) : (s.setAgent p x).txIrqEn = s.txIrqEn := rfl
@[simp] theorem State.setAgent_failureMode (p : PortId) (x : Agent) : (s.setAgent p x).failureMode = s.failureMode :=
    rfl
@[simp] theorem State.setAgent_store (p : PortId) (x : Agent) : (s.setAgent p x).store = s.store := rfl
@[simp] theorem State.setAgent_cap (p : PortId) (x : Agent) : (s.setAgent p x).cap = s.cap := rfl
@[simp] theorem State.setAgent_rd (p : PortId) (x : Agent) : (s.setAgent p x).rd = s.rd := rfl
@[simp] theorem State.setAgent_wr (p : PortId) (x : Agent) : (s.setAgent p x).wr = s.wr := rfl
@[simp] theorem State.setAgent_imask (p : PortId) (x : Agent) : (s.setAgent p x).imask = s.imask := rfl
@[simp] theorem State.setAgent_rxf (p : PortId) (x : Agent) : (s.setAgent p x).rxf = s.rxf := rfl
@[simp] theorem State.setAgent_txf (p : PortId) (x : Agent) : (s.setAgent p x).txf = s.txf := rfl
@[simp] theorem State.setAgent_rxtoP (p : PortId) (x : Agent) : (s.setAgent p x).rxtoP = s.rxtoP := rfl
@[simp] theorem State.setAgent_lockHeld (p : PortId) (x : Agent) : (s.setAgent p x).lockHeld = s.lockHeld := rfl
@[simp] theorem State.setAgent_lockOwner (p : PortId) (x : Agent) : (s.setAgent p x).lockOwner = s.lockOwner := rfl
@[simp] theorem State.setAgent_ieBits (p : PortId) (x : Agent) : (s.setAgent p x).ieBits = s.ieBits := rfl
@[simp] theorem State.setAgent_wakePend (p : PortId) (x : Agent) : (s.setAgent p x).wakePend = s.wakePend := rfl
@[simp] theorem State.setAgent_waitCnt (p : PortId) (x : Agent) : (s.setAgent p x).waitCnt = s.waitCnt := rfl
@[simp] theorem State.setAgent_fullCnt (p : PortId) (x : Agent) : (s.setAgent p x).fullCnt = s.fullCnt := rfl
@[simp] theorem State.setAgent_fault (p : PortId) (x : Agent) : (s.setAgent p x).fault = s.fault := rfl
@[simp] theorem State.setAgent_rxIn (p : PortId) (x : Agent) : (s.setAgent p x).rxIn = s.rxIn := rfl
@[simp] theorem State.setAgent_rxOut (p : PortId) (x : Agent) : (s.setAgent p x).rxOut = s.rxOut := rfl
@[simp] theorem State.setAgent_txLog (p : PortId) (x : Agent) : (s.setAgent p x).txLog = s.txLog := rfl
@[simp] theorem State.setAgent_lineOut (p : PortId) (x : Agent) : (s.setAgent p x).lineOut = s.lineOut := rfl
@[simp] theorem State.setAgent_ports (p : PortId) (x : Agent) : (s.setAgent p x).ports = s.ports := rfl
@[simp] theorem State.setAgent_agents (p : PortId) (x : Agent) : (s.setAgent p x).agents = s.agents.set p x := rfl
@[simp] theorem State.setAgent_params (p : PortId) (x : Agent) : (s.setAgent p x).params = s.params := rfl
@[simp] theorem State.setAgent_mem (p : PortId) (x : Agent) : (s.setAgent p x).mem = s.mem := rfl
@[simp] theorem State.setAgent_delivered (p : PortId) (x : Agent) : (s.setAgent p x).delivered = s.delivered := rfl
@[simp] theorem State.setAgent_sched (p : PortId) (x : Agent) : (s.setAgent p x).sched = s.sched := rfl
@[simp] theorem State.setAgent_tick (p : PortId) (x : Agent) : (s.setAgent p x).tick = s.tick := rfl
@[simp] theorem State.setAgent_cur (p : PortId) (x : Agent) : (s.setAgent p x).cur = s.cur := rfl
@[simp] theorem State.setAgent_busData (p : PortId) (x : Agent) : (s.setAgent p x).busData = s.busData := rfl
@[simp] theorem State.setAgent_port (p : PortId) (x : Agent) (q : PortId) : (s.setAgent p x).port q = s.port q := rfl
@[simp] theorem State.setAgent_ie (p : PortId) (x : Agent) (c' : Nat) : (s.setAgent p x).ie c' = s.ie c' := rfl
@[simp] theorem State.setAgent_kind (p : PortId) (x : Agent) (q : PortId) : (s.setAgent p x).kind q = s.kind q := rfl
@[simp] theorem State.setAgent_core (p : PortId) (x : Agent) (q : PortId) : (s.setAgent p x).core q = s.core q := rfl
@[simp] theorem State.setAgent_intPort (p : PortId) (x : Agent) : (s.setAgent p x).intPort = s.intPort := rfl
@[simp] theorem State.setAgent_hasPort (p : PortId) (x : Agent) (q : PortId) :
    (s.setAgent p x).hasPort q = s.hasPort q := rfl
@[simp] theorem State.setAgent_busy (p : PortId) (x : Agent) (q : PortId) : (s.setAgent p x).busy q = s.busy q := rfl
@[simp] theorem State.setAgent_faulted (p : PortId) (x : Agent) : (s.setAgent p x).faulted = s.faulted := rfl
@[simp] theorem State.setAgent_holdsLock (p : PortId) (x : Agent) (q : PortId) :
    (s.setAgent p x).holdsLock q = s.holdsLock q := rfl
@[simp] theorem State.setAgent_count (p : PortId) (x : Agent) : (s.setAgent p x).count = s.count := rfl
@[simp] theorem State.setAgent_isEmpty (p : PortId) (x : Agent) : (s.setAgent p x).isEmpty = s.isEmpty := rfl
@[simp] theorem State.setAgent_isFull (p : PortId) (x : Agent) : (s.setAgent p x).isFull = s.isFull := rfl
@[simp] theorem State.setAgent_stored (p : PortId) (x : Agent) (i : Nat) : (s.setAgent p x).stored i = s.stored i :=
    rfl
@[simp] theorem State.setAgent_slot (p : PortId) (x : Agent) (i : Nat) : (s.setAgent p x).slot i = s.slot i := rfl
@[simp] theorem State.setAgent_inc (p : PortId) (x : Agent) (i : Nat) : (s.setAgent p x).inc i = s.inc i := rfl
@[simp] theorem State.setAgent_rbHead (p : PortId) (x : Agent) : (s.setAgent p x).rbHead = s.rbHead := rfl
@[simp] theorem State.setAgent_txFull (p : PortId) (x : Agent) : (s.setAgent p x).txFull = s.txFull := rfl
@[simp] theorem State.setAgent_txrdyA (p : PortId) (x : Agent) : (s.setAgent p x).txrdyA = s.txrdyA := rfl
@[simp] theorem State.setAgent_rxA (p : PortId) (x : Agent) : (s.setAgent p x).rxA = s.rxA := rfl
@[simp] theorem State.setAgent_hostByte (p : PortId) (x : Agent) (a : Word) :
    (s.setAgent p x).hostByte a = s.hostByte a := rfl
@[simp] theorem State.setAgent_hostOk (p : PortId) (x : Agent) (a : Word) : (s.setAgent p x).hostOk a = s.hostOk a :=
    rfl

/-! ### `setIe` -/

@[simp] theorem State.setIe_earlyDone (c : Nat) (b : Bool) : (s.setIe c b).earlyDone = s.earlyDone := rfl
@[simp] theorem State.setIe_initDone (c : Nat) (b : Bool) : (s.setIe c b).initDone = s.initDone := rfl
@[simp] theorem State.setIe_rbInitDone (c : Nat) (b : Bool) : (s.setIe c b).rbInitDone = s.rbInitDone := rfl
@[simp] theorem State.setIe_mmioBase (c : Nat) (b : Bool) : (s.setIe c b).mmioBase = s.mmioBase := rfl
@[simp] theorem State.setIe_irqLine (c : Nat) (b : Bool) : (s.setIe c b).irqLine = s.irqLine := rfl
@[simp] theorem State.setIe_txIrqEn (c : Nat) (b : Bool) : (s.setIe c b).txIrqEn = s.txIrqEn := rfl
@[simp] theorem State.setIe_failureMode (c : Nat) (b : Bool) : (s.setIe c b).failureMode = s.failureMode := rfl
@[simp] theorem State.setIe_store (c : Nat) (b : Bool) : (s.setIe c b).store = s.store := rfl
@[simp] theorem State.setIe_cap (c : Nat) (b : Bool) : (s.setIe c b).cap = s.cap := rfl
@[simp] theorem State.setIe_rd (c : Nat) (b : Bool) : (s.setIe c b).rd = s.rd := rfl
@[simp] theorem State.setIe_wr (c : Nat) (b : Bool) : (s.setIe c b).wr = s.wr := rfl
@[simp] theorem State.setIe_imask (c : Nat) (b : Bool) : (s.setIe c b).imask = s.imask := rfl
@[simp] theorem State.setIe_rxf (c : Nat) (b : Bool) : (s.setIe c b).rxf = s.rxf := rfl
@[simp] theorem State.setIe_txf (c : Nat) (b : Bool) : (s.setIe c b).txf = s.txf := rfl
@[simp] theorem State.setIe_rxtoP (c : Nat) (b : Bool) : (s.setIe c b).rxtoP = s.rxtoP := rfl
@[simp] theorem State.setIe_lockHeld (c : Nat) (b : Bool) : (s.setIe c b).lockHeld = s.lockHeld := rfl
@[simp] theorem State.setIe_lockOwner (c : Nat) (b : Bool) : (s.setIe c b).lockOwner = s.lockOwner := rfl
@[simp] theorem State.setIe_wakePend (c : Nat) (b : Bool) : (s.setIe c b).wakePend = s.wakePend := rfl
@[simp] theorem State.setIe_waitCnt (c : Nat) (b : Bool) : (s.setIe c b).waitCnt = s.waitCnt := rfl
@[simp] theorem State.setIe_fullCnt (c : Nat) (b : Bool) : (s.setIe c b).fullCnt = s.fullCnt := rfl
@[simp] theorem State.setIe_fault (c : Nat) (b : Bool) : (s.setIe c b).fault = s.fault := rfl
@[simp] theorem State.setIe_rxIn (c : Nat) (b : Bool) : (s.setIe c b).rxIn = s.rxIn := rfl
@[simp] theorem State.setIe_rxOut (c : Nat) (b : Bool) : (s.setIe c b).rxOut = s.rxOut := rfl
@[simp] theorem State.setIe_txLog (c : Nat) (b : Bool) : (s.setIe c b).txLog = s.txLog := rfl
@[simp] theorem State.setIe_lineOut (c : Nat) (b : Bool) : (s.setIe c b).lineOut = s.lineOut := rfl
@[simp] theorem State.setIe_ports (c : Nat) (b : Bool) : (s.setIe c b).ports = s.ports := rfl
@[simp] theorem State.setIe_agents (c : Nat) (b : Bool) : (s.setIe c b).agents = s.agents := rfl
@[simp] theorem State.setIe_params (c : Nat) (b : Bool) : (s.setIe c b).params = s.params := rfl
@[simp] theorem State.setIe_mem (c : Nat) (b : Bool) : (s.setIe c b).mem = s.mem := rfl
@[simp] theorem State.setIe_delivered (c : Nat) (b : Bool) : (s.setIe c b).delivered = s.delivered := rfl
@[simp] theorem State.setIe_sched (c : Nat) (b : Bool) : (s.setIe c b).sched = s.sched := rfl
@[simp] theorem State.setIe_tick (c : Nat) (b : Bool) : (s.setIe c b).tick = s.tick := rfl
@[simp] theorem State.setIe_cur (c : Nat) (b : Bool) : (s.setIe c b).cur = s.cur := rfl
@[simp] theorem State.setIe_busData (c : Nat) (b : Bool) : (s.setIe c b).busData = s.busData := rfl
@[simp] theorem State.setIe_port (c : Nat) (b : Bool) (q : PortId) : (s.setIe c b).port q = s.port q := rfl
@[simp] theorem State.setIe_agent (c : Nat) (b : Bool) (q : PortId) : (s.setIe c b).agent q = s.agent q := rfl
@[simp] theorem State.setIe_kind (c : Nat) (b : Bool) (q : PortId) : (s.setIe c b).kind q = s.kind q := rfl
@[simp] theorem State.setIe_core (c : Nat) (b : Bool) (q : PortId) : (s.setIe c b).core q = s.core q := rfl
@[simp] theorem State.setIe_intPort (c : Nat) (b : Bool) : (s.setIe c b).intPort = s.intPort := rfl
@[simp] theorem State.setIe_hasPort (c : Nat) (b : Bool) (q : PortId) : (s.setIe c b).hasPort q = s.hasPort q := rfl
@[simp] theorem State.setIe_busy (c : Nat) (b : Bool) (q : PortId) : (s.setIe c b).busy q = s.busy q := rfl
@[simp] theorem State.setIe_faulted (c : Nat) (b : Bool) : (s.setIe c b).faulted = s.faulted := rfl
@[simp] theorem State.setIe_holdsLock (c : Nat) (b : Bool) (q : PortId) : (s.setIe c b).holdsLock q = s.holdsLock q :=
    rfl
@[simp] theorem State.setIe_count (c : Nat) (b : Bool) : (s.setIe c b).count = s.count := rfl
@[simp] theorem State.setIe_isEmpty (c : Nat) (b : Bool) : (s.setIe c b).isEmpty = s.isEmpty := rfl
@[simp] theorem State.setIe_isFull (c : Nat) (b : Bool) : (s.setIe c b).isFull = s.isFull := rfl
@[simp] theorem State.setIe_stored (c : Nat) (b : Bool) (i : Nat) : (s.setIe c b).stored i = s.stored i := rfl
@[simp] theorem State.setIe_slot (c : Nat) (b : Bool) (i : Nat) : (s.setIe c b).slot i = s.slot i := rfl
@[simp] theorem State.setIe_inc (c : Nat) (b : Bool) (i : Nat) : (s.setIe c b).inc i = s.inc i := rfl
@[simp] theorem State.setIe_rbHead (c : Nat) (b : Bool) : (s.setIe c b).rbHead = s.rbHead := rfl
@[simp] theorem State.setIe_txFull (c : Nat) (b : Bool) : (s.setIe c b).txFull = s.txFull := rfl
@[simp] theorem State.setIe_txrdyA (c : Nat) (b : Bool) : (s.setIe c b).txrdyA = s.txrdyA := rfl
@[simp] theorem State.setIe_rxA (c : Nat) (b : Bool) : (s.setIe c b).rxA = s.rxA := rfl
@[simp] theorem State.setIe_hostByte (c : Nat) (b : Bool) (a : Word) : (s.setIe c b).hostByte a = s.hostByte a := rfl
@[simp] theorem State.setIe_hostOk (c : Nat) (b : Bool) (a : Word) : (s.setIe c b).hostOk a = s.hostOk a := rfl

/-! ### `setLock` -/

@[simp] theorem State.setLock_earlyDone (h : Bool) (o : PortId) : (s.setLock h o).earlyDone = s.earlyDone := rfl
@[simp] theorem State.setLock_initDone (h : Bool) (o : PortId) : (s.setLock h o).initDone = s.initDone := rfl
@[simp] theorem State.setLock_rbInitDone (h : Bool) (o : PortId) : (s.setLock h o).rbInitDone = s.rbInitDone := rfl
@[simp] theorem State.setLock_mmioBase (h : Bool) (o : PortId) : (s.setLock h o).mmioBase = s.mmioBase := rfl
@[simp] theorem State.setLock_irqLine (h : Bool) (o : PortId) : (s.setLock h o).irqLine = s.irqLine := rfl
@[simp] theorem State.setLock_txIrqEn (h : Bool) (o : PortId) : (s.setLock h o).txIrqEn = s.txIrqEn := rfl
@[simp] theorem State.setLock_failureMode (h : Bool) (o : PortId) : (s.setLock h o).failureMode = s.failureMode := rfl
@[simp] theorem State.setLock_store (h : Bool) (o : PortId) : (s.setLock h o).store = s.store := rfl
@[simp] theorem State.setLock_cap (h : Bool) (o : PortId) : (s.setLock h o).cap = s.cap := rfl
@[simp] theorem State.setLock_rd (h : Bool) (o : PortId) : (s.setLock h o).rd = s.rd := rfl
@[simp] theorem State.setLock_wr (h : Bool) (o : PortId) : (s.setLock h o).wr = s.wr := rfl
@[simp] theorem State.setLock_imask (h : Bool) (o : PortId) : (s.setLock h o).imask = s.imask := rfl
@[simp] theorem State.setLock_rxf (h : Bool) (o : PortId) : (s.setLock h o).rxf = s.rxf := rfl
@[simp] theorem State.setLock_txf (h : Bool) (o : PortId) : (s.setLock h o).txf = s.txf := rfl
@[simp] theorem State.setLock_rxtoP (h : Bool) (o : PortId) : (s.setLock h o).rxtoP = s.rxtoP := rfl
@[simp] theorem State.setLock_lockHeld (h : Bool) (o : PortId) : (s.setLock h o).lockHeld = h := rfl
@[simp] theorem State.setLock_lockOwner (h : Bool) (o : PortId) : (s.setLock h o).lockOwner = o := rfl
@[simp] theorem State.setLock_ieBits (h : Bool) (o : PortId) : (s.setLock h o).ieBits = s.ieBits := rfl
@[simp] theorem State.setLock_wakePend (h : Bool) (o : PortId) : (s.setLock h o).wakePend = s.wakePend := rfl
@[simp] theorem State.setLock_waitCnt (h : Bool) (o : PortId) : (s.setLock h o).waitCnt = s.waitCnt := rfl
@[simp] theorem State.setLock_fullCnt (h : Bool) (o : PortId) : (s.setLock h o).fullCnt = s.fullCnt := rfl
@[simp] theorem State.setLock_fault (h : Bool) (o : PortId) : (s.setLock h o).fault = s.fault := rfl
@[simp] theorem State.setLock_rxIn (h : Bool) (o : PortId) : (s.setLock h o).rxIn = s.rxIn := rfl
@[simp] theorem State.setLock_rxOut (h : Bool) (o : PortId) : (s.setLock h o).rxOut = s.rxOut := rfl
@[simp] theorem State.setLock_txLog (h : Bool) (o : PortId) : (s.setLock h o).txLog = s.txLog := rfl
@[simp] theorem State.setLock_lineOut (h : Bool) (o : PortId) : (s.setLock h o).lineOut = s.lineOut := rfl
@[simp] theorem State.setLock_ports (h : Bool) (o : PortId) : (s.setLock h o).ports = s.ports := rfl
@[simp] theorem State.setLock_agents (h : Bool) (o : PortId) : (s.setLock h o).agents = s.agents := rfl
@[simp] theorem State.setLock_params (h : Bool) (o : PortId) : (s.setLock h o).params = s.params := rfl
@[simp] theorem State.setLock_mem (h : Bool) (o : PortId) : (s.setLock h o).mem = s.mem := rfl
@[simp] theorem State.setLock_delivered (h : Bool) (o : PortId) : (s.setLock h o).delivered = s.delivered := rfl
@[simp] theorem State.setLock_sched (h : Bool) (o : PortId) : (s.setLock h o).sched = s.sched := rfl
@[simp] theorem State.setLock_tick (h : Bool) (o : PortId) : (s.setLock h o).tick = s.tick := rfl
@[simp] theorem State.setLock_cur (h : Bool) (o : PortId) : (s.setLock h o).cur = s.cur := rfl
@[simp] theorem State.setLock_busData (h : Bool) (o : PortId) : (s.setLock h o).busData = s.busData := rfl
@[simp] theorem State.setLock_port (h : Bool) (o : PortId) (q : PortId) : (s.setLock h o).port q = s.port q := rfl
@[simp] theorem State.setLock_agent (h : Bool) (o : PortId) (q : PortId) : (s.setLock h o).agent q = s.agent q := rfl
@[simp] theorem State.setLock_ie (h : Bool) (o : PortId) (c' : Nat) : (s.setLock h o).ie c' = s.ie c' := rfl
@[simp] theorem State.setLock_kind (h : Bool) (o : PortId) (q : PortId) : (s.setLock h o).kind q = s.kind q := rfl
@[simp] theorem State.setLock_core (h : Bool) (o : PortId) (q : PortId) : (s.setLock h o).core q = s.core q := rfl
@[simp] theorem State.setLock_intPort (h : Bool) (o : PortId) : (s.setLock h o).intPort = s.intPort := rfl
@[simp] theorem State.setLock_hasPort (h : Bool) (o : PortId) (q : PortId) :
    (s.setLock h o).hasPort q = s.hasPort q := rfl
@[simp] theorem State.setLock_busy (h : Bool) (o : PortId) (q : PortId) : (s.setLock h o).busy q = s.busy q := rfl
@[simp] theorem State.setLock_faulted (h : Bool) (o : PortId) : (s.setLock h o).faulted = s.faulted := rfl
@[simp] theorem State.setLock_count (h : Bool) (o : PortId) : (s.setLock h o).count = s.count := rfl
@[simp] theorem State.setLock_isEmpty (h : Bool) (o : PortId) : (s.setLock h o).isEmpty = s.isEmpty := rfl
@[simp] theorem State.setLock_isFull (h : Bool) (o : PortId) : (s.setLock h o).isFull = s.isFull := rfl
@[simp] theorem State.setLock_stored (h : Bool) (o : PortId) (i : Nat) : (s.setLock h o).stored i = s.stored i := rfl
@[simp] theorem State.setLock_slot (h : Bool) (o : PortId) (i : Nat) : (s.setLock h o).slot i = s.slot i := rfl
@[simp] theorem State.setLock_inc (h : Bool) (o : PortId) (i : Nat) : (s.setLock h o).inc i = s.inc i := rfl
@[simp] theorem State.setLock_rbHead (h : Bool) (o : PortId) : (s.setLock h o).rbHead = s.rbHead := rfl
@[simp] theorem State.setLock_txFull (h : Bool) (o : PortId) : (s.setLock h o).txFull = s.txFull := rfl
@[simp] theorem State.setLock_txrdyA (h : Bool) (o : PortId) : (s.setLock h o).txrdyA = s.txrdyA := rfl
@[simp] theorem State.setLock_rxA (h : Bool) (o : PortId) : (s.setLock h o).rxA = s.rxA := rfl
@[simp] theorem State.setLock_hostByte (h : Bool) (o : PortId) (a : Word) :
    (s.setLock h o).hostByte a = s.hostByte a := rfl
@[simp] theorem State.setLock_hostOk (h : Bool) (o : PortId) (a : Word) : (s.setLock h o).hostOk a = s.hostOk a := rfl

/-! ### `setResult` -/

@[simp] theorem State.setResult_earlyDone (p : PortId) (r : Word) : (s.setResult p r).earlyDone = s.earlyDone := rfl
@[simp] theorem State.setResult_initDone (p : PortId) (r : Word) : (s.setResult p r).initDone = s.initDone := rfl
@[simp] theorem State.setResult_rbInitDone (p : PortId) (r : Word) : (s.setResult p r).rbInitDone = s.rbInitDone :=
    rfl
@[simp] theorem State.setResult_mmioBase (p : PortId) (r : Word) : (s.setResult p r).mmioBase = s.mmioBase := rfl
@[simp] theorem State.setResult_irqLine (p : PortId) (r : Word) : (s.setResult p r).irqLine = s.irqLine := rfl
@[simp] theorem State.setResult_txIrqEn (p : PortId) (r : Word) : (s.setResult p r).txIrqEn = s.txIrqEn := rfl
@[simp] theorem State.setResult_failureMode (p : PortId) (r : Word) : (s.setResult p r).failureMode = s.failureMode :=
    rfl
@[simp] theorem State.setResult_store (p : PortId) (r : Word) : (s.setResult p r).store = s.store := rfl
@[simp] theorem State.setResult_cap (p : PortId) (r : Word) : (s.setResult p r).cap = s.cap := rfl
@[simp] theorem State.setResult_rd (p : PortId) (r : Word) : (s.setResult p r).rd = s.rd := rfl
@[simp] theorem State.setResult_wr (p : PortId) (r : Word) : (s.setResult p r).wr = s.wr := rfl
@[simp] theorem State.setResult_imask (p : PortId) (r : Word) : (s.setResult p r).imask = s.imask := rfl
@[simp] theorem State.setResult_rxf (p : PortId) (r : Word) : (s.setResult p r).rxf = s.rxf := rfl
@[simp] theorem State.setResult_txf (p : PortId) (r : Word) : (s.setResult p r).txf = s.txf := rfl
@[simp] theorem State.setResult_rxtoP (p : PortId) (r : Word) : (s.setResult p r).rxtoP = s.rxtoP := rfl
@[simp] theorem State.setResult_lockHeld (p : PortId) (r : Word) : (s.setResult p r).lockHeld = s.lockHeld := rfl
@[simp] theorem State.setResult_lockOwner (p : PortId) (r : Word) : (s.setResult p r).lockOwner = s.lockOwner := rfl
@[simp] theorem State.setResult_ieBits (p : PortId) (r : Word) : (s.setResult p r).ieBits = s.ieBits := rfl
@[simp] theorem State.setResult_wakePend (p : PortId) (r : Word) : (s.setResult p r).wakePend = s.wakePend := rfl
@[simp] theorem State.setResult_waitCnt (p : PortId) (r : Word) : (s.setResult p r).waitCnt = s.waitCnt := rfl
@[simp] theorem State.setResult_fullCnt (p : PortId) (r : Word) : (s.setResult p r).fullCnt = s.fullCnt := rfl
@[simp] theorem State.setResult_fault (p : PortId) (r : Word) : (s.setResult p r).fault = s.fault := rfl
@[simp] theorem State.setResult_rxIn (p : PortId) (r : Word) : (s.setResult p r).rxIn = s.rxIn := rfl
@[simp] theorem State.setResult_rxOut (p : PortId) (r : Word) : (s.setResult p r).rxOut = s.rxOut := rfl
@[simp] theorem State.setResult_txLog (p : PortId) (r : Word) : (s.setResult p r).txLog = s.txLog := rfl
@[simp] theorem State.setResult_lineOut (p : PortId) (r : Word) : (s.setResult p r).lineOut = s.lineOut := rfl
@[simp] theorem State.setResult_agents (p : PortId) (r : Word) : (s.setResult p r).agents = s.agents := rfl
@[simp] theorem State.setResult_params (p : PortId) (r : Word) : (s.setResult p r).params = s.params := rfl
@[simp] theorem State.setResult_mem (p : PortId) (r : Word) : (s.setResult p r).mem = s.mem := rfl
@[simp] theorem State.setResult_delivered (p : PortId) (r : Word) : (s.setResult p r).delivered = s.delivered := rfl
@[simp] theorem State.setResult_sched (p : PortId) (r : Word) : (s.setResult p r).sched = s.sched := rfl
@[simp] theorem State.setResult_tick (p : PortId) (r : Word) : (s.setResult p r).tick = s.tick := rfl
@[simp] theorem State.setResult_cur (p : PortId) (r : Word) : (s.setResult p r).cur = s.cur := rfl
@[simp] theorem State.setResult_busData (p : PortId) (r : Word) : (s.setResult p r).busData = s.busData := rfl
@[simp] theorem State.setResult_agent (p : PortId) (r : Word) (q : PortId) : (s.setResult p r).agent q = s.agent q :=
    rfl
@[simp] theorem State.setResult_ie (p : PortId) (r : Word) (c' : Nat) : (s.setResult p r).ie c' = s.ie c' := rfl
@[simp] theorem State.setResult_kind (p : PortId) (r : Word) (q : PortId) : (s.setResult p r).kind q = s.kind q := rfl
@[simp] theorem State.setResult_core (p : PortId) (r : Word) (q : PortId) : (s.setResult p r).core q = s.core q := rfl
@[simp] theorem State.setResult_intPort (p : PortId) (r : Word) : (s.setResult p r).intPort = s.intPort := rfl
@[simp] theorem State.setResult_hasPort (p : PortId) (r : Word) (q : PortId) :
    (s.setResult p r).hasPort q = s.hasPort q := rfl
@[simp] theorem State.setResult_faulted (p : PortId) (r : Word) : (s.setResult p r).faulted = s.faulted := rfl
@[simp] theorem State.setResult_holdsLock (p : PortId) (r : Word) (q : PortId) :
    (s.setResult p r).holdsLock q = s.holdsLock q := rfl
@[simp] theorem State.setResult_count (p : PortId) (r : Word) : (s.setResult p r).count = s.count := rfl
@[simp] theorem State.setResult_isEmpty (p : PortId) (r : Word) : (s.setResult p r).isEmpty = s.isEmpty := rfl
@[simp] theorem State.setResult_isFull (p : PortId) (r : Word) : (s.setResult p r).isFull = s.isFull := rfl
@[simp] theorem State.setResult_stored (p : PortId) (r : Word) (i : Nat) : (s.setResult p r).stored i = s.stored i :=
    rfl
@[simp] theorem State.setResult_slot (p : PortId) (r : Word) (i : Nat) : (s.setResult p r).slot i = s.slot i := rfl
@[simp] theorem State.setResult_inc (p : PortId) (r : Word) (i : Nat) : (s.setResult p r).inc i = s.inc i := rfl
@[simp] theorem State.setResult_rbHead (p : PortId) (r : Word) : (s.setResult p r).rbHead = s.rbHead := rfl
@[simp] theorem State.setResult_txFull (p : PortId) (r : Word) : (s.setResult p r).txFull = s.txFull := rfl
@[simp] theorem State.setResult_txrdyA (p : PortId) (r : Word) : (s.setResult p r).txrdyA = s.txrdyA := rfl
@[simp] theorem State.setResult_rxA (p : PortId) (r : Word) : (s.setResult p r).rxA = s.rxA := rfl
@[simp] theorem State.setResult_hostByte (p : PortId) (r : Word) (a : Word) :
    (s.setResult p r).hostByte a = s.hostByte a := rfl
@[simp] theorem State.setResult_hostOk (p : PortId) (r : Word) (a : Word) : (s.setResult p r).hostOk a = s.hostOk a :=
    rfl

/-! ### `goto` -/

@[simp] theorem State.goto_earlyDone (p : PortId) (ph : Byte) : (s.goto p ph).earlyDone = s.earlyDone := rfl
@[simp] theorem State.goto_initDone (p : PortId) (ph : Byte) : (s.goto p ph).initDone = s.initDone := rfl
@[simp] theorem State.goto_rbInitDone (p : PortId) (ph : Byte) : (s.goto p ph).rbInitDone = s.rbInitDone := rfl
@[simp] theorem State.goto_mmioBase (p : PortId) (ph : Byte) : (s.goto p ph).mmioBase = s.mmioBase := rfl
@[simp] theorem State.goto_irqLine (p : PortId) (ph : Byte) : (s.goto p ph).irqLine = s.irqLine := rfl
@[simp] theorem State.goto_txIrqEn (p : PortId) (ph : Byte) : (s.goto p ph).txIrqEn = s.txIrqEn := rfl
@[simp] theorem State.goto_failureMode (p : PortId) (ph : Byte) : (s.goto p ph).failureMode = s.failureMode := rfl
@[simp] theorem State.goto_store (p : PortId) (ph : Byte) : (s.goto p ph).store = s.store := rfl
@[simp] theorem State.goto_cap (p : PortId) (ph : Byte) : (s.goto p ph).cap = s.cap := rfl
@[simp] theorem State.goto_rd (p : PortId) (ph : Byte) : (s.goto p ph).rd = s.rd := rfl
@[simp] theorem State.goto_wr (p : PortId) (ph : Byte) : (s.goto p ph).wr = s.wr := rfl
@[simp] theorem State.goto_imask (p : PortId) (ph : Byte) : (s.goto p ph).imask = s.imask := rfl
@[simp] theorem State.goto_rxf (p : PortId) (ph : Byte) : (s.goto p ph).rxf = s.rxf := rfl
@[simp] theorem State.goto_txf (p : PortId) (ph : Byte) : (s.goto p ph).txf = s.txf := rfl
@[simp] theorem State.goto_rxtoP (p : PortId) (ph : Byte) : (s.goto p ph).rxtoP = s.rxtoP := rfl
@[simp] theorem State.goto_lockHeld (p : PortId) (ph : Byte) : (s.goto p ph).lockHeld = s.lockHeld := rfl
@[simp] theorem State.goto_lockOwner (p : PortId) (ph : Byte) : (s.goto p ph).lockOwner = s.lockOwner := rfl
@[simp] theorem State.goto_ieBits (p : PortId) (ph : Byte) : (s.goto p ph).ieBits = s.ieBits := rfl
@[simp] theorem State.goto_wakePend (p : PortId) (ph : Byte) : (s.goto p ph).wakePend = s.wakePend := rfl
@[simp] theorem State.goto_waitCnt (p : PortId) (ph : Byte) : (s.goto p ph).waitCnt = s.waitCnt := rfl
@[simp] theorem State.goto_fullCnt (p : PortId) (ph : Byte) : (s.goto p ph).fullCnt = s.fullCnt := rfl
@[simp] theorem State.goto_fault (p : PortId) (ph : Byte) : (s.goto p ph).fault = s.fault := rfl
@[simp] theorem State.goto_rxIn (p : PortId) (ph : Byte) : (s.goto p ph).rxIn = s.rxIn := rfl
@[simp] theorem State.goto_rxOut (p : PortId) (ph : Byte) : (s.goto p ph).rxOut = s.rxOut := rfl
@[simp] theorem State.goto_txLog (p : PortId) (ph : Byte) : (s.goto p ph).txLog = s.txLog := rfl
@[simp] theorem State.goto_lineOut (p : PortId) (ph : Byte) : (s.goto p ph).lineOut = s.lineOut := rfl
@[simp] theorem State.goto_agents (p : PortId) (ph : Byte) : (s.goto p ph).agents = s.agents := rfl
@[simp] theorem State.goto_params (p : PortId) (ph : Byte) : (s.goto p ph).params = s.params := rfl
@[simp] theorem State.goto_mem (p : PortId) (ph : Byte) : (s.goto p ph).mem = s.mem := rfl
@[simp] theorem State.goto_delivered (p : PortId) (ph : Byte) : (s.goto p ph).delivered = s.delivered := rfl
@[simp] theorem State.goto_sched (p : PortId) (ph : Byte) : (s.goto p ph).sched = s.sched := rfl
@[simp] theorem State.goto_tick (p : PortId) (ph : Byte) : (s.goto p ph).tick = s.tick := rfl
@[simp] theorem State.goto_cur (p : PortId) (ph : Byte) : (s.goto p ph).cur = s.cur := rfl
@[simp] theorem State.goto_busData (p : PortId) (ph : Byte) : (s.goto p ph).busData = s.busData := rfl
@[simp] theorem State.goto_agent (p : PortId) (ph : Byte) (q : PortId) : (s.goto p ph).agent q = s.agent q := rfl
@[simp] theorem State.goto_ie (p : PortId) (ph : Byte) (c' : Nat) : (s.goto p ph).ie c' = s.ie c' := rfl
@[simp] theorem State.goto_kind (p : PortId) (ph : Byte) (q : PortId) : (s.goto p ph).kind q = s.kind q := rfl
@[simp] theorem State.goto_core (p : PortId) (ph : Byte) (q : PortId) : (s.goto p ph).core q = s.core q := rfl
@[simp] theorem State.goto_intPort (p : PortId) (ph : Byte) : (s.goto p ph).intPort = s.intPort := rfl
@[simp] theorem State.goto_hasPort (p : PortId) (ph : Byte) (q : PortId) : (s.goto p ph).hasPort q = s.hasPort q :=
    rfl
@[simp] theorem State.goto_faulted (p : PortId) (ph : Byte) : (s.goto p ph).faulted = s.faulted := rfl
@[simp] theorem State.goto_holdsLock (p : PortId) (ph : Byte) (q : PortId) :
    (s.goto p ph).holdsLock q = s.holdsLock q := rfl
@[simp] theorem State.goto_count (p : PortId) (ph : Byte) : (s.goto p ph).count = s.count := rfl
@[simp] theorem State.goto_isEmpty (p : PortId) (ph : Byte) : (s.goto p ph).isEmpty = s.isEmpty := rfl
@[simp] theorem State.goto_isFull (p : PortId) (ph : Byte) : (s.goto p ph).isFull = s.isFull := rfl
@[simp] theorem State.goto_stored (p : PortId) (ph : Byte) (i : Nat) : (s.goto p ph).stored i = s.stored i := rfl
@[simp] theorem State.goto_slot (p : PortId) (ph : Byte) (i : Nat) : (s.goto p ph).slot i = s.slot i := rfl
@[simp] theorem State.goto_inc (p : PortId) (ph : Byte) (i : Nat) : (s.goto p ph).inc i = s.inc i := rfl
@[simp] theorem State.goto_rbHead (p : PortId) (ph : Byte) : (s.goto p ph).rbHead = s.rbHead := rfl
@[simp] theorem State.goto_txFull (p : PortId) (ph : Byte) : (s.goto p ph).txFull = s.txFull := rfl
@[simp] theorem State.goto_txrdyA (p : PortId) (ph : Byte) : (s.goto p ph).txrdyA = s.txrdyA := rfl
@[simp] theorem State.goto_rxA (p : PortId) (ph : Byte) : (s.goto p ph).rxA = s.rxA := rfl
@[simp] theorem State.goto_hostByte (p : PortId) (ph : Byte) (a : Word) : (s.goto p ph).hostByte a = s.hostByte a :=
    rfl
@[simp] theorem State.goto_hostOk (p : PortId) (ph : Byte) (a : Word) : (s.goto p ph).hostOk a = s.hostOk a := rfl

/-! ### `begin` -/

@[simp] theorem State.begin_earlyDone (p : PortId) (o ph : Byte) : (s.begin p o ph).earlyDone = s.earlyDone := rfl
@[simp] theorem State.begin_initDone (p : PortId) (o ph : Byte) : (s.begin p o ph).initDone = s.initDone := rfl
@[simp] theorem State.begin_rbInitDone (p : PortId) (o ph : Byte) : (s.begin p o ph).rbInitDone = s.rbInitDone := rfl
@[simp] theorem State.begin_mmioBase (p : PortId) (o ph : Byte) : (s.begin p o ph).mmioBase = s.mmioBase := rfl
@[simp] theorem State.begin_irqLine (p : PortId) (o ph : Byte) : (s.begin p o ph).irqLine = s.irqLine := rfl
@[simp] theorem State.begin_txIrqEn (p : PortId) (o ph : Byte) : (s.begin p o ph).txIrqEn = s.txIrqEn := rfl
@[simp] theorem State.begin_failureMode (p : PortId) (o ph : Byte) : (s.begin p o ph).failureMode = s.failureMode :=
    rfl
@[simp] theorem State.begin_store (p : PortId) (o ph : Byte) : (s.begin p o ph).store = s.store := rfl
@[simp] theorem State.begin_cap (p : PortId) (o ph : Byte) : (s.begin p o ph).cap = s.cap := rfl
@[simp] theorem State.begin_rd (p : PortId) (o ph : Byte) : (s.begin p o ph).rd = s.rd := rfl
@[simp] theorem State.begin_wr (p : PortId) (o ph : Byte) : (s.begin p o ph).wr = s.wr := rfl
@[simp] theorem State.begin_imask (p : PortId) (o ph : Byte) : (s.begin p o ph).imask = s.imask := rfl
@[simp] theorem State.begin_rxf (p : PortId) (o ph : Byte) : (s.begin p o ph).rxf = s.rxf := rfl
@[simp] theorem State.begin_txf (p : PortId) (o ph : Byte) : (s.begin p o ph).txf = s.txf := rfl
@[simp] theorem State.begin_rxtoP (p : PortId) (o ph : Byte) : (s.begin p o ph).rxtoP = s.rxtoP := rfl
@[simp] theorem State.begin_lockHeld (p : PortId) (o ph : Byte) : (s.begin p o ph).lockHeld = s.lockHeld := rfl
@[simp] theorem State.begin_lockOwner (p : PortId) (o ph : Byte) : (s.begin p o ph).lockOwner = s.lockOwner := rfl
@[simp] theorem State.begin_ieBits (p : PortId) (o ph : Byte) : (s.begin p o ph).ieBits = s.ieBits := rfl
@[simp] theorem State.begin_wakePend (p : PortId) (o ph : Byte) : (s.begin p o ph).wakePend = s.wakePend := rfl
@[simp] theorem State.begin_waitCnt (p : PortId) (o ph : Byte) : (s.begin p o ph).waitCnt = s.waitCnt := rfl
@[simp] theorem State.begin_fullCnt (p : PortId) (o ph : Byte) : (s.begin p o ph).fullCnt = s.fullCnt := rfl
@[simp] theorem State.begin_fault (p : PortId) (o ph : Byte) : (s.begin p o ph).fault = s.fault := rfl
@[simp] theorem State.begin_rxIn (p : PortId) (o ph : Byte) : (s.begin p o ph).rxIn = s.rxIn := rfl
@[simp] theorem State.begin_rxOut (p : PortId) (o ph : Byte) : (s.begin p o ph).rxOut = s.rxOut := rfl
@[simp] theorem State.begin_txLog (p : PortId) (o ph : Byte) : (s.begin p o ph).txLog = s.txLog := rfl
@[simp] theorem State.begin_lineOut (p : PortId) (o ph : Byte) : (s.begin p o ph).lineOut = s.lineOut := rfl
@[simp] theorem State.begin_agents (p : PortId) (o ph : Byte) : (s.begin p o ph).agents = s.agents := rfl
@[simp] theorem State.begin_params (p : PortId) (o ph : Byte) : (s.begin p o ph).params = s.params := rfl
@[simp] theorem State.begin_mem (p : PortId) (o ph : Byte) : (s.begin p o ph).mem = s.mem := rfl
@[simp] theorem State.begin_delivered (p : PortId) (o ph : Byte) : (s.begin p o ph).delivered = s.delivered := rfl
@[simp] theorem State.begin_sched (p : PortId) (o ph : Byte) : (s.begin p o ph).sched = s.sched := rfl
@[simp] theorem State.begin_tick (p : PortId) (o ph : Byte) : (s.begin p o ph).tick = s.tick := rfl
@[simp] theorem State.begin_cur (p : PortId) (o ph : Byte) : (s.begin p o ph).cur = s.cur := rfl
@[simp] theorem State.begin_busData (p : PortId) (o ph : Byte) : (s.begin p o ph).busData = s.busData := rfl
@[simp] theorem State.begin_agent (p : PortId) (o ph : Byte) (q : PortId) : (s.begin p o ph).agent q = s.agent q :=
    rfl
@[simp] theorem State.begin_ie (p : PortId) (o ph : Byte) (c' : Nat) : (s.begin p o ph).ie c' = s.ie c' := rfl
@[simp] theorem State.begin_kind (p : PortId) (o ph : Byte) (q : PortId) : (s.begin p o ph).kind q = s.kind q := rfl
@[simp] theorem State.begin_core (p : PortId) (o ph : Byte) (q : PortId) : (s.begin p o ph).core q = s.core q := rfl
@[simp] theorem State.begin_intPort (p : PortId) (o ph : Byte) : (s.begin p o ph).intPort = s.intPort := rfl
@[simp] theorem State.begin_hasPort (p : PortId) (o ph : Byte) (q : PortId) :
    (s.begin p o ph).hasPort q = s.hasPort q := rfl
@[simp] theorem State.begin_faulted (p : PortId) (o ph : Byte) : (s.begin p o ph).faulted = s.faulted := rfl
@[simp] theorem State.begin_holdsLock (p : PortId) (o ph : Byte) (q : PortId) :
    (s.begin p o ph).holdsLock q = s.holdsLock q := rfl
@[simp] theorem State.begin_count (p : PortId) (o ph : Byte) : (s.begin p o ph).count = s.count := rfl
@[simp] theorem State.begin_isEmpty (p : PortId) (o ph : Byte) : (s.begin p o ph).isEmpty = s.isEmpty := rfl
@[simp] theorem State.begin_isFull (p : PortId) (o ph : Byte) : (s.begin p o ph).isFull = s.isFull := rfl
@[simp] theorem State.begin_stored (p : PortId) (o ph : Byte) (i : Nat) : (s.begin p o ph).stored i = s.stored i :=
    rfl
@[simp] theorem State.begin_slot (p : PortId) (o ph : Byte) (i : Nat) : (s.begin p o ph).slot i = s.slot i := rfl
@[simp] theorem State.begin_inc (p : PortId) (o ph : Byte) (i : Nat) : (s.begin p o ph).inc i = s.inc i := rfl
@[simp] theorem State.begin_rbHead (p : PortId) (o ph : Byte) : (s.begin p o ph).rbHead = s.rbHead := rfl
@[simp] theorem State.begin_txFull (p : PortId) (o ph : Byte) : (s.begin p o ph).txFull = s.txFull := rfl
@[simp] theorem State.begin_txrdyA (p : PortId) (o ph : Byte) : (s.begin p o ph).txrdyA = s.txrdyA := rfl
@[simp] theorem State.begin_rxA (p : PortId) (o ph : Byte) : (s.begin p o ph).rxA = s.rxA := rfl
@[simp] theorem State.begin_hostByte (p : PortId) (o ph : Byte) (a : Word) :
    (s.begin p o ph).hostByte a = s.hostByte a := rfl
@[simp] theorem State.begin_hostOk (p : PortId) (o ph : Byte) (a : Word) : (s.begin p o ph).hostOk a = s.hostOk a :=
    rfl

/-! ### `done` -/

@[simp] theorem State.done_earlyDone (p : PortId) (r : Word) : (s.done p r).earlyDone = s.earlyDone :=
    by rw [State.done]; rfl
@[simp] theorem State.done_initDone (p : PortId) (r : Word) : (s.done p r).initDone = s.initDone :=
    by rw [State.done]; rfl
@[simp] theorem State.done_rbInitDone (p : PortId) (r : Word) : (s.done p r).rbInitDone = s.rbInitDone :=
    by rw [State.done]; rfl
@[simp] theorem State.done_mmioBase (p : PortId) (r : Word) : (s.done p r).mmioBase = s.mmioBase :=
    by rw [State.done]; rfl
@[simp] theorem State.done_irqLine (p : PortId) (r : Word) : (s.done p r).irqLine = s.irqLine :=
    by rw [State.done]; rfl
@[simp] theorem State.done_txIrqEn (p : PortId) (r : Word) : (s.done p r).txIrqEn = s.txIrqEn :=
    by rw [State.done]; rfl
@[simp] theorem State.done_failureMode (p : PortId) (r : Word) : (s.done p r).failureMode = s.failureMode :=
    by rw [State.done]; rfl
@[simp] theorem State.done_store (p : PortId) (r : Word) : (s.done p r).store = s.store := by rw [State.done]; rfl
@[simp] theorem State.done_cap (p : PortId) (r : Word) : (s.done p r).cap = s.cap := by rw [State.done]; rfl
@[simp] theorem State.done_rd (p : PortId) (r : Word) : (s.done p r).rd = s.rd := by rw [State.done]; rfl
@[simp] theorem State.done_wr (p : PortId) (r : Word) : (s.done p r).wr = s.wr := by rw [State.done]; rfl
@[simp] theorem State.done_imask (p : PortId) (r : Word) : (s.done p r).imask = s.imask := by rw [State.done]; rfl
@[simp] theorem State.done_rxf (p : PortId) (r : Word) : (s.done p r).rxf = s.rxf := by rw [State.done]; rfl
@[simp] theorem State.done_txf (p : PortId) (r : Word) : (s.done p r).txf = s.txf := by rw [State.done]; rfl
@[simp] theorem State.done_rxtoP (p : PortId) (r : Word) : (s.done p r).rxtoP = s.rxtoP := by rw [State.done]; rfl
@[simp] theorem State.done_lockHeld (p : PortId) (r : Word) : (s.done p r).lockHeld = s.lockHeld :=
    by rw [State.done]; rfl
@[simp] theorem State.done_lockOwner (p : PortId) (r : Word) : (s.done p r).lockOwner = s.lockOwner :=
    by rw [State.done]; rfl
@[simp] theorem State.done_ieBits (p : PortId) (r : Word) : (s.done p r).ieBits = s.ieBits := by rw [State.done]; rfl
@[simp] theorem State.done_wakePend (p : PortId) (r : Word) : (s.done p r).wakePend = s.wakePend :=
    by rw [State.done]; rfl
@[simp] theorem State.done_waitCnt (p : PortId) (r : Word) : (s.done p r).waitCnt = s.waitCnt :=
    by rw [State.done]; rfl
@[simp] theorem State.done_fullCnt (p : PortId) (r : Word) : (s.done p r).fullCnt = s.fullCnt :=
    by rw [State.done]; rfl
@[simp] theorem State.done_fault (p : PortId) (r : Word) : (s.done p r).fault = s.fault := by rw [State.done]; rfl
@[simp] theorem State.done_rxIn (p : PortId) (r : Word) : (s.done p r).rxIn = s.rxIn := by rw [State.done]; rfl
@[simp] theorem State.done_rxOut (p : PortId) (r : Word) : (s.done p r).rxOut = s.rxOut := by rw [State.done]; rfl
@[simp] theorem State.done_txLog (p : PortId) (r : Word) : (s.done p r).txLog = s.txLog := by rw [State.done]; rfl
@[simp] theorem State.done_lineOut (p : PortId) (r : Word) : (s.done p r).lineOut = s.lineOut :=
    by rw [State.done]; rfl
@[simp] theorem State.done_params (p : PortId) (r : Word) : (s.done p r).params = s.params := by rw [State.done]; rfl
@[simp] theorem State.done_mem (p : PortId) (r : Word) : (s.done p r).mem = s.mem := by rw [State.done]; rfl
@[simp] theorem State.done_delivered (p : PortId) (r : Word) : (s.done p r).delivered = s.delivered :=
    by rw [State.done]; rfl
@[simp] theorem State.done_sched (p : PortId) (r : Word) : (s.done p r).sched = s.sched := by rw [State.done]; rfl
@[simp] theorem State.done_tick (p : PortId) (r : Word) : (s.done p r).tick = s.tick := by rw [State.done]; rfl
@[simp] theorem State.done_cur (p : PortId) (r : Word) : (s.done p r).cur = s.cur := by rw [State.done]; rfl
@[simp] theorem State.done_busData (p : PortId) (r : Word) : (s.done p r).busData = s.busData :=
    by rw [State.done]; rfl
@[simp] theorem State.done_ie (p : PortId) (r : Word) (c' : Nat) : (s.done p r).ie c' = s.ie c' :=
    by rw [State.done]; rfl
@[simp] theorem State.done_kind (p : PortId) (r : Word) (q : PortId) : (s.done p r).kind q = s.kind q :=
    by rw [State.done]; rfl
@[simp] theorem State.done_core (p : PortId) (r : Word) (q : PortId) : (s.done p r).core q = s.core q :=
    by rw [State.done]; rfl
@[simp] theorem State.done_intPort (p : PortId) (r : Word) : (s.done p r).intPort = s.intPort :=
    by rw [State.done]; rfl
@[simp] theorem State.done_hasPort (p : PortId) (r : Word) (q : PortId) : (s.done p r).hasPort q = s.hasPort q :=
    by rw [State.done]; rfl
@[simp] theorem State.done_faulted (p : PortId) (r : Word) : (s.done p r).faulted = s.faulted :=
    by rw [State.done]; rfl
@[simp] theorem State.done_holdsLock (p : PortId) (r : Word) (q : PortId) :
    (s.done p r).holdsLock q = s.holdsLock q := by rw [State.done]; rfl
@[simp] theorem State.done_count (p : PortId) (r : Word) : (s.done p r).count = s.count := by rw [State.done]; rfl
@[simp] theorem State.done_isEmpty (p : PortId) (r : Word) : (s.done p r).isEmpty = s.isEmpty :=
    by rw [State.done]; rfl
@[simp] theorem State.done_isFull (p : PortId) (r : Word) : (s.done p r).isFull = s.isFull := by rw [State.done]; rfl
@[simp] theorem State.done_stored (p : PortId) (r : Word) (i : Nat) : (s.done p r).stored i = s.stored i :=
    by rw [State.done]; rfl
@[simp] theorem State.done_slot (p : PortId) (r : Word) (i : Nat) : (s.done p r).slot i = s.slot i :=
    by rw [State.done]; rfl
@[simp] theorem State.done_inc (p : PortId) (r : Word) (i : Nat) : (s.done p r).inc i = s.inc i :=
    by rw [State.done]; rfl
@[simp] theorem State.done_rbHead (p : PortId) (r : Word) : (s.done p r).rbHead = s.rbHead := by rw [State.done]; rfl
@[simp] theorem State.done_txFull (p : PortId) (r : Word) : (s.done p r).txFull = s.txFull := by rw [State.done]; rfl
@[simp] theorem State.done_txrdyA (p : PortId) (r : Word) : (s.done p r).txrdyA = s.txrdyA := by rw [State.done]; rfl
@[simp] theorem State.done_rxA (p : PortId) (r : Word) : (s.done p r).rxA = s.rxA := by rw [State.done]; rfl
@[simp] theorem State.done_hostByte (p : PortId) (r : Word) (a : Word) : (s.done p r).hostByte a = s.hostByte a :=
    by rw [State.done]; rfl
@[simp] theorem State.done_hostOk (p : PortId) (r : Word) (a : Word) : (s.done p r).hostOk a = s.hostOk a :=
    by rw [State.done]; rfl

/-! ### `raise` -/

@[simp] theorem State.raise_earlyDone (p : PortId) (c : FaultCode) (o : Byte) (f : BitVec 12) :
    (s.raise p c o f).earlyDone = s.earlyDone := rfl
@[simp] theorem State.raise_initDone (p : PortId) (c : FaultCode) (o : Byte) (f : BitVec 12) :
    (s.raise p c o f).initDone = s.initDone := rfl
@[simp] theorem State.raise_rbInitDone (p : PortId) (c : FaultCode) (o : Byte) (f : BitVec 12) :
    (s.raise p c o f).rbInitDone = s.rbInitDone := rfl
@[simp] theorem State.raise_mmioBase (p : PortId) (c : FaultCode) (o : Byte) (f : BitVec 12) :
    (s.raise p c o f).mmioBase = s.mmioBase := rfl
@[simp] theorem State.raise_irqLine (p : PortId) (c : FaultCode) (o : Byte) (f : BitVec 12) :
    (s.raise p c o f).irqLine = s.irqLine := rfl
@[simp] theorem State.raise_txIrqEn (p : PortId) (c : FaultCode) (o : Byte) (f : BitVec 12) :
    (s.raise p c o f).txIrqEn = s.txIrqEn := rfl
@[simp] theorem State.raise_failureMode (p : PortId) (c : FaultCode) (o : Byte) (f : BitVec 12) :
    (s.raise p c o f).failureMode = s.failureMode := rfl
@[simp] theorem State.raise_store (p : PortId) (c : FaultCode) (o : Byte) (f : BitVec 12) :
    (s.raise p c o f).store = s.store := rfl
@[simp] theorem State.raise_cap (p : PortId) (c : FaultCode) (o : Byte) (f : BitVec 12) :
    (s.raise p c o f).cap = s.cap := rfl
@[simp] theorem State.raise_rd (p : PortId) (c : FaultCode) (o : Byte) (f : BitVec 12) :
    (s.raise p c o f).rd = s.rd := rfl
@[simp] theorem State.raise_wr (p : PortId) (c : FaultCode) (o : Byte) (f : BitVec 12) :
    (s.raise p c o f).wr = s.wr := rfl
@[simp] theorem State.raise_imask (p : PortId) (c : FaultCode) (o : Byte) (f : BitVec 12) :
    (s.raise p c o f).imask = s.imask := rfl
@[simp] theorem State.raise_rxf (p : PortId) (c : FaultCode) (o : Byte) (f : BitVec 12) :
    (s.raise p c o f).rxf = s.rxf := rfl
@[simp] theorem State.raise_txf (p : PortId) (c : FaultCode) (o : Byte) (f : BitVec 12) :
    (s.raise p c o f).txf = s.txf := rfl
@[simp] theorem State.raise_rxtoP (p : PortId) (c : FaultCode) (o : Byte) (f : BitVec 12) :
    (s.raise p c o f).rxtoP = s.rxtoP := rfl
@[simp] theorem State.raise_lockHeld (p : PortId) (c : FaultCode) (o : Byte) (f : BitVec 12) :
    (s.raise p c o f).lockHeld = s.lockHeld := rfl
@[simp] theorem State.raise_lockOwner (p : PortId) (c : FaultCode) (o : Byte) (f : BitVec 12) :
    (s.raise p c o f).lockOwner = s.lockOwner := rfl
@[simp] theorem State.raise_ieBits (p : PortId) (c : FaultCode) (o : Byte) (f : BitVec 12) :
    (s.raise p c o f).ieBits = s.ieBits := rfl
@[simp] theorem State.raise_wakePend (p : PortId) (c : FaultCode) (o : Byte) (f : BitVec 12) :
    (s.raise p c o f).wakePend = s.wakePend := rfl
@[simp] theorem State.raise_waitCnt (p : PortId) (c : FaultCode) (o : Byte) (f : BitVec 12) :
    (s.raise p c o f).waitCnt = s.waitCnt := rfl
@[simp] theorem State.raise_fullCnt (p : PortId) (c : FaultCode) (o : Byte) (f : BitVec 12) :
    (s.raise p c o f).fullCnt = s.fullCnt := rfl
@[simp] theorem State.raise_fault (p : PortId) (c : FaultCode) (o : Byte) (f : BitVec 12) :
    (s.raise p c o f).fault = { code := c.toByte, opc := o, port := p, offset := f } := rfl
@[simp] theorem State.raise_rxIn (p : PortId) (c : FaultCode) (o : Byte) (f : BitVec 12) :
    (s.raise p c o f).rxIn = s.rxIn := rfl
@[simp] theorem State.raise_rxOut (p : PortId) (c : FaultCode) (o : Byte) (f : BitVec 12) :
    (s.raise p c o f).rxOut = s.rxOut := rfl
@[simp] theorem State.raise_txLog (p : PortId) (c : FaultCode) (o : Byte) (f : BitVec 12) :
    (s.raise p c o f).txLog = s.txLog := rfl
@[simp] theorem State.raise_lineOut (p : PortId) (c : FaultCode) (o : Byte) (f : BitVec 12) :
    (s.raise p c o f).lineOut = s.lineOut := rfl
@[simp] theorem State.raise_ports (p : PortId) (c : FaultCode) (o : Byte) (f : BitVec 12) :
    (s.raise p c o f).ports = s.ports := rfl
@[simp] theorem State.raise_agents (p : PortId) (c : FaultCode) (o : Byte) (f : BitVec 12) :
    (s.raise p c o f).agents = s.agents := rfl
@[simp] theorem State.raise_params (p : PortId) (c : FaultCode) (o : Byte) (f : BitVec 12) :
    (s.raise p c o f).params = s.params := rfl
@[simp] theorem State.raise_mem (p : PortId) (c : FaultCode) (o : Byte) (f : BitVec 12) :
    (s.raise p c o f).mem = s.mem := rfl
@[simp] theorem State.raise_delivered (p : PortId) (c : FaultCode) (o : Byte) (f : BitVec 12) :
    (s.raise p c o f).delivered = s.delivered := rfl
@[simp] theorem State.raise_sched (p : PortId) (c : FaultCode) (o : Byte) (f : BitVec 12) :
    (s.raise p c o f).sched = s.sched := rfl
@[simp] theorem State.raise_tick (p : PortId) (c : FaultCode) (o : Byte) (f : BitVec 12) :
    (s.raise p c o f).tick = s.tick := rfl
@[simp] theorem State.raise_cur (p : PortId) (c : FaultCode) (o : Byte) (f : BitVec 12) :
    (s.raise p c o f).cur = s.cur := rfl
@[simp] theorem State.raise_busData (p : PortId) (c : FaultCode) (o : Byte) (f : BitVec 12) :
    (s.raise p c o f).busData = s.busData := rfl
@[simp] theorem State.raise_port (p : PortId) (c : FaultCode) (o : Byte) (f : BitVec 12) (q : PortId) :
    (s.raise p c o f).port q = s.port q := rfl
@[simp] theorem State.raise_agent (p : PortId) (c : FaultCode) (o : Byte) (f : BitVec 12) (q : PortId) :
    (s.raise p c o f).agent q = s.agent q := rfl
@[simp] theorem State.raise_ie (p : PortId) (c : FaultCode) (o : Byte) (f : BitVec 12) (c' : Nat) :
    (s.raise p c o f).ie c' = s.ie c' := rfl
@[simp] theorem State.raise_kind (p : PortId) (c : FaultCode) (o : Byte) (f : BitVec 12) (q : PortId) :
    (s.raise p c o f).kind q = s.kind q := rfl
@[simp] theorem State.raise_core (p : PortId) (c : FaultCode) (o : Byte) (f : BitVec 12) (q : PortId) :
    (s.raise p c o f).core q = s.core q := rfl
@[simp] theorem State.raise_intPort (p : PortId) (c : FaultCode) (o : Byte) (f : BitVec 12) :
    (s.raise p c o f).intPort = s.intPort := rfl
@[simp] theorem State.raise_hasPort (p : PortId) (c : FaultCode) (o : Byte) (f : BitVec 12) (q : PortId) :
    (s.raise p c o f).hasPort q = s.hasPort q := rfl
@[simp] theorem State.raise_busy (p : PortId) (c : FaultCode) (o : Byte) (f : BitVec 12) (q : PortId) :
    (s.raise p c o f).busy q = s.busy q := rfl
@[simp] theorem State.raise_holdsLock (p : PortId) (c : FaultCode) (o : Byte) (f : BitVec 12) (q : PortId) :
    (s.raise p c o f).holdsLock q = s.holdsLock q := rfl
@[simp] theorem State.raise_count (p : PortId) (c : FaultCode) (o : Byte) (f : BitVec 12) :
    (s.raise p c o f).count = s.count := rfl
@[simp] theorem State.raise_isEmpty (p : PortId) (c : FaultCode) (o : Byte) (f : BitVec 12) :
    (s.raise p c o f).isEmpty = s.isEmpty := rfl
@[simp] theorem State.raise_isFull (p : PortId) (c : FaultCode) (o : Byte) (f : BitVec 12) :
    (s.raise p c o f).isFull = s.isFull := rfl
@[simp] theorem State.raise_stored (p : PortId) (c : FaultCode) (o : Byte) (f : BitVec 12) (i : Nat) :
    (s.raise p c o f).stored i = s.stored i := rfl
@[simp] theorem State.raise_slot (p : PortId) (c : FaultCode) (o : Byte) (f : BitVec 12) (i : Nat) :
    (s.raise p c o f).slot i = s.slot i := rfl
@[simp] theorem State.raise_inc (p : PortId) (c : FaultCode) (o : Byte) (f : BitVec 12) (i : Nat) :
    (s.raise p c o f).inc i = s.inc i := rfl
@[simp] theorem State.raise_rbHead (p : PortId) (c : FaultCode) (o : Byte) (f : BitVec 12) :
    (s.raise p c o f).rbHead = s.rbHead := rfl
@[simp] theorem State.raise_txFull (p : PortId) (c : FaultCode) (o : Byte) (f : BitVec 12) :
    (s.raise p c o f).txFull = s.txFull := rfl
@[simp] theorem State.raise_txrdyA (p : PortId) (c : FaultCode) (o : Byte) (f : BitVec 12) :
    (s.raise p c o f).txrdyA = s.txrdyA := rfl
@[simp] theorem State.raise_rxA (p : PortId) (c : FaultCode) (o : Byte) (f : BitVec 12) :
    (s.raise p c o f).rxA = s.rxA := rfl
@[simp] theorem State.raise_hostByte (p : PortId) (c : FaultCode) (o : Byte) (f : BitVec 12) (a : Word) :
    (s.raise p c o f).hostByte a = s.hostByte a := rfl
@[simp] theorem State.raise_hostOk (p : PortId) (c : FaultCode) (o : Byte) (f : BitVec 12) (a : Word) :
    (s.raise p c o f).hostOk a = s.hostOk a := rfl

/-! ### `takeLock` -/

@[simp] theorem State.takeLock_earlyDone (p : PortId) : (s.takeLock p).earlyDone = s.earlyDone :=
    by rw [State.takeLock]; rfl
@[simp] theorem State.takeLock_initDone (p : PortId) : (s.takeLock p).initDone = s.initDone :=
    by rw [State.takeLock]; rfl
@[simp] theorem State.takeLock_rbInitDone (p : PortId) : (s.takeLock p).rbInitDone = s.rbInitDone :=
    by rw [State.takeLock]; rfl
@[simp] theorem State.takeLock_mmioBase (p : PortId) : (s.takeLock p).mmioBase = s.mmioBase :=
    by rw [State.takeLock]; rfl
@[simp] theorem State.takeLock_irqLine (p : PortId) : (s.takeLock p).irqLine = s.irqLine :=
    by rw [State.takeLock]; rfl
@[simp] theorem State.takeLock_txIrqEn (p : PortId) : (s.takeLock p).txIrqEn = s.txIrqEn :=
    by rw [State.takeLock]; rfl
@[simp] theorem State.takeLock_failureMode (p : PortId) : (s.takeLock p).failureMode = s.failureMode :=
    by rw [State.takeLock]; rfl
@[simp] theorem State.takeLock_store (p : PortId) : (s.takeLock p).store = s.store := by rw [State.takeLock]; rfl
@[simp] theorem State.takeLock_cap (p : PortId) : (s.takeLock p).cap = s.cap := by rw [State.takeLock]; rfl
@[simp] theorem State.takeLock_rd (p : PortId) : (s.takeLock p).rd = s.rd := by rw [State.takeLock]; rfl
@[simp] theorem State.takeLock_wr (p : PortId) : (s.takeLock p).wr = s.wr := by rw [State.takeLock]; rfl
@[simp] theorem State.takeLock_imask (p : PortId) : (s.takeLock p).imask = s.imask := by rw [State.takeLock]; rfl
@[simp] theorem State.takeLock_rxf (p : PortId) : (s.takeLock p).rxf = s.rxf := by rw [State.takeLock]; rfl
@[simp] theorem State.takeLock_txf (p : PortId) : (s.takeLock p).txf = s.txf := by rw [State.takeLock]; rfl
@[simp] theorem State.takeLock_rxtoP (p : PortId) : (s.takeLock p).rxtoP = s.rxtoP := by rw [State.takeLock]; rfl
@[simp] theorem State.takeLock_lockHeld (p : PortId) : (s.takeLock p).lockHeld = true := by rw [State.takeLock]; rfl
@[simp] theorem State.takeLock_lockOwner (p : PortId) : (s.takeLock p).lockOwner = p := by rw [State.takeLock]; rfl
@[simp] theorem State.takeLock_wakePend (p : PortId) : (s.takeLock p).wakePend = s.wakePend :=
    by rw [State.takeLock]; rfl
@[simp] theorem State.takeLock_waitCnt (p : PortId) : (s.takeLock p).waitCnt = s.waitCnt :=
    by rw [State.takeLock]; rfl
@[simp] theorem State.takeLock_fullCnt (p : PortId) : (s.takeLock p).fullCnt = s.fullCnt :=
    by rw [State.takeLock]; rfl
@[simp] theorem State.takeLock_fault (p : PortId) : (s.takeLock p).fault = s.fault := by rw [State.takeLock]; rfl
@[simp] theorem State.takeLock_rxIn (p : PortId) : (s.takeLock p).rxIn = s.rxIn := by rw [State.takeLock]; rfl
@[simp] theorem State.takeLock_rxOut (p : PortId) : (s.takeLock p).rxOut = s.rxOut := by rw [State.takeLock]; rfl
@[simp] theorem State.takeLock_txLog (p : PortId) : (s.takeLock p).txLog = s.txLog := by rw [State.takeLock]; rfl
@[simp] theorem State.takeLock_lineOut (p : PortId) : (s.takeLock p).lineOut = s.lineOut :=
    by rw [State.takeLock]; rfl
@[simp] theorem State.takeLock_ports (p : PortId) : (s.takeLock p).ports = s.ports := by rw [State.takeLock]; rfl
@[simp] theorem State.takeLock_params (p : PortId) : (s.takeLock p).params = s.params := by rw [State.takeLock]; rfl
@[simp] theorem State.takeLock_mem (p : PortId) : (s.takeLock p).mem = s.mem := by rw [State.takeLock]; rfl
@[simp] theorem State.takeLock_delivered (p : PortId) : (s.takeLock p).delivered = s.delivered :=
    by rw [State.takeLock]; rfl
@[simp] theorem State.takeLock_sched (p : PortId) : (s.takeLock p).sched = s.sched := by rw [State.takeLock]; rfl
@[simp] theorem State.takeLock_tick (p : PortId) : (s.takeLock p).tick = s.tick := by rw [State.takeLock]; rfl
@[simp] theorem State.takeLock_cur (p : PortId) : (s.takeLock p).cur = s.cur := by rw [State.takeLock]; rfl
@[simp] theorem State.takeLock_busData (p : PortId) : (s.takeLock p).busData = s.busData :=
    by rw [State.takeLock]; rfl
@[simp] theorem State.takeLock_port (p : PortId) (q : PortId) : (s.takeLock p).port q = s.port q :=
    by rw [State.takeLock]; rfl
@[simp] theorem State.takeLock_kind (p : PortId) (q : PortId) : (s.takeLock p).kind q = s.kind q :=
    by rw [State.takeLock]; rfl
@[simp] theorem State.takeLock_core (p : PortId) (q : PortId) : (s.takeLock p).core q = s.core q :=
    by rw [State.takeLock]; rfl
@[simp] theorem State.takeLock_intPort (p : PortId) : (s.takeLock p).intPort = s.intPort :=
    by rw [State.takeLock]; rfl
@[simp] theorem State.takeLock_hasPort (p : PortId) (q : PortId) : (s.takeLock p).hasPort q = s.hasPort q :=
    by rw [State.takeLock]; rfl
@[simp] theorem State.takeLock_busy (p : PortId) (q : PortId) : (s.takeLock p).busy q = s.busy q :=
    by rw [State.takeLock]; rfl
@[simp] theorem State.takeLock_faulted (p : PortId) : (s.takeLock p).faulted = s.faulted :=
    by rw [State.takeLock]; rfl
@[simp] theorem State.takeLock_count (p : PortId) : (s.takeLock p).count = s.count := by rw [State.takeLock]; rfl
@[simp] theorem State.takeLock_isEmpty (p : PortId) : (s.takeLock p).isEmpty = s.isEmpty :=
    by rw [State.takeLock]; rfl
@[simp] theorem State.takeLock_isFull (p : PortId) : (s.takeLock p).isFull = s.isFull := by rw [State.takeLock]; rfl
@[simp] theorem State.takeLock_stored (p : PortId) (i : Nat) : (s.takeLock p).stored i = s.stored i :=
    by rw [State.takeLock]; rfl
@[simp] theorem State.takeLock_slot (p : PortId) (i : Nat) : (s.takeLock p).slot i = s.slot i :=
    by rw [State.takeLock]; rfl
@[simp] theorem State.takeLock_inc (p : PortId) (i : Nat) : (s.takeLock p).inc i = s.inc i :=
    by rw [State.takeLock]; rfl
@[simp] theorem State.takeLock_rbHead (p : PortId) : (s.takeLock p).rbHead = s.rbHead := by rw [State.takeLock]; rfl
@[simp] theorem State.takeLock_txFull (p : PortId) : (s.takeLock p).txFull = s.txFull := by rw [State.takeLock]; rfl
@[simp] theorem State.takeLock_txrdyA (p : PortId) : (s.takeLock p).txrdyA = s.txrdyA := by rw [State.takeLock]; rfl
@[simp] theorem State.takeLock_rxA (p : PortId) : (s.takeLock p).rxA = s.rxA := by rw [State.takeLock]; rfl
@[simp] theorem State.takeLock_hostByte (p : PortId) (a : Word) : (s.takeLock p).hostByte a = s.hostByte a :=
    by rw [State.takeLock]; rfl
@[simp] theorem State.takeLock_hostOk (p : PortId) (a : Word) : (s.takeLock p).hostOk a = s.hostOk a :=
    by rw [State.takeLock]; rfl

/-! ### `release` -/

@[simp] theorem State.release_earlyDone (p : PortId) : (s.release p).earlyDone = s.earlyDone :=
    by rw [State.release]; rfl
@[simp] theorem State.release_initDone (p : PortId) : (s.release p).initDone = s.initDone :=
    by rw [State.release]; rfl
@[simp] theorem State.release_rbInitDone (p : PortId) : (s.release p).rbInitDone = s.rbInitDone :=
    by rw [State.release]; rfl
@[simp] theorem State.release_mmioBase (p : PortId) : (s.release p).mmioBase = s.mmioBase :=
    by rw [State.release]; rfl
@[simp] theorem State.release_irqLine (p : PortId) : (s.release p).irqLine = s.irqLine := by rw [State.release]; rfl
@[simp] theorem State.release_txIrqEn (p : PortId) : (s.release p).txIrqEn = s.txIrqEn := by rw [State.release]; rfl
@[simp] theorem State.release_failureMode (p : PortId) : (s.release p).failureMode = s.failureMode :=
    by rw [State.release]; rfl
@[simp] theorem State.release_store (p : PortId) : (s.release p).store = s.store := by rw [State.release]; rfl
@[simp] theorem State.release_cap (p : PortId) : (s.release p).cap = s.cap := by rw [State.release]; rfl
@[simp] theorem State.release_rd (p : PortId) : (s.release p).rd = s.rd := by rw [State.release]; rfl
@[simp] theorem State.release_wr (p : PortId) : (s.release p).wr = s.wr := by rw [State.release]; rfl
@[simp] theorem State.release_imask (p : PortId) : (s.release p).imask = s.imask := by rw [State.release]; rfl
@[simp] theorem State.release_rxf (p : PortId) : (s.release p).rxf = s.rxf := by rw [State.release]; rfl
@[simp] theorem State.release_txf (p : PortId) : (s.release p).txf = s.txf := by rw [State.release]; rfl
@[simp] theorem State.release_rxtoP (p : PortId) : (s.release p).rxtoP = s.rxtoP := by rw [State.release]; rfl
@[simp] theorem State.release_lockHeld (p : PortId) : (s.release p).lockHeld = false := by rw [State.release]; rfl
@[simp] theorem State.release_lockOwner (p : PortId) : (s.release p).lockOwner = 0 := by rw [State.release]; rfl
@[simp] theorem State.release_wakePend (p : PortId) : (s.release p).wakePend = s.wakePend :=
    by rw [State.release]; rfl
@[simp] theorem State.release_waitCnt (p : PortId) : (s.release p).waitCnt = s.waitCnt := by rw [State.release]; rfl
@[simp] theorem State.release_fullCnt (p : PortId) : (s.release p).fullCnt = s.fullCnt := by rw [State.release]; rfl
@[simp] theorem State.release_fault (p : PortId) : (s.release p).fault = s.fault := by rw [State.release]; rfl
@[simp] theorem State.release_rxIn (p : PortId) : (s.release p).rxIn = s.rxIn := by rw [State.release]; rfl
@[simp] theorem State.release_rxOut (p : PortId) : (s.release p).rxOut = s.rxOut := by rw [State.release]; rfl
@[simp] theorem State.release_txLog (p : PortId) : (s.release p).txLog = s.txLog := by rw [State.release]; rfl
@[simp] theorem State.release_lineOut (p : PortId) : (s.release p).lineOut = s.lineOut := by rw [State.release]; rfl
@[simp] theorem State.release_ports (p : PortId) : (s.release p).ports = s.ports := by rw [State.release]; rfl
@[simp] theorem State.release_agents (p : PortId) : (s.release p).agents = s.agents := by rw [State.release]; rfl
@[simp] theorem State.release_params (p : PortId) : (s.release p).params = s.params := by rw [State.release]; rfl
@[simp] theorem State.release_mem (p : PortId) : (s.release p).mem = s.mem := by rw [State.release]; rfl
@[simp] theorem State.release_delivered (p : PortId) : (s.release p).delivered = s.delivered :=
    by rw [State.release]; rfl
@[simp] theorem State.release_sched (p : PortId) : (s.release p).sched = s.sched := by rw [State.release]; rfl
@[simp] theorem State.release_tick (p : PortId) : (s.release p).tick = s.tick := by rw [State.release]; rfl
@[simp] theorem State.release_cur (p : PortId) : (s.release p).cur = s.cur := by rw [State.release]; rfl
@[simp] theorem State.release_busData (p : PortId) : (s.release p).busData = s.busData := by rw [State.release]; rfl
@[simp] theorem State.release_port (p : PortId) (q : PortId) : (s.release p).port q = s.port q :=
    by rw [State.release]; rfl
@[simp] theorem State.release_agent (p : PortId) (q : PortId) : (s.release p).agent q = s.agent q :=
    by rw [State.release]; rfl
@[simp] theorem State.release_kind (p : PortId) (q : PortId) : (s.release p).kind q = s.kind q :=
    by rw [State.release]; rfl
@[simp] theorem State.release_core (p : PortId) (q : PortId) : (s.release p).core q = s.core q :=
    by rw [State.release]; rfl
@[simp] theorem State.release_intPort (p : PortId) : (s.release p).intPort = s.intPort := by rw [State.release]; rfl
@[simp] theorem State.release_hasPort (p : PortId) (q : PortId) : (s.release p).hasPort q = s.hasPort q :=
    by rw [State.release]; rfl
@[simp] theorem State.release_busy (p : PortId) (q : PortId) : (s.release p).busy q = s.busy q :=
    by rw [State.release]; rfl
@[simp] theorem State.release_faulted (p : PortId) : (s.release p).faulted = s.faulted := by rw [State.release]; rfl
@[simp] theorem State.release_count (p : PortId) : (s.release p).count = s.count := by rw [State.release]; rfl
@[simp] theorem State.release_isEmpty (p : PortId) : (s.release p).isEmpty = s.isEmpty := by rw [State.release]; rfl
@[simp] theorem State.release_isFull (p : PortId) : (s.release p).isFull = s.isFull := by rw [State.release]; rfl
@[simp] theorem State.release_stored (p : PortId) (i : Nat) : (s.release p).stored i = s.stored i :=
    by rw [State.release]; rfl
@[simp] theorem State.release_slot (p : PortId) (i : Nat) : (s.release p).slot i = s.slot i :=
    by rw [State.release]; rfl
@[simp] theorem State.release_inc (p : PortId) (i : Nat) : (s.release p).inc i = s.inc i := by rw [State.release]; rfl
@[simp] theorem State.release_rbHead (p : PortId) : (s.release p).rbHead = s.rbHead := by rw [State.release]; rfl
@[simp] theorem State.release_txFull (p : PortId) : (s.release p).txFull = s.txFull := by rw [State.release]; rfl
@[simp] theorem State.release_txrdyA (p : PortId) : (s.release p).txrdyA = s.txrdyA := by rw [State.release]; rfl
@[simp] theorem State.release_rxA (p : PortId) : (s.release p).rxA = s.rxA := by rw [State.release]; rfl
@[simp] theorem State.release_hostByte (p : PortId) (a : Word) : (s.release p).hostByte a = s.hostByte a :=
    by rw [State.release]; rfl
@[simp] theorem State.release_hostOk (p : PortId) (a : Word) : (s.release p).hostOk a = s.hostOk a :=
    by rw [State.release]; rfl

/-! ### `signal` -/

@[simp] theorem State.signal_earlyDone : s.signal.earlyDone = s.earlyDone := rfl
@[simp] theorem State.signal_initDone : s.signal.initDone = s.initDone := rfl
@[simp] theorem State.signal_rbInitDone : s.signal.rbInitDone = s.rbInitDone := rfl
@[simp] theorem State.signal_mmioBase : s.signal.mmioBase = s.mmioBase := rfl
@[simp] theorem State.signal_irqLine : s.signal.irqLine = s.irqLine := rfl
@[simp] theorem State.signal_txIrqEn : s.signal.txIrqEn = s.txIrqEn := rfl
@[simp] theorem State.signal_failureMode : s.signal.failureMode = s.failureMode := rfl
@[simp] theorem State.signal_store : s.signal.store = s.store := rfl
@[simp] theorem State.signal_cap : s.signal.cap = s.cap := rfl
@[simp] theorem State.signal_rd : s.signal.rd = s.rd := rfl
@[simp] theorem State.signal_wr : s.signal.wr = s.wr := rfl
@[simp] theorem State.signal_imask : s.signal.imask = s.imask := rfl
@[simp] theorem State.signal_rxf : s.signal.rxf = s.rxf := rfl
@[simp] theorem State.signal_txf : s.signal.txf = s.txf := rfl
@[simp] theorem State.signal_rxtoP : s.signal.rxtoP = s.rxtoP := rfl
@[simp] theorem State.signal_lockHeld : s.signal.lockHeld = s.lockHeld := rfl
@[simp] theorem State.signal_lockOwner : s.signal.lockOwner = s.lockOwner := rfl
@[simp] theorem State.signal_ieBits : s.signal.ieBits = s.ieBits := rfl
@[simp] theorem State.signal_wakePend : s.signal.wakePend = true := rfl
@[simp] theorem State.signal_waitCnt : s.signal.waitCnt = s.waitCnt := rfl
@[simp] theorem State.signal_fullCnt : s.signal.fullCnt = s.fullCnt := rfl
@[simp] theorem State.signal_fault : s.signal.fault = s.fault := rfl
@[simp] theorem State.signal_rxIn : s.signal.rxIn = s.rxIn := rfl
@[simp] theorem State.signal_rxOut : s.signal.rxOut = s.rxOut := rfl
@[simp] theorem State.signal_txLog : s.signal.txLog = s.txLog := rfl
@[simp] theorem State.signal_lineOut : s.signal.lineOut = s.lineOut := rfl
@[simp] theorem State.signal_ports : s.signal.ports = s.ports := rfl
@[simp] theorem State.signal_agents : s.signal.agents = s.agents := rfl
@[simp] theorem State.signal_params : s.signal.params = s.params := rfl
@[simp] theorem State.signal_mem : s.signal.mem = s.mem := rfl
@[simp] theorem State.signal_delivered : s.signal.delivered = s.delivered := rfl
@[simp] theorem State.signal_sched : s.signal.sched = s.sched := rfl
@[simp] theorem State.signal_tick : s.signal.tick = s.tick := rfl
@[simp] theorem State.signal_cur : s.signal.cur = s.cur := rfl
@[simp] theorem State.signal_busData : s.signal.busData = s.busData := rfl
@[simp] theorem State.signal_port (q : PortId) : s.signal.port q = s.port q := rfl
@[simp] theorem State.signal_agent (q : PortId) : s.signal.agent q = s.agent q := rfl
@[simp] theorem State.signal_ie (c' : Nat) : s.signal.ie c' = s.ie c' := rfl
@[simp] theorem State.signal_kind (q : PortId) : s.signal.kind q = s.kind q := rfl
@[simp] theorem State.signal_core (q : PortId) : s.signal.core q = s.core q := rfl
@[simp] theorem State.signal_intPort : s.signal.intPort = s.intPort := rfl
@[simp] theorem State.signal_hasPort (q : PortId) : s.signal.hasPort q = s.hasPort q := rfl
@[simp] theorem State.signal_busy (q : PortId) : s.signal.busy q = s.busy q := rfl
@[simp] theorem State.signal_faulted : s.signal.faulted = s.faulted := rfl
@[simp] theorem State.signal_holdsLock (q : PortId) : s.signal.holdsLock q = s.holdsLock q := rfl
@[simp] theorem State.signal_count : s.signal.count = s.count := rfl
@[simp] theorem State.signal_isEmpty : s.signal.isEmpty = s.isEmpty := rfl
@[simp] theorem State.signal_isFull : s.signal.isFull = s.isFull := rfl
@[simp] theorem State.signal_stored (i : Nat) : s.signal.stored i = s.stored i := rfl
@[simp] theorem State.signal_slot (i : Nat) : s.signal.slot i = s.slot i := rfl
@[simp] theorem State.signal_inc (i : Nat) : s.signal.inc i = s.inc i := rfl
@[simp] theorem State.signal_rbHead : s.signal.rbHead = s.rbHead := rfl
@[simp] theorem State.signal_txFull : s.signal.txFull = s.txFull := rfl
@[simp] theorem State.signal_txrdyA : s.signal.txrdyA = s.txrdyA := rfl
@[simp] theorem State.signal_rxA : s.signal.rxA = s.rxA := rfl
@[simp] theorem State.signal_hostByte (a : Word) : s.signal.hostByte a = s.hostByte a := rfl
@[simp] theorem State.signal_hostOk (a : Word) : s.signal.hostOk a = s.hostOk a := rfl

/-! ### `countWait` -/

@[simp] theorem State.countWait_earlyDone : s.countWait.earlyDone = s.earlyDone := rfl
@[simp] theorem State.countWait_initDone : s.countWait.initDone = s.initDone := rfl
@[simp] theorem State.countWait_rbInitDone : s.countWait.rbInitDone = s.rbInitDone := rfl
@[simp] theorem State.countWait_mmioBase : s.countWait.mmioBase = s.mmioBase := rfl
@[simp] theorem State.countWait_irqLine : s.countWait.irqLine = s.irqLine := rfl
@[simp] theorem State.countWait_txIrqEn : s.countWait.txIrqEn = s.txIrqEn := rfl
@[simp] theorem State.countWait_failureMode : s.countWait.failureMode = s.failureMode := rfl
@[simp] theorem State.countWait_store : s.countWait.store = s.store := rfl
@[simp] theorem State.countWait_cap : s.countWait.cap = s.cap := rfl
@[simp] theorem State.countWait_rd : s.countWait.rd = s.rd := rfl
@[simp] theorem State.countWait_wr : s.countWait.wr = s.wr := rfl
@[simp] theorem State.countWait_imask : s.countWait.imask = s.imask := rfl
@[simp] theorem State.countWait_rxf : s.countWait.rxf = s.rxf := rfl
@[simp] theorem State.countWait_txf : s.countWait.txf = s.txf := rfl
@[simp] theorem State.countWait_rxtoP : s.countWait.rxtoP = s.rxtoP := rfl
@[simp] theorem State.countWait_lockHeld : s.countWait.lockHeld = s.lockHeld := rfl
@[simp] theorem State.countWait_lockOwner : s.countWait.lockOwner = s.lockOwner := rfl
@[simp] theorem State.countWait_ieBits : s.countWait.ieBits = s.ieBits := rfl
@[simp] theorem State.countWait_wakePend : s.countWait.wakePend = s.wakePend := rfl
@[simp] theorem State.countWait_waitCnt : s.countWait.waitCnt = s.waitCnt + 1#32 := rfl
@[simp] theorem State.countWait_fullCnt : s.countWait.fullCnt = s.fullCnt := rfl
@[simp] theorem State.countWait_fault : s.countWait.fault = s.fault := rfl
@[simp] theorem State.countWait_rxIn : s.countWait.rxIn = s.rxIn := rfl
@[simp] theorem State.countWait_rxOut : s.countWait.rxOut = s.rxOut := rfl
@[simp] theorem State.countWait_txLog : s.countWait.txLog = s.txLog := rfl
@[simp] theorem State.countWait_lineOut : s.countWait.lineOut = s.lineOut := rfl
@[simp] theorem State.countWait_ports : s.countWait.ports = s.ports := rfl
@[simp] theorem State.countWait_agents : s.countWait.agents = s.agents := rfl
@[simp] theorem State.countWait_params : s.countWait.params = s.params := rfl
@[simp] theorem State.countWait_mem : s.countWait.mem = s.mem := rfl
@[simp] theorem State.countWait_delivered : s.countWait.delivered = s.delivered := rfl
@[simp] theorem State.countWait_sched : s.countWait.sched = s.sched := rfl
@[simp] theorem State.countWait_tick : s.countWait.tick = s.tick := rfl
@[simp] theorem State.countWait_cur : s.countWait.cur = s.cur := rfl
@[simp] theorem State.countWait_busData : s.countWait.busData = s.busData := rfl
@[simp] theorem State.countWait_port (q : PortId) : s.countWait.port q = s.port q := rfl
@[simp] theorem State.countWait_agent (q : PortId) : s.countWait.agent q = s.agent q := rfl
@[simp] theorem State.countWait_ie (c' : Nat) : s.countWait.ie c' = s.ie c' := rfl
@[simp] theorem State.countWait_kind (q : PortId) : s.countWait.kind q = s.kind q := rfl
@[simp] theorem State.countWait_core (q : PortId) : s.countWait.core q = s.core q := rfl
@[simp] theorem State.countWait_intPort : s.countWait.intPort = s.intPort := rfl
@[simp] theorem State.countWait_hasPort (q : PortId) : s.countWait.hasPort q = s.hasPort q := rfl
@[simp] theorem State.countWait_busy (q : PortId) : s.countWait.busy q = s.busy q := rfl
@[simp] theorem State.countWait_faulted : s.countWait.faulted = s.faulted := rfl
@[simp] theorem State.countWait_holdsLock (q : PortId) : s.countWait.holdsLock q = s.holdsLock q := rfl
@[simp] theorem State.countWait_count : s.countWait.count = s.count := rfl
@[simp] theorem State.countWait_isEmpty : s.countWait.isEmpty = s.isEmpty := rfl
@[simp] theorem State.countWait_isFull : s.countWait.isFull = s.isFull := rfl
@[simp] theorem State.countWait_stored (i : Nat) : s.countWait.stored i = s.stored i := rfl
@[simp] theorem State.countWait_slot (i : Nat) : s.countWait.slot i = s.slot i := rfl
@[simp] theorem State.countWait_inc (i : Nat) : s.countWait.inc i = s.inc i := rfl
@[simp] theorem State.countWait_rbHead : s.countWait.rbHead = s.rbHead := rfl
@[simp] theorem State.countWait_txFull : s.countWait.txFull = s.txFull := rfl
@[simp] theorem State.countWait_txrdyA : s.countWait.txrdyA = s.txrdyA := rfl
@[simp] theorem State.countWait_rxA : s.countWait.rxA = s.rxA := rfl
@[simp] theorem State.countWait_hostByte (a : Word) : s.countWait.hostByte a = s.hostByte a := rfl
@[simp] theorem State.countWait_hostOk (a : Word) : s.countWait.hostOk a = s.hostOk a := rfl

/-! ### `countFull` -/

@[simp] theorem State.countFull_earlyDone : s.countFull.earlyDone = s.earlyDone := rfl
@[simp] theorem State.countFull_initDone : s.countFull.initDone = s.initDone := rfl
@[simp] theorem State.countFull_rbInitDone : s.countFull.rbInitDone = s.rbInitDone := rfl
@[simp] theorem State.countFull_mmioBase : s.countFull.mmioBase = s.mmioBase := rfl
@[simp] theorem State.countFull_irqLine : s.countFull.irqLine = s.irqLine := rfl
@[simp] theorem State.countFull_txIrqEn : s.countFull.txIrqEn = s.txIrqEn := rfl
@[simp] theorem State.countFull_failureMode : s.countFull.failureMode = s.failureMode := rfl
@[simp] theorem State.countFull_store : s.countFull.store = s.store := rfl
@[simp] theorem State.countFull_cap : s.countFull.cap = s.cap := rfl
@[simp] theorem State.countFull_rd : s.countFull.rd = s.rd := rfl
@[simp] theorem State.countFull_wr : s.countFull.wr = s.wr := rfl
@[simp] theorem State.countFull_imask : s.countFull.imask = s.imask := rfl
@[simp] theorem State.countFull_rxf : s.countFull.rxf = s.rxf := rfl
@[simp] theorem State.countFull_txf : s.countFull.txf = s.txf := rfl
@[simp] theorem State.countFull_rxtoP : s.countFull.rxtoP = s.rxtoP := rfl
@[simp] theorem State.countFull_lockHeld : s.countFull.lockHeld = s.lockHeld := rfl
@[simp] theorem State.countFull_lockOwner : s.countFull.lockOwner = s.lockOwner := rfl
@[simp] theorem State.countFull_ieBits : s.countFull.ieBits = s.ieBits := rfl
@[simp] theorem State.countFull_wakePend : s.countFull.wakePend = s.wakePend := rfl
@[simp] theorem State.countFull_waitCnt : s.countFull.waitCnt = s.waitCnt := rfl
@[simp] theorem State.countFull_fullCnt : s.countFull.fullCnt = s.fullCnt + 1#32 := rfl
@[simp] theorem State.countFull_fault : s.countFull.fault = s.fault := rfl
@[simp] theorem State.countFull_rxIn : s.countFull.rxIn = s.rxIn := rfl
@[simp] theorem State.countFull_rxOut : s.countFull.rxOut = s.rxOut := rfl
@[simp] theorem State.countFull_txLog : s.countFull.txLog = s.txLog := rfl
@[simp] theorem State.countFull_lineOut : s.countFull.lineOut = s.lineOut := rfl
@[simp] theorem State.countFull_ports : s.countFull.ports = s.ports := rfl
@[simp] theorem State.countFull_agents : s.countFull.agents = s.agents := rfl
@[simp] theorem State.countFull_params : s.countFull.params = s.params := rfl
@[simp] theorem State.countFull_mem : s.countFull.mem = s.mem := rfl
@[simp] theorem State.countFull_delivered : s.countFull.delivered = s.delivered := rfl
@[simp] theorem State.countFull_sched : s.countFull.sched = s.sched := rfl
@[simp] theorem State.countFull_tick : s.countFull.tick = s.tick := rfl
@[simp] theorem State.countFull_cur : s.countFull.cur = s.cur := rfl
@[simp] theorem State.countFull_busData : s.countFull.busData = s.busData := rfl
@[simp] theorem State.countFull_port (q : PortId) : s.countFull.port q = s.port q := rfl
@[simp] theorem State.countFull_agent (q : PortId) : s.countFull.agent q = s.agent q := rfl
@[simp] theorem State.countFull_ie (c' : Nat) : s.countFull.ie c' = s.ie c' := rfl
@[simp] theorem State.countFull_kind (q : PortId) : s.countFull.kind q = s.kind q := rfl
@[simp] theorem State.countFull_core (q : PortId) : s.countFull.core q = s.core q := rfl
@[simp] theorem State.countFull_intPort : s.countFull.intPort = s.intPort := rfl
@[simp] theorem State.countFull_hasPort (q : PortId) : s.countFull.hasPort q = s.hasPort q := rfl
@[simp] theorem State.countFull_busy (q : PortId) : s.countFull.busy q = s.busy q := rfl
@[simp] theorem State.countFull_faulted : s.countFull.faulted = s.faulted := rfl
@[simp] theorem State.countFull_holdsLock (q : PortId) : s.countFull.holdsLock q = s.holdsLock q := rfl
@[simp] theorem State.countFull_count : s.countFull.count = s.count := rfl
@[simp] theorem State.countFull_isEmpty : s.countFull.isEmpty = s.isEmpty := rfl
@[simp] theorem State.countFull_isFull : s.countFull.isFull = s.isFull := rfl
@[simp] theorem State.countFull_stored (i : Nat) : s.countFull.stored i = s.stored i := rfl
@[simp] theorem State.countFull_slot (i : Nat) : s.countFull.slot i = s.slot i := rfl
@[simp] theorem State.countFull_inc (i : Nat) : s.countFull.inc i = s.inc i := rfl
@[simp] theorem State.countFull_rbHead : s.countFull.rbHead = s.rbHead := rfl
@[simp] theorem State.countFull_txFull : s.countFull.txFull = s.txFull := rfl
@[simp] theorem State.countFull_txrdyA : s.countFull.txrdyA = s.txrdyA := rfl
@[simp] theorem State.countFull_rxA : s.countFull.rxA = s.rxA := rfl
@[simp] theorem State.countFull_hostByte (a : Word) : s.countFull.hostByte a = s.hostByte a := rfl
@[simp] theorem State.countFull_hostOk (a : Word) : s.countFull.hostOk a = s.hostOk a := rfl

/-! ### `maskRx` -/

@[simp] theorem State.maskRx_earlyDone (m : Bool) : (s.maskRx m).earlyDone = s.earlyDone := rfl
@[simp] theorem State.maskRx_initDone (m : Bool) : (s.maskRx m).initDone = s.initDone := rfl
@[simp] theorem State.maskRx_rbInitDone (m : Bool) : (s.maskRx m).rbInitDone = s.rbInitDone := rfl
@[simp] theorem State.maskRx_mmioBase (m : Bool) : (s.maskRx m).mmioBase = s.mmioBase := rfl
@[simp] theorem State.maskRx_irqLine (m : Bool) : (s.maskRx m).irqLine = s.irqLine := rfl
@[simp] theorem State.maskRx_txIrqEn (m : Bool) : (s.maskRx m).txIrqEn = s.txIrqEn := rfl
@[simp] theorem State.maskRx_failureMode (m : Bool) : (s.maskRx m).failureMode = s.failureMode := rfl
@[simp] theorem State.maskRx_store (m : Bool) : (s.maskRx m).store = s.store := rfl
@[simp] theorem State.maskRx_cap (m : Bool) : (s.maskRx m).cap = s.cap := rfl
@[simp] theorem State.maskRx_rd (m : Bool) : (s.maskRx m).rd = s.rd := rfl
@[simp] theorem State.maskRx_wr (m : Bool) : (s.maskRx m).wr = s.wr := rfl
@[simp] theorem State.maskRx_imask (m : Bool) : (s.maskRx m).imask = { s.imask with rxrdyM := m, rxtoM := m } := rfl
@[simp] theorem State.maskRx_rxf (m : Bool) : (s.maskRx m).rxf = s.rxf := rfl
@[simp] theorem State.maskRx_txf (m : Bool) : (s.maskRx m).txf = s.txf := rfl
@[simp] theorem State.maskRx_rxtoP (m : Bool) : (s.maskRx m).rxtoP = s.rxtoP := rfl
@[simp] theorem State.maskRx_lockHeld (m : Bool) : (s.maskRx m).lockHeld = s.lockHeld := rfl
@[simp] theorem State.maskRx_lockOwner (m : Bool) : (s.maskRx m).lockOwner = s.lockOwner := rfl
@[simp] theorem State.maskRx_ieBits (m : Bool) : (s.maskRx m).ieBits = s.ieBits := rfl
@[simp] theorem State.maskRx_wakePend (m : Bool) : (s.maskRx m).wakePend = s.wakePend := rfl
@[simp] theorem State.maskRx_waitCnt (m : Bool) : (s.maskRx m).waitCnt = s.waitCnt := rfl
@[simp] theorem State.maskRx_fullCnt (m : Bool) : (s.maskRx m).fullCnt = s.fullCnt := rfl
@[simp] theorem State.maskRx_fault (m : Bool) : (s.maskRx m).fault = s.fault := rfl
@[simp] theorem State.maskRx_rxIn (m : Bool) : (s.maskRx m).rxIn = s.rxIn := rfl
@[simp] theorem State.maskRx_rxOut (m : Bool) : (s.maskRx m).rxOut = s.rxOut := rfl
@[simp] theorem State.maskRx_txLog (m : Bool) : (s.maskRx m).txLog = s.txLog := rfl
@[simp] theorem State.maskRx_lineOut (m : Bool) : (s.maskRx m).lineOut = s.lineOut := rfl
@[simp] theorem State.maskRx_ports (m : Bool) : (s.maskRx m).ports = s.ports := rfl
@[simp] theorem State.maskRx_agents (m : Bool) : (s.maskRx m).agents = s.agents := rfl
@[simp] theorem State.maskRx_params (m : Bool) : (s.maskRx m).params = s.params := rfl
@[simp] theorem State.maskRx_mem (m : Bool) : (s.maskRx m).mem = s.mem := rfl
@[simp] theorem State.maskRx_delivered (m : Bool) : (s.maskRx m).delivered = s.delivered := rfl
@[simp] theorem State.maskRx_sched (m : Bool) : (s.maskRx m).sched = s.sched := rfl
@[simp] theorem State.maskRx_tick (m : Bool) : (s.maskRx m).tick = s.tick := rfl
@[simp] theorem State.maskRx_cur (m : Bool) : (s.maskRx m).cur = s.cur := rfl
@[simp] theorem State.maskRx_busData (m : Bool) : (s.maskRx m).busData = s.busData := rfl
@[simp] theorem State.maskRx_port (m : Bool) (q : PortId) : (s.maskRx m).port q = s.port q := rfl
@[simp] theorem State.maskRx_agent (m : Bool) (q : PortId) : (s.maskRx m).agent q = s.agent q := rfl
@[simp] theorem State.maskRx_ie (m : Bool) (c' : Nat) : (s.maskRx m).ie c' = s.ie c' := rfl
@[simp] theorem State.maskRx_kind (m : Bool) (q : PortId) : (s.maskRx m).kind q = s.kind q := rfl
@[simp] theorem State.maskRx_core (m : Bool) (q : PortId) : (s.maskRx m).core q = s.core q := rfl
@[simp] theorem State.maskRx_intPort (m : Bool) : (s.maskRx m).intPort = s.intPort := rfl
@[simp] theorem State.maskRx_hasPort (m : Bool) (q : PortId) : (s.maskRx m).hasPort q = s.hasPort q := rfl
@[simp] theorem State.maskRx_busy (m : Bool) (q : PortId) : (s.maskRx m).busy q = s.busy q := rfl
@[simp] theorem State.maskRx_faulted (m : Bool) : (s.maskRx m).faulted = s.faulted := rfl
@[simp] theorem State.maskRx_holdsLock (m : Bool) (q : PortId) : (s.maskRx m).holdsLock q = s.holdsLock q := rfl
@[simp] theorem State.maskRx_count (m : Bool) : (s.maskRx m).count = s.count := rfl
@[simp] theorem State.maskRx_isEmpty (m : Bool) : (s.maskRx m).isEmpty = s.isEmpty := rfl
@[simp] theorem State.maskRx_isFull (m : Bool) : (s.maskRx m).isFull = s.isFull := rfl
@[simp] theorem State.maskRx_stored (m : Bool) (i : Nat) : (s.maskRx m).stored i = s.stored i := rfl
@[simp] theorem State.maskRx_slot (m : Bool) (i : Nat) : (s.maskRx m).slot i = s.slot i := rfl
@[simp] theorem State.maskRx_inc (m : Bool) (i : Nat) : (s.maskRx m).inc i = s.inc i := rfl
@[simp] theorem State.maskRx_rbHead (m : Bool) : (s.maskRx m).rbHead = s.rbHead := rfl
@[simp] theorem State.maskRx_txFull (m : Bool) : (s.maskRx m).txFull = s.txFull := rfl
@[simp] theorem State.maskRx_hostByte (m : Bool) (a : Word) : (s.maskRx m).hostByte a = s.hostByte a := rfl
@[simp] theorem State.maskRx_hostOk (m : Bool) (a : Word) : (s.maskRx m).hostOk a = s.hostOk a := rfl

/-! ### `maskTx` -/

@[simp] theorem State.maskTx_earlyDone (m : Bool) : (s.maskTx m).earlyDone = s.earlyDone := rfl
@[simp] theorem State.maskTx_initDone (m : Bool) : (s.maskTx m).initDone = s.initDone := rfl
@[simp] theorem State.maskTx_rbInitDone (m : Bool) : (s.maskTx m).rbInitDone = s.rbInitDone := rfl
@[simp] theorem State.maskTx_mmioBase (m : Bool) : (s.maskTx m).mmioBase = s.mmioBase := rfl
@[simp] theorem State.maskTx_irqLine (m : Bool) : (s.maskTx m).irqLine = s.irqLine := rfl
@[simp] theorem State.maskTx_txIrqEn (m : Bool) : (s.maskTx m).txIrqEn = s.txIrqEn := rfl
@[simp] theorem State.maskTx_failureMode (m : Bool) : (s.maskTx m).failureMode = s.failureMode := rfl
@[simp] theorem State.maskTx_store (m : Bool) : (s.maskTx m).store = s.store := rfl
@[simp] theorem State.maskTx_cap (m : Bool) : (s.maskTx m).cap = s.cap := rfl
@[simp] theorem State.maskTx_rd (m : Bool) : (s.maskTx m).rd = s.rd := rfl
@[simp] theorem State.maskTx_wr (m : Bool) : (s.maskTx m).wr = s.wr := rfl
@[simp] theorem State.maskTx_imask (m : Bool) : (s.maskTx m).imask = { s.imask with txrdyM := m } := rfl
@[simp] theorem State.maskTx_rxf (m : Bool) : (s.maskTx m).rxf = s.rxf := rfl
@[simp] theorem State.maskTx_txf (m : Bool) : (s.maskTx m).txf = s.txf := rfl
@[simp] theorem State.maskTx_rxtoP (m : Bool) : (s.maskTx m).rxtoP = s.rxtoP := rfl
@[simp] theorem State.maskTx_lockHeld (m : Bool) : (s.maskTx m).lockHeld = s.lockHeld := rfl
@[simp] theorem State.maskTx_lockOwner (m : Bool) : (s.maskTx m).lockOwner = s.lockOwner := rfl
@[simp] theorem State.maskTx_ieBits (m : Bool) : (s.maskTx m).ieBits = s.ieBits := rfl
@[simp] theorem State.maskTx_wakePend (m : Bool) : (s.maskTx m).wakePend = s.wakePend := rfl
@[simp] theorem State.maskTx_waitCnt (m : Bool) : (s.maskTx m).waitCnt = s.waitCnt := rfl
@[simp] theorem State.maskTx_fullCnt (m : Bool) : (s.maskTx m).fullCnt = s.fullCnt := rfl
@[simp] theorem State.maskTx_fault (m : Bool) : (s.maskTx m).fault = s.fault := rfl
@[simp] theorem State.maskTx_rxIn (m : Bool) : (s.maskTx m).rxIn = s.rxIn := rfl
@[simp] theorem State.maskTx_rxOut (m : Bool) : (s.maskTx m).rxOut = s.rxOut := rfl
@[simp] theorem State.maskTx_txLog (m : Bool) : (s.maskTx m).txLog = s.txLog := rfl
@[simp] theorem State.maskTx_lineOut (m : Bool) : (s.maskTx m).lineOut = s.lineOut := rfl
@[simp] theorem State.maskTx_ports (m : Bool) : (s.maskTx m).ports = s.ports := rfl
@[simp] theorem State.maskTx_agents (m : Bool) : (s.maskTx m).agents = s.agents := rfl
@[simp] theorem State.maskTx_params (m : Bool) : (s.maskTx m).params = s.params := rfl
@[simp] theorem State.maskTx_mem (m : Bool) : (s.maskTx m).mem = s.mem := rfl
@[simp] theorem State.maskTx_delivered (m : Bool) : (s.maskTx m).delivered = s.delivered := rfl
@[simp] theorem State.maskTx_sched (m : Bool) : (s.maskTx m).sched = s.sched := rfl
@[simp] theorem State.maskTx_tick (m : Bool) : (s.maskTx m).tick = s.tick := rfl
@[simp] theorem State.maskTx_cur (m : Bool) : (s.maskTx m).cur = s.cur := rfl
@[simp] theorem State.maskTx_busData (m : Bool) : (s.maskTx m).busData = s.busData := rfl
@[simp] theorem State.maskTx_port (m : Bool) (q : PortId) : (s.maskTx m).port q = s.port q := rfl
@[simp] theorem State.maskTx_agent (m : Bool) (q : PortId) : (s.maskTx m).agent q = s.agent q := rfl
@[simp] theorem State.maskTx_ie (m : Bool) (c' : Nat) : (s.maskTx m).ie c' = s.ie c' := rfl
@[simp] theorem State.maskTx_kind (m : Bool) (q : PortId) : (s.maskTx m).kind q = s.kind q := rfl
@[simp] theorem State.maskTx_core (m : Bool) (q : PortId) : (s.maskTx m).core q = s.core q := rfl
@[simp] theorem State.maskTx_intPort (m : Bool) : (s.maskTx m).intPort = s.intPort := rfl
@[simp] theorem State.maskTx_hasPort (m : Bool) (q : PortId) : (s.maskTx m).hasPort q = s.hasPort q := rfl
@[simp] theorem State.maskTx_busy (m : Bool) (q : PortId) : (s.maskTx m).busy q = s.busy q := rfl
@[simp] theorem State.maskTx_faulted (m : Bool) : (s.maskTx m).faulted = s.faulted := rfl
@[simp] theorem State.maskTx_holdsLock (m : Bool) (q : PortId) : (s.maskTx m).holdsLock q = s.holdsLock q := rfl
@[simp] theorem State.maskTx_count (m : Bool) : (s.maskTx m).count = s.count := rfl
@[simp] theorem State.maskTx_isEmpty (m : Bool) : (s.maskTx m).isEmpty = s.isEmpty := rfl
@[simp] theorem State.maskTx_isFull (m : Bool) : (s.maskTx m).isFull = s.isFull := rfl
@[simp] theorem State.maskTx_stored (m : Bool) (i : Nat) : (s.maskTx m).stored i = s.stored i := rfl
@[simp] theorem State.maskTx_slot (m : Bool) (i : Nat) : (s.maskTx m).slot i = s.slot i := rfl
@[simp] theorem State.maskTx_inc (m : Bool) (i : Nat) : (s.maskTx m).inc i = s.inc i := rfl
@[simp] theorem State.maskTx_rbHead (m : Bool) : (s.maskTx m).rbHead = s.rbHead := rfl
@[simp] theorem State.maskTx_txFull (m : Bool) : (s.maskTx m).txFull = s.txFull := rfl
@[simp] theorem State.maskTx_hostByte (m : Bool) (a : Word) : (s.maskTx m).hostByte a = s.hostByte a := rfl
@[simp] theorem State.maskTx_hostOk (m : Bool) (a : Word) : (s.maskTx m).hostOk a = s.hostOk a := rfl

/-! ### `rbInit` -/

@[simp] theorem State.rbInit_earlyDone (c : Word) : (s.rbInit c).earlyDone = s.earlyDone := rfl
@[simp] theorem State.rbInit_initDone (c : Word) : (s.rbInit c).initDone = s.initDone := rfl
@[simp] theorem State.rbInit_rbInitDone (c : Word) : (s.rbInit c).rbInitDone = true := rfl
@[simp] theorem State.rbInit_mmioBase (c : Word) : (s.rbInit c).mmioBase = s.mmioBase := rfl
@[simp] theorem State.rbInit_irqLine (c : Word) : (s.rbInit c).irqLine = s.irqLine := rfl
@[simp] theorem State.rbInit_txIrqEn (c : Word) : (s.rbInit c).txIrqEn = s.txIrqEn := rfl
@[simp] theorem State.rbInit_failureMode (c : Word) : (s.rbInit c).failureMode = s.failureMode := rfl
@[simp] theorem State.rbInit_store (c : Word) : (s.rbInit c).store = s.store := rfl
@[simp] theorem State.rbInit_cap (c : Word) : (s.rbInit c).cap = c.toNat := rfl
@[simp] theorem State.rbInit_rd (c : Word) : (s.rbInit c).rd = 0 := rfl
@[simp] theorem State.rbInit_wr (c : Word) : (s.rbInit c).wr = 0 := rfl
@[simp] theorem State.rbInit_imask (c : Word) : (s.rbInit c).imask = s.imask := rfl
@[simp] theorem State.rbInit_rxf (c : Word) : (s.rbInit c).rxf = s.rxf := rfl
@[simp] theorem State.rbInit_txf (c : Word) : (s.rbInit c).txf = s.txf := rfl
@[simp] theorem State.rbInit_rxtoP (c : Word) : (s.rbInit c).rxtoP = s.rxtoP := rfl
@[simp] theorem State.rbInit_lockHeld (c : Word) : (s.rbInit c).lockHeld = s.lockHeld := rfl
@[simp] theorem State.rbInit_lockOwner (c : Word) : (s.rbInit c).lockOwner = s.lockOwner := rfl
@[simp] theorem State.rbInit_ieBits (c : Word) : (s.rbInit c).ieBits = s.ieBits := rfl
@[simp] theorem State.rbInit_wakePend (c : Word) : (s.rbInit c).wakePend = s.wakePend := rfl
@[simp] theorem State.rbInit_waitCnt (c : Word) : (s.rbInit c).waitCnt = s.waitCnt := rfl
@[simp] theorem State.rbInit_fullCnt (c : Word) : (s.rbInit c).fullCnt = s.fullCnt := rfl
@[simp] theorem State.rbInit_fault (c : Word) : (s.rbInit c).fault = s.fault := rfl
@[simp] theorem State.rbInit_rxIn (c : Word) : (s.rbInit c).rxIn = s.rxIn := rfl
@[simp] theorem State.rbInit_rxOut (c : Word) : (s.rbInit c).rxOut = s.rxOut := rfl
@[simp] theorem State.rbInit_txLog (c : Word) : (s.rbInit c).txLog = s.txLog := rfl
@[simp] theorem State.rbInit_lineOut (c : Word) : (s.rbInit c).lineOut = s.lineOut := rfl
@[simp] theorem State.rbInit_ports (c : Word) : (s.rbInit c).ports = s.ports := rfl
@[simp] theorem State.rbInit_agents (c : Word) : (s.rbInit c).agents = s.agents := rfl
@[simp] theorem State.rbInit_params (c : Word) : (s.rbInit c).params = s.params := rfl
@[simp] theorem State.rbInit_mem (c : Word) : (s.rbInit c).mem = s.mem := rfl
@[simp] theorem State.rbInit_delivered (c : Word) : (s.rbInit c).delivered = s.delivered := rfl
@[simp] theorem State.rbInit_sched (c : Word) : (s.rbInit c).sched = s.sched := rfl
@[simp] theorem State.rbInit_tick (c : Word) : (s.rbInit c).tick = s.tick := rfl
@[simp] theorem State.rbInit_cur (c : Word) : (s.rbInit c).cur = s.cur := rfl
@[simp] theorem State.rbInit_busData (c : Word) : (s.rbInit c).busData = s.busData := rfl
@[simp] theorem State.rbInit_port (c : Word) (q : PortId) : (s.rbInit c).port q = s.port q := rfl
@[simp] theorem State.rbInit_agent (c : Word) (q : PortId) : (s.rbInit c).agent q = s.agent q := rfl
@[simp] theorem State.rbInit_ie (c : Word) (c' : Nat) : (s.rbInit c).ie c' = s.ie c' := rfl
@[simp] theorem State.rbInit_kind (c : Word) (q : PortId) : (s.rbInit c).kind q = s.kind q := rfl
@[simp] theorem State.rbInit_core (c : Word) (q : PortId) : (s.rbInit c).core q = s.core q := rfl
@[simp] theorem State.rbInit_intPort (c : Word) : (s.rbInit c).intPort = s.intPort := rfl
@[simp] theorem State.rbInit_hasPort (c : Word) (q : PortId) : (s.rbInit c).hasPort q = s.hasPort q := rfl
@[simp] theorem State.rbInit_busy (c : Word) (q : PortId) : (s.rbInit c).busy q = s.busy q := rfl
@[simp] theorem State.rbInit_faulted (c : Word) : (s.rbInit c).faulted = s.faulted := rfl
@[simp] theorem State.rbInit_holdsLock (c : Word) (q : PortId) : (s.rbInit c).holdsLock q = s.holdsLock q := rfl
@[simp] theorem State.rbInit_stored (c : Word) (i : Nat) : (s.rbInit c).stored i = s.stored i := rfl
@[simp] theorem State.rbInit_txFull (c : Word) : (s.rbInit c).txFull = s.txFull := rfl
@[simp] theorem State.rbInit_txrdyA (c : Word) : (s.rbInit c).txrdyA = s.txrdyA := rfl
@[simp] theorem State.rbInit_rxA (c : Word) : (s.rbInit c).rxA = s.rxA := rfl
@[simp] theorem State.rbInit_hostByte (c : Word) (a : Word) : (s.rbInit c).hostByte a = s.hostByte a := rfl
@[simp] theorem State.rbInit_hostOk (c : Word) (a : Word) : (s.rbInit c).hostOk a = s.hostOk a := rfl

/-! ### `rbPush` -/

@[simp] theorem State.rbPush_earlyDone (b : Byte) : (s.rbPush b).earlyDone = s.earlyDone := rfl
@[simp] theorem State.rbPush_initDone (b : Byte) : (s.rbPush b).initDone = s.initDone := rfl
@[simp] theorem State.rbPush_rbInitDone (b : Byte) : (s.rbPush b).rbInitDone = s.rbInitDone := rfl
@[simp] theorem State.rbPush_mmioBase (b : Byte) : (s.rbPush b).mmioBase = s.mmioBase := rfl
@[simp] theorem State.rbPush_irqLine (b : Byte) : (s.rbPush b).irqLine = s.irqLine := rfl
@[simp] theorem State.rbPush_txIrqEn (b : Byte) : (s.rbPush b).txIrqEn = s.txIrqEn := rfl
@[simp] theorem State.rbPush_failureMode (b : Byte) : (s.rbPush b).failureMode = s.failureMode := rfl
@[simp] theorem State.rbPush_cap (b : Byte) : (s.rbPush b).cap = s.cap := rfl
@[simp] theorem State.rbPush_rd (b : Byte) : (s.rbPush b).rd = s.rd := rfl
@[simp] theorem State.rbPush_wr (b : Byte) : (s.rbPush b).wr = s.inc s.wr := rfl
@[simp] theorem State.rbPush_imask (b : Byte) : (s.rbPush b).imask = s.imask := rfl
@[simp] theorem State.rbPush_rxf (b : Byte) : (s.rbPush b).rxf = s.rxf := rfl
@[simp] theorem State.rbPush_txf (b : Byte) : (s.rbPush b).txf = s.txf := rfl
@[simp] theorem State.rbPush_rxtoP (b : Byte) : (s.rbPush b).rxtoP = s.rxtoP := rfl
@[simp] theorem State.rbPush_lockHeld (b : Byte) : (s.rbPush b).lockHeld = s.lockHeld := rfl
@[simp] theorem State.rbPush_lockOwner (b : Byte) : (s.rbPush b).lockOwner = s.lockOwner := rfl
@[simp] theorem State.rbPush_ieBits (b : Byte) : (s.rbPush b).ieBits = s.ieBits := rfl
@[simp] theorem State.rbPush_wakePend (b : Byte) : (s.rbPush b).wakePend = s.wakePend := rfl
@[simp] theorem State.rbPush_waitCnt (b : Byte) : (s.rbPush b).waitCnt = s.waitCnt := rfl
@[simp] theorem State.rbPush_fullCnt (b : Byte) : (s.rbPush b).fullCnt = s.fullCnt := rfl
@[simp] theorem State.rbPush_fault (b : Byte) : (s.rbPush b).fault = s.fault := rfl
@[simp] theorem State.rbPush_rxIn (b : Byte) : (s.rbPush b).rxIn = s.rxIn := rfl
@[simp] theorem State.rbPush_rxOut (b : Byte) : (s.rbPush b).rxOut = s.rxOut := rfl
@[simp] theorem State.rbPush_txLog (b : Byte) : (s.rbPush b).txLog = s.txLog := rfl
@[simp] theorem State.rbPush_lineOut (b : Byte) : (s.rbPush b).lineOut = s.lineOut := rfl
@[simp] theorem State.rbPush_ports (b : Byte) : (s.rbPush b).ports = s.ports := rfl
@[simp] theorem State.rbPush_agents (b : Byte) : (s.rbPush b).agents = s.agents := rfl
@[simp] theorem State.rbPush_params (b : Byte) : (s.rbPush b).params = s.params := rfl
@[simp] theorem State.rbPush_mem (b : Byte) : (s.rbPush b).mem = s.mem := rfl
@[simp] theorem State.rbPush_delivered (b : Byte) : (s.rbPush b).delivered = s.delivered := rfl
@[simp] theorem State.rbPush_sched (b : Byte) : (s.rbPush b).sched = s.sched := rfl
@[simp] theorem State.rbPush_tick (b : Byte) : (s.rbPush b).tick = s.tick := rfl
@[simp] theorem State.rbPush_cur (b : Byte) : (s.rbPush b).cur = s.cur := rfl
@[simp] theorem State.rbPush_busData (b : Byte) : (s.rbPush b).busData = s.busData := rfl
@[simp] theorem State.rbPush_port (b : Byte) (q : PortId) : (s.rbPush b).port q = s.port q := rfl
@[simp] theorem State.rbPush_agent (b : Byte) (q : PortId) : (s.rbPush b).agent q = s.agent q := rfl
@[simp] theorem State.rbPush_ie (b : Byte) (c' : Nat) : (s.rbPush b).ie c' = s.ie c' := rfl
@[simp] theorem State.rbPush_kind (b : Byte) (q : PortId) : (s.rbPush b).kind q = s.kind q := rfl
@[simp] theorem State.rbPush_core (b : Byte) (q : PortId) : (s.rbPush b).core q = s.core q := rfl
@[simp] theorem State.rbPush_intPort (b : Byte) : (s.rbPush b).intPort = s.intPort := rfl
@[simp] theorem State.rbPush_hasPort (b : Byte) (q : PortId) : (s.rbPush b).hasPort q = s.hasPort q := rfl
@[simp] theorem State.rbPush_busy (b : Byte) (q : PortId) : (s.rbPush b).busy q = s.busy q := rfl
@[simp] theorem State.rbPush_faulted (b : Byte) : (s.rbPush b).faulted = s.faulted := rfl
@[simp] theorem State.rbPush_holdsLock (b : Byte) (q : PortId) : (s.rbPush b).holdsLock q = s.holdsLock q := rfl
@[simp] theorem State.rbPush_slot (b : Byte) (i : Nat) : (s.rbPush b).slot i = s.slot i := rfl
@[simp] theorem State.rbPush_inc (b : Byte) (i : Nat) : (s.rbPush b).inc i = s.inc i := rfl
@[simp] theorem State.rbPush_txFull (b : Byte) : (s.rbPush b).txFull = s.txFull := rfl
@[simp] theorem State.rbPush_txrdyA (b : Byte) : (s.rbPush b).txrdyA = s.txrdyA := rfl
@[simp] theorem State.rbPush_rxA (b : Byte) : (s.rbPush b).rxA = s.rxA := rfl
@[simp] theorem State.rbPush_hostByte (b : Byte) (a : Word) : (s.rbPush b).hostByte a = s.hostByte a := rfl
@[simp] theorem State.rbPush_hostOk (b : Byte) (a : Word) : (s.rbPush b).hostOk a = s.hostOk a := rfl

/-! ### `rbPop` -/

@[simp] theorem State.rbPop_earlyDone : s.rbPop.earlyDone = s.earlyDone := rfl
@[simp] theorem State.rbPop_initDone : s.rbPop.initDone = s.initDone := rfl
@[simp] theorem State.rbPop_rbInitDone : s.rbPop.rbInitDone = s.rbInitDone := rfl
@[simp] theorem State.rbPop_mmioBase : s.rbPop.mmioBase = s.mmioBase := rfl
@[simp] theorem State.rbPop_irqLine : s.rbPop.irqLine = s.irqLine := rfl
@[simp] theorem State.rbPop_txIrqEn : s.rbPop.txIrqEn = s.txIrqEn := rfl
@[simp] theorem State.rbPop_failureMode : s.rbPop.failureMode = s.failureMode := rfl
@[simp] theorem State.rbPop_store : s.rbPop.store = s.store := rfl
@[simp] theorem State.rbPop_cap : s.rbPop.cap = s.cap := rfl
@[simp] theorem State.rbPop_rd : s.rbPop.rd = s.inc s.rd := rfl
@[simp] theorem State.rbPop_wr : s.rbPop.wr = s.wr := rfl
@[simp] theorem State.rbPop_imask : s.rbPop.imask = s.imask := rfl
@[simp] theorem State.rbPop_rxf : s.rbPop.rxf = s.rxf := rfl
@[simp] theorem State.rbPop_txf : s.rbPop.txf = s.txf := rfl
@[simp] theorem State.rbPop_rxtoP : s.rbPop.rxtoP = s.rxtoP := rfl
@[simp] theorem State.rbPop_lockHeld : s.rbPop.lockHeld = s.lockHeld := rfl
@[simp] theorem State.rbPop_lockOwner : s.rbPop.lockOwner = s.lockOwner := rfl
@[simp] theorem State.rbPop_ieBits : s.rbPop.ieBits = s.ieBits := rfl
@[simp] theorem State.rbPop_wakePend : s.rbPop.wakePend = s.wakePend := rfl
@[simp] theorem State.rbPop_waitCnt : s.rbPop.waitCnt = s.waitCnt := rfl
@[simp] theorem State.rbPop_fullCnt : s.rbPop.fullCnt = s.fullCnt := rfl
@[simp] theorem State.rbPop_fault : s.rbPop.fault = s.fault := rfl
@[simp] theorem State.rbPop_rxIn : s.rbPop.rxIn = s.rxIn := rfl
@[simp] theorem State.rbPop_rxOut : s.rbPop.rxOut = s.rxOut ++ [s.rbHead] := rfl
@[simp] theorem State.rbPop_txLog : s.rbPop.txLog = s.txLog := rfl
@[simp] theorem State.rbPop_lineOut : s.rbPop.lineOut = s.lineOut := rfl
@[simp] theorem State.rbPop_ports : s.rbPop.ports = s.ports := rfl
@[simp] theorem State.rbPop_agents : s.rbPop.agents = s.agents := rfl
@[simp] theorem State.rbPop_params : s.rbPop.params = s.params := rfl
@[simp] theorem State.rbPop_mem : s.rbPop.mem = s.mem := rfl
@[simp] theorem State.rbPop_delivered : s.rbPop.delivered = s.delivered := rfl
@[simp] theorem State.rbPop_sched : s.rbPop.sched = s.sched := rfl
@[simp] theorem State.rbPop_tick : s.rbPop.tick = s.tick := rfl
@[simp] theorem State.rbPop_cur : s.rbPop.cur = s.cur := rfl
@[simp] theorem State.rbPop_busData : s.rbPop.busData = s.busData := rfl
@[simp] theorem State.rbPop_port (q : PortId) : s.rbPop.port q = s.port q := rfl
@[simp] theorem State.rbPop_agent (q : PortId) : s.rbPop.agent q = s.agent q := rfl
@[simp] theorem State.rbPop_ie (c' : Nat) : s.rbPop.ie c' = s.ie c' := rfl
@[simp] theorem State.rbPop_kind (q : PortId) : s.rbPop.kind q = s.kind q := rfl
@[simp] theorem State.rbPop_core (q : PortId) : s.rbPop.core q = s.core q := rfl
@[simp] theorem State.rbPop_intPort : s.rbPop.intPort = s.intPort := rfl
@[simp] theorem State.rbPop_hasPort (q : PortId) : s.rbPop.hasPort q = s.hasPort q := rfl
@[simp] theorem State.rbPop_busy (q : PortId) : s.rbPop.busy q = s.busy q := rfl
@[simp] theorem State.rbPop_faulted : s.rbPop.faulted = s.faulted := rfl
@[simp] theorem State.rbPop_holdsLock (q : PortId) : s.rbPop.holdsLock q = s.holdsLock q := rfl
@[simp] theorem State.rbPop_stored (i : Nat) : s.rbPop.stored i = s.stored i := rfl
@[simp] theorem State.rbPop_slot (i : Nat) : s.rbPop.slot i = s.slot i := rfl
@[simp] theorem State.rbPop_inc (i : Nat) : s.rbPop.inc i = s.inc i := rfl
@[simp] theorem State.rbPop_txFull : s.rbPop.txFull = s.txFull := rfl
@[simp] theorem State.rbPop_txrdyA : s.rbPop.txrdyA = s.txrdyA := rfl
@[simp] theorem State.rbPop_rxA : s.rbPop.rxA = s.rxA := rfl
@[simp] theorem State.rbPop_hostByte (a : Word) : s.rbPop.hostByte a = s.hostByte a := rfl
@[simp] theorem State.rbPop_hostOk (a : Word) : s.rbPop.hostOk a = s.hostOk a := rfl

/-! ### `rxfDrop` -/

@[simp] theorem State.rxfDrop_earlyDone : s.rxfDrop.earlyDone = s.earlyDone := rfl
@[simp] theorem State.rxfDrop_initDone : s.rxfDrop.initDone = s.initDone := rfl
@[simp] theorem State.rxfDrop_rbInitDone : s.rxfDrop.rbInitDone = s.rbInitDone := rfl
@[simp] theorem State.rxfDrop_mmioBase : s.rxfDrop.mmioBase = s.mmioBase := rfl
@[simp] theorem State.rxfDrop_irqLine : s.rxfDrop.irqLine = s.irqLine := rfl
@[simp] theorem State.rxfDrop_txIrqEn : s.rxfDrop.txIrqEn = s.txIrqEn := rfl
@[simp] theorem State.rxfDrop_failureMode : s.rxfDrop.failureMode = s.failureMode := rfl
@[simp] theorem State.rxfDrop_store : s.rxfDrop.store = s.store := rfl
@[simp] theorem State.rxfDrop_cap : s.rxfDrop.cap = s.cap := rfl
@[simp] theorem State.rxfDrop_rd : s.rxfDrop.rd = s.rd := rfl
@[simp] theorem State.rxfDrop_wr : s.rxfDrop.wr = s.wr := rfl
@[simp] theorem State.rxfDrop_imask : s.rxfDrop.imask = s.imask := rfl
@[simp] theorem State.rxfDrop_rxf : s.rxfDrop.rxf = s.rxf.tail := rfl
@[simp] theorem State.rxfDrop_txf : s.rxfDrop.txf = s.txf := rfl
@[simp] theorem State.rxfDrop_rxtoP : s.rxfDrop.rxtoP = if s.rxf.tail.isEmpty then false else s.rxtoP := rfl
@[simp] theorem State.rxfDrop_lockHeld : s.rxfDrop.lockHeld = s.lockHeld := rfl
@[simp] theorem State.rxfDrop_lockOwner : s.rxfDrop.lockOwner = s.lockOwner := rfl
@[simp] theorem State.rxfDrop_ieBits : s.rxfDrop.ieBits = s.ieBits := rfl
@[simp] theorem State.rxfDrop_wakePend : s.rxfDrop.wakePend = s.wakePend := rfl
@[simp] theorem State.rxfDrop_waitCnt : s.rxfDrop.waitCnt = s.waitCnt := rfl
@[simp] theorem State.rxfDrop_fullCnt : s.rxfDrop.fullCnt = s.fullCnt := rfl
@[simp] theorem State.rxfDrop_fault : s.rxfDrop.fault = s.fault := rfl
@[simp] theorem State.rxfDrop_rxIn : s.rxfDrop.rxIn = s.rxIn := rfl
@[simp] theorem State.rxfDrop_rxOut : s.rxfDrop.rxOut = s.rxOut := rfl
@[simp] theorem State.rxfDrop_txLog : s.rxfDrop.txLog = s.txLog := rfl
@[simp] theorem State.rxfDrop_lineOut : s.rxfDrop.lineOut = s.lineOut := rfl
@[simp] theorem State.rxfDrop_ports : s.rxfDrop.ports = s.ports := rfl
@[simp] theorem State.rxfDrop_agents : s.rxfDrop.agents = s.agents := rfl
@[simp] theorem State.rxfDrop_params : s.rxfDrop.params = s.params := rfl
@[simp] theorem State.rxfDrop_mem : s.rxfDrop.mem = s.mem := rfl
@[simp] theorem State.rxfDrop_delivered : s.rxfDrop.delivered = s.delivered := rfl
@[simp] theorem State.rxfDrop_sched : s.rxfDrop.sched = s.sched := rfl
@[simp] theorem State.rxfDrop_tick : s.rxfDrop.tick = s.tick := rfl
@[simp] theorem State.rxfDrop_cur : s.rxfDrop.cur = s.cur := rfl
@[simp] theorem State.rxfDrop_busData : s.rxfDrop.busData = s.busData := rfl
@[simp] theorem State.rxfDrop_port (q : PortId) : s.rxfDrop.port q = s.port q := rfl
@[simp] theorem State.rxfDrop_agent (q : PortId) : s.rxfDrop.agent q = s.agent q := rfl
@[simp] theorem State.rxfDrop_ie (c' : Nat) : s.rxfDrop.ie c' = s.ie c' := rfl
@[simp] theorem State.rxfDrop_kind (q : PortId) : s.rxfDrop.kind q = s.kind q := rfl
@[simp] theorem State.rxfDrop_core (q : PortId) : s.rxfDrop.core q = s.core q := rfl
@[simp] theorem State.rxfDrop_intPort : s.rxfDrop.intPort = s.intPort := rfl
@[simp] theorem State.rxfDrop_hasPort (q : PortId) : s.rxfDrop.hasPort q = s.hasPort q := rfl
@[simp] theorem State.rxfDrop_busy (q : PortId) : s.rxfDrop.busy q = s.busy q := rfl
@[simp] theorem State.rxfDrop_faulted : s.rxfDrop.faulted = s.faulted := rfl
@[simp] theorem State.rxfDrop_holdsLock (q : PortId) : s.rxfDrop.holdsLock q = s.holdsLock q := rfl
@[simp] theorem State.rxfDrop_count : s.rxfDrop.count = s.count := rfl
@[simp] theorem State.rxfDrop_isEmpty : s.rxfDrop.isEmpty = s.isEmpty := rfl
@[simp] theorem State.rxfDrop_isFull : s.rxfDrop.isFull = s.isFull := rfl
@[simp] theorem State.rxfDrop_stored (i : Nat) : s.rxfDrop.stored i = s.stored i := rfl
@[simp] theorem State.rxfDrop_slot (i : Nat) : s.rxfDrop.slot i = s.slot i := rfl
@[simp] theorem State.rxfDrop_inc (i : Nat) : s.rxfDrop.inc i = s.inc i := rfl
@[simp] theorem State.rxfDrop_rbHead : s.rxfDrop.rbHead = s.rbHead := rfl
@[simp] theorem State.rxfDrop_txFull : s.rxfDrop.txFull = s.txFull := rfl
@[simp] theorem State.rxfDrop_txrdyA : s.rxfDrop.txrdyA = s.txrdyA := rfl
@[simp] theorem State.rxfDrop_hostByte (a : Word) : s.rxfDrop.hostByte a = s.hostByte a := rfl
@[simp] theorem State.rxfDrop_hostOk (a : Word) : s.rxfDrop.hostOk a = s.hostOk a := rfl

/-! ### `txfPut` -/

@[simp] theorem State.txfPut_earlyDone (b : Byte) : (s.txfPut b).earlyDone = s.earlyDone := rfl
@[simp] theorem State.txfPut_initDone (b : Byte) : (s.txfPut b).initDone = s.initDone := rfl
@[simp] theorem State.txfPut_rbInitDone (b : Byte) : (s.txfPut b).rbInitDone = s.rbInitDone := rfl
@[simp] theorem State.txfPut_mmioBase (b : Byte) : (s.txfPut b).mmioBase = s.mmioBase := rfl
@[simp] theorem State.txfPut_irqLine (b : Byte) : (s.txfPut b).irqLine = s.irqLine := rfl
@[simp] theorem State.txfPut_txIrqEn (b : Byte) : (s.txfPut b).txIrqEn = s.txIrqEn := rfl
@[simp] theorem State.txfPut_failureMode (b : Byte) : (s.txfPut b).failureMode = s.failureMode := rfl
@[simp] theorem State.txfPut_store (b : Byte) : (s.txfPut b).store = s.store := rfl
@[simp] theorem State.txfPut_cap (b : Byte) : (s.txfPut b).cap = s.cap := rfl
@[simp] theorem State.txfPut_rd (b : Byte) : (s.txfPut b).rd = s.rd := rfl
@[simp] theorem State.txfPut_wr (b : Byte) : (s.txfPut b).wr = s.wr := rfl
@[simp] theorem State.txfPut_imask (b : Byte) : (s.txfPut b).imask = s.imask := rfl
@[simp] theorem State.txfPut_rxf (b : Byte) : (s.txfPut b).rxf = s.rxf := rfl
@[simp] theorem State.txfPut_txf (b : Byte) : (s.txfPut b).txf = s.txf ++ [b] := rfl
@[simp] theorem State.txfPut_rxtoP (b : Byte) : (s.txfPut b).rxtoP = s.rxtoP := rfl
@[simp] theorem State.txfPut_lockHeld (b : Byte) : (s.txfPut b).lockHeld = s.lockHeld := rfl
@[simp] theorem State.txfPut_lockOwner (b : Byte) : (s.txfPut b).lockOwner = s.lockOwner := rfl
@[simp] theorem State.txfPut_ieBits (b : Byte) : (s.txfPut b).ieBits = s.ieBits := rfl
@[simp] theorem State.txfPut_wakePend (b : Byte) : (s.txfPut b).wakePend = s.wakePend := rfl
@[simp] theorem State.txfPut_waitCnt (b : Byte) : (s.txfPut b).waitCnt = s.waitCnt := rfl
@[simp] theorem State.txfPut_fullCnt (b : Byte) : (s.txfPut b).fullCnt = s.fullCnt := rfl
@[simp] theorem State.txfPut_fault (b : Byte) : (s.txfPut b).fault = s.fault := rfl
@[simp] theorem State.txfPut_rxIn (b : Byte) : (s.txfPut b).rxIn = s.rxIn := rfl
@[simp] theorem State.txfPut_rxOut (b : Byte) : (s.txfPut b).rxOut = s.rxOut := rfl
@[simp] theorem State.txfPut_txLog (b : Byte) : (s.txfPut b).txLog = s.txLog ++ [b] := rfl
@[simp] theorem State.txfPut_lineOut (b : Byte) : (s.txfPut b).lineOut = s.lineOut := rfl
@[simp] theorem State.txfPut_ports (b : Byte) : (s.txfPut b).ports = s.ports := rfl
@[simp] theorem State.txfPut_agents (b : Byte) : (s.txfPut b).agents = s.agents := rfl
@[simp] theorem State.txfPut_params (b : Byte) : (s.txfPut b).params = s.params := rfl
@[simp] theorem State.txfPut_mem (b : Byte) : (s.txfPut b).mem = s.mem := rfl
@[simp] theorem State.txfPut_delivered (b : Byte) : (s.txfPut b).delivered = s.delivered := rfl
@[simp] theorem State.txfPut_sched (b : Byte) : (s.txfPut b).sched = s.sched := rfl
@[simp] theorem State.txfPut_tick (b : Byte) : (s.txfPut b).tick = s.tick := rfl
@[simp] theorem State.txfPut_cur (b : Byte) : (s.txfPut b).cur = s.cur := rfl
@[simp] theorem State.txfPut_busData (b : Byte) : (s.txfPut b).busData = s.busData := rfl
@[simp] theorem State.txfPut_port (b : Byte) (q : PortId) : (s.txfPut b).port q = s.port q := rfl
@[simp] theorem State.txfPut_agent (b : Byte) (q : PortId) : (s.txfPut b).agent q = s.agent q := rfl
@[simp] theorem State.txfPut_ie (b : Byte) (c' : Nat) : (s.txfPut b).ie c' = s.ie c' := rfl
@[simp] theorem State.txfPut_kind (b : Byte) (q : PortId) : (s.txfPut b).kind q = s.kind q := rfl
@[simp] theorem State.txfPut_core (b : Byte) (q : PortId) : (s.txfPut b).core q = s.core q := rfl
@[simp] theorem State.txfPut_intPort (b : Byte) : (s.txfPut b).intPort = s.intPort := rfl
@[simp] theorem State.txfPut_hasPort (b : Byte) (q : PortId) : (s.txfPut b).hasPort q = s.hasPort q := rfl
@[simp] theorem State.txfPut_busy (b : Byte) (q : PortId) : (s.txfPut b).busy q = s.busy q := rfl
@[simp] theorem State.txfPut_faulted (b : Byte) : (s.txfPut b).faulted = s.faulted := rfl
@[simp] theorem State.txfPut_holdsLock (b : Byte) (q : PortId) : (s.txfPut b).holdsLock q = s.holdsLock q := rfl
@[simp] theorem State.txfPut_count (b : Byte) : (s.txfPut b).count = s.count := rfl
@[simp] theorem State.txfPut_isEmpty (b : Byte) : (s.txfPut b).isEmpty = s.isEmpty := rfl
@[simp] theorem State.txfPut_isFull (b : Byte) : (s.txfPut b).isFull = s.isFull := rfl
@[simp] theorem State.txfPut_stored (b : Byte) (i : Nat) : (s.txfPut b).stored i = s.stored i := rfl
@[simp] theorem State.txfPut_slot (b : Byte) (i : Nat) : (s.txfPut b).slot i = s.slot i := rfl
@[simp] theorem State.txfPut_inc (b : Byte) (i : Nat) : (s.txfPut b).inc i = s.inc i := rfl
@[simp] theorem State.txfPut_rbHead (b : Byte) : (s.txfPut b).rbHead = s.rbHead := rfl
@[simp] theorem State.txfPut_rxA (b : Byte) : (s.txfPut b).rxA = s.rxA := rfl
@[simp] theorem State.txfPut_hostByte (b : Byte) (a : Word) : (s.txfPut b).hostByte a = s.hostByte a := rfl
@[simp] theorem State.txfPut_hostOk (b : Byte) (a : Word) : (s.txfPut b).hostOk a = s.hostOk a := rfl

/-! ### `irqEnter` -/

@[simp] theorem State.irqEnter_earlyDone (p : PortId) : (s.irqEnter p).earlyDone = s.earlyDone :=
    by rw [State.irqEnter]; rfl
@[simp] theorem State.irqEnter_initDone (p : PortId) : (s.irqEnter p).initDone = s.initDone :=
    by rw [State.irqEnter]; rfl
@[simp] theorem State.irqEnter_rbInitDone (p : PortId) : (s.irqEnter p).rbInitDone = s.rbInitDone :=
    by rw [State.irqEnter]; rfl
@[simp] theorem State.irqEnter_mmioBase (p : PortId) : (s.irqEnter p).mmioBase = s.mmioBase :=
    by rw [State.irqEnter]; rfl
@[simp] theorem State.irqEnter_irqLine (p : PortId) : (s.irqEnter p).irqLine = s.irqLine :=
    by rw [State.irqEnter]; rfl
@[simp] theorem State.irqEnter_txIrqEn (p : PortId) : (s.irqEnter p).txIrqEn = s.txIrqEn :=
    by rw [State.irqEnter]; rfl
@[simp] theorem State.irqEnter_failureMode (p : PortId) : (s.irqEnter p).failureMode = s.failureMode :=
    by rw [State.irqEnter]; rfl
@[simp] theorem State.irqEnter_store (p : PortId) : (s.irqEnter p).store = s.store := by rw [State.irqEnter]; rfl
@[simp] theorem State.irqEnter_cap (p : PortId) : (s.irqEnter p).cap = s.cap := by rw [State.irqEnter]; rfl
@[simp] theorem State.irqEnter_rd (p : PortId) : (s.irqEnter p).rd = s.rd := by rw [State.irqEnter]; rfl
@[simp] theorem State.irqEnter_wr (p : PortId) : (s.irqEnter p).wr = s.wr := by rw [State.irqEnter]; rfl
@[simp] theorem State.irqEnter_imask (p : PortId) : (s.irqEnter p).imask = s.imask := by rw [State.irqEnter]; rfl
@[simp] theorem State.irqEnter_rxf (p : PortId) : (s.irqEnter p).rxf = s.rxf := by rw [State.irqEnter]; rfl
@[simp] theorem State.irqEnter_txf (p : PortId) : (s.irqEnter p).txf = s.txf := by rw [State.irqEnter]; rfl
@[simp] theorem State.irqEnter_rxtoP (p : PortId) : (s.irqEnter p).rxtoP = s.rxtoP := by rw [State.irqEnter]; rfl
@[simp] theorem State.irqEnter_lockHeld (p : PortId) : (s.irqEnter p).lockHeld = s.lockHeld :=
    by rw [State.irqEnter]; rfl
@[simp] theorem State.irqEnter_lockOwner (p : PortId) : (s.irqEnter p).lockOwner = s.lockOwner :=
    by rw [State.irqEnter]; rfl
@[simp] theorem State.irqEnter_wakePend (p : PortId) : (s.irqEnter p).wakePend = s.wakePend :=
    by rw [State.irqEnter]; rfl
@[simp] theorem State.irqEnter_waitCnt (p : PortId) : (s.irqEnter p).waitCnt = s.waitCnt :=
    by rw [State.irqEnter]; rfl
@[simp] theorem State.irqEnter_fullCnt (p : PortId) : (s.irqEnter p).fullCnt = s.fullCnt :=
    by rw [State.irqEnter]; rfl
@[simp] theorem State.irqEnter_fault (p : PortId) : (s.irqEnter p).fault = s.fault := by rw [State.irqEnter]; rfl
@[simp] theorem State.irqEnter_rxIn (p : PortId) : (s.irqEnter p).rxIn = s.rxIn := by rw [State.irqEnter]; rfl
@[simp] theorem State.irqEnter_rxOut (p : PortId) : (s.irqEnter p).rxOut = s.rxOut := by rw [State.irqEnter]; rfl
@[simp] theorem State.irqEnter_txLog (p : PortId) : (s.irqEnter p).txLog = s.txLog := by rw [State.irqEnter]; rfl
@[simp] theorem State.irqEnter_lineOut (p : PortId) : (s.irqEnter p).lineOut = s.lineOut :=
    by rw [State.irqEnter]; rfl
@[simp] theorem State.irqEnter_ports (p : PortId) : (s.irqEnter p).ports = s.ports := by rw [State.irqEnter]; rfl
@[simp] theorem State.irqEnter_params (p : PortId) : (s.irqEnter p).params = s.params := by rw [State.irqEnter]; rfl
@[simp] theorem State.irqEnter_mem (p : PortId) : (s.irqEnter p).mem = s.mem := by rw [State.irqEnter]; rfl
@[simp] theorem State.irqEnter_delivered (p : PortId) : (s.irqEnter p).delivered = s.delivered :=
    by rw [State.irqEnter]; rfl
@[simp] theorem State.irqEnter_sched (p : PortId) : (s.irqEnter p).sched = s.sched := by rw [State.irqEnter]; rfl
@[simp] theorem State.irqEnter_tick (p : PortId) : (s.irqEnter p).tick = s.tick := by rw [State.irqEnter]; rfl
@[simp] theorem State.irqEnter_cur (p : PortId) : (s.irqEnter p).cur = s.cur := by rw [State.irqEnter]; rfl
@[simp] theorem State.irqEnter_busData (p : PortId) : (s.irqEnter p).busData = s.busData :=
    by rw [State.irqEnter]; rfl
@[simp] theorem State.irqEnter_port (p : PortId) (q : PortId) : (s.irqEnter p).port q = s.port q :=
    by rw [State.irqEnter]; rfl
@[simp] theorem State.irqEnter_kind (p : PortId) (q : PortId) : (s.irqEnter p).kind q = s.kind q :=
    by rw [State.irqEnter]; rfl
@[simp] theorem State.irqEnter_core (p : PortId) (q : PortId) : (s.irqEnter p).core q = s.core q :=
    by rw [State.irqEnter]; rfl
@[simp] theorem State.irqEnter_intPort (p : PortId) : (s.irqEnter p).intPort = s.intPort :=
    by rw [State.irqEnter]; rfl
@[simp] theorem State.irqEnter_hasPort (p : PortId) (q : PortId) : (s.irqEnter p).hasPort q = s.hasPort q :=
    by rw [State.irqEnter]; rfl
@[simp] theorem State.irqEnter_busy (p : PortId) (q : PortId) : (s.irqEnter p).busy q = s.busy q :=
    by rw [State.irqEnter]; rfl
@[simp] theorem State.irqEnter_faulted (p : PortId) : (s.irqEnter p).faulted = s.faulted :=
    by rw [State.irqEnter]; rfl
@[simp] theorem State.irqEnter_holdsLock (p : PortId) (q : PortId) : (s.irqEnter p).holdsLock q = s.holdsLock q :=
    by rw [State.irqEnter]; rfl
@[simp] theorem State.irqEnter_count (p : PortId) : (s.irqEnter p).count = s.count := by rw [State.irqEnter]; rfl
@[simp] theorem State.irqEnter_isEmpty (p : PortId) : (s.irqEnter p).isEmpty = s.isEmpty :=
    by rw [State.irqEnter]; rfl
@[simp] theorem State.irqEnter_isFull (p : PortId) : (s.irqEnter p).isFull = s.isFull := by rw [State.irqEnter]; rfl
@[simp] theorem State.irqEnter_stored (p : PortId) (i : Nat) : (s.irqEnter p).stored i = s.stored i :=
    by rw [State.irqEnter]; rfl
@[simp] theorem State.irqEnter_slot (p : PortId) (i : Nat) : (s.irqEnter p).slot i = s.slot i :=
    by rw [State.irqEnter]; rfl
@[simp] theorem State.irqEnter_inc (p : PortId) (i : Nat) : (s.irqEnter p).inc i = s.inc i :=
    by rw [State.irqEnter]; rfl
@[simp] theorem State.irqEnter_rbHead (p : PortId) : (s.irqEnter p).rbHead = s.rbHead := by rw [State.irqEnter]; rfl
@[simp] theorem State.irqEnter_txFull (p : PortId) : (s.irqEnter p).txFull = s.txFull := by rw [State.irqEnter]; rfl
@[simp] theorem State.irqEnter_txrdyA (p : PortId) : (s.irqEnter p).txrdyA = s.txrdyA := by rw [State.irqEnter]; rfl
@[simp] theorem State.irqEnter_rxA (p : PortId) : (s.irqEnter p).rxA = s.rxA := by rw [State.irqEnter]; rfl
@[simp] theorem State.irqEnter_hostByte (p : PortId) (a : Word) : (s.irqEnter p).hostByte a = s.hostByte a :=
    by rw [State.irqEnter]; rfl
@[simp] theorem State.irqEnter_hostOk (p : PortId) (a : Word) : (s.irqEnter p).hostOk a = s.hostOk a :=
    by rw [State.irqEnter]; rfl

/-! ### `irqReturn` -/

@[simp] theorem State.irqReturn_earlyDone (p : PortId) : (s.irqReturn p).earlyDone = s.earlyDone :=
    by rw [State.irqReturn]; rfl
@[simp] theorem State.irqReturn_initDone (p : PortId) : (s.irqReturn p).initDone = s.initDone :=
    by rw [State.irqReturn]; rfl
@[simp] theorem State.irqReturn_rbInitDone (p : PortId) : (s.irqReturn p).rbInitDone = s.rbInitDone :=
    by rw [State.irqReturn]; rfl
@[simp] theorem State.irqReturn_mmioBase (p : PortId) : (s.irqReturn p).mmioBase = s.mmioBase :=
    by rw [State.irqReturn]; rfl
@[simp] theorem State.irqReturn_irqLine (p : PortId) : (s.irqReturn p).irqLine = s.irqLine :=
    by rw [State.irqReturn]; rfl
@[simp] theorem State.irqReturn_txIrqEn (p : PortId) : (s.irqReturn p).txIrqEn = s.txIrqEn :=
    by rw [State.irqReturn]; rfl
@[simp] theorem State.irqReturn_failureMode (p : PortId) : (s.irqReturn p).failureMode = s.failureMode :=
    by rw [State.irqReturn]; rfl
@[simp] theorem State.irqReturn_store (p : PortId) : (s.irqReturn p).store = s.store := by rw [State.irqReturn]; rfl
@[simp] theorem State.irqReturn_cap (p : PortId) : (s.irqReturn p).cap = s.cap := by rw [State.irqReturn]; rfl
@[simp] theorem State.irqReturn_rd (p : PortId) : (s.irqReturn p).rd = s.rd := by rw [State.irqReturn]; rfl
@[simp] theorem State.irqReturn_wr (p : PortId) : (s.irqReturn p).wr = s.wr := by rw [State.irqReturn]; rfl
@[simp] theorem State.irqReturn_imask (p : PortId) : (s.irqReturn p).imask = s.imask := by rw [State.irqReturn]; rfl
@[simp] theorem State.irqReturn_rxf (p : PortId) : (s.irqReturn p).rxf = s.rxf := by rw [State.irqReturn]; rfl
@[simp] theorem State.irqReturn_txf (p : PortId) : (s.irqReturn p).txf = s.txf := by rw [State.irqReturn]; rfl
@[simp] theorem State.irqReturn_rxtoP (p : PortId) : (s.irqReturn p).rxtoP = s.rxtoP := by rw [State.irqReturn]; rfl
@[simp] theorem State.irqReturn_lockHeld (p : PortId) : (s.irqReturn p).lockHeld = false :=
    by rw [State.irqReturn]; rfl
@[simp] theorem State.irqReturn_lockOwner (p : PortId) : (s.irqReturn p).lockOwner = 0 := by rw [State.irqReturn]; rfl
@[simp] theorem State.irqReturn_wakePend (p : PortId) : (s.irqReturn p).wakePend = s.wakePend :=
    by rw [State.irqReturn]; rfl
@[simp] theorem State.irqReturn_waitCnt (p : PortId) : (s.irqReturn p).waitCnt = s.waitCnt :=
    by rw [State.irqReturn]; rfl
@[simp] theorem State.irqReturn_fullCnt (p : PortId) : (s.irqReturn p).fullCnt = s.fullCnt :=
    by rw [State.irqReturn]; rfl
@[simp] theorem State.irqReturn_fault (p : PortId) : (s.irqReturn p).fault = s.fault := by rw [State.irqReturn]; rfl
@[simp] theorem State.irqReturn_rxIn (p : PortId) : (s.irqReturn p).rxIn = s.rxIn := by rw [State.irqReturn]; rfl
@[simp] theorem State.irqReturn_rxOut (p : PortId) : (s.irqReturn p).rxOut = s.rxOut := by rw [State.irqReturn]; rfl
@[simp] theorem State.irqReturn_txLog (p : PortId) : (s.irqReturn p).txLog = s.txLog := by rw [State.irqReturn]; rfl
@[simp] theorem State.irqReturn_lineOut (p : PortId) : (s.irqReturn p).lineOut = s.lineOut :=
    by rw [State.irqReturn]; rfl
@[simp] theorem State.irqReturn_ports (p : PortId) : (s.irqReturn p).ports = s.ports := by rw [State.irqReturn]; rfl
@[simp] theorem State.irqReturn_agents (p : PortId) : (s.irqReturn p).agents = s.agents :=
    by rw [State.irqReturn]; rfl
@[simp] theorem State.irqReturn_params (p : PortId) : (s.irqReturn p).params = s.params :=
    by rw [State.irqReturn]; rfl
@[simp] theorem State.irqReturn_mem (p : PortId) : (s.irqReturn p).mem = s.mem := by rw [State.irqReturn]; rfl
@[simp] theorem State.irqReturn_delivered (p : PortId) : (s.irqReturn p).delivered = s.delivered :=
    by rw [State.irqReturn]; rfl
@[simp] theorem State.irqReturn_sched (p : PortId) : (s.irqReturn p).sched = s.sched := by rw [State.irqReturn]; rfl
@[simp] theorem State.irqReturn_tick (p : PortId) : (s.irqReturn p).tick = s.tick := by rw [State.irqReturn]; rfl
@[simp] theorem State.irqReturn_cur (p : PortId) : (s.irqReturn p).cur = s.cur := by rw [State.irqReturn]; rfl
@[simp] theorem State.irqReturn_busData (p : PortId) : (s.irqReturn p).busData = s.busData :=
    by rw [State.irqReturn]; rfl
@[simp] theorem State.irqReturn_port (p : PortId) (q : PortId) : (s.irqReturn p).port q = s.port q :=
    by rw [State.irqReturn]; rfl
@[simp] theorem State.irqReturn_agent (p : PortId) (q : PortId) : (s.irqReturn p).agent q = s.agent q :=
    by rw [State.irqReturn]; rfl
@[simp] theorem State.irqReturn_kind (p : PortId) (q : PortId) : (s.irqReturn p).kind q = s.kind q :=
    by rw [State.irqReturn]; rfl
@[simp] theorem State.irqReturn_core (p : PortId) (q : PortId) : (s.irqReturn p).core q = s.core q :=
    by rw [State.irqReturn]; rfl
@[simp] theorem State.irqReturn_intPort (p : PortId) : (s.irqReturn p).intPort = s.intPort :=
    by rw [State.irqReturn]; rfl
@[simp] theorem State.irqReturn_hasPort (p : PortId) (q : PortId) : (s.irqReturn p).hasPort q = s.hasPort q :=
    by rw [State.irqReturn]; rfl
@[simp] theorem State.irqReturn_busy (p : PortId) (q : PortId) : (s.irqReturn p).busy q = s.busy q :=
    by rw [State.irqReturn]; rfl
@[simp] theorem State.irqReturn_faulted (p : PortId) : (s.irqReturn p).faulted = s.faulted :=
    by rw [State.irqReturn]; rfl
@[simp] theorem State.irqReturn_count (p : PortId) : (s.irqReturn p).count = s.count := by rw [State.irqReturn]; rfl
@[simp] theorem State.irqReturn_isEmpty (p : PortId) : (s.irqReturn p).isEmpty = s.isEmpty :=
    by rw [State.irqReturn]; rfl
@[simp] theorem State.irqReturn_isFull (p : PortId) : (s.irqReturn p).isFull = s.isFull :=
    by rw [State.irqReturn]; rfl
@[simp] theorem State.irqReturn_stored (p : PortId) (i : Nat) : (s.irqReturn p).stored i = s.stored i :=
    by rw [State.irqReturn]; rfl
@[simp] theorem State.irqReturn_slot (p : PortId) (i : Nat) : (s.irqReturn p).slot i = s.slot i :=
    by rw [State.irqReturn]; rfl
@[simp] theorem State.irqReturn_inc (p : PortId) (i : Nat) : (s.irqReturn p).inc i = s.inc i :=
    by rw [State.irqReturn]; rfl
@[simp] theorem State.irqReturn_rbHead (p : PortId) : (s.irqReturn p).rbHead = s.rbHead :=
    by rw [State.irqReturn]; rfl
@[simp] theorem State.irqReturn_txFull (p : PortId) : (s.irqReturn p).txFull = s.txFull :=
    by rw [State.irqReturn]; rfl
@[simp] theorem State.irqReturn_txrdyA (p : PortId) : (s.irqReturn p).txrdyA = s.txrdyA :=
    by rw [State.irqReturn]; rfl
@[simp] theorem State.irqReturn_rxA (p : PortId) : (s.irqReturn p).rxA = s.rxA := by rw [State.irqReturn]; rfl
@[simp] theorem State.irqReturn_hostByte (p : PortId) (a : Word) : (s.irqReturn p).hostByte a = s.hostByte a :=
    by rw [State.irqReturn]; rfl
@[simp] theorem State.irqReturn_hostOk (p : PortId) (a : Word) : (s.irqReturn p).hostOk a = s.hostOk a :=
    by rw [State.irqReturn]; rfl

/-! ### `advance` -/

@[simp] theorem State.advance_earlyDone : s.advance.earlyDone = s.earlyDone := rfl
@[simp] theorem State.advance_initDone : s.advance.initDone = s.initDone := rfl
@[simp] theorem State.advance_rbInitDone : s.advance.rbInitDone = s.rbInitDone := rfl
@[simp] theorem State.advance_mmioBase : s.advance.mmioBase = s.mmioBase := rfl
@[simp] theorem State.advance_irqLine : s.advance.irqLine = s.irqLine := rfl
@[simp] theorem State.advance_txIrqEn : s.advance.txIrqEn = s.txIrqEn := rfl
@[simp] theorem State.advance_failureMode : s.advance.failureMode = s.failureMode := rfl
@[simp] theorem State.advance_store : s.advance.store = s.store := rfl
@[simp] theorem State.advance_cap : s.advance.cap = s.cap := rfl
@[simp] theorem State.advance_rd : s.advance.rd = s.rd := rfl
@[simp] theorem State.advance_wr : s.advance.wr = s.wr := rfl
@[simp] theorem State.advance_imask : s.advance.imask = s.imask := rfl
@[simp] theorem State.advance_rxf : s.advance.rxf = s.rxf := rfl
@[simp] theorem State.advance_txf : s.advance.txf = s.txf := rfl
@[simp] theorem State.advance_rxtoP : s.advance.rxtoP = s.rxtoP := rfl
@[simp] theorem State.advance_lockHeld : s.advance.lockHeld = s.lockHeld := rfl
@[simp] theorem State.advance_lockOwner : s.advance.lockOwner = s.lockOwner := rfl
@[simp] theorem State.advance_ieBits : s.advance.ieBits = s.ieBits := rfl
@[simp] theorem State.advance_wakePend : s.advance.wakePend = s.wakePend := rfl
@[simp] theorem State.advance_waitCnt : s.advance.waitCnt = s.waitCnt := rfl
@[simp] theorem State.advance_fullCnt : s.advance.fullCnt = s.fullCnt := rfl
@[simp] theorem State.advance_fault : s.advance.fault = s.fault := rfl
@[simp] theorem State.advance_rxIn : s.advance.rxIn = s.rxIn := rfl
@[simp] theorem State.advance_rxOut : s.advance.rxOut = s.rxOut := rfl
@[simp] theorem State.advance_txLog : s.advance.txLog = s.txLog := rfl
@[simp] theorem State.advance_lineOut : s.advance.lineOut = s.lineOut := rfl
@[simp] theorem State.advance_ports : s.advance.ports = s.ports := rfl
@[simp] theorem State.advance_agents : s.advance.agents = s.agents := rfl
@[simp] theorem State.advance_params : s.advance.params = s.params := rfl
@[simp] theorem State.advance_mem : s.advance.mem = s.mem := rfl
@[simp] theorem State.advance_delivered : s.advance.delivered = s.delivered := rfl
@[simp] theorem State.advance_sched : s.advance.sched = s.sched.tail := rfl
@[simp] theorem State.advance_tick : s.advance.tick = s.tick + 1 := rfl
@[simp] theorem State.advance_cur : s.advance.cur = s.cur := rfl
@[simp] theorem State.advance_busData : s.advance.busData = s.busData := rfl
@[simp] theorem State.advance_port (q : PortId) : s.advance.port q = s.port q := rfl
@[simp] theorem State.advance_agent (q : PortId) : s.advance.agent q = s.agent q := rfl
@[simp] theorem State.advance_ie (c' : Nat) : s.advance.ie c' = s.ie c' := rfl
@[simp] theorem State.advance_kind (q : PortId) : s.advance.kind q = s.kind q := rfl
@[simp] theorem State.advance_core (q : PortId) : s.advance.core q = s.core q := rfl
@[simp] theorem State.advance_intPort : s.advance.intPort = s.intPort := rfl
@[simp] theorem State.advance_hasPort (q : PortId) : s.advance.hasPort q = s.hasPort q := rfl
@[simp] theorem State.advance_busy (q : PortId) : s.advance.busy q = s.busy q := rfl
@[simp] theorem State.advance_faulted : s.advance.faulted = s.faulted := rfl
@[simp] theorem State.advance_holdsLock (q : PortId) : s.advance.holdsLock q = s.holdsLock q := rfl
@[simp] theorem State.advance_count : s.advance.count = s.count := rfl
@[simp] theorem State.advance_isEmpty : s.advance.isEmpty = s.isEmpty := rfl
@[simp] theorem State.advance_isFull : s.advance.isFull = s.isFull := rfl
@[simp] theorem State.advance_stored (i : Nat) : s.advance.stored i = s.stored i := rfl
@[simp] theorem State.advance_slot (i : Nat) : s.advance.slot i = s.slot i := rfl
@[simp] theorem State.advance_inc (i : Nat) : s.advance.inc i = s.inc i := rfl
@[simp] theorem State.advance_rbHead : s.advance.rbHead = s.rbHead := rfl
@[simp] theorem State.advance_txFull : s.advance.txFull = s.txFull := rfl
@[simp] theorem State.advance_txrdyA : s.advance.txrdyA = s.txrdyA := rfl
@[simp] theorem State.advance_rxA : s.advance.rxA = s.rxA := rfl
@[simp] theorem State.advance_hostByte (a : Word) : s.advance.hostByte a = s.hostByte a := rfl
@[simp] theorem State.advance_hostOk (a : Word) : s.advance.hostOk a = s.hostOk a := rfl

end Sys2Proof.Machine
end

