-- ==== Sys2Proof/Laws/Ops.lean ====
section
/-! SUPPORT. What each shared operation does to the register or value it writes, and one lemma for each operation
that has cases: the lock, the wake signal, the first failing check, and the shape every command has. -/

namespace Sys2Proof.Machine

variable (s : State)

/-! ### Registers of ports and agents, interrupt enables -/

/-- Every port number is in the list of them. -/
theorem mem_allPorts (p : PortId) : p ∈ allPorts := by revert p; decide

/-- The interrupt port's number is `NTHREAD` (R33), within R7's bound. -/
theorem State.intPort_val (h : s.params.nthread ≤ 7) : s.intPort.val = s.params.nthread := by
  simp [State.intPort]; omega

/-- Port `NTHREAD` is the interrupt port, every other a thread port (R33). -/
theorem State.kind_eq_interrupt (h : s.params.nthread ≤ 7) (p : PortId) :
    s.kind p = .interrupt ↔ p.val = s.params.nthread := by
  rw [← State.intPort_val s h]; simp [State.kind, Fin.ext_iff]

@[simp] theorem State.setPort_port_same (p : PortId) (x : Port) : (s.setPort p x).port p = x := by
  simp [State.setPort, State.port]

theorem State.setPort_port_other {p q : PortId} (x : Port) (h : q ≠ p) : (s.setPort p x).port q = s.port q := by
  have : p.val ≠ q.val := fun c => h (Fin.ext c.symm)
  simp [State.setPort, State.port, this]

theorem State.setPort_port (p q : PortId) (x : Port) : (s.setPort p x).port q = if q = p then x else s.port q := by
  split
  · next h => subst h; simp
  · next h => exact s.setPort_port_other x h

@[simp] theorem State.setAgent_agent_same (p : PortId) (x : Agent) : (s.setAgent p x).agent p = x := by
  simp [State.setAgent, State.agent]

theorem State.setAgent_agent_other {p q : PortId} (x : Agent) (h : q ≠ p) :
    (s.setAgent p x).agent q = s.agent q := by
  have : p.val ≠ q.val := fun c => h (Fin.ext c.symm)
  simp [State.setAgent, State.agent, this]

theorem State.setAgent_agent (p q : PortId) (x : Agent) :
    (s.setAgent p x).agent q = if q = p then x else s.agent q := by
  split
  · next h => subst h; simp
  · next h => exact s.setAgent_agent_other x h

@[simp] theorem State.setIe_ie_same (c : Nat) (b : Bool) : (s.setIe c b).ie c = b :=
  sparseGet_put_same _ c b _

theorem State.setIe_ie (c d : Nat) (b : Bool) : (s.setIe c b).ie d = if d = c then b else s.ie d :=
  sparseGet_put _ c d b _

/-- Two port register files with the same registers are equal. -/
theorem ports_ext {a b : Vector Port 8} (h : ∀ p : PortId, a[p] = b[p]) : a = b :=
  Vector.ext fun i hi => h ⟨i, hi⟩

/-- Two agent register files with the same registers are equal. -/
theorem agents_ext {a b : Vector Agent 8} (h : ∀ p : PortId, a[p] = b[p]) : a = b :=
  Vector.ext fun i hi => h ⟨i, hi⟩

/-! ### `setResult`, `goto`, `begin`, `done` -/

theorem State.setResult_port (p q : PortId) (r : Word) :
    (s.setResult p r).port q = if q = p then { s.port p with result := r } else s.port q := s.setPort_port p q _

theorem State.goto_port (p q : PortId) (ph : Byte) :
    (s.goto p ph).port q = if q = p then { s.port p with phase := ph } else s.port q := s.setPort_port p q _

theorem State.begin_port (p q : PortId) (o ph : Byte) :
    (s.begin p o ph).port q = if q = p then { s.port p with opc := o, phase := ph } else s.port q :=
  s.setPort_port p q _

theorem State.done_port (p q : PortId) (r : Word) :
    (s.done p r).port q =
      if q = p then { s.port p with result := r ||| doneBit, opc := 0#8, phase := Phase.idle } else s.port q := by
  rw [State.done, State.setAgent_port, State.setPort_port]

theorem State.done_agent (p q : PortId) (r : Word) :
    (s.done p r).agent q = if q = p then { s.agent p with pc := (s.agent p).pc + 1#32 } else s.agent q := by
  rw [State.done, State.setAgent_agent]; rfl

/-! ### The lock (42_lock_wake.md R181, R183) -/

theorem State.takeLock_agent (p q : PortId) :
    (s.takeLock p).agent q = if q = p then { s.agent p with savedIe := s.ie (s.core p) } else s.agent q := by
  rw [State.takeLock, State.setLock_agent, State.setIe_agent, State.setAgent_agent]

theorem State.takeLock_ie (p : PortId) (c : Nat) :
    (s.takeLock p).ie c = if c = s.core p then false else s.ie c := by
  rw [State.takeLock, State.setLock_ie, State.setIe_ie]; rfl

theorem State.release_ie (p : PortId) (c : Nat) :
    (s.release p).ie c = if c = s.core p then (s.agent p).savedIe else s.ie c := by
  rw [State.release, State.setLock_ie, State.setIe_ie]

/-- All that `acquire(p)` then `k` can do (R181). -/
theorem State.acquireThen_cases (p : PortId) (k : State → State) :
    (s.lockHeld = true ∧ s.acquireThen p k = s) ∨ (s.lockHeld = false ∧ s.acquireThen p k = k (s.takeLock p)) := by
  cases h : s.lockHeld <;> simp [State.acquireThen, h]

/-! ### The wake signal (R185, R187) -/

/-- All that a wait step then `k` can do (R187). -/
theorem State.waitThen_cases (k : State → State) :
    (s.wakePend = true ∧ s.waitThen k = k { s with wakePend := false })
      ∨ (s.wakePend = false ∧ s.waitThen k = s) := by
  cases h : s.wakePend <;> simp [State.waitThen, h]

/-! ### Interrupt entry and return (60_exceptions.md R291, R292) -/

theorem State.irqEnter_ie (p : PortId) (c : Nat) :
    (s.irqEnter p).ie c = if c = s.params.irqCpu then false else s.ie c := by
  rw [State.irqEnter, State.setIe_ie]; rfl

theorem State.irqEnter_agent (p q : PortId) :
    (s.irqEnter p).agent q = if q = p then { s.agent p with entryIe := s.ie s.params.irqCpu } else s.agent q := by
  rw [State.irqEnter, State.setIe_agent, State.setAgent_agent]

theorem State.irqReturn_ie (p : PortId) (c : Nat) :
    (s.irqReturn p).ie c =
      if c = s.params.irqCpu then (s.agent p).entryIe
      else if c = s.core p then (s.agent p).savedIe else s.ie c := by
  rw [State.irqReturn, State.setIe_ie, State.release_ie]

/-! ### The RingBuffer (40_ringbuffer.md R145) -/

theorem State.rbPush_stored (b : Byte) (i : Nat) :
    (s.rbPush b).stored i = if i = s.slot s.wr then b else s.stored i :=
  sparseGet_put _ (s.slot s.wr) i b _

/-! ### The shape of a command (30_encoding.md R101, R115) -/

/-- The first failing check is one of the list whose test fails. -/
theorem firstFailing_mem {l : List (Bool × FaultCode)} {c : FaultCode} (h : firstFailing l = some c) :
    (true, c) ∈ l := by
  induction l with
  | nil => simp [firstFailing] at h
  | cons e l ih =>
    obtain ⟨b, d⟩ := e
    cases b
    · exact List.mem_cons_of_mem _ (ih (by simpa [firstFailing] using h))
    · simp only [firstFailing, if_true, Option.some.injEq] at h; simp [h]

/-- No check fails exactly if every test of the list passes. -/
theorem firstFailing_none {l : List (Bool × FaultCode)} : firstFailing l = none ↔ ∀ e ∈ l, e.1 = false := by
  induction l with
  | nil => simp [firstFailing]
  | cons e l ih =>
    obtain ⟨b, d⟩ := e
    cases b <;> simp [firstFailing, ih]

section
variable (i : Instr) (latch : Agent → Agent) (checks : List (Bool × FaultCode)) (start : State → State)
  (later : Byte → State → State)

/-- All that one step of a command can do: a hold; a command its port's kind does not accept; the interrupt port's
latch; a failing check, or the command's first own step, at issue on a thread port or at entry on the interrupt port;
a later step. -/
theorem State.command_cases :
    let t := s.command i latch checks start later
    let p := s.cur
    t = s
      ∨ (s.faulted = false ∧
        (((s.port p).phase = Phase.idle ∧ allowed (s.kind p) i = false
            ∧ t = s.raise p .contextViolation i.opcode 0#12)
          ∨ ((s.port p).phase = Phase.idle ∧ s.kind p = .interrupt ∧ allowed .interrupt i = true
            ∧ t = (s.setPort p { s.port p with result := 0#32, opc := i.opcode, phase := Phase.iPend }).setAgent p
                (latch (s.agent p)))
          ∨ (∃ c, firstFailing checks = some c
            ∧ ((s.port p).phase = Phase.idle
              ∨ (s.port p).phase = Phase.iPend ∧ (s.port p).opc = i.opcode ∧ s.kind p = .interrupt)
            ∧ t = s.raise p c i.opcode 0#12)
          ∨ (firstFailing checks = none ∧ (s.port p).phase = Phase.idle ∧ s.kind p = .thread
            ∧ allowed .thread i = true ∧ t = start (s.setResult p 0#32))
          ∨ (firstFailing checks = none ∧ (s.port p).phase = Phase.iPend ∧ (s.port p).opc = i.opcode
            ∧ s.kind p = .interrupt ∧ s.ie s.params.irqCpu = true ∧ t = start s)
          ∨ ((s.port p).phase ≠ Phase.idle ∧ (s.port p).phase ≠ Phase.iPend ∧ (s.port p).opc = i.opcode
            ∧ t = later (s.port p).phase s))) := by
  intro t p
  have ht : t = s.command i latch checks start later := rfl
  simp only [State.command] at ht
  by_cases hf : s.faulted = true
  · exact .inl (by simpa [hf] using ht)
  have hf' : s.faulted = false := by simpa using hf
  simp only [hf', Bool.false_eq_true, if_false] at ht
  by_cases hi : (s.port s.cur).phase = Phase.idle
  · simp only [hi, if_true] at ht
    refine .inr ⟨hf', ?_⟩
    by_cases ha : allowed (s.kind s.cur) i = false
    · exact .inl ⟨hi, ha, by simpa [ha] using ht⟩
    simp only [ha] at ht
    have ha' : allowed (s.kind s.cur) i = true := by simpa using ha
    cases hk : s.kind s.cur <;> rw [hk] at ht ha'
    · simp only [State.checked] at ht
      cases hc : firstFailing checks with
      | none => exact .inr (.inr (.inr (.inl ⟨rfl, hi, rfl, ha', by simpa [hc] using ht⟩)))
      | some c => exact .inr (.inr (.inl ⟨c, rfl, .inl hi, by simpa [hc] using ht⟩))
    · exact .inr (.inl ⟨hi, rfl, ha', ht⟩)
  simp only [hi, if_false] at ht
  by_cases ho : (s.port s.cur).opc = i.opcode
  swap
  · exact .inl (by simpa [ho] using ht)
  simp only [ho, ne_eq, not_true, if_false] at ht
  by_cases hp : (s.port s.cur).phase = Phase.iPend
  swap
  · exact .inr ⟨hf', .inr (.inr (.inr (.inr (.inr ⟨hi, hp, ho, by simpa [hp] using ht⟩))))⟩
  simp only [hp, if_true] at ht
  by_cases he : s.entryEnabled s.cur = true
  swap
  · exact .inl (by simpa [he] using ht)
  have he' := he
  simp only [State.entryEnabled, Bool.and_eq_true, decide_eq_true_eq, Bool.not_eq_true'] at he'
  simp only [he, if_true, State.checked] at ht
  refine .inr ⟨hf', ?_⟩
  cases hc : firstFailing checks with
  | none => exact .inr (.inr (.inr (.inr (.inl ⟨rfl, hp, ho, he'.1.1, he'.1.2, by simpa [hc] using ht⟩))))
  | some c => exact .inr (.inr (.inl ⟨c, rfl, .inr ⟨hp, ho, he'.1.1⟩, by simpa [hc] using ht⟩))

/-- A halted block holds (R101). -/
theorem State.command_halted (h : s.faulted = true) : s.command i latch checks start later = s := by
  simp [State.command, h]

/-- The issue step on a thread port. -/
theorem State.command_issue (hf : s.faulted = false) (hi : (s.port s.cur).phase = Phase.idle)
    (hk : s.kind s.cur = .thread) (ha : allowed .thread i = true) :
    s.command i latch checks start later =
      s.checked s.cur i.opcode (firstFailing checks) start (s.setResult s.cur 0#32) := by
  simp [State.command, hf, hi, hk, ha]

/-- The latch on the interrupt port. -/
theorem State.command_latch (hf : s.faulted = false) (hi : (s.port s.cur).phase = Phase.idle)
    (hk : s.kind s.cur = .interrupt) (ha : allowed .interrupt i = true) :
    s.command i latch checks start later =
      (s.setPort s.cur { s.port s.cur with result := 0#32, opc := i.opcode, phase := Phase.iPend }).setAgent s.cur
        (latch (s.agent s.cur)) := by
  simp [State.command, hf, hi, hk, ha]

/-- The entry step on the interrupt port. -/
theorem State.command_entry (hf : s.faulted = false) (hp : (s.port s.cur).phase = Phase.iPend)
    (ho : (s.port s.cur).opc = i.opcode) (he : s.entryEnabled s.cur = true) :
    s.command i latch checks start later = s.checked s.cur i.opcode (firstFailing checks) start s := by
  have : Phase.iPend ≠ Phase.idle := by decide
  simp [State.command, hf, hp, ho, he, this]

/-- A later step of the command in progress. -/
theorem State.command_later (hf : s.faulted = false) (hi : (s.port s.cur).phase ≠ Phase.idle)
    (hp : (s.port s.cur).phase ≠ Phase.iPend) (ho : (s.port s.cur).opc = i.opcode) :
    s.command i latch checks start later = later (s.port s.cur).phase s := by
  simp [State.command, hf, hi, hp, ho]

end

end Sys2Proof.Machine
end

