-- ==== Sys2Proof/Laws/Command.lean ====
section
/-! SUPPORT. What one step of a command does in each of the situations of Safety.lean: at issue on a thread port, at
entry on the interrupt port, at a later step. -/

namespace Sys2Proof.Machine

variable {s : State} {p : PortId} {i : Instr} {latch : Agent → Agent} {checks : List (Bool × FaultCode)}
  {start : State → State} {later : Byte → State → State}

/-- At issue, the first failing check is recorded and nothing else changes. -/
theorem State.command_issue_faults (h : s.atIssue p) (ha : allowed .thread i = true) {c : FaultCode}
    (hc : firstFailing checks = some c) :
    s.command i latch checks start later = s.faultedWith p c.toByte i.opcode := by
  obtain ⟨rfl, hk, hf, hi⟩ := h
  rw [State.command_issue _ _ _ _ _ _ hf hi hk ha, hc]; rfl

/-- At issue with no failing check, `RESULT` is cleared and the command's first step is done. -/
theorem State.command_issue_starts (h : s.atIssue p) (ha : allowed .thread i = true)
    (hc : firstFailing checks = none) :
    s.command i latch checks start later = start (s.setResult p 0#32) := by
  obtain ⟨rfl, hk, hf, hi⟩ := h
  rw [State.command_issue _ _ _ _ _ _ hf hi hk ha, hc]; rfl

/-- At entry, the first failing check is recorded and nothing else changes. -/
theorem State.command_entry_faults (h : s.atEntry p i.opcode) {c : FaultCode} (hc : firstFailing checks = some c) :
    s.command i latch checks start later = s.faultedWith p c.toByte i.opcode := by
  obtain ⟨rfl, hk, hf, ho, hi, hie⟩ := h
  rw [State.command_entry _ _ _ _ _ _ hf hi ho (by simp [State.entryEnabled, hk, hie, hf]), hc]; rfl

/-- At entry with no failing check, the command's entry step is done. -/
theorem State.command_entry_starts (h : s.atEntry p i.opcode) (hc : firstFailing checks = none) :
    s.command i latch checks start later = start s := by
  obtain ⟨rfl, hk, hf, ho, hi, hie⟩ := h
  rw [State.command_entry _ _ _ _ _ _ hf hi ho (by simp [State.entryEnabled, hk, hie, hf]), hc]; rfl

/-- A later step is the command's own. -/
theorem State.command_at_step {ph : Byte} (h : s.atStep p i.opcode ph) (h0 : ph ≠ Phase.idle)
    (h1 : ph ≠ Phase.iPend) : s.command i latch checks start later = later ph s := by
  obtain ⟨rfl, hf, ho, hp⟩ := h
  rw [State.command_later _ _ _ _ _ _ hf (by rw [hp]; exact h0) (by rw [hp]; exact h1) ho, hp]

end Sys2Proof.Machine
end

