-- ==== Sys2Proof/Laws/Inv.lean ====
section
/-! SUPPORT. The RingBuffer's cursors as plain arithmetic, and what each named update of the state needs in order to
keep the invariant `State.Inv`: the lemmas from which a proof about a step is assembled. -/

namespace Sys2Proof.Machine

variable {s : State}

/-! ### The RingBuffer's cursors -/

/-- `count` without the modulus, for cursors in their range (10_state.md R25, R26). -/
theorem State.count_eq (hr : s.rd < 2 * s.cap) (hw : s.wr < 2 * s.cap) :
    s.count = if s.rd ≤ s.wr then s.wr - s.rd else s.wr + 2 * s.cap - s.rd := by
  have hc : s.cap ≠ 0 := by omega
  simp only [State.count, hc, if_false]
  split
  · rw [Int.emod_eq_of_lt (by omega) (by push_cast; omega)]; omega
  · rw [← Int.add_emod_right, Int.emod_eq_of_lt (by push_cast; omega) (by push_cast; omega)]; push_cast; omega

theorem State.inc_eq {c : Nat} (h : c < 2 * s.cap) : s.inc c = if c + 1 = 2 * s.cap then 0 else c + 1 := by
  unfold State.inc
  split
  · next h' => rw [h', Nat.mod_self]
  · exact Nat.mod_eq_of_lt (by omega)

theorem State.inc_lt {c : Nat} (h : c < 2 * s.cap) : s.inc c < 2 * s.cap := Nat.mod_lt _ (by omega)

/-- A push on a buffer that is not full counts one byte more. -/
theorem State.rbPush_count (b : Byte) (hr : s.rd < 2 * s.cap) (hw : s.wr < 2 * s.cap) (hc : s.count < s.cap) :
    (s.rbPush b).count = s.count + 1 := by
  rw [State.count_eq (s := s.rbPush b) hr (State.inc_lt hw), State.rbPush_rd, State.rbPush_wr, State.rbPush_cap,
    State.inc_eq hw]
  rw [State.count_eq hr hw] at *
  split_ifs at * <;> omega

/-- A pop on a buffer that is not empty counts one byte less. -/
theorem State.rbPop_count (hr : s.rd < 2 * s.cap) (hw : s.wr < 2 * s.cap) (hc : s.count ≠ 0) :
    s.rbPop.count + 1 = s.count := by
  rw [State.count_eq (s := s.rbPop) (State.inc_lt hr) hw, State.rbPop_rd, State.rbPop_wr, State.rbPop_cap,
    State.inc_eq hr]
  rw [State.count_eq hr hw] at *
  split_ifs at * <;> omega

/-! ### What keeps the invariant -/

namespace State.Inv

/-- The invariant says nothing of the transaction registers. -/
theorem setAgent (h : s.Inv) (p : PortId) (x : Agent) : (s.setAgent p x).Inv := { h with }
/-- The receive pair is written together (10_state.md R27). -/
theorem maskRx (h : s.Inv) (m : Bool) : (s.maskRx m).Inv := { h with rx_pair := rfl }
theorem maskTx (h : s.Inv) (m : Bool) : (s.maskTx m).Inv := { h with rx_pair := h.rx_pair }
theorem signal (h : s.Inv) : s.signal.Inv := { h with }
theorem countWait (h : s.Inv) : s.countWait.Inv := { h with }
theorem countFull (h : s.Inv) : s.countFull.Inv := { h with }
theorem advance (h : s.Inv) : s.advance.Inv := { h with }

/-- A recorded fault has one of the fourteen codes (60_exceptions.md R281). -/
theorem raise (h : s.Inv) (p : PortId) (c : FaultCode) (o : Byte) (f : BitVec 12) : (s.raise p c o f).Inv :=
  { h with
    fault_code := by
      have : c.toByte.toNat ≤ 14 ∧ c.toByte ≠ 0#8 := by cases c <;> decide
      exact ⟨this.1, fun h0 => absurd h0 this.2⟩ }

/-- A port's registers may be replaced by a shape its kind admits (10_state.md R34), with the lock held in the steps
that run under it, no second consumer, and `RESULT` 0 while a command is in progress. -/
theorem setPort (h : s.Inv) (p : PortId) (x : Port) (hs : x.shapeOk (s.kind p) = true)
    (ha : s.hasPort p = false → x.phase = Phase.idle)
    (hl : x.inLockedStep (s.kind p) = true → s.holdsLock p = true)
    (hc : x.opc = 0x12#8 ∨ x.opc = 0x22#8 → ∀ q, q ≠ p → s.consumerActive q = false)
    (hr : resultOk x.result = true) (hb : x.phase ≠ Phase.idle → x.result = 0#32)
    (hh : p = s.intPort → x.phase ≠ Phase.idle → x.phase ≠ Phase.iPend →
      s.ie s.params.irqCpu = false ∧ s.initDone = true) : (s.setPort p x).Inv :=
  { h with
    port_shape := fun q => by
      rw [State.setPort_port, State.setPort_kind]; split
      · next e => rw [e]; exact hs
      · exact h.port_shape q
    port_absent := fun q hq => by
      rw [State.setPort_port]; split
      · next e => exact ha (e ▸ hq)
      · exact h.port_absent q hq
    locked_step := fun q hq => by
      rw [State.setPort_port, State.setPort_kind] at hq
      rw [State.setPort_holdsLock]
      split at hq
      · next e => rw [e] at hq ⊢; exact hl hq
      · exact h.locked_step q hq
    one_consumer := fun q r hq hr => by
      simp only [State.consumerActive, State.setPort_port, Bool.or_eq_true, decide_eq_true_eq] at hq hr
      by_cases eq : q = p <;> by_cases er : r = p
      · rw [eq, er]
      · simp only [eq, er, if_true, if_false] at hq hr
        have := hc hq r er
        simp only [State.consumerActive, Bool.or_eq_false_iff, decide_eq_false_iff_not] at this
        exact absurd hr (not_or.mpr this)
      · simp only [eq, er, if_true, if_false] at hq hr
        have := hc hr q eq
        simp only [State.consumerActive, Bool.or_eq_false_iff, decide_eq_false_iff_not] at this
        exact absurd hq (not_or.mpr this)
      · simp only [eq, er, if_false] at hq hr
        exact h.one_consumer q r (by simpa [State.consumerActive] using hq)
          (by simpa [State.consumerActive] using hr)
    result_ok := fun q => by
      rw [State.setPort_port]; split
      · exact hr
      · exact h.result_ok q
    result_busy := fun q hq => by
      simp only [State.busy, State.setPort_port, decide_eq_true_eq] at hq ⊢
      split at hq
      · next e => rw [if_pos e]; exact hb hq
      · next e => rw [if_neg e]; exact h.result_busy q (by simpa [State.busy] using hq)
    handler := fun hq => by
      simp only [State.irqEntered, State.busy, State.setPort_intPort, State.setPort_port, Bool.and_eq_true,
        decide_eq_true_eq] at hq
      split at hq
      · next e => exact hh e.symm hq.1 hq.2
      · exact h.handler (by simpa [State.irqEntered, State.busy] using hq) }

/-- Interrupts may be switched off on any core. -/
theorem setIe_false (h : s.Inv) (c : Nat) : (s.setIe c false).Inv :=
  { h with
    ie_wf := sparsePut_wf (fun _ => true) c false s.ieBits h.ie_wf
    lock_ie := fun hl => ⟨(h.lock_ie hl).1, by
      have := (h.lock_ie hl).2
      rw [State.setIe_ie]; split
      · rfl
      · exact this⟩
    handler := fun he => ⟨by
      rw [State.setIe_ie]; split
      · rfl
      · exact (h.handler he).1, (h.handler he).2⟩ }

/-- Interrupts may be switched on where neither the lock nor the handler needs them off. -/
theorem setIe (h : s.Inv) (c : Nat) (b : Bool) (hl : s.lockHeld = false) (he : s.irqEntered = false) :
    (s.setIe c b).Inv :=
  { h with
    ie_wf := sparsePut_wf _ _ _ _ h.ie_wf
    lock_ie := fun h' => by rw [State.setIe_lockHeld, hl] at h'; simp at h'
    handler := fun h' => by rw [show (s.setIe c b).irqEntered = s.irqEntered from rfl, he] at h'; simp at h' }

/-- The lock may be taken when it is free (42_lock_wake.md R181). -/
theorem takeLock (h : s.Inv) (p : PortId) (hl : s.lockHeld = false) (hp : s.hasPort p = true) :
    (s.takeLock p).Inv := by
  have h1 := (h.setAgent p { s.agent p with savedIe := s.ie (s.core p) }).setIe_false (s.core p)
  unfold State.takeLock
  exact { h1 with
    lock_free := fun h' => by simp at h'
    lock_ie := fun _ => ⟨hp, by simp⟩
    locked_step := fun q hq => by
      have := h.locked_step q hq
      simp [State.holdsLock, hl] at this }

/-- The lock may be given back once no port stands in a step that runs under it (R183). -/
theorem release (h : s.Inv) (p : PortId) (hl : ∀ q, (s.port q).inLockedStep (s.kind q) = false)
    (he : s.core p = s.params.irqCpu → s.irqEntered = false) : (s.release p).Inv := by
  unfold State.release
  exact { h with
    ie_wf := sparsePut_wf _ _ _ _ h.ie_wf
    lock_free := fun _ => rfl
    lock_ie := fun h' => by simp at h'
    locked_step := fun q hq => by
      rw [show ((s.setIe (s.core p) (s.agent p).savedIe).setLock false 0).port q = s.port q from rfl,
        show ((s.setIe (s.core p) (s.agent p).savedIe).setLock false 0).kind q = s.kind q from rfl, hl q] at hq
      simp at hq
    handler := fun h' => by
      replace h' : s.irqEntered = true := h'
      refine ⟨?_, (h.handler h').2⟩
      simp only [State.setLock_ie, State.setLock_params, State.setIe_params, State.setIe_ie]
      split
      · next e => rw [he e.symm] at h'; simp at h'
      · exact (h.handler h').1 }

/-- `RBInit` on an accepted capacity (40_ringbuffer.md R142). -/
theorem rbInit (h : s.Inv) (c : Word) (h0 : c ≠ 0#32) (hm : c.toNat ≤ s.params.capMax) : (s.rbInit c).Inv :=
  have hc : c.toNat ≠ 0 := fun e => h0 (BitVec.eq_of_toNat_eq (by simpa using e))
  { h with
    cap_le := hm
    ring_before := fun h' => by simp at h'
    ring_after := fun _ => by simp; omega
    count_le := by simp [State.count, hc]
    boot_order := fun h' => ⟨(h.boot_order h').1, rfl⟩ }

/-- A push on a buffer that is not full (R145). -/
theorem rbPush (h : s.Inv) (b : Byte) (hd : s.rbInitDone = true) (hf : s.isFull = false) : (s.rbPush b).Inv := by
  obtain ⟨h1, h2, h3⟩ := h.ring_after hd
  have hc : s.count < s.cap := by
    have := h.count_le
    simp [State.isFull, hd] at hf
    omega
  exact { h with
    store_wf := sparsePut_wf _ _ _ _ h.store_wf
    store_slots := fun e he => by
      replace he : e ∈ sparsePut (fun _ => 0#8) (s.slot s.wr) b s.store := he
      rcases sparsePut_mem he with rfl | he
      · exact lt_of_lt_of_le (Nat.mod_lt _ (by omega)) h.cap_le
      · exact h.store_slots e he
    ring_before := fun h' => by simp [hd] at h'
    ring_after := fun _ => ⟨h1, h2, State.inc_lt h3⟩
    count_le := by rw [State.rbPush_count b h2 h3 hc, State.rbPush_cap]; omega }

/-- A pop on a buffer that is not empty (R149). -/
theorem rbPop (h : s.Inv) (he : s.isEmpty = false) : s.rbPop.Inv := by
  have hc : s.count ≠ 0 := by simpa [State.isEmpty] using he
  have hd : s.rbInitDone = true := by
    by_contra hn
    have := h.ring_before (by simpa using hn)
    simp [State.count, this] at hc
  obtain ⟨h1, h2, h3⟩ := h.ring_after hd
  have := State.rbPop_count h2 h3 hc
  exact { h with
    ring_before := fun h' => by simp [hd] at h'
    ring_after := fun _ => ⟨h1, State.inc_lt h2, h3⟩
    count_le := by have := h.count_le; rw [State.rbPop_cap]; omega }

/-- The receive FIFO may lose its oldest byte (10_state.md R28). -/
theorem rxfDrop (h : s.Inv) : s.rxfDrop.Inv :=
  { h with
    rxf_le := by have := h.rxf_le; simp; omega
    rxto_empty := fun h' => by simp at h' ⊢; simp [h'] }

/-- A byte may go into a transmit FIFO with room (43_txpath.md R205). -/
theorem txfPut (h : s.Inv) (b : Byte) (hf : s.txf.length < s.params.txfDepth) : (s.txfPut b).Inv :=
  { h with txf_le := by simp; omega }

end State.Inv
end Sys2Proof.Machine
end

