-- ==== Sys2Proof/Laws/PerInstr.lean ====
section
/-! SUPPORT. A statement about every command as syntax, one lemma per constructor: where its fields stand in its word
(30_encoding.md R100, R103). -/

namespace Sys2Proof.Laws

/-- The command's word holds its opcode in 7:0, its byte operand in 15:8, its flags in 16 and 17, and 0 in 31:18. -/
def EncodeFields.Statement (i : Instr) : Prop :=
  fieldOpc (encode i) = i.opcode ∧ fieldImm8 (encode i) = i.imm8 ∧ fieldW (encode i) = i.flagW
    ∧ fieldN (encode i) = i.flagN ∧ fieldRes (encode i) = 0#14

/-- The bits of a packed word. -/
theorem packWord_bit (opc imm8 : Byte) (w n : Bool) (k : Nat) :
    (packWord opc imm8 w n).getLsbD k =
      if k < 8 then opc.getLsbD k
      else if k - 8 < 8 then imm8.getLsbD (k - 8)
      else if k - 8 - 8 < 1 then (BitVec.ofBool w).getLsbD (k - 8 - 8)
      else if k - 8 - 8 - 1 < 1 then (BitVec.ofBool n).getLsbD (k - 8 - 8 - 1) else false := by
  have h1 := BitVec.getLsbD_append (x := 0#14 ++ BitVec.ofBool n ++ BitVec.ofBool w ++ imm8) (y := opc) (i := k)
  have h2 := BitVec.getLsbD_append (x := 0#14 ++ BitVec.ofBool n ++ BitVec.ofBool w) (y := imm8) (i := k - 8)
  have h3 := BitVec.getLsbD_append (x := 0#14 ++ BitVec.ofBool n) (y := BitVec.ofBool w) (i := k - 8 - 8)
  have h4 := BitVec.getLsbD_append (x := 0#14) (y := BitVec.ofBool n) (i := k - 8 - 8 - 1)
  rw [BitVec.getLsbD_zero] at h4
  rw [h4] at h3; rw [h3] at h2; rw [h2] at h1
  exact h1

/-- The fields of a packed word are what was packed. -/
theorem packWord_fields (opc imm8 : Byte) (w n : Bool) :
    fieldOpc (packWord opc imm8 w n) = opc ∧ fieldImm8 (packWord opc imm8 w n) = imm8
      ∧ fieldW (packWord opc imm8 w n) = w ∧ fieldN (packWord opc imm8 w n) = n
      ∧ fieldRes (packWord opc imm8 w n) = 0#14 := by
  refine ⟨?_, ?_, ?_, ?_, ?_⟩
  · ext k hk; simp [fieldOpc, packWord_bit, hk]
  · ext k hk; simp [fieldImm8, packWord_bit, hk]
  · rw [fieldW, packWord_bit]; simp
  · rw [fieldN, packWord_bit]; simp
  · ext k hk
    simp only [fieldRes, BitVec.getElem_extractLsb', packWord_bit]
    rw [if_neg (by omega), if_neg (by omega), if_neg (by omega), if_neg (by omega)]; simp

theorem EncodeFields.initEarly : EncodeFields.Statement .initEarly := packWord_fields _ _ _ _
theorem EncodeFields.init : EncodeFields.Statement .init := packWord_fields _ _ _ _
theorem EncodeFields.getbyte (w : Bool) : EncodeFields.Statement (.getbyte w) := packWord_fields _ _ _ _
theorem EncodeFields.write (w n : Bool) : EncodeFields.Statement (.write w n) := packWord_fields _ _ _ _
theorem EncodeFields.pollPutc (b : Byte) : EncodeFields.Statement (.pollPutc b) := packWord_fields _ _ _ _
theorem EncodeFields.pollGetc : EncodeFields.Statement .pollGetc := packWord_fields _ _ _ _
theorem EncodeFields.enterFail : EncodeFields.Statement .enterFail := packWord_fields _ _ _ _
theorem EncodeFields.rbInit : EncodeFields.Statement .rbInit := packWord_fields _ _ _ _
theorem EncodeFields.rbPush (b : Byte) : EncodeFields.Statement (.rbPush b) := packWord_fields _ _ _ _
theorem EncodeFields.rbPop (w : Bool) : EncodeFields.Statement (.rbPop w) := packWord_fields _ _ _ _
theorem EncodeFields.lockAcq : EncodeFields.Statement .lockAcq := packWord_fields _ _ _ _
theorem EncodeFields.lockRel : EncodeFields.Statement .lockRel := packWord_fields _ _ _ _
theorem EncodeFields.wakeSignal : EncodeFields.Statement .wakeSignal := packWord_fields _ _ _ _
theorem EncodeFields.wakeWait : EncodeFields.Statement .wakeWait := packWord_fields _ _ _ _
theorem EncodeFields.yield : EncodeFields.Statement .yield := packWord_fields _ _ _ _
theorem EncodeFields.rxMask : EncodeFields.Statement .rxMask := packWord_fields _ _ _ _
theorem EncodeFields.rxUnmask : EncodeFields.Statement .rxUnmask := packWord_fields _ _ _ _
theorem EncodeFields.txMask : EncodeFields.Statement .txMask := packWord_fields _ _ _ _
theorem EncodeFields.txUnmask : EncodeFields.Statement .txUnmask := packWord_fields _ _ _ _
theorem EncodeFields.irqDispatch : EncodeFields.Statement .irqDispatch := packWord_fields _ _ _ _

end Sys2Proof.Laws
end

