-- ==== Sys2Proof/Machine/Asm.lean ====
section
/-! DEFINITION. The spec's assembly notation (30_encoding.md R116) and its pseudo-instructions (R118): a line of text
gives the port it names and the command line its agent performs (R117). What the grammar leaves to a reader (spaces,
the digits of a number, the two escapes) is log 27's. -/

namespace Sys2Proof.Machine

/-- The port a line names (R116): thread port `n`, or the interrupt port. -/
inductive AsmPort where
  /-- `T` and a digit -/
  | thread (n : Nat)
  /-- `I` -/
  | interrupt
deriving DecidableEq, Repr

/-- A line of assembly, read: the port, if it names one, and the command line. -/
structure AsmLine where
  port : Option AsmPort
  line : Line
deriving DecidableEq, Repr

/-- A line with the operands at hand, none of them read. -/
def lineOf (i : Instr) (arg0 arg1 : Word) : Line := { arg0 := arg0, arg1 := arg1, cmd := encode i }

/-- The value of a digit: decimal, or hexadecimal in either case. -/
def digitValue (c : Char) : Option Nat :=
  if '0' ≤ c ∧ c ≤ '9' then some (c.toNat - '0'.toNat)
  else if 'a' ≤ c ∧ c ≤ 'f' then some (c.toNat - 'a'.toNat + 10)
  else if 'A' ≤ c ∧ c ≤ 'F' then some (c.toNat - 'A'.toNat + 10)
  else none

/-- The number a run of digits of the given base writes. -/
def digitsValue (base : Nat) : Nat → List Char → Option Nat
  | acc, [] => some acc
  | acc, c :: cs =>
    match digitValue c with
    | some d => if d < base then digitsValue base (base * acc + d) cs else none
    | none => none

/-- An operand of R116: a decimal number, a `0x` number, or a character literal. R9 gives the code of an ASCII
character. A character beyond ASCII gets its Unicode code point where that is below 256, and is no operand above
(DESIGN CHOICE, log 27: R9 and R116 do not name that case). -/
def operandValue : List Char → Option Nat
  | ['\'', '\\', 'n', '\''] => some 0x0A
  | ['\'', '\\', 'r', '\''] => some 0x0D
  | ['\'', c, '\''] => if c.toNat < 256 then some c.toNat else none
  | '0' :: 'x' :: d :: ds => digitsValue 16 0 (d :: ds)
  | d :: ds => digitsValue 10 0 (d :: ds)
  | [] => none

/-- The characters with spaces dropped, but for one that stands in a character literal. -/
def dropSpaces : List Char → List Char
  | '\'' :: c :: '\'' :: cs => '\'' :: c :: '\'' :: dropSpaces cs
  | c :: cs => if c = ' ' then dropSpaces cs else c :: dropSpaces cs
  | [] => []

/-- The comma-separated operands of a text without spaces; a comma in a character literal separates nothing. -/
def splitOperands : List Char → List (List Char)
  | '\'' :: c :: '\'' :: cs =>
    match splitOperands cs with
    | o :: os => ('\'' :: c :: '\'' :: o) :: os
    | [] => [['\'', c, '\'']]
  | c :: cs =>
    if c = ',' then [] :: splitOperands cs
    else
      match splitOperands cs with
      | o :: os => (c :: o) :: os
      | [] => [[c]]
  | [] => [[]]

/-- The pieces of a mnemonic with its suffixes, parted at the dots. -/
def splitDots : List Char → List (List Char)
  | c :: cs =>
    if c = '.' then [] :: splitDots cs
    else
      match splitDots cs with
      | o :: os => (c :: o) :: os
      | [] => [[c]]
  | [] => [[]]

/-- The values of a list of operands; an empty text has none. -/
def operandValues (cs : List Char) : Option (List Nat) :=
  match dropSpaces cs with
  | [] => some []
  | t => (splitOperands t).mapM operandValue

/-- A 32-bit operand. -/
def asWord (n : Nat) : Option Word := if n < 2 ^ 32 then some (BitVec.ofNat 32 n) else none

/-- A byte operand. -/
def asByte (n : Nat) : Option Byte := if n < 2 ^ 8 then some (BitVec.ofNat 8 n) else none

/-- A command without operands. -/
def asmPlain (i : Instr) (sfx : List (List Char)) (ops : List Nat) : Option Line :=
  if sfx = [] ∧ ops = [] then some (lineOf i 0 0) else none

/-- A command without operands that takes the suffix `.w`. -/
def asmWait (f : Bool → Instr) (sfx : List (List Char)) (ops : List Nat) : Option Line :=
  if sfx.all (· = ['w']) ∧ ops = [] then some (lineOf (f (sfx.contains ['w'])) 0 0) else none

/-- A command with one 32-bit operand, in `ARG0`. -/
def asmArg0 (i : Instr) (sfx : List (List Char)) : List Nat → Option Line
  | [a] => if sfx = [] then (asWord a).map fun x => lineOf i x 0 else none
  | _ => none

/-- A command with two 32-bit operands, in `ARG0` and `ARG1`. -/
def asmArgs (i : Instr) (sfx : List (List Char)) : List Nat → Option Line
  | [a, b] =>
    if sfx = [] then (asWord a).bind fun x => (asWord b).map fun y => lineOf i x y else none
  | _ => none

/-- A command with one byte operand, in `IMM8`. -/
def asmByte (f : Byte → Instr) (sfx : List (List Char)) : List Nat → Option Line
  | [a] => if sfx = [] then (asByte a).map fun x => lineOf (f x) 0 0 else none
  | _ => none

/-- `write` with its suffixes `.b` and `.n`. -/
def asmWrite (sfx : List (List Char)) (ops : List Nat) : Option Line :=
  if sfx.all (fun x => x = ['b'] ∨ x = ['n']) then
    asmArgs (.write (sfx.contains ['b']) (sfx.contains ['n'])) [] ops
  else none

/-- A mnemonic of R116, or a pseudo-instruction of R118, with its suffixes and operands. -/
def asmCommand (m : List Char) (sfx : List (List Char)) (ops : List Nat) : Option Line :=
  if m = "init_early".toList then asmArgs .initEarly sfx ops
  else if m = "init".toList then asmArgs .init sfx ops
  else if m = "getbyte".toList then asmWait .getbyte sfx ops
  else if m = "write".toList then asmWrite sfx ops
  else if m = "poll_putc".toList then asmByte .pollPutc sfx ops
  else if m = "poll_getc".toList then asmPlain .pollGetc sfx ops
  else if m = "enter_fail".toList then asmPlain .enterFail sfx ops
  else if m = "rb_init".toList then asmArg0 .rbInit sfx ops
  else if m = "rb_push".toList then asmByte .rbPush sfx ops
  else if m = "rb_pop".toList then asmWait .rbPop sfx ops
  else if m = "lock_acq".toList then asmPlain .lockAcq sfx ops
  else if m = "lock_rel".toList then asmPlain .lockRel sfx ops
  else if m = "wake_signal".toList then asmPlain .wakeSignal sfx ops
  else if m = "wake_wait".toList then asmPlain .wakeWait sfx ops
  else if m = "yield".toList then asmPlain .yield sfx ops
  else if m = "rx_mask".toList then asmPlain .rxMask sfx ops
  else if m = "rx_unmask".toList then asmPlain .rxUnmask sfx ops
  else if m = "tx_mask".toList then asmPlain .txMask sfx ops
  else if m = "tx_unmask".toList then asmPlain .txUnmask sfx ops
  else if m = "irq_dispatch".toList then asmPlain .irqDispatch sfx ops
  else if m = "getc".toList then asmPlain (.getbyte true) sfx ops
  else if m = "trygetc".toList then asmPlain (.getbyte false) sfx ops
  else if m = "puts".toList then asmArgs (.write true true) sfx ops
  else if m = "nbputs".toList then asmArgs (.write false true) sfx ops
  else if m = "nop".toList then asmPlain .yield sfx ops
  else none

/-- The text after its leading spaces. -/
def skipSpaces : List Char → List Char
  | c :: cs => if c = ' ' then skipSpaces cs else c :: cs
  | [] => []

/-- The port a line begins with, if it names one, and the rest (R116). -/
def asmPort : List Char → Option AsmPort × List Char
  | 'T' :: d :: ':' :: cs =>
    if '0' ≤ d ∧ d ≤ '9' then (some (.thread (d.toNat - '0'.toNat)), cs) else (none, 'T' :: d :: ':' :: cs)
  | 'I' :: ':' :: cs => (some .interrupt, cs)
  | cs => (none, cs)

/-- The characters up to the first space, and the rest. -/
def firstWord : List Char → List Char × List Char
  | c :: cs => if c = ' ' then ([], cs) else let r := firstWord cs; (c :: r.1, r.2)
  | [] => ([], [])

/-- A line of assembly (R116): the port and the command line, or none where the text is no line. -/
def assemble (text : String) : Option AsmLine :=
  let p := asmPort (skipSpaces text.toList)
  let w := firstWord (skipSpaces p.2)
  match splitDots w.1, operandValues w.2 with
  | m :: sfx, some ops => (asmCommand m sfx ops).map fun l => { port := p.1, line := l }
  | _, _ => none

end Sys2Proof.Machine
end

