-- ==== Sys2Proof/Tests/Slice0.lean ====
section
/-! SUPPORT. Tests. Expected values come from the spec's encodings and examples and from 95_test_vectors.md (named in
each test's comment), or are the spec's rules worked by hand on a small state. The `witness_…` theorems show, for each
statement that has hypotheses, a concrete state and operands that meet them, one for each of its clauses. -/

namespace Sys2Proof.Tests

open Sys2Proof.Machine

/-! ### Small states -/

/-- The state "boot" of 95_test_vectors.md section 1: capacity 4, receive pair unmasked, transmit-interrupt use on. -/
def boot : State :=
  { State.reset with
    earlyDone := true, initDone := true, rbInitDone := true, mmioBase := 0x10000000, irqLine := 33
    txIrqEn := true, cap := 4, imask := ⟨false, false, true⟩ }

/-- Port `p`'s agent acts; its port holds these operands and stands at step `ph` of opcode `o`. -/
def on (s : State) (p : PortId) (a0 a1 : Word) (o ph : Byte) : State :=
  { s.setPort p { arg0 := a0, arg1 := a1, opc := o, phase := ph } with cur := p }

/-- Port `p`'s agent acts and its port is idle. -/
def idle (s : State) (p : PortId) (a0 a1 : Word) : State := on s p a0 a1 0 0

/-- The buffer of capacity 4 holding `'A'` to `'D'`. -/
def full (s : State) : State := { s with cap := 4, wr := 4, store := [(0, 0x41), (1, 0x42), (2, 0x43), (3, 0x44)] }

/-- The buffer of capacity 4 holding `'A'`. -/
def one (s : State) : State := { s with cap := 4, wr := 1, store := [(0, 0x41)] }

/-- Port `p` holds the lock, its core's interrupts off. -/
def locked (s : State) (p : PortId) : State := (s.setIe (s.core p) false).setLock true p

/-- The transmit FIFO is full. -/
def txFullOf (s : State) : State := { s with txf := [0x30, 0x31, 0x32, 0x33] }

/-- A fault is recorded. -/
def halted : State := { State.reset with fault := { code := 0x0C#8, opc := 0x34#8 } }

/-- What an outcome's next state shows. -/
def shows {α : Type} (f : State → α) : Host.Outcome State Fault Refusal → Option α
  | .next t => some (f t)
  | _ => none

/-- The fault or refusal an outcome stops with. -/
def stops : Host.Outcome State Fault Refusal → Option Fault × Option Refusal
  | .next _ => (none, none)
  | .fault r => (some r, none)
  | .refused r => (none, some r)

/-- The check of R113 that a word fails. -/
def whatIsWrong (w : Word) : Option Illegal :=
  match decodeOrName w with
  | .ok _ => none
  | .error e => some e

/-! ### What is ill formed is refused -/

theorem test_wf_accepts_default : Params.default.wf = true := by decide
theorem test_wf_refuses_no_storage : ({ Params.default with capMax := 0 }).wf = false := by decide
theorem test_wf_refuses_no_rxf : ({ Params.default with rxfDepth := 0 }).wf = false := by decide
theorem test_wf_refuses_no_txf : ({ Params.default with txfDepth := 0 }).wf = false := by decide
theorem test_wf_refuses_rx_thresh_zero : ({ Params.default with rxThresh := 0 }).wf = false := by decide
theorem test_wf_refuses_rx_thresh_above_depth : ({ Params.default with rxThresh := 17 }).wf = false := by decide
theorem test_wf_refuses_tx_thresh_at_depth : ({ Params.default with txThresh := 4 }).wf = false := by decide
theorem test_wf_refuses_no_core : ({ Params.default with ncpu := 0 }).wf = false := by decide
theorem test_wf_refuses_no_thread : ({ Params.default with nthread := 0, cpu := [] }).wf = false := by decide
theorem test_wf_refuses_eight_threads :
    ({ Params.default with nthread := 8, cpu := [0, 0, 0, 0, 0, 0, 0, 0] }).wf = false := by decide
theorem test_wf_refuses_short_cpu_map : ({ Params.default with cpu := [0] }).wf = false := by decide
theorem test_wf_refuses_thread_on_no_core : ({ Params.default with cpu := [0, 2] }).wf = false := by decide
theorem test_wf_refuses_irq_on_no_core : ({ Params.default with irqCpu := 2 }).wf = false := by decide
theorem test_wf_refuses_unaligned_base : ({ Params.default with blockBase := 0x100 }).wf = false := by decide
theorem test_placed_refuses_push_on_thread : (Instr.rbPush 0x41).wellPlaced .thread = false := by decide
theorem test_placed_refuses_getbyte_on_interrupt : (Instr.getbyte true).wellPlaced .interrupt = false := by decide
theorem test_program_ok :
    programOk .interrupt [⟨0, 0, 0x32⟩] = true ∧ programOk .interrupt [⟨0, 0, 0x32⟩, ⟨0, 0, 0x50⟩] = false
      ∧ programOk .thread [⟨0, 0, 0x50⟩] = true := by decide

theorem test_program_length : programLengthOk 4294967295 = true ∧ programLengthOk 4294967296 = false := by decide

/-! ### Every command's word, its fields written out: RES, N, W, IMM8, OPC (R100, R104) -/

theorem test_decode_init_early : decode (0#14 ++ 0b0#1 ++ 0b0#1 ++ 0x00#8 ++ 0b00010000#8) = some .initEarly := by decide
theorem test_decode_init : decode (0#14 ++ 0b0#1 ++ 0b0#1 ++ 0x00#8 ++ 0b00010001#8) = some .init := by decide
theorem test_decode_getbyte :
    decode (0#14 ++ 0b0#1 ++ 0b1#1 ++ 0x00#8 ++ 0b00010010#8) = some (.getbyte true)
      ∧ decode (0#14 ++ 0b0#1 ++ 0b0#1 ++ 0x00#8 ++ 0b00010010#8) = some (.getbyte false) := by decide
theorem test_decode_write :
    decode (0#14 ++ 0b0#1 ++ 0b1#1 ++ 0x00#8 ++ 0b00010011#8) = some (.write true false)
      ∧ decode (0#14 ++ 0b1#1 ++ 0b0#1 ++ 0x00#8 ++ 0b00010011#8) = some (.write false true) := by decide
theorem test_decode_poll_putc :
    decode (0#14 ++ 0b0#1 ++ 0b0#1 ++ 0b01111000#8 ++ 0b00010100#8) = some (.pollPutc 0x78) := by decide
theorem test_decode_poll_getc : decode (0#14 ++ 0b0#1 ++ 0b0#1 ++ 0x00#8 ++ 0b00010101#8) = some .pollGetc := by decide
theorem test_decode_enter_fail : decode (0#14 ++ 0b0#1 ++ 0b0#1 ++ 0x00#8 ++ 0b00010110#8) = some .enterFail := by decide
theorem test_decode_rb_init : decode (0#14 ++ 0b0#1 ++ 0b0#1 ++ 0x00#8 ++ 0b00100000#8) = some .rbInit := by decide
theorem test_decode_rb_push :
    decode (0#14 ++ 0b0#1 ++ 0b0#1 ++ 0b01000001#8 ++ 0b00100001#8) = some (.rbPush 0x41) := by decide
theorem test_decode_rb_pop :
    decode (0#14 ++ 0b0#1 ++ 0b1#1 ++ 0x00#8 ++ 0b00100010#8) = some (.rbPop true) := by decide
theorem test_decode_lock_acq : decode (0#14 ++ 0b0#1 ++ 0b0#1 ++ 0x00#8 ++ 0b00110000#8) = some .lockAcq := by decide
theorem test_decode_lock_rel : decode (0#14 ++ 0b0#1 ++ 0b0#1 ++ 0x00#8 ++ 0b00110001#8) = some .lockRel := by decide
theorem test_decode_wake_signal :
    decode (0#14 ++ 0b0#1 ++ 0b0#1 ++ 0x00#8 ++ 0b00110010#8) = some .wakeSignal := by decide
theorem test_decode_wake_wait : decode (0#14 ++ 0b0#1 ++ 0b0#1 ++ 0x00#8 ++ 0b00110011#8) = some .wakeWait := by decide
theorem test_decode_yield : decode (0#14 ++ 0b0#1 ++ 0b0#1 ++ 0x00#8 ++ 0b00110100#8) = some .yield := by decide
theorem test_decode_rx_mask : decode (0#14 ++ 0b0#1 ++ 0b0#1 ++ 0x00#8 ++ 0b01000000#8) = some .rxMask := by decide
theorem test_decode_rx_unmask : decode (0#14 ++ 0b0#1 ++ 0b0#1 ++ 0x00#8 ++ 0b01000001#8) = some .rxUnmask := by decide
theorem test_decode_tx_mask : decode (0#14 ++ 0b0#1 ++ 0b0#1 ++ 0x00#8 ++ 0b01000010#8) = some .txMask := by decide
theorem test_decode_tx_unmask : decode (0#14 ++ 0b0#1 ++ 0b0#1 ++ 0x00#8 ++ 0b01000011#8) = some .txUnmask := by decide
theorem test_decode_irq_dispatch :
    decode (0#14 ++ 0b0#1 ++ 0b0#1 ++ 0x00#8 ++ 0b01010000#8) = some .irqDispatch := by decide

/-- R119's illegal words, each with the check that refuses it. -/
theorem test_decode_names_what_is_wrong :
    [0x00000000#32, 0x00000051#32, 0x00040013#32, 0x00004112#32, 0x00010014#32, 0x00020012#32].map whatIsWrong
      = [some .reservedOpcode, some .reservedOpcode, some .reservedBits, some .strayImm8, some .strayW, some .strayN] := by
  decide

theorem test_table_word : decodeTableWord 32 0x00030013 = some (.write true true) ∧ decodeTableWord 32 0 = none := by
  decide

/-! ### One step of each command -/

/-- Section 1, "boot": `init_early 0x10000000, 33`. -/
theorem test_init_early_records_device :
    shows (fun t => (t.mmioBase, t.irqLine, t.earlyDone, (t.port 0).result))
      (exec .initEarly (idle State.reset 0 0x10000000 33)) = some (0x10000000#32, 33#32, true, 0x400#32) := by decide

/-- R241: a misaligned base is a configuration error, code 0x01. -/
theorem test_init_early_misaligned :
    shows State.faultWord (exec .initEarly (idle State.reset 0 0x10000002 33)) = some 0x00001001#32 := by decide

/-- Section 1, "boot": `init 4, 1` after `init_early` gives `STATUS = 0x2F`, `IMASK = 0x4`. -/
theorem test_init_status :
    shows (fun t => (t.statusWord, t.imaskWord, t.cap))
      (exec .init (idle { State.reset with earlyDone := true } 0 4 1)) = some (0x2F#32, 0x4#32, 4) := by decide

/-- R244: `INIT` before `INIT_EARLY`, code 0x02. -/
theorem test_init_before_early :
    shows State.faultWord (exec .init (idle State.reset 0 4 1)) = some 0x00001102#32 := by decide

/-- R143's example. -/
theorem test_rb_init : shows (fun t => (t.cap, t.rd, t.wr, t.isEmpty)) (exec .rbInit (idle State.reset 0 4 0))
    = some (4, 0, 0, true) := by decide

/-- R145's example: `rb_push 'A'` into an empty buffer of capacity 4. -/
theorem test_rb_push :
    shows (fun t => (t.stored 0, t.wr, t.count))
      (exec (.rbPush 0x41) ((on boot 2 0 0 0x21 0x0F).setAgent 2 { byte := 0x41 })) = some (0x41#8, 1, 1) := by decide

/-- R145: a push at the last cursor value wraps it to 0. -/
theorem test_rb_push_wraps :
    shows (fun t => (t.wr, t.stored 3))
      (exec (.rbPush 0x41) ((on { boot with rd := 4, wr := 7 } 2 0 0 0x21 0x0F).setAgent 2 { byte := 0x5A }))
      = some (0, 0x5A#8) := by decide

/-- R147's example: `rb_pop` gives `RESULT = 0x541`, `S.RD = 1`. -/
theorem test_rb_pop :
    shows (fun t => ((t.port 0).result, t.rd, t.rxOut)) (exec (.rbPop false) (on (one boot) 0 0 0 0x22 1))
      = some (0x541#32, 1, [0x41#8]) := by decide

/-- R141's example: `S.CAP = 4`, `S.RD = 6`, `S.WR = 2` is full, and `slot(6) = 2`. -/
theorem test_cursor_wrap :
    ({ boot with rd := 6, wr := 2 } : State).count = 4 ∧ ({ boot with rd := 6, wr := 2 } : State).isFull = true
      ∧ boot.slot 6 = 2 := by decide

/-- V-S5: a non-blocking read on an empty buffer answers `RESULT = 0x600`. -/
theorem test_getbyte_empty :
    shows (fun t => ((t.port 0).result, t.statusWord, t.imaskWord)) (exec (.getbyte false) (on boot 0 0 0 0x12 1))
      = some (0x600#32, 0x2F#32, 0x4#32) := by decide

/-- V-S2 step 14: `G_UNMASK` re-enables the receive pair and returns `'A'`. -/
theorem test_getbyte_unmask :
    shows (fun t => ((t.port 0).result, t.imaskWord, t.lockHeld, t.ie 0))
      (exec (.getbyte false) ((on (locked { full boot with rd := 1, imask := ⟨true, true, true⟩ } 0) 0 0 0 0x12 3).setAgent 0
        { data := 0x41, savedIe := true })) = some (0x541#32, 0x4#32, false, true) := by decide

/-- V-S1 group 2: the injected CR takes no input byte. -/
theorem test_write_injects_cr :
    shows (fun t => ((t.agent 0).out, (t.agent 0).crp, (t.agent 0).idx))
      (exec (.write true true) ((on { boot with mem := [(0x2001, 0x0A)] } 0 0 0 0x13 1).setAgent 0
        { src := 0x2000, len := 3, idx := 1, blk := true, nl := true }))
      = some (0x0D#8, true, 1#32) := by decide

/-- V-S3 step 2: `W_CHECK` of a blocking writer on a full FIFO arms the transmit-ready source and waits. -/
theorem test_write_full_waits :
    shows (fun t => (t.fullCnt, t.waitCnt, t.imaskWord, t.pstateWord 0, t.lockHeld))
      (exec (.write true false) ((on (locked (txFullOf boot) 0) 0 0 0 0x13 3).setAgent 0
        { len := 9, idx := 5, blk := true, out := 0x34, savedIe := true }))
      = some (1#32, 1#32, 0#32, 0x00011304#32, false) := by decide

/-- V-S4: `poll_putc 'x'` in failure mode. -/
theorem test_poll_putc :
    shows (fun t => (t.txf, t.txLog, t.waitCnt))
      (exec (.pollPutc 0x78) ((on { boot with failureMode := true, txIrqEn := false } 0 0 0 0x14 1).setAgent 0
        { byte := 0x78 })) = some ([0x78#8], [0x78#8], 0#32) := by decide

/-- V-S4, variant: on a full FIFO it holds in `Q_SPIN`, `PSTATE = 0x00011401`. -/
theorem test_poll_putc_spins :
    shows (fun t => t.pstateWord 0)
      (exec (.pollPutc 0x78) (on (txFullOf { boot with failureMode := true }) 0 0 0 0x14 1)) = some 0x00011401#32 := by
  decide

/-- R235, R28: the last byte of the receive FIFO takes the receive timeout with it. -/
theorem test_poll_getc :
    shows (fun t => ((t.port 0).result, t.rxf, t.rxtoP))
      (exec .pollGetc (idle { boot with failureMode := true, rxf := [0x41], rxtoP := true } 0 0 0))
      = some (0x541#32, [], false) := by decide

/-- V-S4: after `init_early` and `enter_fail`, `STATUS = 0x31`. -/
theorem test_enter_fail :
    shows State.statusWord (exec .enterFail (idle { State.reset with earlyDone := true, txIrqEn := true } 0 0 0))
      = some 0x31#32 := by decide

/-- R180's example: `LOCK_HELD = 1`, `LOCK_OWNER = 0`, `S.IE[0] = 0`, `A[0].saved_ie = 1`. -/
theorem test_lock_acq :
    shows (fun t => (t.lockHeld, t.lockOwner, t.ie 0, (t.agent 0).savedIe))
      (exec .lockAcq (on State.reset 0 0 0 0x30 1)) = some (true, 0, false, true) := by decide

/-- R182's example: `LOCK_HELD = 0`, `S.IE[0] = 1`. -/
theorem test_lock_rel :
    shows (fun t => (t.lockHeld, t.ie 0))
      (exec .lockRel ((idle (locked State.reset 0) 0 0 0).setAgent 0 { savedIe := true })) = some (false, true) := by
  decide

/-- R184's example, its first signal. -/
theorem test_wake_signal : shows State.wakePend (exec .wakeSignal (idle State.reset 0 0 0)) = some true := by decide

/-- R186's example: the pending wake is consumed. -/
theorem test_wake_wait :
    shows (fun t => (t.wakePend, (t.port 0).result)) (exec .wakeWait (on { State.reset with wakePend := true } 0 0 0 0x33 1))
      = some (false, 0x400#32) := by decide

/-- R189's example: `yield` changes nothing but `RESULT.DONE` and `A[p].pc`. -/
theorem test_yield :
    shows id (exec .yield (idle State.reset 1 0 0))
      = some ((idle State.reset 1 0 0).setPort 1 { result := 0x400 } |>.setAgent 1 { pc := 1 }) := by decide

theorem test_rx_mask : shows State.imaskWord (exec .rxMask (idle boot 0 0 0)) = some 0x7#32 := by decide
theorem test_rx_unmask :
    shows State.imaskWord (exec .rxUnmask (idle { boot with imask := ⟨true, true, true⟩ } 0 0 0)) = some 0x4#32 := by
  decide
theorem test_tx_mask :
    shows State.imaskWord (exec .txMask (idle { boot with imask := ⟨false, false, false⟩ } 0 0 0)) = some 0x4#32 := by
  decide
theorem test_tx_unmask : shows State.imaskWord (exec .txUnmask (idle boot 0 0 0)) = some 0x0#32 := by decide

/-- V-S2 step 4: `I_LOCK` gives `STATUS = 0x12AF`. -/
theorem test_irq_dispatch_lock :
    shows (fun t => (t.statusWord, (t.agent 2).savedIe))
      (exec .irqDispatch (on { (boot.setIe 0 false) with rxf := [0x41] } 2 0 0 0x50 1)) = some (0x12AF#32, false) := by
  decide

/-- V-S2 step 11: the drain ended with the buffer full, so the pair is masked. -/
theorem test_irq_dispatch_masks :
    shows State.imaskWord (exec .irqDispatch (on (locked (full boot) 2) 2 0 0 0x50 4)) = some 0x7#32 := by decide

/-! ### The step of the machine -/

/-- The interrupt port's next line is the `IRQ_DISPATCH` word. -/
def dispatchLine : State :=
  { boot.setAgent 2 { prog := [{ arg0 := 0, arg1 := 0, cmd := 0x50 }] } with sched := [.port 2] }

/-- From reset, the word placed is the one the next step fetches and issues. -/
theorem test_step_runs_placed_word :
    shows (fun t => ((t.port 0).result, (t.agent 0).pc)) (step (State.reset.withFetchWord 32 0x34))
      = some (0x400#32, 1#32) := by decide

/-- An interrupt-port word waits in `I_PEND` (V-S2 step 2: `PSTATE = 0x0003500F`). -/
theorem test_step_latches_on_interrupt_port :
    shows (fun t => t.pstateWord 2) (step (State.reset.withFetchWord 32 0x50)) = some 0x0003500F#32 := by decide

/-- An `IRQ_DISPATCH` line is no step of the interrupt agent (R260, R269): nothing is issued. -/
theorem test_dispatch_line_holds :
    shows (fun t => (t.pstateWord 2, t.tick)) (step dispatchLine) = some (0x00020000#32, 1) := by decide

theorem test_step_refuses_bad_params :
    stops (step { State.reset with params := { Params.default with capMax := 0 } }) = (some .badParams, none) := by decide

/-- R74, R75: a read of `STATUS` after boot, at `BLOCK_BASE + 0`. -/
theorem test_read_status :
    shows State.busData (boot.access { port := 0, addr := 0, width := 32, kind := .read }) = some 0x2F#32 := by decide

/-- R75: a byte access faults with `OPC = 0xFF` and its offset. -/
theorem test_byte_access_faults :
    shows State.faultWord (boot.access { port := 1, addr := 4, width := 8, kind := .read }) = some 0x0041FF0D#32 := by
  decide

/-- R71: beyond the window the spec says nothing. -/
theorem test_access_outside_window :
    stops (boot.access { port := 0, addr := 0x200, width := 32, kind := .read }) = (none, some .outsideWindow) := by decide

/-! ### The assembler's notation (R116, R118) -/

theorem test_asm_write :
    assemble "T0: write.b.n 0x2000, 3"
      = some { port := some (.thread 0), line := { arg0 := 0x2000, arg1 := 3, cmd := 0x00030013 } } := by decide
theorem test_asm_push :
    assemble "I: rb_push 'A'" = some { port := some .interrupt, line := { arg0 := 0, arg1 := 0, cmd := 0x00004121 } } := by
  decide
theorem test_asm_pseudo :
    (assemble "getc").map (·.line.cmd) = some 0x00010012#32 ∧ (assemble "nop").map (·.line.cmd) = some 0x34#32
      ∧ assemble "getbyte.x" = none := by decide

/-! ### Witnesses: states and operands that meet the statements' hypotheses, clause by clause -/

/-- A configured device before `INIT`. -/
def early : State := { State.reset with earlyDone := true }

/-- "boot" in failure mode. -/
def panicked : State := { boot with failureMode := true, txIrqEn := false }

/-- "boot" with the handler entered on `IRQ_CPU`, standing at step `ph` with the lock held. -/
def handling (ph : Byte) : State := on (locked boot 2) 2 0 0 0x50 ph

theorem witness_DecodeInvertsEncode : decode 0x00030013#32 = some (.write true true) := by decide

theorem witness_DecodeFollowsTableRows :
    decode 0x00007814#32 = some (.pollPutc 0x78)
      ∧ ((0xFFFF00FF#32, 0x14#32) ∈ opcodeRows ∧ (0xFFFFFFFF#32, 0x15#32) ∈ opcodeRows
        ∧ ((0xFFFF00FF#32, 0x14#32) : Word × Word) ≠ (0xFFFFFFFF#32, 0x15#32)
        ∧ 0x00007814#32 &&& 0xFFFF00FF#32 = 0x14#32) := by decide

theorem witness_IllegalWordsFaultAtIssue :
    (0x17#32).extractLsb' 0 8 ∉ [0x10#8, 0x11#8, 0x12#8, 0x13#8, 0x14#8, 0x15#8, 0x16#8, 0x20#8, 0x21#8, 0x22#8,
      0x30#8, 0x31#8, 0x32#8, 0x33#8, 0x34#8, 0x40#8, 0x41#8, 0x42#8, 0x43#8, 0x50#8]
    ∧ (0x80000010#32).extractLsb' 18 14 ≠ 0#14
    ∧ ((0x110#32).extractLsb' 8 8 ≠ 0#8 ∧ (0x110#32).extractLsb' 0 8 ≠ 0x14#8 ∧ (0x110#32).extractLsb' 0 8 ≠ 0x21#8)
    ∧ ((0x10010#32).getLsbD 16 = true ∧ (0x10010#32).extractLsb' 0 8 ≠ 0x12#8 ∧ (0x10010#32).extractLsb' 0 8 ≠ 0x13#8
      ∧ (0x10010#32).extractLsb' 0 8 ≠ 0x22#8)
    ∧ ((0x20012#32).getLsbD 17 = true ∧ (0x20012#32).extractLsb' 0 8 ≠ 0x13#8)
    ∧ (State.reset.faulted = false ∧ State.reset.busy 0 = false ∧ decode 0#32 = none) := by decide

theorem witness_PortKindsAcceptTheirCommands :
    State.reset.cur = 0 ∧ State.reset.faulted = false ∧ (State.reset.port 0).phase = Phase.idle
      ∧ allowed (State.reset.kind 0) .irqDispatch = false := by decide

theorem witness_CommandWriteChecksInOrder :
    halted.faulted = true
      ∧ ((on boot 0 0 0 0x12 1).faulted = false ∧ (on boot 0 0 0 0x12 1).busy 0 = true)
      ∧ (boot.faulted = false ∧ boot.busy 0 = false ∧ decode 0x17#32 = none)
      ∧ (decode 0x50#32 = some .irqDispatch ∧ allowed (boot.kind 0) .irqDispatch = false)
      ∧ (boot.mayStep 2 = true ∧ (0x140#32 - boot.params.blockBase).toNat = 0x100 + 0x20 * (2 : PortId).val
        ∧ boot.kind 2 = .interrupt)
      ∧ (boot.mayStep 0 = true ∧ (0x100#32 - boot.params.blockBase).toNat = 0x100 + 0x20 * (0 : PortId).val) := by
  decide

theorem witness_InterruptCommandsWaitForEntry :
    allowed .interrupt (.rbPush 0xFF) = true ∧ (idle boot 2 0 0).atInterruptIssue 2
      ∧ ((on (locked boot 0) 2 0 0 0x21 0x0F).cur = 2 ∧ (on (locked boot 0) 2 0 0 0x21 0x0F).faulted = false
        ∧ ((on (locked boot 0) 2 0 0 0x21 0x0F).port 2).opc = (Instr.rbPush 0xFF).opcode
        ∧ ((on (locked boot 0) 2 0 0 0x21 0x0F).port 2).phase = 0x0F#8
        ∧ (on (locked boot 0) 2 0 0 0x21 0x0F).ie 0 = false) := by decide

/-- A state whose next event is port 0, with `init 4, 1` as its next line. -/
def lineAhead : State :=
  { early.setAgent 0 { prog := [{ arg0 := 4, arg1 := 1, cmd := 0x11 }] } with sched := [.port 0, .lineTx] }

/-- A state whose next event is port 1, with the all-zero word as its next line. -/
def illegalAhead : State :=
  { early.setAgent 1 { prog := [{ arg0 := 0, arg1 := 0, cmd := 0 }] } with sched := [.port 1] }

/-- A state whose next event is port 1, whose agent has no line. -/
def finished : State := { early with sched := [.port 1] }

theorem witness_StepRunsDecodedCommand :
    (lineAhead.params.wf = true ∧ lineAhead.sched = .port 0 :: [.lineTx])
      ∧ (lineAhead.faulted = false ∧ lineAhead.mayStep 0 = true ∧ lineAhead.busy 0 = false
        ∧ lineAhead.nextLine 0 = some { arg0 := 4, arg1 := 1, cmd := 0x11 } ∧ decode 0x11#32 = some .init)
      ∧ ((on lineAhead 0 0 0 0x13 3).params.wf = true ∧ (on lineAhead 0 0 0 0x13 3).sched = .port 0 :: [.lineTx]
        ∧ (on lineAhead 0 0 0 0x13 3).faulted = false ∧ (on lineAhead 0 0 0 0x13 3).mayStep 0 = true
        ∧ (on lineAhead 0 0 0 0x13 3).busy 0 = true
        ∧ commandOf ((on lineAhead 0 0 0 0x13 3).port 0).opc ((on lineAhead 0 0 0 0x13 3).agent 0)
          = some (.write false false))
      ∧ (dispatchLine.params.wf = true ∧ dispatchLine.sched = [.port 2] ∧ dispatchLine.faulted = false
        ∧ dispatchLine.mayStep 2 = true ∧ dispatchLine.busy 2 = false ∧ dispatchLine.kind 2 = .interrupt
        ∧ dispatchLine.nextLine 2 = some { arg0 := 0, arg1 := 0, cmd := 0x50 } ∧ decode 0x50#32 = some .irqDispatch)
      ∧ (State.reset.params.wf = true ∧ State.reset.sched = [])
      ∧ ({ Params.default with txThresh := 4 } : Params).wf = false
      ∧ ((1 : PortId).val ≠ boot.params.nthread ∧ (2 : PortId).val = boot.params.nthread)
      ∧ (finished.params.wf = true ∧ finished.sched = [.port 1] ∧ finished.faulted = false
        ∧ finished.mayStep 1 = true ∧ finished.busy 1 = false ∧ finished.nextLine 1 = none)
      ∧ (illegalAhead.params.wf = true ∧ illegalAhead.sched = [.port 1]
        ∧ illegalAhead.faulted = false ∧ illegalAhead.mayStep 1 = true ∧ illegalAhead.busy 1 = false
        ∧ illegalAhead.nextLine 1 = some { arg0 := 0, arg1 := 0, cmd := 0 } ∧ decode 0#32 = none) := by decide

theorem witness_InitEarlyRecordsDeviceOrFaults :
    ((idle State.reset 0 0xFFFFFFFC 1).atIssue 0 ∧ 0xFFFFFFFC#32 ≠ 0#32 ∧ (0xFFFFFFFC#32).toNat % 4 = 0
        ∧ 1#32 ∉ State.reset.params.irqInvalid)
      ∧ ((idle boot 1 4 1).atIssue 1 ∧ (idle boot 1 4 1).earlyDone = true)
      ∧ ((idle State.reset 0 0 1).atIssue 0 ∧ ((idle State.reset 0 0 1).port 0).arg0 = 0#32)
      ∧ ((idle State.reset 0 3 1).atIssue 0 ∧ ((idle State.reset 0 3 1).port 0).arg0.toNat % 4 ≠ 0)
      ∧ ((idle State.reset 0 4 0).atIssue 0
        ∧ ((idle State.reset 0 4 0).port 0).arg1 ∈ (idle State.reset 0 4 0).params.irqInvalid) := by decide

theorem witness_InitStartsReceptionOrFaults :
    ((idle early 0 256 1).atIssue 0 ∧ early.earlyDone = true ∧ early.rbInitDone = false ∧ 256#32 ≠ 0#32
        ∧ (256#32).toNat ≤ early.params.capMax ∧ (1#32).extractLsb' 1 31 = 0#31)
      ∧ ((idle State.reset 0 1 0).atIssue 0 ∧ (idle State.reset 0 1 0).earlyDone = false)
      ∧ ((idle boot 0 1 0).atIssue 0 ∧ (idle boot 0 1 0).earlyDone = true ∧ (idle boot 0 1 0).rbInitDone = true)
      ∧ ((idle early 0 0 0).atIssue 0 ∧ ((idle early 0 0 0).port 0).arg0 = 0#32)
      ∧ ((idle early 0 257 0).atIssue 0 ∧ early.params.capMax < ((idle early 0 257 0).port 0).arg0.toNat)
      ∧ ((idle early 0 1 2).atIssue 0 ∧ ((idle early 0 1 2).port 0).arg1.extractLsb' 1 31 ≠ 0#31) := by decide

theorem witness_RbInitSetsCapacityOrFaults :
    ((idle State.reset 0 256 0).atIssue 0 ∧ (idle State.reset 0 256 0).rbInitDone = false
        ∧ ((idle State.reset 0 256 0).port 0).arg0 ≠ 0#32
        ∧ ((idle State.reset 0 256 0).port 0).arg0.toNat ≤ State.reset.params.capMax)
      ∧ ((idle boot 0 1 0).atIssue 0 ∧ (idle boot 0 1 0).rbInitDone = true)
      ∧ ((idle State.reset 0 0 0).atIssue 0 ∧ ((idle State.reset 0 0 0).port 0).arg0 = 0#32)
      ∧ ((idle State.reset 0 257 0).atIssue 0
        ∧ State.reset.params.capMax < ((idle State.reset 0 257 0).port 0).arg0.toNat) := by decide

theorem witness_RbPushStoresByteOrFaults :
    ((on (one boot) 2 0 0 0x21 0x0F).atEntry 2 0x21 ∧ (on (one boot) 2 0 0 0x21 0x0F).rbInitDone = true
        ∧ (on (one boot) 2 0 0 0x21 0x0F).isFull = false)
      ∧ ((on early 2 0 0 0x21 0x0F).atEntry 2 0x21 ∧ (on early 2 0 0 0x21 0x0F).rbInitDone = false)
      ∧ ((on (full boot) 2 0 0 0x21 0x0F).atEntry 2 0x21 ∧ (on (full boot) 2 0 0 0x21 0x0F).rbInitDone = true
        ∧ (on (full boot) 2 0 0 0x21 0x0F).isFull = true) := by decide

theorem witness_RbPopIssuesOrFaults :
    ((idle boot 0 0 0).atIssue 0 ∧ (idle boot 0 0 0).rbInitDone = true ∧ (idle boot 0 0 0).holdsLock 0 = false
        ∧ (idle boot 0 0 0).consumerElsewhere 0 = false)
      ∧ ((idle early 0 0 0).atIssue 0 ∧ (idle early 0 0 0).rbInitDone = false)
      ∧ ((idle (locked boot 0) 0 0 0).atIssue 0 ∧ (idle (locked boot 0) 0 0 0).holdsLock 0 = true)
      ∧ ((idle (on boot 1 0 0 0x12 1) 0 0 0).atIssue 0 ∧ (idle (on boot 1 0 0 0x12 1) 0 0 0).holdsLock 0 = false
        ∧ (idle (on boot 1 0 0 0x12 1) 0 0 0).consumerElsewhere 0 = true) := by decide

theorem witness_PPopReturnsOldestByte :
    ((on (one boot) 0 0 0 0x22 1).atStep 0 0x22 1 ∧ (on (one boot) 0 0 0 0x22 1).isEmpty = false)
      ∧ ((on boot 0 0 0 0x22 1).atStep 0 0x22 1 ∧ (on boot 0 0 0 0x22 1).isEmpty = true
        ∧ ((on boot 0 0 0 0x22 1).agent 0).wt = false)
      ∧ (((on boot 0 0 0 0x22 1).setAgent 0 { wt := true }).atStep 0 0x22 1
        ∧ (((on boot 0 0 0 0x22 1).setAgent 0 { wt := true }).agent 0).wt = true) := by decide

theorem witness_EmptyPopWritesOnlyResult :
    ((on boot 0 0 0 0x22 1).isEmpty = true ∧ ((on boot 0 0 0 0x22 1).agent 0).wt = false
        ∧ (on boot 0 0 0 0x22 1).atStep 0 0x22 1)
      ∧ ((on boot 0 0 0 0x12 1).isEmpty = true ∧ ((on boot 0 0 0 0x12 1).agent 0).wt = false
        ∧ (on boot 0 0 0 0x12 1).atStep 0 0x12 1) := by decide

/-- The buffer of capacity 4 with three bytes and both cursors about to wrap satisfies the invariant. -/
def wrapping : State := { boot with rd := 4, wr := 7, store := [(0, 0x41), (1, 0x42), (2, 0x43)] }

theorem wrapping_inv : wrapping.Inv := by constructor <;> decide

theorem witness_PushAppendsAndPopTakesFirst :
    wrapping.Inv ∧ wrapping.rbInitDone = true ∧ wrapping.isFull = false ∧ wrapping.isEmpty = false
      ∧ wrapping.ring = [0x41, 0x42, 0x43] := ⟨wrapping_inv, by decide⟩

theorem witness_GetbyteIssuesOrFaults :
    ((idle boot 0 0 0).atIssue 0 ∧ (idle boot 0 0 0).initDone = true ∧ (idle boot 0 0 0).holdsLock 0 = false
        ∧ (idle boot 0 0 0).consumerElsewhere 0 = false)
      ∧ ((idle early 0 0 0).atIssue 0 ∧ (idle early 0 0 0).initDone = false)
      ∧ ((idle (locked boot 0) 0 0 0).atIssue 0 ∧ (idle (locked boot 0) 0 0 0).initDone = true
        ∧ (idle (locked boot 0) 0 0 0).holdsLock 0 = true)
      ∧ ((idle (on boot 1 0 0 0x22 1) 0 0 0).atIssue 0 ∧ (idle (on boot 1 0 0 0x22 1) 0 0 0).initDone = true
        ∧ (idle (on boot 1 0 0 0x22 1) 0 0 0).holdsLock 0 = false
        ∧ (idle (on boot 1 0 0 0x22 1) 0 0 0).consumerElsewhere 0 = true) := by decide

theorem witness_GPopTakesOldestByte :
    ((on (full boot) 0 0 0 0x12 1).atStep 0 0x12 1 ∧ (on (full boot) 0 0 0 0x12 1).isEmpty = false)
      ∧ ((on boot 0 0 0 0x12 1).atStep 0 0x12 1 ∧ (on boot 0 0 0 0x12 1).isEmpty = true
        ∧ ((on boot 0 0 0 0x12 1).agent 0).wt = false)
      ∧ (((on boot 0 0 0 0x12 1).setAgent 0 { wt := true }).atStep 0 0x12 1
        ∧ (((on boot 0 0 0 0x12 1).setAgent 0 { wt := true }).agent 0).wt = true) := by decide

theorem witness_GUnmaskDecidesUnderLock :
    ((on (locked boot 1) 0 0 0 0x12 2).atStep 0 0x12 2 ∧ (on (locked boot 1) 0 0 0 0x12 2).lockHeld = true)
      ∧ ((on boot 0 0 0 0x12 2).atStep 0 0x12 2 ∧ (on boot 0 0 0 0x12 2).lockHeld = false)
      ∧ ((on (locked boot 0) 0 0 0 0x12 3).atStep 0 0x12 3
        ∧ (on (locked (full boot) 0) 0 0 0 0x12 3).isFull = true) := by decide

theorem witness_GetbyteReturnsOldestByteInFourSteps :
    wrapping.Inv ∧ wrapping.atIssue 0 ∧ wrapping.initDone = true ∧ wrapping.lockHeld = false
      ∧ wrapping.consumerElsewhere 0 = false ∧ wrapping.ring = 0x41 :: [0x42, 0x43] := ⟨wrapping_inv, by decide⟩

theorem witness_RxMaskCommandsWriteThePair :
    ((idle boot 0 0 0).atIssue 0 ∧ (idle boot 0 0 0).earlyDone = true)
      ∧ ((on boot 2 0 0 0x40 0x0F).atEntry 2 0x40 ∧ (on boot 2 0 0 0x41 0x0F).atEntry 2 0x41)
      ∧ ((idle State.reset 0 0 0).atIssue 0 ∧ (idle State.reset 0 0 0).earlyDone = false)
      ∧ (on State.reset 2 0 0 0x40 0x0F).atEntry 2 0x40 := by decide

theorem witness_LockAcqTakesFreeLock :
    ((idle State.reset 0 0 0).atIssue 0 ∧ (idle State.reset 0 0 0).holdsLock 0 = false)
      ∧ ((on (locked boot 1) 0 0 0 0x30 1).atStep 0 0x30 1 ∧ (on (locked boot 1) 0 0 0 0x30 1).lockHeld = true)
      ∧ ((on boot 0 0 0 0x30 1).atStep 0 0x30 1 ∧ (on boot 0 0 0 0x30 1).lockHeld = false) := by decide

theorem witness_LockRelRestoresInterruptEnable :
    ((idle (locked boot 0) 0 0 0).atIssue 0 ∧ (idle (locked boot 0) 0 0 0).holdsLock 0 = true)
      ∧ ((idle (locked boot 1) 0 0 0).atIssue 0 ∧ (idle (locked boot 1) 0 0 0).holdsLock 0 = false) := by decide

theorem witness_LockMisuseFaultsAtIssue :
    ((idle boot 0 0 0).atIssue 0 ∧ (idle boot 0 0 0).holdsLock 0 = false)
      ∧ ((idle (locked boot 0) 0 0 0).atIssue 0 ∧ (idle (locked boot 0) 0 0 0).holdsLock 0 = true
        ∧ boot.initDone = true ∧ boot.earlyDone = true ∧ boot.rbInitDone = true) := by decide

theorem witness_WakeSignalLeavesOneWakePending :
    (idle State.reset 0 0 0).atIssue 0 ∧ (on State.reset 2 0 0 0x32 0x0F).atEntry 2 0x32 := by decide

theorem witness_WakeWaitConsumesPendingWake :
    ((idle State.reset 0 0 0).atIssue 0 ∧ (idle State.reset 0 0 0).holdsLock 0 = false)
      ∧ ((on boot.signal 0 0 0 0x33 1).atStep 0 0x33 1 ∧ (on boot.signal 0 0 0 0x33 1).wakePend = true)
      ∧ ((on boot 0 0 0 0x33 1).atStep 0 0x33 1 ∧ (on boot 0 0 0 0x33 1).wakePend = false) := by decide

theorem witness_SpuriousWakeWritesOnlyThePort :
    ((on boot 0 0 0 0x33 1).faulted = false ∧ (on boot 0 0 0 0x33 1).mayStep 0 = true
        ∧ (on boot 0 0 0 0x33 1).kind 0 = .thread ∧ ((on boot 0 0 0 0x33 1).port 0).opc = 0x33#8
        ∧ ((on boot 0 0 0 0x33 1).port 0).phase = 0x01#8)
      ∧ ((on boot 1 0 0 0x13 4).mayStep 1 = true ∧ ((on boot 1 0 0 0x13 4).port 1).opc = 0x13#8
        ∧ ((on boot 1 0 0 0x13 4).port 1).phase = 0x04#8) := by decide

theorem witness_SignalsCoalesceToOneWake : 1 ≤ 1 ∧ (0 : PortId) ≠ 1 := by decide

theorem witness_YieldOnlyCompletes : (idle State.reset 1 0 0).atIssue 1 := by decide

/-- Thread 0 holds the lock and has `lock_rel` as its next line. -/
def releasing : State :=
  { (locked boot 0).setAgent 0 { savedIe := true, prog := [{ arg0 := 0, arg1 := 0, cmd := 0x31 }] } with
    sched := [.port 0] }

theorem releasing_inv : releasing.Inv := by constructor <;> decide

theorem witness_LockLeavesOnlyByItsOwner :
    releasing.Inv ∧ releasing.lockHeld = true ∧ ∃ t, step releasing = .next t ∧ t.lockHeld = false :=
  ⟨releasing_inv, by decide, _, rfl, by decide⟩

theorem witness_WriteIssuesOrFaults :
    ((idle early 0 0x2000 1).atIssue 0 ∧ (idle early 0 0x2000 1).earlyDone = true
        ∧ (idle early 0 0x2000 1).holdsLock 0 = false ∧ ((idle early 0 0x2000 1).port 0).arg1 ≠ 0#32)
      ∧ ((idle early 0 0x2000 0).atIssue 0 ∧ ((idle early 0 0x2000 0).port 0).arg1 = 0#32)
      ∧ ((idle State.reset 0 0 1).atIssue 0 ∧ (idle State.reset 0 0 1).earlyDone = false)
      ∧ ((idle (locked early 0) 0 0 1).atIssue 0 ∧ (idle (locked early 0) 0 0 1).earlyDone = true
        ∧ (idle (locked early 0) 0 0 1).holdsLock 0 = true) := by decide

/-- A mapped `WRITE` at `W_SELECT`, its source a newline; `crp` says whether the CR has been injected. -/
def atNewline (crp : Bool) : State :=
  (on { boot with mem := [(0x2001, 0x0A)] } 0 0 0 0x13 1).setAgent 0
    { src := 0x2000, len := 3, idx := 1, nl := true, crp := crp }

theorem witness_WSelectChoosesNextByte :
    ((on { boot with params := { Params.default with hostDeny := [0] } } 0 0 0 0x13 1).atStep 0 0x13 1
        ∧ 0#32 + 0#32 ∈ [0#32])
      ∧ ((atNewline false).atStep 0 0x13 1 ∧ ((atNewline false).agent 0).nl = true
        ∧ (atNewline false).hostByte 0x2001 = 0x0A#8 ∧ ((atNewline false).agent 0).crp = false
        ∧ 0x2001#32 ∉ (atNewline false).params.hostDeny)
      ∧ ((atNewline true).atStep 0 0x13 1 ∧ ((atNewline true).agent 0).crp = true) := by decide

theorem witness_WLockWaitAndYieldSteps :
    ((on (locked boot 1) 0 0 0 0x13 2).atStep 0 0x13 2 ∧ (on (locked boot 1) 0 0 0 0x13 2).lockHeld = true)
      ∧ ((on boot 0 0 0 0x13 2).atStep 0 0x13 2 ∧ (on boot 0 0 0 0x13 2).lockHeld = false)
      ∧ ((on boot.signal 0 0 0 0x13 4).atStep 0 0x13 4 ∧ (on boot.signal 0 0 0 0x13 4).wakePend = true)
      ∧ ((on boot 0 0 0 0x13 4).atStep 0 0x13 4 ∧ (on boot 0 0 0 0x13 4).wakePend = false)
      ∧ (on boot 0 0 0 0x13 5).atStep 0 0x13 5 := by decide

/-- A `WRITE` at `W_CHECK` with the lock held. -/
def checking (s : State) (blk crp : Bool) (idx : Word) : State :=
  (on (locked s 0) 0 0 0 0x13 3).setAgent 0 { len := 1, idx := idx, blk := blk, crp := crp, savedIe := true }

theorem witness_WCheckPutsByteOrWaits :
    ((checking (txFullOf boot) true false 1).atStep 0 0x13 3
        ∧ (checking (txFullOf boot) true false 1).txf.length = boot.params.txfDepth
        ∧ (checking (txFullOf boot) true false 1).txIrqEn = true)
      ∧ ((checking (txFullOf boot) false false 1).atStep 0 0x13 3
        ∧ ((checking (txFullOf boot) false false 1).agent 0).blk = false)
      ∧ ((checking boot true false 1).atStep 0 0x13 3 ∧ (checking boot true false 1).txf.length ≠ boot.params.txfDepth
        ∧ ((checking boot true false 1).agent 0).idx = ((checking boot true false 1).agent 0).len)
      ∧ ((checking boot true true 0).atStep 0 0x13 3 ∧ ((checking boot true true 0).agent 0).crp = true) := by decide

/-- Host memory holding `"a\nb"` at 0x2000, and `write.n 0x2000, 3` about to be issued. -/
def sending : State := idle { early with mem := [(0x2000, 0x61), (0x2001, 0x0A), (0x2002, 0x62)] } 0 0x2000 3

theorem witness_WriteSendsMappedInput :
    sending.atIssue 0 ∧ sending.earlyDone = true ∧ sending.lockHeld = false
      ∧ (∀ k, k < (sending.port 0).arg1.toNat → (sending.port 0).arg0 + BitVec.ofNat 32 k ∉ sending.params.hostDeny)
      ∧ mapNewline true (sending.hostBytes (sending.port 0).arg0 (sending.port 0).arg1.toNat) = [0x61, 0x0D, 0x0A, 0x62]
      ∧ sending.txf.length + 4 ≤ sending.params.txfDepth :=
  ⟨by decide, by decide, by decide, fun _ _ => List.not_mem_nil, by decide, by decide⟩

theorem witness_TxMaskCommandsWriteTheBit :
    ((idle boot 0 0 0).atIssue 0 ∧ (idle boot 0 0 0).earlyDone = true)
      ∧ ((on boot 2 0 0 0x42 0x0F).atEntry 2 0x42 ∧ (on boot 2 0 0 0x43 0x0F).atEntry 2 0x43)
      ∧ ((idle State.reset 0 0 0).atIssue 0 ∧ (idle State.reset 0 0 0).earlyDone = false)
      ∧ (on State.reset 2 0 0 0x43 0x0F).atEntry 2 0x43 := by decide

/-- Thread 0 has `tx_unmask` as its next line. -/
def unmasking : State :=
  { boot.setAgent 0 { prog := [{ arg0 := 0, arg1 := 0, cmd := 0x43 }] } with sched := [.port 0] }

theorem unmasking_inv : unmasking.Inv := by constructor <;> decide

/-- The handler at `I_TX` with the transmit-ready source active. -/
def signalling : State := { handling 5 with imask := ⟨false, false, false⟩, sched := [.port 2] }

theorem signalling_inv : signalling.Inv := by constructor <;> decide

/-- Thread 1 writes the word of `tx_unmask` to its own `CMD` register. -/
def rawUnmasking : State := { boot with sched := [.access ⟨1, 0x120, 32, .write 0x43⟩] }

theorem rawUnmasking_inv : rawUnmasking.Inv := by constructor <;> decide

theorem witness_TransmitMaskHasTheseWritersOnly :
    (unmasking.Inv ∧ ∃ t, step unmasking = .next t ∧ t.imask.txrdyM ≠ unmasking.imask.txrdyM)
      ∧ (signalling.Inv ∧ ∃ t, step signalling = .next t ∧ t.imask.txrdyM ≠ signalling.imask.txrdyM)
      ∧ (rawUnmasking.Inv ∧ ∃ t, step rawUnmasking = .next t ∧ t.imask.txrdyM ≠ rawUnmasking.imask.txrdyM) :=
  ⟨⟨unmasking_inv, _, rfl, by decide⟩, ⟨signalling_inv, _, rfl, by decide⟩, rawUnmasking_inv, _, rfl, by decide⟩

theorem witness_EnterFailClearsModeFlag :
    (idle boot 0 0 0).atIssue 0 ∧ (on boot 2 0 0 0x16 0x0F).atEntry 2 0x16 := by decide

theorem witness_PollPutcPutsByteWhenRoom :
    ((idle panicked 0 0 0).atIssue 0 ∧ (idle panicked 0 0 0).earlyDone = true
        ∧ (idle panicked 0 0 0).failureMode = true)
      ∧ ((idle State.reset 0 0 0).atIssue 0 ∧ (idle State.reset 0 0 0).earlyDone = false)
      ∧ ((idle boot 0 0 0).atIssue 0 ∧ (idle boot 0 0 0).earlyDone = true ∧ (idle boot 0 0 0).failureMode = false)
      ∧ ((on { panicked with txf := [1, 2, 3] } 0 0 0 0x14 1).atStep 0 0x14 1 ∧ 3 < panicked.params.txfDepth)
      ∧ ((on (txFullOf panicked) 0 0 0 0x14 1).atStep 0 0x14 1
        ∧ (txFullOf panicked).params.txfDepth ≤ (txFullOf panicked).txf.length) := by decide

theorem witness_PollGetcReadsReceiveFifo :
    ((idle { panicked with rxf := [0x41] } 0 0 0).atIssue 0 ∧ panicked.earlyDone = true
        ∧ panicked.failureMode = true ∧ (idle { panicked with rxf := [0x41] } 0 0 0).rxf = 0x41 :: [])
      ∧ ((idle panicked 0 0 0).atIssue 0 ∧ (idle panicked 0 0 0).rxf = [])
      ∧ ((idle State.reset 0 0 0).atIssue 0 ∧ (idle State.reset 0 0 0).earlyDone = false)
      ∧ ((idle boot 0 0 0).atIssue 0 ∧ (idle boot 0 0 0).earlyDone = true
        ∧ (idle boot 0 0 0).failureMode = false) := by decide

/-- Failure mode, with `wake_wait` as thread 0's next line. -/
def waiting : State :=
  { panicked.setAgent 0 { prog := [{ arg0 := 0, arg1 := 0, cmd := 0x33 }] } with sched := [.port 0] }

theorem waiting_inv : waiting.Inv := by constructor <;> decide

/-- Failure mode, with a write of the word of `wake_wait` to thread 1's own `CMD` register next. -/
def rawWaiting : State := { panicked with sched := [.access ⟨1, 0x120, 32, .write 0x33⟩] }

theorem rawWaiting_inv : rawWaiting.Inv := by constructor <;> decide

theorem witness_FailureModeCountsOnlyWakeWaits :
    (waiting.Inv ∧ waiting.failureMode = true ∧ ∃ t, step waiting = .next t ∧ t.waitCnt ≠ waiting.waitCnt)
      ∧ rawWaiting.Inv ∧ rawWaiting.failureMode = true
      ∧ ∃ t, step rawWaiting = .next t ∧ t.waitCnt ≠ rawWaiting.waitCnt :=
  ⟨⟨waiting_inv, by decide, _, rfl, by decide⟩, rawWaiting_inv, by decide, _, rfl, by decide⟩

theorem witness_DispatchEntrySavesInterruptEnable :
    ((on boot 2 0 0 0x50 0x0F).atEntry 2 0x50 ∧ (on boot 2 0 0 0x50 0x0F).initDone = true)
      ∧ ((on early 2 0 0 0x50 0x0F).atEntry 2 0x50 ∧ (on early 2 0 0 0x50 0x0F).initDone = false) := by decide

theorem witness_DispatchLockSelectAndMaskSteps :
    ((on (locked boot 1) 2 0 0 0x50 1).atStep 2 0x50 1 ∧ (on (locked boot 1) 2 0 0 0x50 1).lockHeld = true)
      ∧ ((on boot 2 0 0 0x50 1).atStep 2 0x50 1 ∧ (on boot 2 0 0 0x50 1).lockHeld = false)
      ∧ ((on { boot with rxf := [1] } 2 0 0 0x50 2).atStep 2 0x50 2 ∧ ({ boot with rxf := [1] } : State).rxA = true)
      ∧ ((handling 2).atStep 2 0x50 2 ∧ (handling 2).rxA = false)
      ∧ (handling 4).atStep 2 0x50 4
      ∧ (signalling.atStep 2 0x50 5 ∧ signalling.txrdyA = true)
      ∧ ((handling 5).atStep 2 0x50 5 ∧ (handling 5).txrdyA = false) := by decide

theorem witness_DrainMovesOneByteAStep :
    ((on { wrapping with rxf := [1] } 2 0 0 0x50 3).atStep 2 0x50 3
        ∧ ({ wrapping with rxf := [1] } : State).rxf = 1 :: [] ∧ wrapping.isFull = false)
      ∧ ((on (full { boot with rxf := [1] }) 2 0 0 0x50 3).atStep 2 0x50 3
        ∧ (full { boot with rxf := [1] }).isFull = true)
      ∧ ((handling 3).atStep 2 0x50 3 ∧ (handling 3).rxf = []) := by decide

theorem witness_DispatchExitRestoresInterruptEnable :
    (handling 6).kind 2 = .interrupt ∧ (handling 6).atStep 2 0x50 6 := by decide

/-- `IRQ_DISPATCH` about to enter, with two bytes in the receive FIFO and room for one. -/
def draining : State := on { wrapping with rxf := [0x58, 0x59], rxIn := [] } 2 0 0 0x50 0x0F

theorem draining_inv : draining.Inv := by constructor <;> decide

theorem witness_DispatchDrainsWhatFits :
    draining.Inv ∧ draining.atEntry 2 0x50 ∧ draining.initDone = true ∧ draining.lockHeld = false
      ∧ draining.rxA = true := ⟨draining_inv, by decide⟩

theorem witness_DeliverIssuesDispatch :
    (({ boot with rxf := [1] } : State).faulted = false ∧ ({ boot with rxf := [1] } : State).irqOut = true
        ∧ ({ boot with rxf := [1] } : State).busy 2 = false ∧ ({ boot with rxf := [1] } : State).ie 0 = true
        ∧ boot.intPort = 2)
      ∧ (halted.faulted = true ∧ boot.irqOut = false ∧ draining.busy 2 = true ∧ (handling 1).ie 0 = false)
      ∧ ∃ t, step { boot with rxf := [1], sched := [.deliver] } = .next t ∧ (t.port 2).opc = 0x50#8
        ∧ (boot.port 2).opc ≠ 0x50#8 := ⟨by decide, by decide, _, rfl, by decide, by decide⟩

theorem witness_LineAgentSteps :
    boot.faulted = false ∧ boot.rxf.length < boot.params.rxfDepth
      ∧ ({ boot with params := { boot.params with rxfDepth := 1 }, rxf := [1] } : State).params.rxfDepth
        ≤ ({ boot with params := { boot.params with rxfDepth := 1 }, rxf := [1] } : State).rxf.length
      ∧ (({ boot with rxf := [1] } : State).rxf ≠ [] ∧ ({ boot with rxf := [1] } : State).rxtoP = false)
      ∧ boot.rxf = [] ∧ ({ boot with txf := [1] } : State).txf = 1 :: [] ∧ boot.txf = [] := by decide

theorem witness_WindowWordsHoldTheirFields :
    boot.rxf.length < 65536 ∧ boot.txf.length < 65536 ∧ boot.params.nthread ≤ 7
      ∧ (2 : PortId).val ≤ boot.params.nthread ∧ State.reset.cap = 0
      ∧ (wrapping.rd < 2 * wrapping.cap ∧ wrapping.wr < 2 * wrapping.cap) := by decide

theorem witness_BadAccessRaisesBusError :
    (boot.faulted = false ∧ boot.mayStep 1 = true ∧ boot.params.blockBase = 0#32)
      ∧ 0x200 ≤ (0x200#32 - boot.params.blockBase).toNat
      ∧ (0x4 < 0x200 ∧ 8 ≠ 32) ∧ (0x1FD < 0x200 ∧ 0x1FD % 4 ≠ 0)
      ∧ (boot.windowRead 0x02C ≠ none ∧ boot.windowRead 0x030 = none ∧ boot.windowRead 0x0FC = none)
      ∧ (boot.windowRead 0x100 = none ∧ boot.windowRead 0x110 ≠ none ∧ boot.windowRead 0x114 = none
        ∧ boot.windowRead 0x11C = none)
      ∧ (boot.windowRead 0x150 ≠ none ∧ boot.windowRead 0x160 = none ∧ boot.windowRead 0x164 = none
        ∧ boot.windowRead 0x1FC = none)
      ∧ (0x100 ≠ 0x100 + 0x20 * (1 : PortId).val ∧ 0x100 ≠ 0x104 + 0x20 * (1 : PortId).val
        ∧ 0x100 ≠ 0x108 + 0x20 * (1 : PortId).val) := by decide

theorem witness_ReadsAndOperandWritesHaveNoOtherEffect :
    (boot.mayStep 1 = true ∧ boot.faulted = false)
      ∧ (boot.windowRead 0x000 = some 0x2F#32 ∧ halted.windowRead 0x018 = some 0x0000340C#32)
      ∧ ((0x124#32 - boot.params.blockBase).toNat = 0x104 + 0x20 * (1 : PortId).val
        ∧ (0x128#32 - boot.params.blockBase).toNat = 0x108 + 0x20 * (1 : PortId).val) := by decide

theorem witness_HaltedBlockKeepsItsState :
    ({ halted with sched := [.port 0] } : State).faulted = true
      ∧ ({ halted with sched := [.port 0] } : State).nextEvent ≠ .reset
      ∧ ∃ t, step { halted with sched := [.port 0] } = .next t := ⟨by decide, by decide, _, rfl⟩

/-- An `rb_push` that enters before the RingBuffer is initialized, and a read of a reserved offset. -/
def failingEntry : State := { on State.reset 2 0 0 0x21 0x0F with sched := [.port 2] }
def failingAccess : State := { State.reset with sched := [.access ⟨1, 0x030, 32, .read⟩] }

theorem witness_FaultsArePrecise :
    ((State.reset.withFetchWord 32 0).faulted = false
        ∧ ∃ t, step (State.reset.withFetchWord 32 0) = .next t ∧ t.faulted = true)
      ∧ (failingEntry.faulted = false ∧ ∃ t, step failingEntry = .next t ∧ t.faulted = true)
      ∧ failingAccess.faulted = false ∧ ∃ t, step failingAccess = .next t ∧ t.faulted = true :=
  ⟨⟨by decide, _, rfl, by decide⟩, ⟨by decide, _, rfl, by decide⟩, by decide, _, rfl, by decide⟩

theorem witness_LifecycleIsNeverUndone :
    (waiting.nextEvent ≠ .reset ∧ ∃ t, step waiting = .next t) ∧ waiting.earlyDone = true ∧ waiting.initDone = true
      ∧ waiting.rbInitDone = true ∧ waiting.failureMode = true := ⟨⟨by decide, _, rfl⟩, by decide⟩

theorem boot_inv : boot.Inv := by constructor <;> decide

/-- Both threads on core 1, the lock held by thread 1. -/
def sharing : State := locked { boot with params := { boot.params with cpu := [1, 1] } } 1

theorem sharing_inv : sharing.Inv := by constructor <;> decide

theorem witness_DisabledEventsChangeNothing :
    (boot.params.nthread ≤ 7 ∧ (2 : PortId).val = boot.params.nthread)
      ∧ (boot.Inv ∧ boot.enabled .lineTx = false) ∧ (draining.Inv ∧ draining.enabled .deliver = false)
      ∧ (signalling.Inv ∧ signalling.enabled (.port 0) = false)
      ∧ (signalling.Inv ∧ (0 : PortId).val < signalling.params.nthread
        ∧ (signalling.port 2).phase ≠ 0x00 ∧ (signalling.port 2).phase ≠ 0x0F
        ∧ signalling.params.cpu.getD (0 : PortId).val 0 = signalling.params.irqCpu)
      ∧ sharing.Inv ∧ (0 : PortId).val < sharing.params.nthread ∧ sharing.lockHeld = true ∧ sharing.lockOwner = 1
        ∧ sharing.params.cpu.getD (1 : PortId).val 0 = sharing.params.cpu.getD (0 : PortId).val 0 :=
  ⟨by decide, ⟨boot_inv, by decide⟩, ⟨draining_inv, by decide⟩, ⟨signalling_inv, by decide⟩, ⟨signalling_inv, by decide⟩,
    sharing_inv, by decide⟩

theorem witness_ResetEventRestoresResetValues :
    ({ halted with sched := [.reset] } : State).params.wf = true
      ∧ ({ halted with sched := [.reset] } : State).nextEvent = .reset
      ∧ ∃ t, step { halted with sched := [.reset] } = .next t := ⟨by decide, by decide, _, rfl⟩

theorem witness_EveryStepKeepsInvariant : releasing.Inv ∧ ∃ t, step releasing = .next t := ⟨releasing_inv, _, rfl⟩

/-- The handler at `I_DRAIN`, every byte accepted so far in the buffer or the FIFO. -/
def moving : State :=
  { on (locked wrapping 2) 2 0 0 0x50 3 with rxf := [0x58], rxIn := [0x41, 0x42, 0x43, 0x58], sched := [.port 2] }

theorem moving_inv : moving.Inv := by constructor <;> decide

theorem witness_ReceiveKeepsArrivalOrder :
    moving.Inv ∧ moving.failureMode = false ∧ (moving.port moving.intPort).opc ≠ 0x21#8 ∧ moving.nextEvent ≠ .reset
      ∧ moving.rxIn = moving.rxOut ++ moving.ring ++ moving.rxf ∧ ∃ t, step moving = .next t ∧ t.rxf = [] :=
  ⟨moving_inv, by decide, by decide, by decide, by decide, _, rfl, by decide⟩

end Sys2Proof.Tests
end

section
/-! SUPPORT. What the invariant `State.Inv` says of one port, and what keeps it: the writes of a port's registers, the
lock, the wake signal and the shape every command has (30_encoding.md R101). -/

namespace Sys2Proof.Machine

variable {s : State} {p : PortId}

/-! ### Outcomes that keep the invariant -/

/-- The next state of an outcome, if it has one, satisfies the invariant. -/
def KeepsInv (o : Host.Outcome State Fault Refusal) : Prop := ∀ t, o = .next t → t.Inv

theorem keepsInv_next (h : s.Inv) : KeepsInv (.next s) := by
  rintro t ⟨⟩; exact h

theorem keepsInv_refused (r : Refusal) : KeepsInv (.refused r) := by
  rintro t ⟨⟩

/-! ### Facts about a port that the invariant gives -/

theorem resultOk_zero : resultOk 0#32 = true := by decide

/-- Whether a shape is legal depends on the opcode and the phase alone. -/
theorem Port.shapeOk_congr {x y : Port} (k : PortKind) (ho : x.opc = y.opc) (hp : x.phase = y.phase) :
    x.shapeOk k = y.shapeOk k := by
  unfold Port.shapeOk; rw [ho, hp]

/-- Whether a step runs under the lock depends on the opcode and the phase alone. -/
theorem Port.inLockedStep_congr {x y : Port} (k : PortKind) (ho : x.opc = y.opc) (hp : x.phase = y.phase) :
    x.inLockedStep k = y.inLockedStep k := by
  unfold Port.inLockedStep; rw [ho, hp]

/-- A command that the interrupt port accepts may wait there in `I_PEND`, and is no consumer command. -/
theorem Instr.pending_shape {i : Instr} (ha : allowed .interrupt i = true) :
    Port.shapeOk .interrupt { opc := i.opcode, phase := Phase.iPend } = true
      ∧ i.opcode ≠ 0x12#8 ∧ i.opcode ≠ 0x22#8 := by
  cases i <;> simp [allowed, Instr.opcode, Port.shapeOk, Phase.iPend, Phase.idle] at ha ⊢

/-- The interrupt port never holds a command that it does not accept. -/
theorem Instr.not_pending_shape {i : Instr} (ha : allowed .interrupt i = false) :
    Port.shapeOk .interrupt { opc := i.opcode, phase := Phase.iPend } = false := by
  cases i <;> simp [allowed, Instr.opcode, Port.shapeOk, Phase.iPend, Phase.idle] at ha ⊢

/-- The issue step's write of `RESULT` ends and begins no consumer command. -/
@[simp] theorem State.setResult_consumerActive (s : State) (p q : PortId) (r : Word) :
    (s.setResult p r).consumerActive q = s.consumerActive q := by
  by_cases hq : q = p <;> simp [State.consumerActive, State.setResult_port, hq]

/-- No idle port is in a step that runs under the lock. -/
theorem Port.inLockedStep_idle (k : PortKind) (x : Port) (hp : x.phase = Phase.idle) : x.inLockedStep k = false := by
  cases k <;> simp [Port.inLockedStep, hp, Phase.idle]

/-- A port of the interrupt kind is the interrupt port. -/
theorem State.eq_intPort (hk : s.kind p = .interrupt) : p = s.intPort := by
  by_contra h; simp [State.kind, h] at hk

theorem State.kind_intPort : s.kind s.intPort = .interrupt := by simp [State.kind]

theorem State.kind_ne_intPort (hk : s.kind p = .thread) : p ≠ s.intPort := by
  rintro rfl; simp [State.kind_intPort] at hk

/-- The agent of port `p` may act: the port exists and, while the handler runs, it is not a thread on `IRQ_CPU`
(60_exceptions.md R302). -/
def State.mayAct (s : State) (p : PortId) : Prop :=
  s.hasPort p = true ∧ (s.kind p = .thread → s.core p = s.params.irqCpu → s.irqEntered = false)

/-- The issue step's write of `RESULT` bars no agent. -/
theorem State.mayAct.setResult {q : PortId} {r : Word} (h : s.mayAct p) : (s.setResult q r).mayAct p := by
  refine ⟨h.1, fun hk hc => (?_ : _ = s.irqEntered).trans (h.2 hk hc)⟩
  by_cases hq : s.intPort = q <;> simp [State.irqEntered, State.busy, State.setResult_port, hq]

/-- Where R302 lets the agent of a port step, it may act. -/
theorem State.mayAct_of_mayStep (h : s.mayStep p = true) : s.mayAct p := by
  simp only [State.mayStep, Bool.and_eq_true] at h
  obtain ⟨hp, hx⟩ := h
  refine ⟨hp, fun hk hc => ?_⟩
  simp only [hk, hc, decide_true, Bool.and_true, Bool.and_eq_true, Bool.not_eq_true'] at hx
  exact hx.1

namespace State.Inv

/-- R7 bounds the number of threads. -/
theorem nthread_le (h : s.Inv) : s.params.nthread ≤ 7 := by
  have := h.params_wf
  simp only [Params.wf, Bool.and_eq_true, decide_eq_true_eq] at this
  omega

/-- The interrupt port exists, and no rule bars it. -/
theorem mayAct_intPort (h : s.Inv) : s.mayAct s.intPort :=
  ⟨by simp [State.hasPort, s.intPort_val h.nthread_le], fun hk => by simp [State.kind_intPort] at hk⟩

/-- A busy port exists. -/
theorem hasPort_of_busy (h : s.Inv) (hb : (s.port p).phase ≠ Phase.idle) : s.hasPort p = true := by
  by_contra hn; exact hb (h.port_absent p (by simpa using hn))

/-- An idle port has opcode 0 (10_state.md R34). -/
theorem opc_of_idle (h : s.Inv) (hi : (s.port p).phase = Phase.idle) : (s.port p).opc = 0#8 := by
  simpa [Port.shapeOk, hi] using h.port_shape p

/-- The shape of a port, from its opcode and phase. -/
theorem shape_at (h : s.Inv) {o ph : Byte} (ho : (s.port p).opc = o) (hp : (s.port p).phase = ph) :
    Port.shapeOk (s.kind p) { opc := o, phase := ph } = true :=
  (Port.shapeOk_congr _ ho hp).symm.trans (h.port_shape p)

/-- A shape that the interrupt port does not admit is one of a thread port. -/
theorem thread_at (h : s.Inv) {o ph : Byte} (ho : (s.port p).opc = o) (hp : (s.port p).phase = ph)
    (hx : Port.shapeOk .interrupt { opc := o, phase := ph } = false) : s.kind p = .thread := by
  have := h.shape_at ho hp
  cases hk : s.kind p
  · rfl
  · rw [hk, hx] at this; simp at this

/-- A step that the interrupt port does not have is one of a thread port. -/
theorem thread_of_step (h : s.Inv) {o ph : Byte} (hs : s.atStep p o ph)
    (hx : Port.shapeOk .interrupt { opc := o, phase := ph } = false := by decide) : s.kind p = .thread := by
  obtain ⟨-, -, ho, hp⟩ := hs
  exact h.thread_at ho hp hx

/-- A step that thread ports do not have is one of the interrupt port. -/
theorem interrupt_of_step (h : s.Inv) {o ph : Byte} (hs : s.atStep p o ph)
    (hx : Port.shapeOk .thread { opc := o, phase := ph } = false := by decide) : s.kind p = .interrupt := by
  obtain ⟨-, -, ho, hp⟩ := hs
  have := h.shape_at ho hp
  cases hk : s.kind p
  · rw [hk, hx] at this; simp at this
  · rfl

/-- A port that stands in a step under the lock holds it. -/
theorem holdsLock_of_step (h : s.Inv) {o ph : Byte} {k : PortKind} (hs : s.atStep p o ph) (hk : s.kind p = k)
    (hx : Port.inLockedStep k { opc := o, phase := ph } = true := by decide) : s.holdsLock p = true := by
  obtain ⟨-, -, ho, hp⟩ := hs
  exact h.locked_step p ((Port.inLockedStep_congr _ ho hp).trans (by rw [hk]; exact hx))

/-- A port that is entered on the interrupt port runs with its core's interrupts off, after `INIT`. -/
theorem handler_at (h : s.Inv) (hk : s.kind p = .interrupt) (h0 : (s.port p).phase ≠ Phase.idle)
    (h1 : (s.port p).phase ≠ Phase.iPend) : s.ie s.params.irqCpu = false ∧ s.initDone = true :=
  h.handler (by
    rw [State.eq_intPort hk] at h0 h1
    simp [State.irqEntered, State.busy, h0, h1])

/-- With no consumer on another existing port there is none on another port at all (40_ringbuffer.md R148). -/
theorem no_consumer (h : s.Inv) (hc : s.consumerElsewhere p = false) (q : PortId) (hq : q ≠ p) :
    s.consumerActive q = false := by
  by_cases hx : s.hasPort q = true
  · have := List.any_eq_false.mp hc q (mem_allPorts q)
    simpa [hq, hx] using this
  · have := h.opc_of_idle (h.port_absent q (by simpa using hx))
    simp [State.consumerActive, this]

/-- While port `p` runs a consumer command, no other port does (40_ringbuffer.md R148). -/
theorem only_consumer (h : s.Inv) (hc : (s.port p).opc = 0x12#8 ∨ (s.port p).opc = 0x22#8) (q : PortId)
    (hq : q ≠ p) : s.consumerActive q = false := by
  by_contra hx
  exact hq (h.one_consumer q p (by simpa using hx) (by simpa [State.consumerActive] using hc))

/-! ### Writes of a port's registers that keep the invariant -/

/-- A write of a port's registers that leaves the command and its step alone. -/
theorem setPort_same (h : s.Inv) (p : PortId) (x : Port) (ho : x.opc = (s.port p).opc)
    (hp : x.phase = (s.port p).phase) (hr : resultOk x.result = true)
    (hb : x.phase ≠ Phase.idle → x.result = 0#32) : (s.setPort p x).Inv :=
  h.setPort p x ((Port.shapeOk_congr _ ho hp).trans (h.port_shape p)) (fun ha => hp.trans (h.port_absent p ha))
    (fun hl => h.locked_step p ((Port.inLockedStep_congr _ ho hp).symm.trans hl))
    (fun hc => h.only_consumer (by rwa [ho] at hc)) hr hb
    (fun e h0 h1 => h.handler_at (by rw [e]; exact State.kind_intPort) (hp ▸ h0) (hp ▸ h1))

/-- The operand registers may be written at any time (10_state.md R33). -/
theorem setArgs (h : s.Inv) (p : PortId) (a b : Word) :
    (s.setPort p { s.port p with arg0 := a, arg1 := b }).Inv :=
  h.setPort_same p _ rfl rfl (h.result_ok p) fun hb => h.result_busy p (by simpa [State.busy] using hb)

/-- The issue step clears `RESULT` (30_encoding.md R101). -/
theorem setResult_zero (h : s.Inv) (p : PortId) : (s.setResult p 0#32).Inv :=
  h.setPort_same p _ rfl rfl resultOk_zero fun _ => rfl

/-- `done` may come at any time, with a legal `RESULT` (10_state.md R33). -/
theorem done (h : s.Inv) (p : PortId) {r : Word} (hr : resultOk (r ||| doneBit) = true) : (s.done p r).Inv := by
  have hs := h.setPort p { s.port p with result := r ||| doneBit, opc := 0#8, phase := Phase.idle }
    (by simp [Port.shapeOk]) (fun _ => rfl) (fun hl => by simp [Port.inLockedStep_idle] at hl)
    (fun hc => by simp at hc) hr (fun hb => absurd rfl hb) (fun _ hb => absurd rfl hb)
  exact hs.setAgent p _

/-- A busy port may go to a step of its command. -/
theorem goto (h : s.Inv) {o b : Byte} (ho : (s.port p).opc = o) (h0 : (s.port p).phase ≠ Phase.idle)
    (hs : Port.shapeOk (s.kind p) { opc := o, phase := b } = true)
    (hl : Port.inLockedStep (s.kind p) { opc := o, phase := b } = true → s.holdsLock p = true)
    (hh : s.kind p = .interrupt → s.ie s.params.irqCpu = false ∧ s.initDone = true) : (s.goto p b).Inv := by
  have hx : ({ s.port p with phase := b } : Port).shapeOk (s.kind p) = _ :=
    Port.shapeOk_congr (y := { opc := o, phase := b }) _ ho rfl
  have hy : ({ s.port p with phase := b } : Port).inLockedStep (s.kind p) = _ :=
    Port.inLockedStep_congr (y := { opc := o, phase := b }) _ ho rfl
  exact h.setPort p _ (hx.trans hs) (fun ha => by rw [h.hasPort_of_busy h0] at ha; simp at ha)
    (fun hb => hl (hy.symm.trans hb)) h.only_consumer (h.result_ok p)
    (fun _ => h.result_busy p (by simpa [State.busy] using h0))
    (fun e _ _ => hh (by rw [e]; exact State.kind_intPort))

/-- A thread port may begin a command at a step without the lock, as the only consumer if it is one. -/
theorem begin (h : s.Inv) {o ph : Byte} (hp : s.hasPort p = true) (hk : s.kind p = .thread)
    (hr : (s.port p).result = 0#32)
    (hc : o = 0x12#8 ∨ o = 0x22#8 → ∀ q, q ≠ p → s.consumerActive q = false)
    (hs : Port.shapeOk .thread { opc := o, phase := ph } = true := by decide)
    (hl : Port.inLockedStep .thread { opc := o, phase := ph } = false := by decide) : (s.begin p o ph).Inv :=
  h.setPort p _ (by rw [hk]; exact hs) (fun ha => by simp [hp] at ha)
    (fun hb => by rw [hk] at hb; exact absurd (hl.symm.trans hb) (by simp)) hc (h.result_ok p) (fun _ => hr)
    (fun e _ _ => absurd e (State.kind_ne_intPort hk))

/-- The interrupt port may latch a command it accepts (30_encoding.md R101, R114). -/
theorem latch (h : s.Inv) {i : Instr} (hp : s.hasPort p = true) (hk : s.kind p = .interrupt)
    (ha : allowed .interrupt i = true) :
    (s.setPort p { s.port p with result := 0#32, opc := i.opcode, phase := Phase.iPend }).Inv := by
  obtain ⟨hs, h1, h2⟩ := Instr.pending_shape ha
  exact h.setPort p _ (by rw [hk]; exact hs) (fun hq => by simp [hp] at hq)
    (fun hl => by simp [hk, Port.inLockedStep] at hl) (fun hc => absurd hc (by simp [h1, h2])) resultOk_zero
    (fun _ => rfl) (fun _ _ hb => absurd rfl hb)

/-! ### The lock, the wake signal and the shape of a command -/

/-- The step at which port `p` stands may be followed by one of the same command: one without the lock, or any while
the port holds it. -/
theorem nextStep (h : s.Inv) {o a b : Byte} {k : PortKind} (hs : s.atStep p o a) (hk : s.kind p = k)
    (hl : Port.inLockedStep k { opc := o, phase := b } = false ∨ s.holdsLock p = true)
    (h0 : a ≠ Phase.idle := by decide) (h1 : a ≠ Phase.iPend := by decide)
    (hb : Port.shapeOk k { opc := o, phase := b } = true := by decide) : (s.goto p b).Inv := by
  obtain ⟨-, -, ho, rfl⟩ := hs
  subst hk
  exact h.goto ho h0 hb (fun hx => hl.resolve_left (ne_false_of_eq_true hx)) fun hk => h.handler_at hk h0 h1

/-- Taking a free lock and what follows keeps the invariant (42_lock_wake.md R181). -/
theorem acquireThen (h : s.Inv) (hp : s.hasPort p = true) {k : State → State}
    (hk : (s.takeLock p).Inv → (k (s.takeLock p)).Inv) : (s.acquireThen p k).Inv := by
  rcases s.acquireThen_cases p k with ⟨-, e⟩ | ⟨hl, e⟩ <;> rw [e]
  · exact h
  · exact hk (h.takeLock p hl hp)

/-- Consuming a pending wake and what follows keeps the invariant (R187). -/
theorem waitThen (h : s.Inv) {k : State → State}
    (hk : ({ s with wakePend := false } : State).Inv → (k { s with wakePend := false }).Inv) :
    (s.waitThen k).Inv := by
  rcases s.waitThen_cases k with ⟨-, e⟩ | ⟨-, e⟩ <;> rw [e]
  · exact hk { h with }
  · exact h

/-- The holder may give the lock back from a step that does not run under it (R183). -/
theorem release_of_holdsLock (h : s.Inv) (hp : s.holdsLock p = true)
    (hl : (s.port p).inLockedStep (s.kind p) = false) (he : s.core p = s.params.irqCpu → s.irqEntered = false) :
    (s.release p).Inv := by
  refine h.release p (fun q => ?_) he
  by_cases e : q = p
  · rw [e]; exact hl
  · by_contra hx
    have hq := h.locked_step q (by simpa using hx)
    simp only [State.holdsLock, Bool.and_eq_true, decide_eq_true_eq] at hp hq
    exact e (hq.2.symm.trans hp.2)

/-- A step of a command keeps the invariant if its first step does, at issue on a thread port and at entry on the
interrupt port, and each later step does. -/
theorem command (h : s.Inv) (hp : s.hasPort s.cur = true) {i : Instr} {latch : Agent → Agent}
    {checks : List (Bool × FaultCode)} {start : State → State} {later : Byte → State → State}
    (hissue : firstFailing checks = none → s.atIssue s.cur → allowed .thread i = true →
      (start (s.setResult s.cur 0#32)).Inv)
    (hentry : firstFailing checks = none → s.atEntry s.cur i.opcode → (start s).Inv)
    (hlater : ∀ ph, s.atStep s.cur i.opcode ph → ph ≠ Phase.idle → ph ≠ Phase.iPend → (later ph s).Inv) :
    (s.command i latch checks start later).Inv := by
  rcases s.command_cases i latch checks start later with e | ⟨hf, hcase⟩
  · rw [e]; exact h
  rcases hcase with ⟨-, -, e⟩ | ⟨-, hk, ha, e⟩ | ⟨c, -, -, e⟩ | ⟨hc, hi, hk, ha, e⟩ | ⟨hc, hi, ho, hk, hie, e⟩
    | ⟨h0, h1, ho, e⟩ <;> rw [e]
  · exact h.raise _ _ _ _
  · exact (h.latch hp hk ha).setAgent _ _
  · exact h.raise _ _ _ _
  · exact hissue hc ⟨rfl, hk, hf, hi⟩ ha
  · exact hentry hc ⟨rfl, hk, hf, ho, hi, hie⟩
  · exact hlater _ ⟨rfl, hf, ho, rfl⟩ h0 h1

/-- The same for a command that only thread ports accept, which has no entry step (R114). -/
theorem threadCommand (h : s.Inv) (hp : s.hasPort s.cur = true) {i : Instr} (ha : allowed .interrupt i = false)
    {latch : Agent → Agent} {checks : List (Bool × FaultCode)} {start : State → State} {later : Byte → State → State}
    (hissue : firstFailing checks = none → s.atIssue s.cur → (start (s.setResult s.cur 0#32)).Inv)
    (hlater : ∀ ph, s.atStep s.cur i.opcode ph → (later ph s).Inv) :
    (s.command i latch checks start later).Inv := by
  refine h.command hp (fun hc hi _ => hissue hc hi) (fun _ he => ?_) fun ph hs _ _ => hlater ph hs
  obtain ⟨-, hk, -, ho, hi, -⟩ := he
  have hx := h.shape_at ho hi
  rw [hk, Instr.not_pending_shape ha] at hx
  simp at hx

/-- A command of one step keeps the invariant if that step does, from the state itself or with `RESULT` cleared. -/
theorem oneStep (h : s.Inv) (hp : s.hasPort s.cur = true) {i : Instr} {latch : Agent → Agent}
    {checks : List (Bool × FaultCode)} {start : State → State}
    (hstart : firstFailing checks = none → ∀ t : State, t.Inv → t = s ∨ t = s.setResult s.cur 0#32 →
      (start t).Inv) : (s.oneStep i latch checks start).Inv :=
  h.command hp (fun hc _ _ => hstart hc _ (h.setResult_zero _) (.inr rfl)) (fun hc _ => hstart hc _ h (.inl rfl))
    fun _ _ _ _ => h

end State.Inv

end Sys2Proof.Machine
end

section
/-! SUPPORT. Each step of each command keeps the invariant `State.Inv`, command by command. -/

namespace Sys2Proof.Machine

variable {s : State} {p : PortId}

/-! ### `RESULT` words -/

theorem resultOk_none_done : resultOk (resNone ||| doneBit) = true := by decide
theorem resultOk_empty_done : resultOk (resEmpty ||| doneBit) = true := by decide
theorem resultOk_byte_done (b : Byte) : resultOk (resByte b ||| doneBit) = true := by
  revert b; decide

/-! ### Giving the lock back while the command moves on -/

/-- `release` reads nothing that `goto` writes. -/
theorem State.release_goto (s : State) (p : PortId) (ph : Byte) :
    (s.release p).goto p ph = (s.goto p ph).release p := rfl

/-- `release` reads nothing that `done` writes. -/
theorem State.release_done (s : State) (p : PortId) (r : Word) :
    (s.release p).done p r = (s.done p r).release p := by
  have : ((s.done p r).agent p).savedIe = (s.agent p).savedIe := by simp [State.done_agent]
  simp only [State.release, this]; rfl

/-- The return from the interrupt reads nothing that `done` writes. -/
theorem State.irqReturn_done (s : State) (p : PortId) (r : Word) :
    (s.irqReturn p).done p r = ((s.done p r).release p).setIe s.params.irqCpu (s.agent p).entryIe := by
  rw [← State.release_done]; rfl

/-- A thread port's step does not enter or leave the handler. -/
theorem State.goto_irqEntered (hk : s.kind p = .thread) (ph : Byte) : (s.goto p ph).irqEntered = s.irqEntered := by
  simp [State.irqEntered, State.busy, State.goto_port, Ne.symm (State.kind_ne_intPort hk)]

/-- `done` leaves the handler if it is the interrupt port's. -/
theorem State.done_irqEntered (s : State) (p : PortId) (r : Word) :
    (s.done p r).irqEntered = (decide (p ≠ s.intPort) && s.irqEntered) := by
  by_cases hp : p = s.intPort
  · simp [State.irqEntered, State.busy, State.done_port, hp]
  · simp [State.irqEntered, State.busy, State.done_port, Ne.symm hp, hp]

namespace State.Inv

/-- The holder's `release` (42_lock_wake.md R183) together with `done`. -/
theorem release_done (h : s.Inv) (hm : s.mayAct p) (hp : s.holdsLock p = true) {r : Word}
    (hr : resultOk (r ||| doneBit) = true) : ((s.release p).done p r).Inv := by
  rw [State.release_done]
  refine (h.done p hr).release_of_holdsLock (by simpa using hp) ?_ fun hc => ?_
  · exact Port.inLockedStep_idle _ _ (by simp [State.done_port])
  · cases hk : s.kind p
    · simp [State.done_irqEntered, hm.2 hk hc]
    · simp [State.done_irqEntered, State.eq_intPort hk]

/-- The holder's `release` together with the step to another of the same command, on a thread port. -/
theorem release_goto (h : s.Inv) (hm : s.mayAct p) {o a b : Byte} (hs : s.atStep p o a) (hk : s.kind p = .thread)
    (hp : s.holdsLock p = true) (hl : Port.inLockedStep .thread { opc := o, phase := b } = false)
    (h0 : a ≠ Phase.idle := by decide) (h1 : a ≠ Phase.iPend := by decide)
    (hb : Port.shapeOk .thread { opc := o, phase := b } = true := by decide) : ((s.release p).goto p b).Inv := by
  rw [State.release_goto]
  refine (h.nextStep hs hk (.inr hp) h0 h1 hb).release_of_holdsLock (by simpa using hp) ?_ fun hc => ?_
  · obtain ⟨-, -, ho, -⟩ := hs
    rw [State.goto_port, if_pos rfl, State.goto_kind, hk, ← hl]
    exact Port.inLockedStep_congr _ ho rfl
  · rw [State.goto_irqEntered hk]; exact hm.2 hk hc

/-- Taking a free lock and going on to the next step (R181). -/
theorem acquire_goto (h : s.Inv) (hm : s.mayAct p) {o a b : Byte} {k : PortKind} (hs : s.atStep p o a)
    (hk : s.kind p = k) (h0 : a ≠ Phase.idle := by decide) (h1 : a ≠ Phase.iPend := by decide)
    (hb : Port.shapeOk k { opc := o, phase := b } = true := by decide) :
    (s.acquireThen p fun t => t.goto p b).Inv :=
  h.acquireThen hm.1 fun ht => ht.nextStep hs hk (.inr (by simp [State.holdsLock])) h0 h1 hb

end State.Inv

/-! ### `GETBYTE`, `RX_MASK`, `RX_UNMASK` (41_rxpath.md R162 to R166) -/

theorem stepGPop_inv (h : s.Inv) (hs : s.atStep p 0x12#8 Phase.gPop) : (stepGPop p s).Inv := by
  have hk : s.kind p = .thread := h.thread_of_step hs
  unfold stepGPop
  split_ifs with he hw
  · exact ((h.rbPop (by simpa using he)).setAgent p _).nextStep hs hk (.inl (by decide))
  · exact h.done p resultOk_empty_done
  · exact h

theorem stepGLock_inv (h : s.Inv) (hm : s.mayAct p) (hs : s.atStep p 0x12#8 Phase.gLock) : (stepGLock p s).Inv :=
  h.acquire_goto hm hs (h.thread_of_step hs)

theorem stepGUnmask_inv (h : s.Inv) (hm : s.mayAct p) (hs : s.atStep p 0x12#8 Phase.gUnmask) :
    (stepGUnmask p s).Inv := by
  have hk : s.kind p = .thread := h.thread_of_step hs
  have hp : s.holdsLock p = true := h.holdsLock_of_step hs hk
  unfold stepGUnmask
  split_ifs
  · exact h.release_done hm hp (resultOk_byte_done _)
  · exact (h.maskRx false).release_done hm hp (resultOk_byte_done _)

theorem execGetbyte_inv (h : s.Inv) (hm : s.mayAct s.cur) (w : Bool) : KeepsInv (execGetbyte w s) := by
  refine keepsInv_next (h.threadCommand hm.1 rfl (fun hc ⟨_, hk, _, _⟩ => ?_) fun ph hs => ?_)
  · obtain ⟨-, -, hx⟩ : s.initDone = true ∧ s.holdsLock s.cur = false ∧ s.consumerElsewhere s.cur = false := by
      simpa [firstFailing_none] using hc
    exact ((h.setResult_zero _).setAgent _ _).begin hm.1 hk (by simp [State.setResult_port])
      fun _ q hq => (s.setResult_consumerActive _ q _).trans (h.no_consumer hx q hq)
  · split_ifs with e1 e2 e3
    · subst e1; exact stepGPop_inv h hs
    · subst e2; exact stepGLock_inv h hm hs
    · subst e3; exact stepGUnmask_inv h hm hs
    · exact h

theorem execRxMask_inv (h : s.Inv) (hm : s.mayAct s.cur) : KeepsInv (execRxMask s) :=
  keepsInv_next (h.oneStep hm.1 fun _ _ ht _ => (ht.maskRx true).done _ resultOk_none_done)

theorem execRxUnmask_inv (h : s.Inv) (hm : s.mayAct s.cur) : KeepsInv (execRxUnmask s) :=
  keepsInv_next (h.oneStep hm.1 fun _ _ ht _ => (ht.maskRx false).done _ resultOk_none_done)

/-! ### `WRITE`, `TX_MASK`, `TX_UNMASK` (43_txpath.md R202 to R211) -/

theorem startWrite_inv (h : s.Inv) (hm : s.mayAct p) (hk : s.kind p = .thread) (w n : Bool) :
    (startWrite p w n (s.setResult p 0#32)).Inv := by
  have ha := fun x => (h.setResult_zero p).setAgent p x
  unfold startWrite
  dsimp only
  split_ifs
  · exact (ha _).done p resultOk_none_done
  · exact (ha _).begin hm.1 hk (by simp [State.setResult_port]) (by simp)

theorem stepWSelect_inv (h : s.Inv) (hs : s.atStep p 0x13#8 Phase.wSelect) : (stepWSelect p s).Inv := by
  have hk : s.kind p = .thread := h.thread_of_step hs
  unfold stepWSelect
  dsimp only
  split_ifs
  · exact (h.setAgent p _).nextStep hs hk (.inl (by decide))
  · exact (h.setAgent p _).nextStep hs hk (.inl (by decide))
  · exact h

theorem stepWLock_inv (h : s.Inv) (hm : s.mayAct p) (hs : s.atStep p 0x13#8 Phase.wLock) : (stepWLock p s).Inv :=
  h.acquire_goto hm hs (h.thread_of_step hs)

theorem stepWCheck_inv (h : s.Inv) (hm : s.mayAct p) (hs : s.atStep p 0x13#8 Phase.wCheck) :
    (stepWCheck p s).Inv := by
  have hk : s.kind p = .thread := h.thread_of_step hs
  have hp : s.holdsLock p = true := h.holdsLock_of_step hs hk
  unfold stepWCheck
  dsimp only
  split_ifs with hf
  · exact ((h.countFull.maskTx false).release_goto hm hs hk hp (by decide)).countWait
  · exact h.countFull.release_goto hm hs hk hp (by decide)
  all_goals
    have hroom : s.txf.length < s.params.txfDepth :=
      lt_of_le_of_ne h.txf_le (by simpa [State.txFull] using hf)
  · exact (h.txfPut _ hroom).release_done hm hp resultOk_none_done
  · exact (h.txfPut _ hroom).release_goto hm hs hk hp (by decide)

theorem stepWWait_inv (h : s.Inv) (hs : s.atStep p 0x13#8 Phase.wWait) : (stepWWait p s).Inv :=
  h.waitThen fun ht => ht.nextStep hs (h.thread_of_step hs) (.inl (by decide))

theorem stepWYield_inv (h : s.Inv) (hs : s.atStep p 0x13#8 Phase.wYield) : (stepWYield p s).Inv :=
  h.nextStep hs (h.thread_of_step hs) (.inl (by decide))

theorem execWrite_inv (h : s.Inv) (hm : s.mayAct s.cur) (w n : Bool) : KeepsInv (execWrite w n s) := by
  refine keepsInv_next (h.threadCommand hm.1 rfl (fun _ ⟨_, hk, _, _⟩ => startWrite_inv h hm hk w n) fun ph hs => ?_)
  split_ifs with e1 e2 e3 e4 e5
  · subst e1; exact stepWSelect_inv h hs
  · subst e2; exact stepWLock_inv h hm hs
  · subst e3; exact stepWCheck_inv h hm hs
  · subst e4; exact stepWWait_inv h hs
  · subst e5; exact stepWYield_inv h hs
  · exact h

theorem execTxMask_inv (h : s.Inv) (hm : s.mayAct s.cur) : KeepsInv (execTxMask s) :=
  keepsInv_next (h.oneStep hm.1 fun _ _ ht _ => (ht.maskTx true).done _ resultOk_none_done)

theorem execTxUnmask_inv (h : s.Inv) (hm : s.mayAct s.cur) : KeepsInv (execTxUnmask s) :=
  keepsInv_next (h.oneStep hm.1 fun _ _ ht _ => (ht.maskTx false).done _ resultOk_none_done)

/-! ### `INIT_EARLY`, `INIT`, `RB_INIT` (45_lifecycle_dispatch.md R241, R244, 40_ringbuffer.md R143) -/

theorem execInitEarly_inv (h : s.Inv) (hm : s.mayAct s.cur) : KeepsInv (execInitEarly s) := by
  refine keepsInv_next (h.oneStep hm.1 fun _ t ht _ => ?_)
  have he : ∀ base line, ({ t with mmioBase := base, irqLine := line, earlyDone := true } : State).Inv := fun _ _ =>
    { ht with boot_order := fun hd => ⟨rfl, (ht.boot_order hd).2⟩ }
  exact (he _ _).done _ resultOk_none_done

/-- The checks of `RBInit` let through a capacity that the storage has (40_ringbuffer.md R142). -/
theorem rbInitChecks_pass {c : Word} (hc : ∀ e ∈ s.rbInitChecks c, e.1 = false) :
    c ≠ 0#32 ∧ c.toNat ≤ s.params.capMax := by
  simp only [State.rbInitChecks, List.forall_mem_cons, decide_eq_false_iff_not, not_lt] at hc
  obtain ⟨-, h0, hle, -⟩ := hc
  exact ⟨h0, hle⟩

theorem execRbInit_inv (h : s.Inv) (hm : s.mayAct s.cur) : KeepsInv (execRbInit s) := by
  refine keepsInv_next (h.oneStep hm.1 fun hc t ht e => ?_)
  obtain ⟨h0, hle⟩ := rbInitChecks_pass (firstFailing_none.mp hc)
  have hp : t.params = s.params := by rcases e with rfl | rfl <;> rfl
  exact (ht.rbInit _ h0 (by rw [hp]; exact hle)).done _ resultOk_none_done

theorem execInit_inv (h : s.Inv) (hm : s.mayAct s.cur) : KeepsInv (execInit s) := by
  refine keepsInv_next (h.oneStep hm.1 fun hc t ht e => ?_)
  have hall := firstFailing_none.mp hc
  obtain ⟨h0, hle⟩ := rbInitChecks_pass (s := s) (c := (s.port s.cur).arg0) fun e he => hall e (by simp [he])
  have hearly : t.earlyDone = true := by
    have : s.earlyDone = true := by simpa using hall (!s.earlyDone, .initOrder) (by simp)
    rcases e with rfl | rfl <;> exact this
  have hp : t.params = s.params := by rcases e with rfl | rfl <;> rfl
  have hr := (ht.rbInit (s.port s.cur).arg0 h0 (by rw [hp]; exact hle)).maskRx false
  have hi : ({ (t.rbInit (s.port s.cur).arg0).maskRx false with
      txIrqEn := cfgTxIrqUse (s.port s.cur).arg1 && !t.failureMode, initDone := true } : State).Inv :=
    { hr with
      fail_mode := fun hf => by
        replace hf : t.failureMode = true := hf
        simp [hf]
      boot_order := fun _ => ⟨hearly, rfl⟩
      handler := fun hx => ⟨(hr.handler hx).1, rfl⟩ }
  exact hi.done _ resultOk_none_done

/-! ### `IRQ_DISPATCH` (45_lifecycle_dispatch.md R246 to R253) -/

theorem stepILock_inv (h : s.Inv) (hm : s.mayAct p) (hs : s.atStep p 0x50#8 Phase.iLock) : (stepILock p s).Inv :=
  h.acquire_goto hm hs (h.interrupt_of_step hs)

theorem stepIRxsel_inv (h : s.Inv) (hs : s.atStep p 0x50#8 Phase.iRxsel) : (stepIRxsel p s).Inv := by
  have hk : s.kind p = .interrupt := h.interrupt_of_step hs
  have hp : s.holdsLock p = true := h.holdsLock_of_step hs hk
  unfold stepIRxsel
  split_ifs
  · exact h.nextStep hs hk (.inr hp)
  · exact h.nextStep hs hk (.inr hp)

theorem stepIDrain_inv (h : s.Inv) (hs : s.atStep p 0x50#8 Phase.iDrain) : (stepIDrain p s).Inv := by
  have hk : s.kind p = .interrupt := h.interrupt_of_step hs
  have hp : s.holdsLock p = true := h.holdsLock_of_step hs hk
  have hd : s.rbInitDone = true := by
    obtain ⟨-, -, -, hph⟩ := hs
    obtain ⟨-, hinit⟩ := h.handler_at hk (by rw [hph]; decide) (by rw [hph]; decide)
    exact (h.boot_order hinit).2
  unfold stepIDrain
  split
  · exact h.nextStep hs hk (.inr hp)
  · split_ifs with hf
    · exact h.nextStep hs hk (.inr hp)
    · exact (h.rxfDrop.rbPush _ hd (by simpa using hf)).nextStep hs hk (.inr hp)

theorem stepIRxend_inv (h : s.Inv) (hs : s.atStep p 0x50#8 Phase.iRxend) : (stepIRxend p s).Inv := by
  have hk : s.kind p = .interrupt := h.interrupt_of_step hs
  have hp : s.holdsLock p = true := h.holdsLock_of_step hs hk
  unfold stepIRxend
  split_ifs
  · exact (h.maskRx true).nextStep hs hk (.inr hp)
  · exact h.nextStep hs hk (.inr hp)

theorem stepITx_inv (h : s.Inv) (hs : s.atStep p 0x50#8 Phase.iTx) : (stepITx p s).Inv := by
  have hk : s.kind p = .interrupt := h.interrupt_of_step hs
  have hp : s.holdsLock p = true := h.holdsLock_of_step hs hk
  unfold stepITx
  split_ifs
  · exact (h.signal.maskTx true).nextStep hs hk (.inr hp)
  · exact h.nextStep hs hk (.inr hp)

/-- The return frees the lock and leaves the handler before it restores the interrupt enable (R253). -/
theorem stepIExit_inv (h : s.Inv) (hm : s.mayAct p) (hs : s.atStep p 0x50#8 Phase.iExit) : (stepIExit p s).Inv := by
  have hk : s.kind p = .interrupt := h.interrupt_of_step hs
  have hp : s.holdsLock p = true := h.holdsLock_of_step hs hk
  unfold stepIExit
  rw [State.irqReturn_done, ← State.release_done]
  refine (h.release_done hm hp resultOk_none_done).setIe _ _ (by simp) ?_
  simp [State.done_irqEntered, State.eq_intPort hk]

/-- Entry switches interrupts off on `IRQ_CPU` before the handler's first step (R247). -/
theorem irqEnter_goto_inv (h : s.Inv) (he : s.atEntry p 0x50#8) (hd : s.initDone = true) :
    ((s.irqEnter p).goto p Phase.iLock).Inv := by
  obtain ⟨-, hk, -, ho, hi, -⟩ := he
  have hx : (s.irqEnter p).Inv := by
    unfold State.irqEnter; exact (h.setAgent p _).setIe_false _
  refine hx.goto (by simpa using ho) (by simp [hi, Phase.iPend, Phase.idle]) ?_ ?_
    fun _ => ⟨by simp [State.irqEnter_ie], by simpa using hd⟩
  · rw [State.irqEnter_kind, hk]; decide
  · rw [State.irqEnter_kind, hk]; simp [Port.inLockedStep, Phase.iLock]

theorem execIrqDispatch_inv (h : s.Inv) (hm : s.mayAct s.cur) : KeepsInv (execIrqDispatch s) := by
  refine keepsInv_next (h.command hm.1 (fun _ _ ha => by simp [allowed] at ha) (fun hc he => ?_) fun ph hs _ _ => ?_)
  · exact irqEnter_goto_inv h he (by simpa [firstFailing_none] using hc)
  · split_ifs with e1 e2 e3 e4 e5 e6
    · subst e1; exact stepILock_inv h hm hs
    · subst e2; exact stepIRxsel_inv h hs
    · subst e3; exact stepIDrain_inv h hs
    · subst e4; exact stepIRxend_inv h hs
    · subst e5; exact stepITx_inv h hs
    · subst e6; exact stepIExit_inv h hm hs
    · exact h

/-! ### The lock and wake commands (42_lock_wake.md R180 to R189) -/

theorem execLockAcq_inv (h : s.Inv) (hm : s.mayAct s.cur) : KeepsInv (execLockAcq s) := by
  refine keepsInv_next (h.threadCommand hm.1 rfl (fun _ ⟨_, hk, _, _⟩ => ?_) fun ph hs => ?_)
  · exact (h.setResult_zero _).begin hm.1 hk (by simp [State.setResult_port]) (by simp)
  · split_ifs
    · exact h.acquireThen hm.1 fun ht => ht.done _ resultOk_none_done
    · exact h

theorem execLockRel_inv (h : s.Inv) (hm : s.mayAct s.cur) : KeepsInv (execLockRel s) := by
  refine keepsInv_next (h.threadCommand hm.1 rfl (fun hc _ => ?_) fun _ _ => h)
  have hp : s.holdsLock s.cur = true := by simpa [firstFailing_none] using hc
  exact (h.setResult_zero _).release_done hm.setResult hp resultOk_none_done

theorem execWakeSignal_inv (h : s.Inv) (hm : s.mayAct s.cur) : KeepsInv (execWakeSignal s) :=
  keepsInv_next (h.oneStep hm.1 fun _ _ ht _ => ht.signal.done _ resultOk_none_done)

theorem execWakeWait_inv (h : s.Inv) (hm : s.mayAct s.cur) : KeepsInv (execWakeWait s) := by
  refine keepsInv_next (h.threadCommand hm.1 rfl (fun _ ⟨_, hk, _, _⟩ => ?_) fun ph hs => ?_)
  · exact (h.setResult_zero _).countWait.begin hm.1 hk (by simp [State.setResult_port]) (by simp)
  · split_ifs
    · exact h.waitThen fun ht => ht.done _ resultOk_none_done
    · exact h

theorem execYield_inv (h : s.Inv) (hm : s.mayAct s.cur) : KeepsInv (execYield s) :=
  keepsInv_next (h.oneStep hm.1 fun _ _ ht _ => ht.done _ resultOk_none_done)

/-! ### The panic path (44_panic.md R231 to R235) -/

theorem execEnterFail_inv (h : s.Inv) (hm : s.mayAct s.cur) : KeepsInv (execEnterFail s) := by
  refine keepsInv_next (h.oneStep hm.1 fun _ t ht _ => ?_)
  have hf : ({ t with txIrqEn := false, failureMode := true } : State).Inv := { ht with fail_mode := fun _ => rfl }
  exact hf.done _ resultOk_none_done

theorem execPollPutc_inv (h : s.Inv) (hm : s.mayAct s.cur) (b : Byte) : KeepsInv (execPollPutc b s) := by
  refine keepsInv_next (h.threadCommand hm.1 rfl (fun _ ⟨_, hk, _, _⟩ => ?_) fun ph hs => ?_)
  · exact ((h.setResult_zero _).setAgent _ _).begin hm.1 hk (by simp [State.setResult_port]) (by simp)
  · unfold stepQSpin
    split_ifs with _ hroom
    · exact (h.txfPut _ hroom).done _ resultOk_none_done
    · exact h
    · exact h

theorem startPollGetc_inv (h : s.Inv) (p : PortId) : (startPollGetc p s).Inv := by
  unfold startPollGetc
  split
  · exact h.done p resultOk_empty_done
  · have hd : ∀ l, ({ s.rxfDrop with rxOut := l } : State).Inv := fun _ => { h.rxfDrop with }
    exact (hd _).done p (resultOk_byte_done _)

theorem execPollGetc_inv (h : s.Inv) (hm : s.mayAct s.cur) : KeepsInv (execPollGetc s) :=
  keepsInv_next (h.oneStep hm.1 fun _ _ ht _ => startPollGetc_inv ht _)

/-! ### `RB_PUSH`, `RB_POP` (40_ringbuffer.md R145, R147, R149) -/

theorem execRbPush_inv (h : s.Inv) (hm : s.mayAct s.cur) (b : Byte) : KeepsInv (execRbPush b s) := by
  refine keepsInv_next (h.oneStep hm.1 fun hc t ht e => ?_)
  obtain ⟨hd, hf⟩ : s.rbInitDone = true ∧ s.isFull = false := by simpa [firstFailing_none] using hc
  rcases e with rfl | rfl
  · exact (ht.rbPush _ hd hf).done _ resultOk_none_done
  · exact (ht.rbPush _ hd hf).done _ resultOk_none_done

theorem stepPPop_inv (h : s.Inv) (p : PortId) : (stepPPop p s).Inv := by
  unfold stepPPop
  split_ifs with he
  · exact (h.rbPop (by simpa using he)).done p (resultOk_byte_done _)
  · exact h.done p resultOk_empty_done
  · exact h

theorem execRbPop_inv (h : s.Inv) (hm : s.mayAct s.cur) (w : Bool) : KeepsInv (execRbPop w s) := by
  refine keepsInv_next (h.threadCommand hm.1 rfl (fun hc ⟨_, hk, _, _⟩ => ?_) fun ph hs => ?_)
  · obtain ⟨-, -, hx⟩ : s.rbInitDone = true ∧ (w = true → s.holdsLock s.cur = false)
        ∧ s.consumerElsewhere s.cur = false := by simpa [firstFailing_none] using hc
    exact ((h.setResult_zero _).setAgent _ _).begin hm.1 hk (by simp [State.setResult_port])
      fun _ q hq => (s.setResult_consumerActive _ q _).trans (h.no_consumer hx q hq)
  · split_ifs
    · exact stepPPop_inv h _
    · exact h

end Sys2Proof.Machine
end

section
/-! SUPPORT. Each event keeps the invariant `State.Inv`, the reset state satisfies it, and what R52 gives for that
state. -/

namespace Sys2Proof.Machine

variable {s : State} {p : PortId}

/-! ### Every command, every event, every step -/

/-- One step of any command keeps the invariant, on a port whose agent may act. -/
theorem exec_inv (i : Instr) (h : s.Inv) (hm : s.mayAct s.cur) : KeepsInv (exec i s) :=
  match i with
  | .initEarly => execInitEarly_inv h hm
  | .init => execInit_inv h hm
  | .getbyte w => execGetbyte_inv h hm w
  | .write w n => execWrite_inv h hm w n
  | .pollPutc b => execPollPutc_inv h hm b
  | .pollGetc => execPollGetc_inv h hm
  | .enterFail => execEnterFail_inv h hm
  | .rbInit => execRbInit_inv h hm
  | .rbPush b => execRbPush_inv h hm b
  | .rbPop w => execRbPop_inv h hm w
  | .lockAcq => execLockAcq_inv h hm
  | .lockRel => execLockRel_inv h hm
  | .wakeSignal => execWakeSignal_inv h hm
  | .wakeWait => execWakeWait_inv h hm
  | .yield => execYield_inv h hm
  | .rxMask => execRxMask_inv h hm
  | .rxUnmask => execRxUnmask_inv h hm
  | .txMask => execTxMask_inv h hm
  | .txUnmask => execTxUnmask_inv h hm
  | .irqDispatch => execIrqDispatch_inv h hm

/-- A command on the port whose agent is made to act. -/
theorem exec_cur_inv (i : Instr) (h : s.Inv) (hm : s.mayAct p) : KeepsInv (exec i { s with cur := p }) :=
  exec_inv i (s := { s with cur := p }) { h with } hm

theorem writeCmd_inv (h : s.Inv) (hm : s.mayAct p) (w : Word) : KeepsInv (s.writeCmd p w) := by
  unfold State.writeCmd
  split_ifs
  · exact keepsInv_next h
  · exact keepsInv_next (h.raise _ _ _ _)
  · split
    · exact keepsInv_next (h.raise _ _ _ _)
    · exact exec_cur_inv _ h hm

/-- The operand writes of a line are writes of the operand registers or nothing. -/
theorem State.writeArgs_cases (s : State) (p : PortId) (l : Line) :
    s.writeArgs p l = s ∨ ∃ a b, s.writeArgs p l = s.setPort p { s.port p with arg0 := a, arg1 := b } := by
  unfold State.writeArgs
  split
  · exact .inl rfl
  · exact .inr ⟨_, _, rfl⟩

/-- A write of operand registers bars no agent. -/
theorem State.mayAct.setArgs {q : PortId} {a b : Word} (h : s.mayAct p) :
    (s.setPort q { s.port q with arg0 := a, arg1 := b }).mayAct p := by
  refine ⟨h.1, fun hk hc => (?_ : _ = s.irqEntered).trans (h.2 hk hc)⟩
  by_cases hq : s.intPort = q <;> simp [State.irqEntered, State.busy, State.setPort_port, hq]

theorem agentStep_inv (h : s.Inv) (p : PortId) : KeepsInv (s.agentStep p) := by
  unfold State.agentStep
  split_ifs with hx
  · exact keepsInv_next h
  · have hm : s.mayAct p := State.mayAct_of_mayStep (by simp at hx; exact hx.2)
    split
    · exact exec_cur_inv _ h hm
    · exact keepsInv_next h
  · have hm : s.mayAct p := State.mayAct_of_mayStep (by simp at hx; exact hx.2)
    split
    · next l _ =>
      split_ifs
      · exact keepsInv_next h
      · rcases s.writeArgs_cases p l with e | ⟨a, b, e⟩ <;> rw [e]
        · exact writeCmd_inv h hm _
        · exact writeCmd_inv (h.setArgs p a b) hm.setArgs _
    · exact keepsInv_next h

theorem deliver_inv (h : s.Inv) : KeepsInv s.deliver := by
  unfold State.deliver
  split_ifs
  · exact writeCmd_inv (s := { s with delivered := s.delivered + 1#32 }) { h with } h.mayAct_intPort _
  · exact keepsInv_next h

theorem busFault_inv (h : s.Inv) (p : PortId) (o : Nat) : (s.busFault p o).Inv := by
  unfold State.busFault
  split_ifs
  · exact h
  · exact h.raise _ _ _ _

theorem windowWrite_inv (h : s.Inv) (hm : s.mayAct p) (o : Nat) (v : Word) : KeepsInv (s.windowWrite p o v) := by
  unfold State.windowWrite
  split_ifs
  · exact writeCmd_inv h hm v
  · exact keepsInv_next h
  · exact keepsInv_next (h.setArgs p v _)
  · exact keepsInv_next h
  · exact keepsInv_next (h.setArgs p _ v)
  · exact keepsInv_next (busFault_inv h p o)

theorem access_inv (h : s.Inv) (a : Access) : KeepsInv (s.access a) := by
  unfold State.access
  dsimp only
  split_ifs with hx
  · exact keepsInv_next h
  · exact keepsInv_refused _
  · exact keepsInv_next (busFault_inv h _ _)
  · split
    · split
      · exact keepsInv_next { h with }
      · exact keepsInv_next (busFault_inv h _ _)
    · exact windowWrite_inv h (State.mayAct_of_mayStep (by simp at hx; exact hx.1)) _ _

/-- An arrival goes into a receive FIFO with room (46_environment.md R261). -/
theorem lineRx_inv (h : s.Inv) (b : Byte) : (s.lineRx b).Inv := by
  unfold State.lineRx
  split_ifs with _ hroom
  · exact h
  · exact { h with
      rxf_le := by simp; omega
      rxto_empty := fun he => by simp at he }
  · exact h

/-- A receive timeout comes only with a byte in the FIFO (R262). -/
theorem lineRxTimeout_inv (h : s.Inv) : s.lineRxTimeout.Inv := by
  unfold State.lineRxTimeout
  split_ifs with _ hx
  · exact h
  · exact { h with
      rxto_empty := fun he => by
        replace he : s.rxf = [] := he
        simp [he] at hx }
  · exact h

theorem lineTx_inv (h : s.Inv) : s.lineTx.Inv := by
  unfold State.lineTx
  split_ifs
  · exact h
  · split
    · exact h
    · next b rest e => exact { h with txf_le := by have := h.txf_le; simp [e] at this; simp; omega }

theorem spuriousWake_inv (h : s.Inv) (p : PortId) : (s.spuriousWake p).Inv := by
  unfold State.spuriousWake
  split_ifs with hx hk hw
  · exact h
  · exact h.done p resultOk_none_done
  · have hk : s.kind p = .thread := h.thread_at hw.1 hw.2 (by decide)
    exact h.goto hw.1 (by rw [hw.2]; decide) (by rw [hk]; decide) (by simp [hk, Port.inLockedStep, Phase.wLock])
      (by simp [hk])
  · exact h

theorem hostStore_inv (h : s.Inv) (a : Word) (b : Byte) : (s.hostStore a b).Inv :=
  { h with mem_wf := Memory.write_wf _ _ _ h.mem_wf }

/-- The ports at reset (10_state.md R52). -/
theorem State.reset_port (p : PortId) : State.reset.port p = {} := by simp [State.reset, State.port]

/-- A state with every element that R52 names at its reset value satisfies the invariant, whatever its parameters,
storage, host memory, schedule and agents, if those are well formed. -/
theorem reset_inv (t : State) (hp : t.params.wf = true) (hm : t.mem.wf = true)
    (hw : sparseWf (fun _ => 0#8) t.store = true) (hs : ∀ e ∈ t.store, e.1 < t.params.capMax)
    (ht : t = { State.reset with
      store := t.store, params := t.params, mem := t.mem, sched := t.sched, tick := t.tick, agents := t.agents }) :
    t.Inv := by
  have hport : ∀ p, t.port p = {} := fun p => by rw [ht]; exact State.reset_port p
  have hcap : t.cap = 0 := by rw [ht]; rfl
  have hlock : t.lockHeld = false := by rw [ht]; rfl
  have hinit : t.initDone = false := by rw [ht]; rfl
  have hrb : t.rbInitDone = false := by rw [ht]; rfl
  have hrxf : t.rxf = [] := by rw [ht]; rfl
  have htxf : t.txf = [] := by rw [ht]; rfl
  have hfault : t.fault = {} := by rw [ht]; rfl
  exact {
    params_wf := hp
    mem_wf := hm
    store_wf := hw
    ie_wf := by rw [ht]; rfl
    store_slots := hs
    cap_le := by simp [hcap]
    ring_before := fun _ => by rw [ht]; exact ⟨rfl, rfl, rfl⟩
    ring_after := fun h => by simp [hrb] at h
    count_le := by simp [State.count, hcap]
    rx_pair := by rw [ht]; rfl
    lock_free := fun _ => by rw [ht]; rfl
    lock_ie := fun h => by simp [hlock] at h
    fail_mode := fun _ => by rw [ht]; rfl
    rxf_le := by simp [hrxf]
    txf_le := by simp [htxf]
    rxto_empty := fun _ => by rw [ht]; rfl
    boot_order := fun h => by simp [hinit] at h
    port_shape := fun p => by simp [hport, Port.shapeOk]
    port_absent := fun p _ => by simp [hport]
    locked_step := fun p h => by simp [hport, Port.inLockedStep_idle] at h
    one_consumer := fun p q h => by simp [State.consumerActive, hport] at h
    result_ok := fun p => by rw [hport]; exact resultOk_zero
    result_busy := fun p h => by simp [State.busy, hport] at h
    handler := fun h => by simp [State.irqEntered, State.busy, hport] at h
    fault_code := by simp [hfault] }

theorem resetEvent_inv (h : s.Inv) : s.resetEvent.Inv :=
  reset_inv _ h.params_wf h.mem_wf h.store_wf h.store_slots rfl

/-- Every event keeps the invariant. -/
theorem runEvent_inv (h : s.Inv) (e : Event) : KeepsInv (s.runEvent e) :=
  match e with
  | .port p => agentStep_inv h p
  | .spuriousWake p => keepsInv_next (spuriousWake_inv h p)
  | .access a => access_inv h a
  | .lineRx b => keepsInv_next (lineRx_inv h b)
  | .lineRxTimeout => keepsInv_next (lineRxTimeout_inv h)
  | .lineTx => keepsInv_next (lineTx_inv h)
  | .deliver => deliver_inv h
  | .hostStore a b => keepsInv_next (hostStore_inv h a b)
  | .reset => keepsInv_next (resetEvent_inv h)

/-- Settles O59: the step takes an event, and every event keeps the invariant. -/
theorem everyStepKeepsInvariant : Obligations.EveryStepKeepsInvariant := by
  intro s t h hs
  rw [step, if_pos h.params_wf] at hs
  exact runEvent_inv h.advance s.nextEvent t hs

/-- Settles O58: at reset every element has the value of R52, over R7's default parameters and empty memories. -/
theorem invariantHoldsAtReset : Obligations.InvariantHoldsAtReset :=
  reset_inv State.reset (by decide) rfl rfl (fun _ he => by simp [State.reset] at he) rfl

/-- The agents at reset, with no program (10_state.md R52). -/
theorem State.reset_agent (p : PortId) : State.reset.agent p = {} := by simp [State.reset, State.agent]

/-- Settles O56: the reset state is written out, its ports and agents all alike. -/
theorem resetHasSpecValues : Obligations.ResetHasSpecValues := by
  have hport : ∀ p, (State.reset.port p).arg0 = 0#32 ∧ (State.reset.port p).arg1 = 0#32
      ∧ (State.reset.port p).result = 0#32 ∧ (State.reset.port p).opc = 0#8 ∧ (State.reset.port p).phase = 0#8 := by
    intro p; rw [State.reset_port]; exact ⟨rfl, rfl, rfl, rfl, rfl⟩
  have hagent : ∀ p, State.reset.agent p = { prog := (State.reset.agent p).prog } := by
    intro p; rw [State.reset_agent]
  exact ⟨rfl, rfl, rfl, rfl, rfl, rfl, rfl, rfl, rfl, rfl, rfl, rfl, rfl, rfl, rfl, rfl, rfl, rfl, fun _ => rfl, rfl,
    rfl, rfl, rfl, rfl, rfl, rfl, rfl, hport, hagent⟩

end Sys2Proof.Machine
end

section
/-! SUPPORT. What a word that decodes is made of (30_encoding.md R113), and what a step of the machine does when its
event is a port's agent (60_exceptions.md R301). -/

namespace Sys2Proof.Machine

variable {s : State} {p : PortId}

/-! ### Which event a step takes, and the agent's next line -/

/-- A step with an event on the schedule takes that one (60_exceptions.md R301). -/
theorem step_sched {e : Event} {rest : List Event} (hw : s.params.wf = true) (hs : s.sched = e :: rest) :
    step s = { s with sched := rest, tick := s.tick + 1 }.runEvent e := by
  simp [step, hw, State.nextEvent, State.advance, hs]

/-- A step with an empty schedule takes the free event. -/
theorem step_free (hw : s.params.wf = true) (hs : s.sched = []) :
    step s = { s with tick := s.tick + 1 }.runEvent (Config.freeEvent s.tick) := by
  have ha : s.advance = { s with tick := s.tick + 1 } := by rw [State.advance, hs, List.tail_nil, ← hs]
  simp [step, hw, State.nextEvent, hs, ha]

/-- The next line of a thread port is the one its index names (10_state.md R36). -/
theorem State.nextLine_thread (hk : s.kind p = .thread) :
    s.nextLine p = (s.agent p).prog[(s.agent p).pc.toNat]? := by
  simp [State.nextLine, State.lineIndex, hk]

/-- The next line of the interrupt port, between the deliveries (log 9). -/
theorem State.nextLine_interrupt (hk : s.kind p = .interrupt) :
    s.nextLine p = (s.agent p).prog[((s.agent p).pc - s.delivered).toNat]? := by
  simp [State.nextLine, State.lineIndex, hk]

/-! ### The decoder's answer and the fields of a word (30_encoding.md R100, R103, R113) -/

/-- A word whose `RES` is 0 is the one packed from its fields. -/
theorem packWord_of_fields {w : Word} (h : fieldRes w = 0#14) :
    packWord (fieldOpc w) (fieldImm8 w) (fieldW w) (fieldN w) = w := by
  have hres : ∀ k, 18 ≤ k → w.getLsbD k = false := fun k hk => by
    by_cases hk' : k < 32
    · have := congrArg (fun v => v.getLsbD (k - 18)) h
      simpa [fieldRes, show 18 + (k - 18) = k by omega, show k - 18 < 14 by omega] using this
    · exact BitVec.getLsbD_of_ge w k (by omega)
  apply BitVec.eq_of_getLsbD_eq
  intro k _
  rw [Laws.packWord_bit]
  split_ifs with h1 h2 h3 h4
  · simp [fieldOpc, h1]
  · simp [fieldImm8, h2, show 8 + (k - 8) = k by omega]
  · obtain rfl : k = 16 := by omega
    simp [fieldW]
  · obtain rfl : k = 17 := by omega
    simp [fieldN]
  · exact (hres k (by omega)).symm

/-- What holds of a row's command, and of what the rows after it name, holds of what the rows together name. -/
theorem forall_row {P : Prop} [Decidable P] {C : Instr → Prop} {a : Instr} {rows : Option Instr} (ha : P → C a)
    (hr : ∀ i, rows = some i → C i) : ∀ i, (if P then some a else rows) = some i → C i := by
  intro i h
  split_ifs at h with hp
  · cases h; exact ha hp
  · exact hr i h

/-- The command an opcode names has that opcode (R104). -/
theorem opcode_of_byOpcode {opc imm8 : Byte} {w n : Bool} :
    ∀ i, byOpcode opc imm8 w n = some i → i.opcode = opc := by
  unfold byOpcode
  iterate 20 refine forall_row (C := fun i => i.opcode = opc) (fun e => e.symm) ?_
  intro i h
  cases h

/-- What a word that decodes passes (R113). -/
theorem fields_of_decode {w : Word} {i : Instr} (h : decode w = some i) :
    byOpcode (fieldOpc w) (fieldImm8 w) (fieldW w) (fieldN w) = some i ∧ fieldRes w = 0#14
      ∧ (usesImm8 (fieldOpc w) = false → fieldImm8 w = 0#8) ∧ (usesW (fieldOpc w) = false → fieldW w = false)
      ∧ (usesN (fieldOpc w) = false → fieldN w = false) := by
  unfold decode decodeOrName at h
  split at h <;> rename_i hx
  · split at hx
    · simp at hx
    · next hb =>
      split_ifs at hx with h1 h2 h3 h4
      cases hx; cases h
      exact ⟨hb, by simpa using h1, fun hu => by by_contra hi; exact h2 ⟨hi, hu⟩,
        fun hu => by by_contra hi; exact h3 ⟨by simpa using hi, hu⟩,
        fun hu => by by_contra hi; exact h4 ⟨by simpa using hi, hu⟩⟩
  · simp at h

/-- Only one word decodes to `IRQ_DISPATCH`. -/
theorem decode_eq_irqDispatch {w : Word} : decode w = some .irqDispatch ↔ w = dispatchWord := by
  refine ⟨fun h => ?_, fun h => by rw [h]; decide⟩
  obtain ⟨hb, hres, himm, hw, hn⟩ := fields_of_decode h
  have ho : fieldOpc w = 0x50#8 := (opcode_of_byOpcode _ hb).symm
  rw [ho] at himm hw hn
  rw [← packWord_of_fields hres, ho, himm (by decide), hw (by decide), hn (by decide)]
  decide

/-! ### What an agent's step does, case by case (R101, R117, 60_exceptions.md R301) -/

theorem State.agentStep_no_line (hb : s.busy p = false) (hl : s.nextLine p = none) : s.agentStep p = .next s := by
  simp [State.agentStep, hb, hl]

theorem State.agentStep_deliverOnly {l : Line} (hb : s.busy p = false) (hl : s.nextLine p = some l)
    (hd : s.deliverOnly p l.cmd = true) : s.agentStep p = .next s := by
  simp [State.agentStep, hb, hl, hd]

theorem State.agentStep_line {l : Line} (hf : s.faulted = false) (hm : s.mayStep p = true) (hb : s.busy p = false)
    (hl : s.nextLine p = some l) (hd : s.deliverOnly p l.cmd = false) :
    s.agentStep p = (s.writeArgs p l).writeCmd p l.cmd := by
  simp [State.agentStep, hf, hm, hb, hl, hd]

theorem State.agentStep_busy {i : Instr} (hf : s.faulted = false) (hm : s.mayStep p = true) (hb : s.busy p = true)
    (hc : commandOf (s.port p).opc (s.agent p) = some i) : s.agentStep p = exec i { s with cur := p } := by
  simp [State.agentStep, hf, hm, hb, hc]

theorem State.writeCmd_illegal {w : Word} (hf : s.faulted = false) (hb : s.busy p = false) (hd : decode w = none) :
    s.writeCmd p w = .next (s.faultedWith p 0x0B#8 (w.extractLsb' 0 8)) := by
  simp only [State.writeCmd, hf, hb, hd, Bool.false_eq_true, if_false]; rfl

theorem State.writeCmd_legal {w : Word} {i : Instr} (hf : s.faulted = false) (hb : s.busy p = false)
    (hd : decode w = some i) : s.writeCmd p w = exec i { s with cur := p } := by
  simp [State.writeCmd, hf, hb, hd]

theorem State.writeArgs_illegal {l : Line} (hd : decode l.cmd = none) : s.writeArgs p l = s := by
  simp [State.writeArgs, hd]

theorem State.writeArgs_legal {l : Line} {i : Instr} (hd : decode l.cmd = some i) :
    s.writeArgs p l = s.setPort p
      { s.port p with
        arg0 := if i.readsArg0 then l.arg0 else (s.port p).arg0
        arg1 := if i.readsArg1 then l.arg1 else (s.port p).arg1 } := by
  simp [State.writeArgs, hd]

/-- The line that only a delivery may issue is the `IRQ_DISPATCH` command on the interrupt port (R260). -/
theorem State.deliverOnly_iff {w : Word} {i : Instr} (hd : decode w = some i) :
    s.deliverOnly p w = true ↔ s.kind p = .interrupt ∧ i = .irqDispatch := by
  rw [State.deliverOnly, Bool.and_eq_true, decide_eq_true_eq, decide_eq_true_eq, ← decode_eq_irqDispatch, hd,
    Option.some_inj]

/-- An illegal line is not the one that only a delivery may issue. -/
theorem State.deliverOnly_illegal {w : Word} (hd : decode w = none) : s.deliverOnly p w = false := by
  by_contra hx
  have hw : w = dispatchWord := by simp [State.deliverOnly] at hx; exact hx.2
  rw [decode_eq_irqDispatch.mpr hw] at hd
  simp at hd

/-- A line that decodes to nothing records `ILLEGAL_ENCODING` (R101, R105). -/
theorem State.agentStep_illegal {l : Line} (hf : s.faulted = false) (hm : s.mayStep p = true)
    (hb : s.busy p = false) (hl : s.nextLine p = some l) (hd : decode l.cmd = none) :
    s.agentStep p = .next (s.faultedWith p 0x0B#8 (l.cmd.extractLsb' 0 8)) := by
  rw [State.agentStep_line hf hm hb hl (State.deliverOnly_illegal hd), State.writeArgs_illegal hd,
    State.writeCmd_illegal hf hb hd]

/-- A line that decodes runs its command with the operands that the command reads (R103, R117). -/
theorem State.agentStep_command {l : Line} {i : Instr} (hf : s.faulted = false) (hm : s.mayStep p = true)
    (hb : s.busy p = false) (hl : s.nextLine p = some l) (hd : decode l.cmd = some i)
    (hi : ¬(s.kind p = .interrupt ∧ i = .irqDispatch)) :
    s.agentStep p = exec i
      { s with
        cur := p
        ports := s.ports.set p
          { s.port p with
            arg0 := if i.readsArg0 then l.arg0 else (s.port p).arg0
            arg1 := if i.readsArg1 then l.arg1 else (s.port p).arg1 } } := by
  rw [State.agentStep_line hf hm hb hl (by rwa [← Bool.not_eq_true, State.deliverOnly_iff hd]),
    State.writeArgs_legal hd]
  exact State.writeCmd_legal (by simpa using hf) (by simpa [State.busy, State.setPort_port] using hb) hd

/-- Which commands read `ARG0` and `ARG1` (R103). -/
theorem readsArg_iff (i : Instr) :
    (i.readsArg0 = true ↔ i.opcode ∈ [0x10#8, 0x11#8, 0x13#8, 0x20#8])
      ∧ (i.readsArg1 = true ↔ i.opcode ∈ [0x10#8, 0x11#8, 0x13#8]) := by
  cases i <;> simp [Instr.readsArg0, Instr.readsArg1, Instr.opcode]

/-- Settles O8: the event is the schedule's next, and a port's event is its agent's step. -/
theorem stepRunsDecodedCommand : Obligations.StepRunsDecodedCommand := by
  refine ⟨fun s e rest hw hs => step_sched hw hs, fun s hw hs => step_free hw hs, fun s hw => by simp [step, hw],
    fun s p hn => ⟨fun hp => ?_, fun hp => ?_⟩, readsArg_iff,
    fun _ => ⟨rfl, rfl, rfl, rfl, rfl, rfl, rfl, rfl, rfl, rfl, rfl, rfl, rfl, rfl⟩,
    fun s p rest hw hs hf hm hb => ⟨fun hl => ?_, fun l hl hd => ?_⟩,
    fun s p rest l i hw hs hf hm hb hl hd => ⟨fun hi => ?_, fun hk hi => ?_⟩,
    fun s p rest i hw hs hf hm hb hc => ?_⟩
  · refine State.nextLine_thread ?_
    cases hk : s.kind p
    · rfl
    · exact absurd ((s.kind_eq_interrupt hn p).mp hk) hp
  · exact State.nextLine_interrupt ((s.kind_eq_interrupt hn p).mpr hp)
  all_goals rw [step_sched hw hs, State.runEvent]
  · exact State.agentStep_no_line hb hl
  · exact State.agentStep_illegal hf hm hb hl hd
  · exact State.agentStep_command hf hm hb hl hd hi
  · exact State.agentStep_deliverOnly hb hl ((State.deliverOnly_iff hd).mpr ⟨hk, hi⟩)
  · exact State.agentStep_busy hf hm hb hc

end Sys2Proof.Machine
end

section
/-! SUPPORT. The words of the register window, bit by bit (10_state.md R42 to R50). -/

namespace Sys2Proof.Machine

variable (s : State)

/-- A flag placed at a bit of a register word stands at that bit and nowhere else. -/
theorem bitAt_getLsbD (b : Bool) {n : Nat} (hn : n < 32) (k : Nat) :
    (bitAt b n).getLsbD k = (b && decide (k = n)) := by
  cases b
  · simp [bitAt]
  · rw [bitAt, if_pos rfl, BitVec.getLsbD_shiftLeft, BitVec.getLsbD_one]
    by_cases hk : k = n
    · subst hk; simp [hn]
    · simp [hk]; omega

/-- A port number is three bits wide. -/
theorem port_testBit (p : PortId) {k : Nat} (hk : 3 ≤ k) : p.val.testBit k = false :=
  Nat.testBit_eq_false_of_lt (lt_of_lt_of_le p.isLt (Nat.pow_le_pow_right (n := 2) (by omega) hk))

/-- A field that the flag's bit lies outside of is 0. -/
theorem bitAt_extract (b : Bool) {n i len : Nat} (hn : n < 32) (h : n < i ∨ i + len ≤ n) :
    (bitAt b n).extractLsb' i len = 0#len := by
  apply BitVec.eq_of_getLsbD_eq
  intro k hk
  simp [BitVec.getLsbD_extractLsb', bitAt_getLsbD b hn, show i + k ≠ n by omega]

/-- A bit of the lock's owner, shifted to its place in `STATUS`. -/
theorem owner_getLsbD (p : PortId) {k : Nat} (hk : k < 32) :
    (BitVec.ofNat 32 p.val <<< 8).getLsbD k = (decide (8 ≤ k) && p.val.testBit (k - 8)) := by
  rw [BitVec.getLsbD_shiftLeft, BitVec.getLsbD_ofNat]
  by_cases h8 : 8 ≤ k <;> simp [hk, h8, show k - 8 < 32 by omega]

/-- The bits of `STATUS` (10_state.md R42). -/
theorem State.statusWord_getLsbD (k : Nat) (hk : k < 32) : s.statusWord.getLsbD k =
    ((s.earlyDone && decide (k = 0)) || (s.initDone && decide (k = 1)) || (s.rbInitDone && decide (k = 2))
      || (s.txIrqEn && decide (k = 3)) || (s.failureMode && decide (k = 4)) || (s.isEmpty && decide (k = 5))
      || (s.isFull && decide (k = 6)) || (s.lockHeld && decide (k = 7))
      || (decide (8 ≤ k) && s.lockOwner.val.testBit (k - 8)) || (s.wakePend && decide (k = 11))
      || (s.irqOut && decide (k = 12)) || (s.faulted && decide (k = 13))) := by
  simp (disch := decide) only [State.statusWord, BitVec.getLsbD_or, bitAt_getLsbD, owner_getLsbD s.lockOwner hk]

/-- The flags of `STATUS` stand at the bits R42 names. -/
theorem State.statusWord_flags :
    (s.statusWord.getLsbD 0 = s.earlyDone ∧ s.statusWord.getLsbD 1 = s.initDone
      ∧ s.statusWord.getLsbD 2 = s.rbInitDone ∧ s.statusWord.getLsbD 3 = s.txIrqEn
      ∧ s.statusWord.getLsbD 4 = s.failureMode ∧ s.statusWord.getLsbD 5 = s.isEmpty
      ∧ s.statusWord.getLsbD 6 = s.isFull ∧ s.statusWord.getLsbD 7 = s.lockHeld)
      ∧ s.statusWord.getLsbD 11 = s.wakePend ∧ s.statusWord.getLsbD 12 = s.irqOut
      ∧ s.statusWord.getLsbD 13 = s.faulted := by
  refine ⟨⟨?_, ?_, ?_, ?_, ?_, ?_, ?_, ?_⟩, ?_, ?_, ?_⟩ <;>
    (rw [s.statusWord_getLsbD _ (by decide)]; simp [port_testBit])

/-- `LOCK_OWNER` stands in bits 10:8 of `STATUS`. -/
theorem State.statusWord_owner : (s.statusWord.extractLsb' 8 3).toNat = s.lockOwner.val := by
  have hx : (BitVec.ofNat 32 s.lockOwner.val <<< 8).extractLsb' 8 3 = BitVec.ofNat 3 s.lockOwner.val := by
    apply BitVec.eq_of_getLsbD_eq
    intro k hk
    rw [BitVec.getLsbD_extractLsb', owner_getLsbD _ (by omega), BitVec.getLsbD_ofNat]
    simp
  simp (disch := decide) only [State.statusWord, BitVec.extractLsb'_or, bitAt_extract, hx, BitVec.or_zero,
    BitVec.zero_or]
  simp

/-- The bits of `STATUS` above `FAULTED` are 0. -/
theorem State.statusWord_reserved : s.statusWord.extractLsb' 14 18 = 0#18 := by
  have hx : (BitVec.ofNat 32 s.lockOwner.val <<< 8).extractLsb' 14 18 = 0#18 := by
    apply BitVec.eq_of_getLsbD_eq
    intro k hk
    rw [BitVec.getLsbD_extractLsb', owner_getLsbD _ (by omega), port_testBit _ (by omega)]
    simp
  simp (disch := decide) only [State.statusWord, BitVec.extractLsb'_or, bitAt_extract, hx, BitVec.or_zero]

/-- The bits of `IMASK` (R43). -/
theorem State.imaskWord_getLsbD (k : Nat) : s.imaskWord.getLsbD k =
    ((s.imask.rxrdyM && decide (k = 0)) || (s.imask.rxtoM && decide (k = 1))
      || (s.imask.txrdyM && decide (k = 2))) := by
  simp (disch := decide) only [State.imaskWord, BitVec.getLsbD_or, bitAt_getLsbD]

/-- The bits of `IPEND` (R44). -/
theorem State.ipendWord_getLsbD (k : Nat) : s.ipendWord.getLsbD k =
    ((s.rxrdyP && decide (k = 0)) || (s.rxtoP && decide (k = 1)) || (s.txrdyP && decide (k = 2))
      || (s.rxrdyA && decide (k = 4)) || (s.rxtoA && decide (k = 5)) || (s.txrdyA && decide (k = 6))) := by
  simp (disch := decide) only [State.ipendWord, BitVec.getLsbD_or, bitAt_getLsbD]

/-- The flags of `IMASK` stand at the bits R43 names, and the bits above them are 0. -/
theorem State.imaskWord_fields :
    s.imaskWord.getLsbD 0 = s.imask.rxrdyM ∧ s.imaskWord.getLsbD 1 = s.imask.rxtoM
      ∧ s.imaskWord.getLsbD 2 = s.imask.txrdyM ∧ s.imaskWord.extractLsb' 3 29 = 0#29 := by
  refine ⟨(s.imaskWord_getLsbD 0).trans (by simp), (s.imaskWord_getLsbD 1).trans (by simp),
    (s.imaskWord_getLsbD 2).trans (by simp), ?_⟩
  simp (disch := decide) only [State.imaskWord, BitVec.extractLsb'_or, bitAt_extract, BitVec.or_zero]

/-- The flags of `IPEND` stand at the bits R44 names, and the bits between and above them are 0. -/
theorem State.ipendWord_fields :
    s.ipendWord.getLsbD 0 = s.rxrdyP ∧ s.ipendWord.getLsbD 1 = s.rxtoP ∧ s.ipendWord.getLsbD 2 = s.txrdyP
      ∧ s.ipendWord.getLsbD 3 = false ∧ s.ipendWord.getLsbD 4 = s.rxrdyA ∧ s.ipendWord.getLsbD 5 = s.rxtoA
      ∧ s.ipendWord.getLsbD 6 = s.txrdyA ∧ s.ipendWord.extractLsb' 7 25 = 0#25 := by
  refine ⟨(s.ipendWord_getLsbD 0).trans (by simp), (s.ipendWord_getLsbD 1).trans (by simp),
    (s.ipendWord_getLsbD 2).trans (by simp), (s.ipendWord_getLsbD 3).trans (by simp),
    (s.ipendWord_getLsbD 4).trans (by simp), (s.ipendWord_getLsbD 5).trans (by simp),
    (s.ipendWord_getLsbD 6).trans (by simp), ?_⟩
  simp (disch := decide) only [State.ipendWord, BitVec.extractLsb'_or, bitAt_extract, BitVec.or_zero]

/-- The fields of `FAULT` (R46). -/
theorem State.faultWord_fields :
    s.faultWord.extractLsb' 0 8 = s.fault.code ∧ s.faultWord.extractLsb' 8 8 = s.fault.opc
      ∧ (s.faultWord.extractLsb' 16 3).toNat = s.fault.port.val ∧ s.faultWord.getLsbD 19 = false
      ∧ s.faultWord.extractLsb' 20 12 = s.fault.offset := by
  unfold State.faultWord
  refine ⟨BitVec.extractLsb'_append_eq_right, ?_, ?_, ?_, ?_⟩
  · rw [BitVec.extractLsb'_append_eq_of_le (by decide)]; exact BitVec.extractLsb'_append_eq_right
  · iterate 2 rw [BitVec.extractLsb'_append_eq_of_le (by decide)]
    rw [BitVec.extractLsb'_append_eq_right]; simp
  · simp only [BitVec.getLsbD_append, Nat.reduceLT, Nat.reduceSub, if_false, if_true]; rfl
  · iterate 4 rw [BitVec.extractLsb'_append_eq_of_le (by decide)]
    exact BitVec.extractLsb'_eq_self

/-- The levels of `FIFOLVL` (R48). -/
theorem State.fifoWord_fields :
    s.fifoWord.extractLsb' 0 16 = BitVec.ofNat 16 s.rxf.length
      ∧ s.fifoWord.extractLsb' 16 16 = BitVec.ofNat 16 s.txf.length :=
  ⟨BitVec.extractLsb'_append_eq_right, BitVec.extractLsb'_append_eq_left⟩

/-- The flags of `PSTATE` (R50). -/
theorem State.pstateWord_getLsbD (p : PortId) {k : Nat} (hk : 16 ≤ k) : (s.pstateWord p).getLsbD k =
    ((s.busy p && decide (k = 16)) || (decide (s.kind p = .interrupt) && decide (k = 17))
      || (s.holdsLock p && decide (k = 18))) := by
  have hx : (((s.port p).opc ++ (s.port p).phase).setWidth 32).getLsbD k = false := by
    rw [BitVec.getLsbD_setWidth, BitVec.getLsbD_of_ge _ _ hk, Bool.and_false]
  simp (disch := decide) only [State.pstateWord, BitVec.getLsbD_or, bitAt_getLsbD, hx, Bool.false_or]

/-- The opcode and the phase in `PSTATE` (R50). -/
theorem State.pstateWord_command (p : PortId) :
    (s.pstateWord p).extractLsb' 0 8 = (s.port p).phase ∧ (s.pstateWord p).extractLsb' 8 8 = (s.port p).opc := by
  constructor
  · simp (disch := decide) only [State.pstateWord, BitVec.extractLsb'_or, bitAt_extract, BitVec.or_zero,
      BitVec.extractLsb'_setWidth_of_le, BitVec.extractLsb'_append_eq_right]
  · simp (disch := decide) only [State.pstateWord, BitVec.extractLsb'_or, bitAt_extract, BitVec.or_zero,
      BitVec.extractLsb'_setWidth_of_le, BitVec.extractLsb'_append_eq_left]

/-- The flags of `PSTATE` stand at the bits R50 names, and the bits above them are 0. -/
theorem State.pstateWord_flags (p : PortId) :
    (s.pstateWord p).getLsbD 16 = s.busy p ∧ (s.pstateWord p).getLsbD 17 = decide (s.kind p = .interrupt)
      ∧ (s.pstateWord p).getLsbD 18 = s.holdsLock p ∧ (s.pstateWord p).extractLsb' 19 13 = 0#13 := by
  have hbit := fun k (hk : 16 ≤ k) => s.pstateWord_getLsbD p hk
  refine ⟨(hbit 16 (by decide)).trans (by simp), (hbit 17 (by decide)).trans (by simp),
    (hbit 18 (by decide)).trans (by simp), BitVec.eq_of_getLsbD_eq fun k hk => ?_⟩
  rw [BitVec.getLsbD_extractLsb', hbit _ (by omega)]
  simp [show ∀ n, n < 19 → 19 + k ≠ n by omega]

/-- Offset `k` of port `p`'s bank (R50, R51) lies above the block's registers and in no other bank. -/
theorem State.windowRead_bank (p : PortId) (hp : p.val ≤ s.params.nthread) {k : Nat} (hk : k < 0x20) :
    s.windowRead (0x100 + k + 0x20 * p.val) =
      if k = 0x04 then some (s.port p).arg0
      else if k = 0x08 then some (s.port p).arg1
      else if k = 0x0C then some (s.port p).result
      else if k = 0x10 then some (s.pstateWord p)
      else none := by
  have hbank : (0x100 + k + 0x20 * p.val - 0x100) / 0x20 = p.val := by omega
  have hoff : (0x100 + k + 0x20 * p.val - 0x100) % 0x20 = k := by omega
  have hport : Fin.ofNat 8 p.val = p := by simp
  unfold State.windowRead
  iterate 12 rw [if_neg (by omega)]
  rw [if_pos (by omega)]
  simp only [hbank, hoff, hport]

/-- A length below 65536 is what a 16-bit field holds of it. -/
theorem toNat_level {n : Nat} {v : BitVec 16} (hv : v = BitVec.ofNat 16 n) (hn : n < 65536) : v.toNat = n := by
  rw [hv, BitVec.toNat_ofNat]; exact Nat.mod_eq_of_lt hn

/-- The registers of port `p`'s bank stand at the offsets R49 to R51 name. -/
theorem State.windowRead_port (p : PortId) (hp : p.val ≤ s.params.nthread) :
    s.windowRead (0x104 + 0x20 * p.val) = some (s.port p).arg0
      ∧ s.windowRead (0x108 + 0x20 * p.val) = some (s.port p).arg1
      ∧ s.windowRead (0x10C + 0x20 * p.val) = some (s.port p).result
      ∧ s.windowRead (0x110 + 0x20 * p.val) = some (s.pstateWord p) :=
  ⟨s.windowRead_bank p hp (k := 0x04) (by decide), s.windowRead_bank p hp (k := 0x08) (by decide),
    s.windowRead_bank p hp (k := 0x0C) (by decide), s.windowRead_bank p hp (k := 0x10) (by decide)⟩

/-- Settles O49: each word field by field, each bank register by its offset, the derived values by their
definitions. -/
theorem windowWordsHoldTheirFields : Obligations.WindowWordsHoldTheirFields := by
  intro s
  obtain ⟨⟨h0, h1, h2, h3, h4, h5, h6, h7⟩, h11, h12, h13⟩ := s.statusWord_flags
  refine ⟨⟨rfl, h0, h1, h2, h3, h4, h5, h6, h7, s.statusWord_owner, h11, h12, h13, s.statusWord_reserved⟩,
    ⟨rfl, s.imaskWord_fields⟩, ⟨rfl, s.ipendWord_fields⟩, ⟨rfl, s.faultWord_fields⟩,
    ⟨rfl, toNat_level s.fifoWord_fields.1, toNat_level s.fifoWord_fields.2⟩, ⟨rfl, rfl, rfl, rfl, rfl, rfl, rfl⟩,
    ⟨rfl, rfl, rfl, rfl, rfl, rfl, rfl⟩,
    ⟨fun hc => by simp [State.count, hc], fun hr hw => ?_, rfl, rfl, rfl⟩, fun p hn hp => ?_⟩
  · rw [State.count_eq hr hw, Nat.add_comm]
  · obtain ⟨harg0, harg1, hres, hps⟩ := s.windowRead_port p hp
    obtain ⟨hph, hop⟩ := s.pstateWord_command p
    obtain ⟨hbusy, hkind, hlock, hzero⟩ := s.pstateWord_flags p
    exact ⟨harg0, harg1, hres, hps, hph, hop, hbusy, hkind, hlock, hzero, rfl, s.kind_eq_interrupt hn p, rfl⟩

end Sys2Proof.Machine
end

section
/-! SUPPORT. What a register access does, one lemma for each of its outcomes, and which offsets of the window can be
read (20_memory.md R71, R75 to R77). -/

namespace Sys2Proof.Machine

variable {s : State} {a : Access} {o : Nat}

/-! ### The offsets that can be read (10_state.md R41, 20_memory.md R76) -/

/-- Every aligned offset of the block's own registers, 0x000 to 0x02C, can be read (R41). -/
theorem State.windowRead_block_ne_none (ho : o < 0x030) (h4 : o % 4 = 0) : s.windowRead o ≠ none := by
  obtain ⟨k, rfl⟩ := Nat.dvd_of_mod_eq_zero h4
  have hk : k < 12 := by omega
  interval_cases k <;> exact Option.some_ne_none _

/-- Between the block's registers and the ports' banks, and above the last bank, nothing can be read (R76). -/
theorem State.windowRead_reserved (ho : 0x030 ≤ o)
    (hb : ¬ (0x100 ≤ o ∧ o < 0x100 + 0x20 * (s.params.nthread + 1))) : s.windowRead o = none := by
  unfold State.windowRead
  iterate 12 rw [if_neg (by omega)]
  exact if_neg hb

/-- In a port's bank the aligned offsets that cannot be read are `CMD` at 0x00 and those from 0x14 on (R49, R76). -/
theorem State.windowRead_bank_eq_none_iff (ho : 0x100 ≤ o) (hin : o < 0x200) (h4 : o % 4 = 0)
    (hb : o < 0x100 + 0x20 * (s.params.nthread + 1)) :
    s.windowRead o = none ↔ o % 0x20 = 0x00 ∨ 0x14 ≤ o % 0x20 := by
  have hread := s.windowRead_bank ⟨(o - 0x100) / 0x20, by omega⟩ (by simp only; omega)
    (Nat.mod_lt o (by decide : 0 < 0x20))
  rw [show 0x100 + o % 0x20 + 0x20 * ((o - 0x100) / 0x20) = o by omega] at hread
  rw [hread]
  split_ifs <;> simp only [false_iff, true_iff] <;> omega

/-- The aligned offsets of the window that cannot be read are the reserved ones and each bank's `CMD` (R76). -/
theorem State.windowRead_eq_none_iff (hin : o < 0x200) (h4 : o % 4 = 0) :
    s.windowRead o = none ↔
      (0x030 ≤ o ∧ o < 0x100) ∨ (0x100 ≤ o ∧ (o % 0x20 = 0x00 ∨ 0x14 ≤ o % 0x20))
        ∨ 0x100 + 0x20 * (s.params.nthread + 1) ≤ o := by
  rcases lt_or_ge o 0x030 with hlow | hlow
  · exact iff_of_false (State.windowRead_block_ne_none hlow h4) (by omega)
  · by_cases hb : 0x100 ≤ o ∧ o < 0x100 + 0x20 * (s.params.nthread + 1)
    · rw [State.windowRead_bank_eq_none_iff hb.1 hin h4 hb.2]
      omega
    · exact iff_of_true (State.windowRead_reserved hlow hb) (by omega)

/-! ### The outcomes of an access -/

/-- The only access that is no step of its agent is a 32-bit write of the port's own `CMD` (46_environment.md
R260). -/
theorem State.dispatchAccess_inv (h : s.dispatchAccess a = true) :
    a.width = 32 ∧ (a.addr - s.params.blockBase).toNat = 0x100 + 0x20 * a.port.val ∧ a.kind ≠ .read := by
  simp only [State.dispatchAccess, Bool.and_eq_true, decide_eq_true_eq] at h
  obtain ⟨⟨hw, ho⟩, hk⟩ := h
  refine ⟨hw, ho, fun hr => ?_⟩
  simp [hr] at hk

section
variable (hm : s.mayStep a.port = true) (ho : (a.addr - s.params.blockBase).toNat = o)
include hm ho

/-- An access outside the window has no meaning here (R71). -/
theorem State.access_outside (hout : 0x200 ≤ o) : s.access a = .refused .outsideWindow := by
  have hd : s.dispatchAccess a = false := Bool.eq_false_iff.mpr fun h => by
    have := (State.dispatchAccess_inv h).2.1
    omega
  simp [State.access, hm, hd, ho, hout]

/-- An access of another width than 32 bits or not 4-aligned is a bus error (R75). -/
theorem State.access_malformed (hin : o < 0x200) (hbad : a.width ≠ 32 ∨ o % 4 ≠ 0) :
    s.access a = .next (s.busFault a.port o) := by
  have hd : s.dispatchAccess a = false := Bool.eq_false_iff.mpr fun h => by
    obtain ⟨hw, hcmd, -⟩ := State.dispatchAccess_inv h
    omega
  simp [State.access, hm, hd, ho, hin.not_ge, hbad]

variable (hin : o < 0x200) (hw : a.width = 32) (h4 : o % 4 = 0)
include hin hw h4

/-- A read of a register leaves its value in `busData` (R77, log 10). -/
theorem State.access_read (hk : a.kind = .read) {v : Word} (hv : s.windowRead o = some v) :
    s.access a = .next { s with busData := v } := by
  have hd : s.dispatchAccess a = false := Bool.eq_false_iff.mpr fun h => (State.dispatchAccess_inv h).2.2 hk
  simp [State.access, hm, hd, ho, hin.not_ge, hw, h4, hk, hv]

/-- A read where nothing can be read is a bus error (R76). -/
theorem State.access_read_none (hk : a.kind = .read) (hv : s.windowRead o = none) :
    s.access a = .next (s.busFault a.port o) := by
  have hd : s.dispatchAccess a = false := Bool.eq_false_iff.mpr fun h => (State.dispatchAccess_inv h).2.2 hk
  simp [State.access, hm, hd, ho, hin.not_ge, hw, h4, hk, hv]

/-- A write elsewhere than to the port's own `CMD` is a write of the window (R77). -/
theorem State.access_write {v : Word} (hk : a.kind = .write v) (hcmd : o ≠ 0x100 + 0x20 * a.port.val) :
    s.access a = s.windowWrite a.port o v := by
  have hd : s.dispatchAccess a = false := Bool.eq_false_iff.mpr fun h =>
    hcmd (ho.symm.trans (State.dispatchAccess_inv h).2.1)
  simp [State.access, hm, hd, ho, hin.not_ge, hw, h4, hk]

end

/-! ### Writes of the window -/

section
variable (hf : s.faulted = false) (p : PortId) (v : Word)
include hf

/-- A bus error in a block that is not halted is recorded (60_exceptions.md R281, R282). -/
theorem State.busFault_of_not_faulted (o : Nat) : s.busFault p o =
    { s with fault := { code := 0x0D#8, opc := 0xFF#8, port := p, offset := BitVec.ofNat 12 o } } := by
  rw [State.busFault, hf]; rfl

/-- A write of a port's own `ARG0` stores the word (10_state.md R49). -/
theorem State.windowWrite_arg0 :
    s.windowWrite p (0x104 + 0x20 * p.val) v = .next (s.setPort p { s.port p with arg0 := v }) := by
  rw [State.windowWrite, if_neg (by omega), if_pos rfl, hf]; rfl

/-- A write of a port's own `ARG1` stores the word (10_state.md R49). -/
theorem State.windowWrite_arg1 :
    s.windowWrite p (0x108 + 0x20 * p.val) v = .next (s.setPort p { s.port p with arg1 := v }) := by
  rw [State.windowWrite, if_neg (by omega), if_neg (by omega), if_pos rfl, hf]; rfl

end

/-- A write of anything but a port's own `CMD`, `ARG0` and `ARG1` is a bus error (R76). -/
theorem State.windowWrite_other {p : PortId} {v : Word} (hcmd : o ≠ 0x100 + 0x20 * p.val)
    (harg0 : o ≠ 0x104 + 0x20 * p.val) (harg1 : o ≠ 0x108 + 0x20 * p.val) :
    s.windowWrite p o v = .next (s.busFault p o) := by
  rw [State.windowWrite, if_neg hcmd, if_neg harg0, if_neg harg1]

/-- Settles O50: the readable offsets region by region, then one outcome of an access for each kind of error. -/
theorem badAccessRaisesBusError : Obligations.BadAccessRaisesBusError := by
  refine ⟨fun s o hin h4 => State.windowRead_eq_none_iff hin h4,
    fun s a hm hout => State.access_outside hm rfl hout, ?_⟩
  intro s a hf hm o hin hbad
  rw [← State.busFault_of_not_faulted hf a.port o]
  by_cases hmal : a.width ≠ 32 ∨ o % 4 ≠ 0
  · exact State.access_malformed hm rfl hin hmal
  · obtain ⟨hw, h4⟩ : a.width = 32 ∧ o % 4 = 0 := by omega
    rcases hbad with hw' | h4' | ⟨hk, hres⟩ | ⟨v, hk, hcmd, harg0, harg1⟩
    · exact absurd hw hw'
    · exact absurd h4 h4'
    · exact State.access_read_none hm rfl hin hw h4 hk ((State.windowRead_eq_none_iff hin h4).mpr hres)
    · exact (State.access_write hm rfl hin hw h4 hk hcmd).trans (State.windowWrite_other hcmd harg0 harg1)

/-- Settles O51: a read by its outcome, a write of `ARG0` or `ARG1` by the window write it is. -/
theorem readsAndOperandWritesHaveNoOtherEffect : Obligations.ReadsAndOperandWritesHaveNoOtherEffect := by
  intro s a hm o hin hw h4
  refine ⟨fun v hk hv => State.access_read hm rfl hin hw h4 hk hv, fun v hk hf harg => ?_, fun v hk hf harg => ?_⟩
  · have hwrite := State.access_write hm harg (harg ▸ hin) hw (harg ▸ h4) hk (by omega)
    exact hwrite.trans (State.windowWrite_arg0 hf a.port v)
  · have hwrite := State.access_write hm harg (harg ▸ hin) hw (harg ▸ h4) hk (by omega)
    exact hwrite.trans (State.windowWrite_arg1 hf a.port v)

end Sys2Proof.Machine
end

section
/-! SUPPORT. The decoder as an equation on the fields of a word, its inverse the encoder, and the rows of the opcode
table (30_encoding.md R100 to R119). -/

namespace Sys2Proof.Machine

variable {w : Word} {i : Instr}

/-! ### Words and their fields (R100) -/

/-- A word is packed from given fields exactly if those are its fields and its `RES` is 0. -/
theorem eq_packWord_iff {opc imm8 : Byte} {fw fn : Bool} :
    w = packWord opc imm8 fw fn ↔
      fieldOpc w = opc ∧ fieldImm8 w = imm8 ∧ fieldW w = fw ∧ fieldN w = fn ∧ fieldRes w = 0#14 := by
  constructor
  · rintro rfl
    exact Laws.packWord_fields opc imm8 fw fn
  · rintro ⟨rfl, rfl, rfl, rfl, hres⟩
    exact (packWord_of_fields hres).symm

/-- The fields of a command's word. -/
theorem encode_fields (i : Instr) :
    fieldOpc (encode i) = i.opcode ∧ fieldImm8 (encode i) = i.imm8 ∧ fieldW (encode i) = i.flagW
      ∧ fieldN (encode i) = i.flagN ∧ fieldRes (encode i) = 0#14 :=
  eq_packWord_iff.mp rfl

/-! ### The opcodes and the operands of their commands (R103, R104, R105) -/

/-- The opcodes that R104 assigns, in the order of the opcode table; every other one is reserved (R105). -/
def opcodes : List Byte :=
  [0x10#8, 0x11#8, 0x12#8, 0x13#8, 0x14#8, 0x15#8, 0x16#8, 0x20#8, 0x21#8, 0x22#8, 0x30#8, 0x31#8, 0x32#8, 0x33#8,
    0x34#8, 0x40#8, 0x41#8, 0x42#8, 0x43#8, 0x50#8]

theorem opcode_mem_opcodes (i : Instr) : i.opcode ∈ opcodes := by
  cases i <;> simp [opcodes, Instr.opcode]

/-- A list of rows names nothing exactly if neither its first row nor those after it do. -/
theorem row_eq_none_iff {P : Prop} [Decidable P] {a : Instr} {rows : Option Instr} :
    (if P then some a else rows) = none ↔ ¬P ∧ rows = none := by
  split_ifs with hp <;> simp [hp]

/-- An opcode names a command unless it is reserved. -/
theorem byOpcode_eq_none_iff {opc imm8 : Byte} {fw fn : Bool} : byOpcode opc imm8 fw fn = none ↔ opc ∉ opcodes := by
  simp only [byOpcode, row_eq_none_iff, opcodes, List.mem_cons, List.not_mem_nil, or_false, not_or, and_true]

/-- A command is the one its opcode names, given its operands. -/
theorem byOpcode_self (i : Instr) : byOpcode i.opcode i.imm8 i.flagW i.flagN = some i := by
  cases i <;> rfl

/-- The command an opcode names takes the operand fields that the opcode uses, and has 0 for the others. -/
theorem operands_of_byOpcode {opc imm8 : Byte} {fw fn : Bool} :
    ∀ i, byOpcode opc imm8 fw fn = some i →
      i.imm8 = (if usesImm8 opc then imm8 else 0#8) ∧ i.flagW = (if usesW opc then fw else false)
        ∧ i.flagN = (if usesN opc then fn else false) := by
  unfold byOpcode
  iterate 20
    refine forall_row (C := fun i => i.imm8 = (if usesImm8 opc then imm8 else 0#8)
      ∧ i.flagW = (if usesW opc then fw else false) ∧ i.flagN = (if usesN opc then fn else false))
      (by rintro rfl; exact ⟨rfl, rfl, rfl⟩) ?_
  intro i h
  cases h

theorem usesImm8_eq_false_iff {opc : Byte} : usesImm8 opc = false ↔ opc ∉ [0x14#8, 0x21#8] := by
  simp [usesImm8]

theorem usesW_eq_false_iff {opc : Byte} : usesW opc = false ↔ opc ∉ [0x12#8, 0x13#8, 0x22#8] := by
  simp [usesW, and_assoc]

theorem usesN_eq_false_iff {opc : Byte} : usesN opc = false ↔ opc ≠ 0x13#8 := by
  simp [usesN]

/-! ### The decoder as an equation (R106, R113) -/

/-- The fields that a word's opcode does not use are 0, and so is `RES` (R106). -/
structure StrayFree (w : Word) : Prop where
  res : fieldRes w = 0#14
  imm8 : usesImm8 (fieldOpc w) = false → fieldImm8 w = 0#8
  flagW : usesW (fieldOpc w) = false → fieldW w = false
  flagN : usesN (fieldOpc w) = false → fieldN w = false

/-- A word decodes to the command that its opcode names, if no field is set that the opcode does not use. -/
theorem decode_eq_some_iff :
    decode w = some i ↔ byOpcode (fieldOpc w) (fieldImm8 w) (fieldW w) (fieldN w) = some i ∧ StrayFree w := by
  constructor
  · intro h
    obtain ⟨hb, hres, himm, hw, hn⟩ := fields_of_decode h
    exact ⟨hb, hres, himm, hw, hn⟩
  · rintro ⟨hb, hres, himm, hw, hn⟩
    have himm' : ¬(fieldImm8 w ≠ 0#8 ∧ usesImm8 (fieldOpc w) = false) := fun h => h.1 (himm h.2)
    have hw' : ¬(fieldW w = true ∧ usesW (fieldOpc w) = false) := fun h => by simp [hw h.2] at h
    have hn' : ¬(fieldN w = true ∧ usesN (fieldOpc w) = false) := fun h => by simp [hn h.2] at h
    simp only [decode, decodeOrName, hb, hres, ne_eq, not_true, if_false, himm', hw', hn']

theorem decode_of_strayFree (h : StrayFree w) :
    decode w = byOpcode (fieldOpc w) (fieldImm8 w) (fieldW w) (fieldN w) :=
  Option.ext fun _ => decode_eq_some_iff.trans (and_iff_left h)

/-- A field set that the opcode does not use makes a word illegal (R106). -/
theorem decode_of_not_strayFree (h : ¬StrayFree w) : decode w = none :=
  Option.eq_none_iff_forall_ne_some.mpr fun _ hd => h (decode_eq_some_iff.mp hd).2

/-- A reserved opcode makes a word illegal (R105). -/
theorem decode_reserved_opcode (h : fieldOpc w ∉ opcodes) : decode w = none :=
  Option.eq_none_iff_forall_ne_some.mpr fun i hd =>
    Option.some_ne_none i ((decode_eq_some_iff.mp hd).1.symm.trans (byOpcode_eq_none_iff.mpr h))

theorem decode_reserved_bits (h : fieldRes w ≠ 0#14) : decode w = none :=
  decode_of_not_strayFree fun hs => h hs.res

theorem decode_stray_imm8 (h : fieldImm8 w ≠ 0#8) (hu : fieldOpc w ∉ [0x14#8, 0x21#8]) : decode w = none :=
  decode_of_not_strayFree fun hs => h (hs.imm8 (usesImm8_eq_false_iff.mpr hu))

theorem decode_stray_w (h : fieldW w = true) (hu : fieldOpc w ∉ [0x12#8, 0x13#8, 0x22#8]) : decode w = none :=
  decode_of_not_strayFree fun hs => by simp [hs.flagW (usesW_eq_false_iff.mpr hu)] at h

theorem decode_stray_n (h : fieldN w = true) (hu : fieldOpc w ≠ 0x13#8) : decode w = none :=
  decode_of_not_strayFree fun hs => by simp [hs.flagN (usesN_eq_false_iff.mpr hu)] at h

/-- A word decodes exactly if its opcode is not reserved and no field is set that the opcode does not use. -/
theorem decode_isSome_iff : (decode w).isSome = true ↔ fieldOpc w ∈ opcodes ∧ StrayFree w := by
  by_cases hs : StrayFree w
  · rw [decode_of_strayFree hs, Option.isSome_iff_ne_none, ne_eq, byOpcode_eq_none_iff, not_not, and_iff_left hs]
  · simp [decode_of_not_strayFree hs, hs]

/-! ### The decoder and the encoder -/

/-- A command's operands that its opcode does not use are 0, so its word sets no such field. -/
theorem encode_strayFree (i : Instr) : StrayFree (encode i) := by
  obtain ⟨hopc, himm, hw, hn, hres⟩ := encode_fields i
  obtain ⟨himm', hw', hn'⟩ := operands_of_byOpcode i (byOpcode_self i)
  constructor
  · exact hres
  · rw [hopc, himm]; intro hu; simpa [hu] using himm'
  · rw [hopc, hw]; intro hu; simpa [hu] using hw'
  · rw [hopc, hn]; intro hu; simpa [hu] using hn'

theorem decode_encode (i : Instr) : decode (encode i) = some i := by
  obtain ⟨hopc, himm, hw, hn, -⟩ := encode_fields i
  rw [decode_of_strayFree (encode_strayFree i), hopc, himm, hw, hn, byOpcode_self]

theorem encode_of_decode (h : decode w = some i) : encode i = w := by
  obtain ⟨hb, hs⟩ := decode_eq_some_iff.mp h
  obtain ⟨himm, hw, hn⟩ := operands_of_byOpcode i hb
  symm
  refine eq_packWord_iff.mpr ⟨(opcode_of_byOpcode i hb).symm, ?_, ?_, ?_, hs.res⟩
  · rw [himm, eq_comm, ite_eq_left_iff]
    exact fun hu => (hs.imm8 (eq_false_of_ne_true hu)).symm
  · rw [hw, eq_comm, ite_eq_left_iff]
    exact fun hu => (hs.flagW (eq_false_of_ne_true hu)).symm
  · rw [hn, eq_comm, ite_eq_left_iff]
    exact fun hu => (hs.flagN (eq_false_of_ne_true hu)).symm

/-- Settles O1: a command's word has the fields the decoder reads the command from, and a word that decodes is packed
from the command's fields. -/
theorem decodeInvertsEncode : Obligations.DecodeInvertsEncode :=
  ⟨decode_encode, fun _ _ => encode_of_decode⟩

/-! ### The rows of the opcode table (R113) -/

/-- The bits of a word that an opcode's command uses as operands. -/
def operandBits (opc : Byte) : Word :=
  packWord 0#8 (if usesImm8 opc then 0xFF#8 else 0#8) (usesW opc) (usesN opc)

/-- The row of an opcode: its mask has every bit but the operands', its match is the opcode. -/
def rowOf (opc : Byte) : Word × Word := (~~~operandBits opc, opc.setWidth 32)

/-- The opcode table has the row of each opcode. -/
theorem opcodeRows_eq : opcodeRows = opcodes.map rowOf := by decide

theorem mem_opcodeRows {r : Word × Word} : r ∈ opcodeRows ↔ ∃ opc ∈ opcodes, rowOf opc = r := by
  rw [opcodeRows_eq, List.mem_map]

/-- The match of a row is the opcode's word with no operand. -/
theorem setWidth_eq_packWord (opc : Byte) : opc.setWidth 32 = packWord opc 0#8 false false := by
  revert opc; decide

/-- A field of a word with some bits cleared is the field with its share of them cleared. -/
theorem extract_and_not (w v : Word) {start len : Nat} (h : start + len ≤ 32) :
    (w &&& ~~~v).extractLsb' start len = w.extractLsb' start len &&& ~~~v.extractLsb' start len := by
  ext k hk
  simp [show start + k < 32 by omega]

theorem operandBits_fields (opc : Byte) :
    fieldOpc (operandBits opc) = 0#8 ∧ fieldImm8 (operandBits opc) = (if usesImm8 opc then 0xFF#8 else 0#8)
      ∧ fieldW (operandBits opc) = usesW opc ∧ fieldN (operandBits opc) = usesN opc
      ∧ fieldRes (operandBits opc) = 0#14 :=
  eq_packWord_iff.mp rfl

/-- The fields of a word under a row's mask: the operand fields that the opcode uses are cleared. -/
theorem masked_fields (w : Word) (opc : Byte) :
    fieldOpc (w &&& (rowOf opc).1) = fieldOpc w
      ∧ fieldImm8 (w &&& (rowOf opc).1) = (if usesImm8 opc then 0#8 else fieldImm8 w)
      ∧ fieldW (w &&& (rowOf opc).1) = (if usesW opc then false else fieldW w)
      ∧ fieldN (w &&& (rowOf opc).1) = (if usesN opc then false else fieldN w)
      ∧ fieldRes (w &&& (rowOf opc).1) = fieldRes w := by
  obtain ⟨hopc, himm, hw, hn, hres⟩ := operandBits_fields opc
  refine ⟨?_, ?_, ?_, ?_, ?_⟩
  · refine (extract_and_not w _ (by decide)).trans ?_
    rw [← fieldOpc, ← fieldOpc, hopc]
    exact BitVec.and_allOnes
  · refine (extract_and_not w _ (by decide)).trans ?_
    rw [← fieldImm8, ← fieldImm8, himm]
    split_ifs
    · exact BitVec.and_zero
    · exact BitVec.and_allOnes
  · rw [← hw]; simp [rowOf, fieldW, Bool.and_comm]
  · rw [← hn]; simp [rowOf, fieldN, Bool.and_comm]
  · refine (extract_and_not w _ (by decide)).trans ?_
    rw [← fieldRes, ← fieldRes, hres]
    exact BitVec.and_allOnes

/-- A word matches an opcode's row exactly if it has that opcode and sets no field that the opcode does not use. -/
theorem matches_rowOf_iff {opc : Byte} :
    w &&& (rowOf opc).1 = (rowOf opc).2 ↔ fieldOpc w = opc ∧ StrayFree w := by
  obtain ⟨hopc, himm, hw, hn, hres⟩ := masked_fields w opc
  rw [show (rowOf opc).2 = _ from setWidth_eq_packWord opc, eq_packWord_iff, hopc, himm, hw, hn, hres]
  simp only [ite_eq_left_iff, Bool.not_eq_true]
  constructor
  · rintro ⟨rfl, himm, hw, hn, hres⟩
    exact ⟨rfl, hres, himm, hw, hn⟩
  · rintro ⟨rfl, hres, himm, hw, hn⟩
    exact ⟨rfl, himm, hw, hn, hres⟩

theorem decode_isSome_iff_row : (decode w).isSome = true ↔ ∃ r ∈ opcodeRows, w &&& r.1 = r.2 := by
  simp only [decode_isSome_iff, mem_opcodeRows, exists_exists_and_eq_and, matches_rowOf_iff]
  exact ⟨fun ⟨ho, hs⟩ => ⟨fieldOpc w, ho, rfl, hs⟩, fun ⟨_, ho, he, hs⟩ => ⟨he ▸ ho, hs⟩⟩

theorem row_of_decode (h : decode w = some i) :
    ∃ r ∈ opcodeRows, w &&& r.1 = r.2 ∧ r.2 = i.opcode.setWidth 32 := by
  obtain ⟨hb, hs⟩ := decode_eq_some_iff.mp h
  exact ⟨rowOf i.opcode, mem_opcodeRows.mpr ⟨i.opcode, opcode_mem_opcodes i, rfl⟩,
    matches_rowOf_iff.mpr ⟨(opcode_of_byOpcode i hb).symm, hs⟩, rfl⟩

/-- Two rows that a word matches are both the row of its opcode. -/
theorem opcodeRows_disjoint {r q : Word × Word} (hr : r ∈ opcodeRows) (hq : q ∈ opcodeRows) (hwr : w &&& r.1 = r.2)
    (hwq : w &&& q.1 = q.2) : r = q := by
  obtain ⟨a, -, rfl⟩ := mem_opcodeRows.mp hr
  obtain ⟨b, -, rfl⟩ := mem_opcodeRows.mp hq
  rw [← (matches_rowOf_iff.mp hwr).1, (matches_rowOf_iff.mp hwq).1]

/-- Settles O3: each check of R113 that fails makes the word illegal, and past all of them it sets no stray field; a
word matches a row exactly if it has the row's opcode and sets no stray field. -/
theorem decodeFollowsTableRows : Obligations.DecodeFollowsTableRows := by
  refine ⟨fun w => ?_, fun w => decode_isSome_iff_row, fun w i => row_of_decode,
    fun r hr q hq hne w hwr hwq => hne (opcodeRows_disjoint hr hq hwr hwq)⟩
  split
  · next hopc => exact decode_reserved_opcode hopc
  split
  · next hres => exact decode_reserved_bits hres
  split
  · next himm => exact decode_stray_imm8 himm.1 himm.2
  split
  · next hw => exact decode_stray_w hw.1 hw.2
  split
  · next hn => exact decode_stray_n hn.1 hn.2
  next hres himm hw hn =>
  refine decode_of_strayFree ⟨not_not.mp hres, fun hu => ?_, fun hu => ?_, fun hu => ?_⟩
  · by_contra h; exact himm ⟨h, usesImm8_eq_false_iff.mp hu⟩
  · by_contra h; exact hw ⟨Bool.not_eq_false _ |>.mp h, usesW_eq_false_iff.mp hu⟩
  · by_contra h; exact hn ⟨Bool.not_eq_false _ |>.mp h, usesN_eq_false_iff.mp hu⟩

/-- Settles O2: the decoder evaluates to the commands R119 names. -/
theorem exampleWordsDecode : Obligations.ExampleWordsDecode := by
  unfold Obligations.ExampleWordsDecode
  decide

/-- Settles O4: the stray fields and reserved opcodes one by one, then the issue of an illegal word. -/
theorem illegalWordsFaultAtIssue : Obligations.IllegalWordsFaultAtIssue :=
  ⟨fun _ => decode_reserved_opcode, fun _ => decode_reserved_bits,
    fun _ h h14 h21 => decode_stray_imm8 h (by simp [fieldOpc, h14, h21]),
    fun _ h h12 h13 h22 => decode_stray_w h (by simp [fieldOpc, h12, h13, h22]),
    fun _ => decode_stray_n, fun _ _ _ => State.writeCmd_illegal⟩

end Sys2Proof.Machine
end

section
/-! SUPPORT. What every command does alike: on a port of a kind that does not accept it, at the latch on the interrupt
port, and at a write of a `CMD` register (30_encoding.md R101, R114, R115). -/

namespace Sys2Proof.Machine

variable {s : State} {p : PortId} {i : Instr}

/-! ### Every command has the shape of `State.command` -/

/-- What the interrupt port copies into the agent's registers when it latches a command: the byte of `RB_PUSH`
(R101). -/
def latchOf (i : Instr) (a : Agent) : Agent :=
  match i with
  | .rbPush b => { a with byte := b }
  | _ => a

/-- One step of any command is that of `State.command`, for checks and steps of its own. -/
theorem exec_eq_command (i : Instr) (s : State) :
    ∃ checks start later, exec i s = .next (s.command i (latchOf i) checks start later) := by
  cases i <;> exact ⟨_, _, _, rfl⟩

/-- A command that its port's kind does not accept is not begun (R114). -/
theorem State.command_misplaced {latch : Agent → Agent} {checks : List (Bool × FaultCode)} {start : State → State}
    {later : Byte → State → State} (hf : s.faulted = false) (hi : (s.port s.cur).phase = Phase.idle)
    (ha : allowed (s.kind s.cur) i = false) :
    s.command i latch checks start later = s.raise s.cur .contextViolation i.opcode 0#12 := by
  simp [State.command, hf, hi, ha]

/-- The entry step waits until it is enabled (R115). -/
theorem State.command_pending {latch : Agent → Agent} {checks : List (Bool × FaultCode)} {start : State → State}
    {later : Byte → State → State} (ho : (s.port s.cur).opc = i.opcode) (hi : (s.port s.cur).phase = Phase.iPend)
    (he : s.entryEnabled s.cur = false) : s.command i latch checks start later = s := by
  have hidle : Phase.iPend ≠ Phase.idle := by decide
  simp [State.command, ho, hi, hidle, he]

/-- A command on an idle port of a kind that does not accept it records `CONTEXT_VIOLATION` (R114). -/
theorem exec_misplaced (hp : s.cur = p) (hf : s.faulted = false) (hi : (s.port p).phase = Phase.idle)
    (ha : allowed (s.kind p) i = false) : exec i s = .next (s.faultedWith p 0x09#8 i.opcode) := by
  subst hp
  obtain ⟨checks, start, later, he⟩ := exec_eq_command i s
  rw [he, State.command_misplaced hf hi ha]
  rfl

/-- A command issued on the idle interrupt port is latched and waits in `I_PEND` (R101). -/
theorem exec_latch (h : s.atInterruptIssue p) (ha : allowed .interrupt i = true) :
    exec i s = .next ((s.begun p i.opcode Phase.iPend).setAgent p (latchOf i (s.agent p))) := by
  obtain ⟨rfl, hk, hf, hi⟩ := h
  obtain ⟨checks, start, later, he⟩ := exec_eq_command i s
  rw [he, State.command_latch _ _ _ _ _ _ hf hi hk ha]
  rfl

/-- A command waits in `I_PEND` while interrupts on `IRQ_CPU` are off (60_exceptions.md R290). -/
theorem exec_pending (hp : s.cur = p) (ho : (s.port p).opc = i.opcode) (hi : (s.port p).phase = Phase.iPend)
    (hie : s.ie s.params.irqCpu = false) : exec i s = .next s := by
  subst hp
  obtain ⟨checks, start, later, he⟩ := exec_eq_command i s
  rw [he, State.command_pending ho hi (by simp [State.entryEnabled, hie])]

/-! ### Which port kind accepts which command (R114) -/

theorem allowed_thread_iff (i : Instr) : allowed .thread i = true ↔ i.opcode ∉ [0x21#8, 0x50#8] := by
  cases i <;> simp [allowed, Instr.opcode]

theorem allowed_interrupt_iff (i : Instr) : allowed .interrupt i = true ↔
    i.opcode ∈ [0x50#8, 0x21#8, 0x32#8, 0x40#8, 0x41#8, 0x42#8, 0x43#8, 0x16#8] := by
  cases i <;> simp [allowed, Instr.opcode]

/-- The port's check of a command is the one of the opcode table's column "ports" (R104). -/
theorem allowed_eq_wellPlaced (k : PortKind) (i : Instr) : allowed k i = i.wellPlaced k := by
  cases k <;> cases i <;> rfl

/-- Settles O5: the two tables command by command, and the step on a port of the other kind. -/
theorem portKindsAcceptTheirCommands : Obligations.PortKindsAcceptTheirCommands :=
  ⟨allowed_thread_iff, allowed_interrupt_iff, allowed_eq_wellPlaced, fun _ _ _ => exec_misplaced⟩

/-! ### The write of a `CMD` register, check by check (R101) -/

theorem State.writeCmd_halted (hf : s.faulted = true) (w : Word) : s.writeCmd p w = .next s := by
  simp [State.writeCmd, hf]

theorem State.writeCmd_busy (hf : s.faulted = false) (hb : s.busy p = true) (w : Word) :
    s.writeCmd p w = .next (s.faultedWith p 0x0C#8 (w.extractLsb' 0 8)) := by
  simp only [State.writeCmd, hf, hb, Bool.false_eq_true, if_false, if_true]; rfl

theorem State.writeCmd_misplaced {w : Word} (hf : s.faulted = false) (hb : s.busy p = false)
    (hd : decode w = some i) (ha : allowed (s.kind p) i = false) :
    s.writeCmd p w = .next ({ s with cur := p }.faultedWith p 0x09#8 i.opcode) := by
  rw [State.writeCmd_legal hf hb hd]
  have hi : (s.port p).phase = Phase.idle := by simpa [State.busy] using hb
  exact exec_misplaced (s := { s with cur := p }) rfl hf hi ha

/-! ### The access to a port's own `CMD` (10_state.md R49, 46_environment.md R260) -/

section
variable {a : Access} {w : Word} (hw : a.width = 32) (hk : a.kind = .write w)
  (ho : (a.addr - s.params.blockBase).toNat = 0x100 + 0x20 * a.port.val)
include hw hk ho

/-- Whether a write of a port's own `CMD` is barred rests on its word alone. -/
theorem State.dispatchAccess_cmd : s.dispatchAccess a = s.deliverOnly a.port w := by
  simp [State.dispatchAccess, hw, hk, ho]

/-- An agent never writes the word that only a delivery does. -/
theorem State.access_cmd_barred (hd : s.deliverOnly a.port w = true) : s.access a = .next s := by
  simp [State.access, State.dispatchAccess_cmd hw hk ho, hd]

/-- Any other write of a port's own `CMD` by its agent is a write of that word to `CMD`. -/
theorem State.access_cmd (hm : s.mayStep a.port = true) (hd : s.deliverOnly a.port w = false) :
    s.access a = s.writeCmd a.port w := by
  have hin : ¬0x200 ≤ 0x100 + 0x20 * a.port.val := by omega
  have h4 : (0x100 + 0x20 * a.port.val) % 4 = 0 := by omega
  simp [State.access, hm, State.dispatchAccess_cmd hw hk ho, hd, ho, hin, hw, h4, hk, State.windowWrite]

end

/-- Settles O6: the checks of a `CMD` write one by one, then the access that is such a write or is barred. -/
theorem commandWriteChecksInOrder : Obligations.CommandWriteChecksInOrder := by
  intro s p w
  refine ⟨fun hf => State.writeCmd_halted hf w, fun hf hb => State.writeCmd_busy hf hb w,
    fun hf hb hd => State.writeCmd_illegal hf hb hd,
    fun i hf hb hd => ⟨State.writeCmd_legal hf hb hd, State.writeCmd_misplaced hf hb hd⟩, ?_⟩
  rintro a rfl hw hk hm ho
  refine ⟨fun hne => State.access_cmd hw hk ho hm ?_, fun hi hw' => State.access_cmd_barred hw hk ho ?_⟩
  · simpa [State.deliverOnly] using hne
  · simp [State.deliverOnly, hi, hw']

/-- Settles O7: the latch of each command, and the hold in `I_PEND`. -/
theorem interruptCommandsWaitForEntry : Obligations.InterruptCommandsWaitForEntry := by
  intro i s p ha
  refine ⟨fun h => ?_, fun hp _ ho hi hie => exec_pending hp ho hi hie⟩
  rw [exec_latch h ha]
  cases i <;> rfl

end Sys2Proof.Machine
end

section
/-! SUPPORT. The RingBuffer: the bytes it holds under a push and a pop, and what each step of the RingBuffer commands
does (40_ringbuffer.md). -/

namespace Sys2Proof.Machine

variable {s : State} {p : PortId}

/-! ### The slots of the cursors (10_state.md R26, 40_ringbuffer.md R141) -/

/-- A cursor's wrap modulo `2·CAP` does not change the slots that follow it. -/
theorem State.slot_inc_add (c k : Nat) : s.slot (s.inc c + k) = s.slot (c + (k + 1)) := by
  have hd : s.cap ∣ 2 * s.cap := dvd_mul_left s.cap 2
  rw [State.slot, State.inc, Nat.add_mod, Nat.mod_mod_of_dvd _ hd, ← Nat.add_mod, State.slot]
  congr 1
  omega

/-- The slot of the write cursor lies `count` slots after the one of the read cursor. -/
theorem State.slot_rd_add_count (hr : s.rd < 2 * s.cap) (hw : s.wr < 2 * s.cap) :
    s.slot (s.rd + s.count) = s.slot s.wr := by
  rw [State.count_eq hr hw]
  split
  · next hle => rw [Nat.add_sub_cancel' hle]
  · rw [Nat.add_sub_cancel' (by omega), State.slot, Nat.add_mul_mod_self_right, State.slot]

/-- While the buffer is not full, no byte it holds is in the slot of the write cursor. -/
theorem State.slot_rd_add_ne_slot_wr (hr : s.rd < 2 * s.cap) (hw : s.wr < 2 * s.cap) (hc : s.count < s.cap) {k : Nat}
    (hk : k < s.count) : s.slot (s.rd + k) ≠ s.slot s.wr := by
  rw [← State.slot_rd_add_count hr hw]
  intro heq
  have hmod : k ≡ s.count [MOD s.cap] := Nat.ModEq.add_left_cancel' s.rd heq
  exact hk.ne (hmod.eq_of_lt_of_lt (hk.trans hc) hc)

/-! ### The bytes the RingBuffer holds (R145, R149, R152) -/

theorem State.ring_length : s.ring.length = s.count := by simp [State.ring]

/-- A push on a buffer that is not full adds its byte at the end. -/
theorem State.rbPush_ring (b : Byte) (hr : s.rd < 2 * s.cap) (hw : s.wr < 2 * s.cap) (hc : s.count < s.cap) :
    (s.rbPush b).ring = s.ring ++ [b] := by
  have hold : ∀ k ∈ List.range s.count, (s.rbPush b).stored (s.slot (s.rd + k)) = s.stored (s.slot (s.rd + k)) := by
    intro k hk
    rw [State.rbPush_stored, if_neg (State.slot_rd_add_ne_slot_wr hr hw hc (List.mem_range.mp hk))]
  have hnew : (s.rbPush b).stored (s.slot (s.rd + s.count)) = b := by
    rw [State.rbPush_stored, if_pos (State.slot_rd_add_count hr hw)]
  simp only [State.ring, State.rbPush_count b hr hw hc, State.rbPush_slot, State.rbPush_rd, List.range_succ,
    List.map_append, List.map_cons, List.map_nil, List.map_congr_left hold, hnew]

/-- What a buffer that is not empty holds is the byte a pop returns, then what is left after the pop. -/
theorem State.ring_eq_rbHead_cons (hr : s.rd < 2 * s.cap) (hw : s.wr < 2 * s.cap) (hc : s.count ≠ 0) :
    s.ring = s.rbHead :: s.rbPop.ring := by
  simp only [State.ring, ← State.rbPop_count hr hw hc, List.range_succ_eq_map, List.map_cons, List.map_map,
    State.rbPop_stored, State.rbPop_slot, State.rbPop_rd, State.slot_inc_add]
  rfl

/-- Settles O16: with the cursors in the range the invariant gives, a push writes the slot just after the bytes held,
and a pop moves the read cursor past the first. -/
theorem pushAppendsAndPopTakesFirst : Obligations.PushAppendsAndPopTakesFirst := by
  intro s h hd
  obtain ⟨-, hr, hw⟩ := h.ring_after hd
  refine ⟨fun b hf => State.rbPush_ring b hr hw ?_, fun he => State.ring_eq_rbHead_cons hr hw ?_, State.ring_length⟩
  · have hne : s.count ≠ s.cap := by simpa [State.isFull, hd] using hf
    exact lt_of_le_of_ne h.count_le hne
  · simpa [State.isEmpty] using he

/-! ### Completion and issue (10_state.md R33, R34) -/

theorem State.done_eq_completed (s : State) (p : PortId) (r : Word) :
    s.done p r = s.completed p (r ||| doneBit) := rfl

/-- The issue step's write of `RESULT` is lost in the one of `done`. -/
theorem State.setResult_completed (s : State) (p : PortId) (r r' : Word) :
    (s.setResult p r).completed p r' = s.completed p r' := by
  simp [State.completed, State.setResult, State.setPort, State.port, State.agent]

/-- The issue step of a command that keeps an operand in its agent's registers. -/
theorem State.setResult_begin_setAgent (s : State) (p : PortId) (x : Agent) (opc ph : Byte) :
    ((s.setResult p 0#32).setAgent p x).begin p opc ph =
      { s.begun p opc ph with agents := s.agents.set p x } := by
  simp [State.begin, State.begun, State.setResult, State.setAgent, State.setPort, State.port]

/-- `BYTE(b)` with `DONE` (R51). -/
theorem resByte_or_doneBit (b : Byte) : resByte b ||| doneBit = b.setWidth 32 ||| 0x500#32 :=
  BitVec.or_assoc _ _ _

/-! ### `RB_INIT` (R142, R143) -/

/-- The checks of `RBInit`, in its order. -/
theorem firstFailing_rbInitChecks (s : State) (cap : Word) :
    firstFailing (s.rbInitChecks cap) =
      if s.rbInitDone = true then some .rbReinit
      else if cap = 0#32 then some .rbZeroCap
      else if s.params.capMax < cap.toNat then some .allocFailure
      else none := by
  simp [State.rbInitChecks, firstFailing]

theorem exec_rbInit_faults (h : s.atIssue p) {c : FaultCode}
    (hc : firstFailing (s.rbInitChecks (s.port p).arg0) = some c) :
    exec .rbInit s = .next (s.faultedWith p c.toByte 0x20#8) := by
  obtain rfl := h.1
  exact congrArg Host.Outcome.next (State.command_issue_faults h rfl hc)

theorem exec_rbInit_completes (h : s.atIssue p)
    (hc : firstFailing (s.rbInitChecks (s.port p).arg0) = none) :
    exec .rbInit s = .next ((s.rbInit (s.port p).arg0).completed p 0x400#32) := by
  obtain rfl := h.1
  refine congrArg Host.Outcome.next ((State.command_issue_starts h rfl hc).trans ?_)
  exact State.setResult_completed (s.rbInit (s.port s.cur).arg0) s.cur 0#32 0x400#32

/-- Settles O11: the outcome of `RB_INIT` for each outcome of its checks. -/
theorem rbInitSetsCapacityOrFaults : Obligations.RbInitSetsCapacityOrFaults := by
  intro s p h
  refine ⟨fun hd h0 hle => exec_rbInit_completes h ?_, fun hd => exec_rbInit_faults h (c := .rbReinit) ?_,
    fun hd h0 => exec_rbInit_faults h (c := .rbZeroCap) ?_,
    fun hd h0 hlt => exec_rbInit_faults h (c := .allocFailure) ?_⟩
  all_goals rw [firstFailing_rbInitChecks]
  · simp [hd, h0, hle]
  · simp [hd]
  · simp [hd, h0]
  · simp [hd, h0, hlt]

/-! ### `RB_PUSH` (R145, R146) -/

/-- The checks of `RB_PUSH`, in their order (R145). -/
def State.rbPushChecks (s : State) : List (Bool × FaultCode) := [(!s.rbInitDone, .notInit), (s.isFull, .rbPushFull)]

theorem exec_rbPush_faults (b : Byte) (h : s.atEntry p 0x21#8) {c : FaultCode}
    (hc : firstFailing s.rbPushChecks = some c) :
    exec (.rbPush b) s = .next (s.faultedWith p c.toByte 0x21#8) := by
  obtain rfl := h.1
  exact congrArg Host.Outcome.next (State.command_entry_faults (i := .rbPush b) h hc)

/-- The byte pushed is the one latched at issue. -/
theorem exec_rbPush_completes (b : Byte) (h : s.atEntry p 0x21#8) (hc : firstFailing s.rbPushChecks = none) :
    exec (.rbPush b) s = .next ((s.rbPush (s.agent p).byte).completed p 0x400#32) := by
  obtain rfl := h.1
  exact congrArg Host.Outcome.next (State.command_entry_starts (i := .rbPush b) h hc)

/-- Settles O12: the outcome of the entry step for each outcome of its checks, and the slots after the push. -/
theorem rbPushStoresByteOrFaults : Obligations.RbPushStoresByteOrFaults := by
  intro s p b h
  refine ⟨fun hd hf => ⟨_, exec_rbPush_completes b h ?_, ?_, fun k hk => ?_, rfl⟩,
    fun hd => exec_rbPush_faults b h (c := .notInit) ?_, fun hd hf => exec_rbPush_faults b h (c := .rbPushFull) ?_⟩
  · simp [firstFailing, State.rbPushChecks, hd, hf]
  · exact (s.rbPush_stored _ _).trans (if_pos rfl)
  · exact (s.rbPush_stored _ k).trans (if_neg hk)
  · simp [firstFailing, State.rbPushChecks, hd]
  · simp [firstFailing, State.rbPushChecks, hd, hf]

/-! ### The issue of `RB_POP` (R147, R148) -/

/-- A consumer elsewhere is a consumer command in progress on another port that exists (R148). -/
theorem State.consumerElsewhere_iff : s.consumerElsewhere p = true ↔
    ∃ q, q ≠ p ∧ q.val ≤ s.params.nthread ∧ ((s.port q).opc = 0x12#8 ∨ (s.port q).opc = 0x22#8) := by
  simp [State.consumerElsewhere, State.consumerActive, State.hasPort, mem_allPorts, and_assoc]

/-- The checks of `RB_POP`, in their order (R147). -/
def State.rbPopChecks (s : State) (p : PortId) (w : Bool) : List (Bool × FaultCode) :=
  [(!s.rbInitDone, .notInit), (w && s.holdsLock p, .lockMisuse), (s.consumerElsewhere p, .consumerConflict)]

theorem exec_rbPop_faults (w : Bool) (h : s.atIssue p) {c : FaultCode}
    (hc : firstFailing (s.rbPopChecks p w) = some c) :
    exec (.rbPop w) s = .next (s.faultedWith p c.toByte 0x22#8) := by
  obtain rfl := h.1
  exact congrArg Host.Outcome.next (State.command_issue_faults (i := .rbPop w) h rfl hc)

theorem exec_rbPop_begins (w : Bool) (h : s.atIssue p) (hc : firstFailing (s.rbPopChecks p w) = none) :
    exec (.rbPop w) s = .next
      { s.begun p 0x22#8 Phase.pPop with agents := s.agents.set p { s.agent p with wt := w } } := by
  obtain rfl := h.1
  refine congrArg Host.Outcome.next ((State.command_issue_starts (i := .rbPop w) h rfl hc).trans ?_)
  exact s.setResult_begin_setAgent s.cur _ 0x22#8 Phase.pPop

/-- Settles O13: the outcome of the issue step for each outcome of its checks. -/
theorem rbPopIssuesOrFaults : Obligations.RbPopIssuesOrFaults := by
  intro s p w h
  refine ⟨State.consumerElsewhere_iff, fun hd hl hx => exec_rbPop_begins w h ?_,
    fun hd => exec_rbPop_faults w h (c := .notInit) ?_, fun hd hw hl => exec_rbPop_faults w h (c := .lockMisuse) ?_,
    fun hd hl hx => exec_rbPop_faults w h (c := .consumerConflict) ?_⟩
  · simpa [firstFailing_none, State.rbPopChecks, hd, hx] using hl
  · simp [firstFailing, State.rbPopChecks, hd]
  · simp [firstFailing, State.rbPopChecks, hd, hw, hl]
  · have hwl : (w && s.holdsLock p) = false := by simpa using hl
    simp [firstFailing, State.rbPopChecks, hd, hwl, hx]

/-! ### The pop step of `RB_POP` and of `GETBYTE` (R149, 41_rxpath.md R165) -/

theorem exec_rbPop_at_pPop (w : Bool) (h : s.atStep p 0x22#8 Phase.pPop) :
    exec (.rbPop w) s = .next (stepPPop p s) := by
  obtain rfl := h.1
  exact congrArg Host.Outcome.next (State.command_at_step (i := .rbPop w) h (by decide) (by decide))

theorem exec_getbyte_at_gPop (w : Bool) (h : s.atStep p 0x12#8 Phase.gPop) :
    exec (.getbyte w) s = .next (stepGPop p s) := by
  obtain rfl := h.1
  exact congrArg Host.Outcome.next (State.command_at_step (i := .getbyte w) h (by decide) (by decide))

theorem stepPPop_nonempty (he : s.isEmpty = false) :
    stepPPop p s = s.rbPop.completed p (s.rbHead.setWidth 32 ||| 0x500#32) := by
  simp [stepPPop, he, State.done_eq_completed, resByte_or_doneBit]

theorem stepPPop_empty (he : s.isEmpty = true) (hw : (s.agent p).wt = false) :
    stepPPop p s = s.completed p 0x600#32 := by
  simp [stepPPop, he, hw, State.done_eq_completed, resEmpty, doneBit]

theorem stepPPop_waits (he : s.isEmpty = true) (hw : (s.agent p).wt = true) : stepPPop p s = s := by
  simp [stepPPop, he, hw]

theorem stepGPop_empty (he : s.isEmpty = true) (hw : (s.agent p).wt = false) :
    stepGPop p s = s.completed p 0x600#32 := by
  simp [stepGPop, he, hw, State.done_eq_completed, resEmpty, doneBit]

/-- Settles O14: the three outcomes of step `P_POP`. -/
theorem pPopReturnsOldestByte : Obligations.PPopReturnsOldestByte := by
  intro s p w h
  rw [exec_rbPop_at_pPop w h]
  exact ⟨fun he => congrArg _ (stepPPop_nonempty he), fun he hw => congrArg _ (stepPPop_empty he hw),
    fun he hw => congrArg _ (stepPPop_waits he hw)⟩

/-- Settles O15: the pop steps of both consumer commands on an empty buffer, without waiting. -/
theorem emptyPopWritesOnlyResult : Obligations.EmptyPopWritesOnlyResult := by
  intro s p w he hw
  exact ⟨fun h => (exec_rbPop_at_pPop w h).trans (congrArg _ (stepPPop_empty he hw)),
    fun h => (exec_getbyte_at_gPop w h).trans (congrArg _ (stepGPop_empty he hw))⟩

end Sys2Proof.Machine
end

section
/-! SUPPORT. The receive path step by step: `GETBYTE`, the two receive mask commands, and the receive and transmit
services of `IRQ_DISPATCH` (41_rxpath.md R162 to R169, 43_txpath.md R212). -/

namespace Sys2Proof.Machine

variable {s : State} {p : PortId} {i : Instr} {latch : Agent → Agent} {checks : List (Bool × FaultCode)}
  {start : State → State}

/-! ### The issue of `GETBYTE` (R162, 40_ringbuffer.md R148, 42_lock_wake.md R188) -/

/-- The checks of `GETBYTE`, in their order (R162). -/
def State.getbyteChecks (s : State) (p : PortId) : List (Bool × FaultCode) :=
  [(!s.initDone, .notInit), (s.holdsLock p, .lockMisuse), (s.consumerElsewhere p, .consumerConflict)]

theorem exec_getbyte_faults (w : Bool) (h : s.atIssue p) {c : FaultCode}
    (hc : firstFailing (s.getbyteChecks p) = some c) :
    exec (.getbyte w) s = .next (s.faultedWith p c.toByte 0x12#8) := by
  obtain rfl := h.1
  exact congrArg Host.Outcome.next (State.command_issue_faults (i := .getbyte w) h rfl hc)

theorem exec_getbyte_begins (w : Bool) (h : s.atIssue p) (hc : firstFailing (s.getbyteChecks p) = none) :
    exec (.getbyte w) s = .next
      { s.begun p 0x12#8 Phase.gPop with agents := s.agents.set p { s.agent p with wt := w } } := by
  obtain rfl := h.1
  refine congrArg Host.Outcome.next ((State.command_issue_starts (i := .getbyte w) h rfl hc).trans ?_)
  exact s.setResult_begin_setAgent s.cur _ 0x12#8 Phase.gPop

/-- Settles O17: the outcome of the issue step for each outcome of its checks. -/
theorem getbyteIssuesOrFaults : Obligations.GetbyteIssuesOrFaults := by
  intro s p w h
  refine ⟨fun hd hl hx => exec_getbyte_begins w h ?_, fun hd => exec_getbyte_faults w h (c := .notInit) ?_,
    fun hd hl => exec_getbyte_faults w h (c := .lockMisuse) ?_,
    fun hd hl hx => exec_getbyte_faults w h (c := .consumerConflict) ?_⟩
  · simp [firstFailing, State.getbyteChecks, hd, hl, hx]
  · simp [firstFailing, State.getbyteChecks, hd]
  · simp [firstFailing, State.getbyteChecks, hd, hl]
  · simp [firstFailing, State.getbyteChecks, hd, hl, hx]

/-! ### The later steps of `GETBYTE` (R165, R166) -/

theorem stepGPop_nonempty (he : s.isEmpty = false) :
    stepGPop p s = (s.rbPop.setAgent p { s.agent p with data := s.rbHead }).goto p Phase.gLock := by
  simp [stepGPop, he]

theorem stepGPop_waits (he : s.isEmpty = true) (hw : (s.agent p).wt = true) : stepGPop p s = s := by
  simp [stepGPop, he, hw]

/-- Settles O18: the three outcomes of step `G_POP`. -/
theorem gPopTakesOldestByte : Obligations.GPopTakesOldestByte := by
  intro s p w h
  rw [exec_getbyte_at_gPop w h]
  exact ⟨fun he => congrArg _ (stepGPop_nonempty he), fun he hw => congrArg _ (stepGPop_empty he hw),
    fun he hw => congrArg _ (stepGPop_waits he hw)⟩

theorem exec_getbyte_at_gLock (w : Bool) (h : s.atStep p 0x12#8 Phase.gLock) :
    exec (.getbyte w) s = .next (stepGLock p s) := by
  obtain rfl := h.1
  exact congrArg Host.Outcome.next (State.command_at_step (i := .getbyte w) h (by decide) (by decide))

theorem exec_getbyte_at_gUnmask (w : Bool) (h : s.atStep p 0x12#8 Phase.gUnmask) :
    exec (.getbyte w) s = .next (stepGUnmask p s) := by
  obtain rfl := h.1
  exact congrArg Host.Outcome.next (State.command_at_step (i := .getbyte w) h (by decide) (by decide))

/-- A step that acquires holds while the lock is held (42_lock_wake.md R181). -/
theorem State.acquireThen_held (hl : s.lockHeld = true) (k : State → State) : s.acquireThen p k = s := by
  simp [State.acquireThen, hl]

theorem State.acquireThen_free (hl : s.lockHeld = false) (k : State → State) :
    s.acquireThen p k = k (s.takeLock p) := by
  simp [State.acquireThen, hl]

/-- The step that takes the lock and moves on: only the core's own interrupt enable is cleared, and saved (R181). -/
theorem State.takeLock_goto_spec (s : State) (p : PortId) (ph : Byte) :
    ((s.takeLock p).goto p ph).ie (s.core p) = false
      ∧ (∀ c, c ≠ s.core p → ((s.takeLock p).goto p ph).ie c = s.ie c)
      ∧ (s.takeLock p).goto p ph =
          { s.movedTo p ph with
            lockHeld := true, lockOwner := p, ieBits := ((s.takeLock p).goto p ph).ieBits
            agents := s.agents.set p { s.agent p with savedIe := s.ie (s.core p) } } :=
  ⟨(s.takeLock_ie p _).trans (if_pos rfl), fun c hc => (s.takeLock_ie p c).trans (if_neg hc), rfl⟩

/-- `G_UNMASK` unmasks the receive pair unless the buffer is full; lock and interrupt enable are given back (R166). -/
theorem stepGUnmask_spec (s : State) (p : PortId) :
    (stepGUnmask p s).ie (s.core p) = (s.agent p).savedIe
      ∧ (∀ c, c ≠ s.core p → (stepGUnmask p s).ie c = s.ie c)
      ∧ stepGUnmask p s =
          { s.completed p ((s.agent p).data.setWidth 32 ||| 0x500#32) with
            lockHeld := false, lockOwner := 0, ieBits := (stepGUnmask p s).ieBits
            imask := if s.isFull = true then s.imask else { s.imask with rxrdyM := false, rxtoM := false } } := by
  rw [← resByte_or_doneBit]
  cases hf : s.isFull <;> simp only [stepGUnmask, hf, Bool.false_eq_true, if_true, if_false]
  · exact ⟨((s.maskRx false).release_ie p _).trans (if_pos rfl),
      fun c hc => ((s.maskRx false).release_ie p c).trans (if_neg hc), rfl⟩
  · exact ⟨(s.release_ie p _).trans (if_pos rfl), fun c hc => (s.release_ie p c).trans (if_neg hc), rfl⟩

/-- Settles O19: both steps through what the lock's taking and its release do. -/
theorem gUnmaskDecidesUnderLock : Obligations.GUnmaskDecidesUnderLock := by
  intro s p w
  refine ⟨fun h => ⟨fun hl => ?_, fun hl => ⟨_, ?_, s.takeLock_goto_spec p Phase.gUnmask⟩⟩,
    fun h => ⟨_, exec_getbyte_at_gUnmask w h, stepGUnmask_spec s p⟩⟩
  · rw [exec_getbyte_at_gLock w h, stepGLock, State.acquireThen_held hl]
  · rw [exec_getbyte_at_gLock w h, stepGLock, State.acquireThen_free hl]

/-! ### `RX_MASK` and `RX_UNMASK` (R163, R164, 45_lifecycle_dispatch.md R254) -/

/-- A command of one step, on either kind of port, records its first failing check. -/
theorem State.oneStep_faults (h : s.atIssue p ∨ s.atEntry p i.opcode) (ha : allowed .thread i = true) {c : FaultCode}
    (hc : firstFailing checks = some c) : s.oneStep i latch checks start = s.faultedWith p c.toByte i.opcode :=
  h.elim (fun h => State.command_issue_faults h ha hc) fun h => State.command_entry_faults h hc

/-- A command of one step that clears `RESULT` anyway does the same on either kind of port. -/
theorem State.oneStep_starts (h : s.atIssue p ∨ s.atEntry p i.opcode) (ha : allowed .thread i = true)
    (hc : firstFailing checks = none) (hr : start (s.setResult p 0#32) = start s) :
    s.oneStep i latch checks start = start s :=
  h.elim (fun h => (State.command_issue_starts h ha hc).trans hr) fun h => State.command_entry_starts h hc

/-- The port whose agent acts, at issue or at entry. -/
theorem State.cur_of_issue_or_entry {opc : Byte} (h : s.atIssue p ∨ s.atEntry p opc) : s.cur = p :=
  h.elim (fun h => h.1) fun h => h.1

theorem State.maskRx_done_setResult (s : State) (p : PortId) (m : Bool) :
    ((s.setResult p 0#32).maskRx m).done p resNone = (s.maskRx m).done p resNone :=
  (s.maskRx m).setResult_completed p 0#32 0x400#32

/-- Settles O21: one step on either kind of port, behind the one check. -/
theorem rxMaskCommandsWriteThePair : Obligations.RxMaskCommandsWriteThePair := by
  intro s p
  refine ⟨fun h => ⟨fun hd => ?_, fun hd => ?_⟩, fun h => ⟨fun hd => ?_, fun hd => ?_⟩⟩
  all_goals obtain rfl := State.cur_of_issue_or_entry h
  · exact congrArg Host.Outcome.next (State.oneStep_starts (i := .rxMask) h rfl (by simp [firstFailing, hd])
      (s.maskRx_done_setResult _ true))
  · exact congrArg Host.Outcome.next (State.oneStep_faults (i := .rxMask) (c := .notInit) h rfl
      (by simp [firstFailing, hd]))
  · exact congrArg Host.Outcome.next (State.oneStep_starts (i := .rxUnmask) h rfl (by simp [firstFailing, hd])
      (s.maskRx_done_setResult _ false))
  · exact congrArg Host.Outcome.next (State.oneStep_faults (i := .rxUnmask) (c := .notInit) h rfl
      (by simp [firstFailing, hd]))

/-! ### The steps of `IRQ_DISPATCH` (R167 to R169, R212, R248) -/

/-- What a later step of `IRQ_DISPATCH` at phase `ph` does. -/
def dispatchStep (p : PortId) (ph : Byte) (s : State) : State :=
  if ph = Phase.iLock then stepILock p s
  else if ph = Phase.iRxsel then stepIRxsel p s
  else if ph = Phase.iDrain then stepIDrain p s
  else if ph = Phase.iRxend then stepIRxend p s
  else if ph = Phase.iTx then stepITx p s
  else if ph = Phase.iExit then stepIExit p s
  else s

theorem exec_irqDispatch_at_step {ph : Byte} (h : s.atStep p 0x50#8 ph) (h0 : ph ≠ Phase.idle := by decide)
    (h1 : ph ≠ Phase.iPend := by decide) : exec .irqDispatch s = .next (dispatchStep p ph s) := by
  obtain rfl := h.1
  exact congrArg Host.Outcome.next (State.command_at_step (i := .irqDispatch) h h0 h1)

/-- A step that stays where it is writes no register of its port. -/
theorem State.goto_self {ph : Byte} (h : (s.port p).phase = ph) : s.goto p ph = s := by
  have hself : s.ports.set p (s.port p) = s.ports := Vector.set_getElem_self p.isLt
  rw [State.goto, ← h, State.setPort, hself]

/-- With a byte received and room for it, `I_DRAIN` moves it and stays (R168). -/
theorem stepIDrain_moves {b : Byte} {rest : List Byte} (hp : (s.port p).phase = Phase.iDrain) (hx : s.rxf = b :: rest)
    (hf : s.isFull = false) : stepIDrain p s = s.rxfDrop.rbPush b := by
  simp [stepIDrain, hx, hf, State.goto_self (s := s.rxfDrop.rbPush b) (p := p) (by simpa using hp)]

/-- With no byte received, or no room, `I_DRAIN` goes on to the mask decision (R168). -/
theorem stepIDrain_ends (h : s.rxf = [] ∨ s.isFull = true) : stepIDrain p s = s.movedTo p Phase.iRxend := by
  unfold stepIDrain
  split
  · rfl
  · next hx => rw [if_pos (by simpa [hx] using h)]; rfl

/-- The receive FIFO without its oldest byte, in terms of what is left. -/
theorem State.rxfDrop_cons {b : Byte} {rest : List Byte} (hx : s.rxf = b :: rest) :
    s.rxfDrop = { s with rxf := rest, rxtoP := if rest = [] then false else s.rxtoP } := by
  simp [State.rxfDrop, hx]

/-- Settles O43: the two outcomes of step `I_DRAIN`, and the slots after the push. -/
theorem drainMovesOneByteAStep : Obligations.DrainMovesOneByteAStep := by
  intro s p h
  rw [exec_irqDispatch_at_step h]
  obtain ⟨-, -, -, hph⟩ := h
  refine ⟨fun b rest hx hf => ⟨_, congrArg _ (stepIDrain_moves hph hx hf), ?_, fun k hk => ?_, ?_⟩,
    fun hd => congrArg _ (stepIDrain_ends hd)⟩
  · exact (s.rxfDrop.rbPush_stored b _).trans (if_pos rfl)
  · exact (s.rxfDrop.rbPush_stored b k).trans (if_neg hk)
  · rw [State.rxfDrop_cons hx]; rfl

/-- Settles O44: each step of the dispatch, in each of its cases. -/
theorem dispatchLockSelectAndMaskSteps : Obligations.DispatchLockSelectAndMaskSteps := by
  intro s p
  refine ⟨fun h hl => ?_, fun h hl => ⟨_, ?_, s.takeLock_goto_spec p Phase.iRxsel⟩, fun h hx => ?_, fun h hx => ?_,
    fun h => ?_, fun h ht => ?_, fun h ht => ?_⟩
  all_goals refine (exec_irqDispatch_at_step h).trans (congrArg Host.Outcome.next ?_)
  · show stepILock p s = s
    rw [stepILock, State.acquireThen_held hl]
  · show stepILock p s = _
    rw [stepILock, State.acquireThen_free hl]
  · show stepIRxsel p s = _
    rw [stepIRxsel, if_pos hx]; rfl
  · show stepIRxsel p s = _
    rw [stepIRxsel, if_neg (by simp [hx])]; rfl
  · show stepIRxend p s = _
    unfold stepIRxend
    split_ifs <;> rfl
  · show stepITx p s = _
    rw [stepITx, if_pos ht]; rfl
  · show stepITx p s = _
    rw [stepITx, if_neg (by simp [ht])]; rfl

end Sys2Proof.Machine
end

section
/-! SUPPORT. The order of the received bytes: what each command and each event does to the bytes accepted, returned,
held in the RingBuffer and held in the receive FIFO (41_rxpath.md R168, R172, 20_memory.md R81, 40_ringbuffer.md
R152). -/

namespace Sys2Proof.Machine

variable {s t : State} {p : PortId}

/-! ### A RingBuffer that is not empty -/

namespace State.Inv

/-- A RingBuffer that holds a byte has been initialized (40_ringbuffer.md R142). -/
theorem rbInitDone_of_nonempty (h : s.Inv) (he : s.isEmpty = false) : s.rbInitDone = true := by
  by_contra hn
  obtain ⟨hcap, -, -⟩ := h.ring_before (by simpa using hn)
  simp [State.isEmpty, State.count, hcap] at he

/-- What a RingBuffer that is not empty holds: the byte a pop returns, then what is left after it (R152). -/
theorem ring_of_nonempty (h : s.Inv) (he : s.isEmpty = false) : s.ring = s.rbHead :: s.rbPop.ring :=
  (pushAppendsAndPopTakesFirst s h (h.rbInitDone_of_nonempty he)).2.1 he

/-- After a pop there is room. -/
theorem rbPop_not_full (h : s.Inv) (he : s.isEmpty = false) : s.rbPop.isFull = false := by
  obtain ⟨-, hr, hw⟩ := h.ring_after (h.rbInitDone_of_nonempty he)
  have hcount := State.rbPop_count hr hw (by simpa [State.isEmpty] using he)
  have hle := h.count_le
  have hne : s.rbPop.count ≠ s.cap := by omega
  simp [State.isFull, hne]

end State.Inv

/-! ### The receive path -/

/-- The bytes of the receive path: accepted from the line, returned, in the RingBuffer, in the receive FIFO. -/
def State.receivePath (s : State) : List Byte × List Byte × List Byte × List Byte := (s.rxIn, s.rxOut, s.ring, s.rxf)

/-- The bytes accepted are, in order, those returned, those in the RingBuffer and those in the receive FIFO (R172). -/
def State.InOrder (s : State) : Prop := s.rxIn = s.rxOut ++ s.ring ++ s.rxf

/-- What leaves the receive path as it was leaves it in order. -/
theorem State.InOrder.of_receivePath_eq (h : s.InOrder) (e : t.receivePath = s.receivePath) : t.InOrder := by
  obtain ⟨hin, hout, hring, hrxf⟩ : t.rxIn = s.rxIn ∧ t.rxOut = s.rxOut ∧ t.ring = s.ring ∧ t.rxf = s.rxf := by
    simpa [State.receivePath] using e
  rw [State.InOrder, hin, hout, hring, hrxf]; exact h

/-! ### What moves a byte along the receive path -/

/-- A pop moves the oldest byte of the RingBuffer behind those returned (R149). -/
theorem State.InOrder.rbPop (h : s.InOrder) (hinv : s.Inv) (he : s.isEmpty = false) : s.rbPop.InOrder := by
  have hin : s.rxIn = s.rxOut ++ s.ring ++ s.rxf := h
  rw [State.InOrder, State.rbPop_rxIn, State.rbPop_rxf, State.rbPop_rxOut, hin, hinv.ring_of_nonempty he]
  simp

/-- The drain moves the oldest byte of the receive FIFO behind those in the RingBuffer (R168). -/
theorem State.InOrder.drain (h : s.InOrder) (hinv : s.Inv) (hd : s.rbInitDone = true) (hf : s.isFull = false)
    {b : Byte} {rest : List Byte} (hx : s.rxf = b :: rest) : (s.rxfDrop.rbPush b).InOrder := by
  have hin : s.rxIn = s.rxOut ++ s.ring ++ s.rxf := h
  obtain ⟨hpush, -, -⟩ := pushAppendsAndPopTakesFirst s.rxfDrop hinv.rxfDrop hd
  have hring : (s.rxfDrop.rbPush b).ring = s.ring ++ [b] := hpush b hf
  rw [State.InOrder, hring]
  simp [hin, hx]

/-- A byte that arrives goes behind those accepted and those in the receive FIFO (46_environment.md R261). -/
theorem State.InOrder.lineRx (h : s.InOrder) (b : Byte) : (s.lineRx b).InOrder := by
  have hin : s.rxIn = s.rxOut ++ s.ring ++ s.rxf := h
  unfold State.lineRx
  split_ifs
  · exact h
  · show s.rxIn ++ [b] = s.rxOut ++ s.ring ++ (s.rxf ++ [b])
    rw [hin, List.append_assoc]
  · exact h

/-- The RingBuffer holds nothing before and after its initialization (40_ringbuffer.md R142). -/
theorem State.InOrder.rbInit (h : s.InOrder) (hinv : s.Inv) (hd : s.rbInitDone = false) (c : Word) :
    (s.rbInit c).InOrder := by
  obtain ⟨hcap, -, -⟩ := hinv.ring_before hd
  have hold : s.ring = [] := by simp [State.ring, State.count, hcap]
  have hnew : (s.rbInit c).ring = [] := by simp [State.ring, State.count]
  exact h.of_receivePath_eq (by simp [State.receivePath, hold, hnew])

/-! ### What leaves the receive path alone -/

section
variable (s : State)

@[simp] theorem State.setPort_receivePath (p : PortId) (x : Port) : (s.setPort p x).receivePath = s.receivePath := rfl
@[simp] theorem State.setAgent_receivePath (p : PortId) (x : Agent) :
    (s.setAgent p x).receivePath = s.receivePath := rfl
@[simp] theorem State.setIe_receivePath (c : Nat) (b : Bool) : (s.setIe c b).receivePath = s.receivePath := rfl
@[simp] theorem State.setLock_receivePath (b : Bool) (p : PortId) : (s.setLock b p).receivePath = s.receivePath := rfl
@[simp] theorem State.setResult_receivePath (p : PortId) (r : Word) :
    (s.setResult p r).receivePath = s.receivePath := rfl
@[simp] theorem State.goto_receivePath (p : PortId) (ph : Byte) : (s.goto p ph).receivePath = s.receivePath := rfl
@[simp] theorem State.begin_receivePath (p : PortId) (o ph : Byte) : (s.begin p o ph).receivePath = s.receivePath := rfl
@[simp] theorem State.done_receivePath (p : PortId) (r : Word) : (s.done p r).receivePath = s.receivePath := by
  rw [State.done, State.setAgent_receivePath, State.setPort_receivePath]
@[simp] theorem State.raise_receivePath (p : PortId) (c : FaultCode) (o : Byte) (f : BitVec 12) :
    (s.raise p c o f).receivePath = s.receivePath := rfl
@[simp] theorem State.takeLock_receivePath (p : PortId) : (s.takeLock p).receivePath = s.receivePath := by
  rw [State.takeLock, State.setLock_receivePath, State.setIe_receivePath, State.setAgent_receivePath]
@[simp] theorem State.release_receivePath (p : PortId) : (s.release p).receivePath = s.receivePath := by
  rw [State.release, State.setLock_receivePath, State.setIe_receivePath]
@[simp] theorem State.signal_receivePath : s.signal.receivePath = s.receivePath := rfl
@[simp] theorem State.countWait_receivePath : s.countWait.receivePath = s.receivePath := rfl
@[simp] theorem State.countFull_receivePath : s.countFull.receivePath = s.receivePath := rfl
@[simp] theorem State.maskRx_receivePath (m : Bool) : (s.maskRx m).receivePath = s.receivePath := rfl
@[simp] theorem State.maskTx_receivePath (m : Bool) : (s.maskTx m).receivePath = s.receivePath := rfl
@[simp] theorem State.txfPut_receivePath (b : Byte) : (s.txfPut b).receivePath = s.receivePath := rfl
@[simp] theorem State.irqEnter_receivePath (p : PortId) : (s.irqEnter p).receivePath = s.receivePath := by
  rw [State.irqEnter, State.setIe_receivePath, State.setAgent_receivePath]
@[simp] theorem State.irqReturn_receivePath (p : PortId) : (s.irqReturn p).receivePath = s.receivePath := by
  rw [State.irqReturn, State.setIe_receivePath, State.release_receivePath]

end

theorem State.acquireThen_receivePath {k : State → State} (hk : ∀ t, (k t).receivePath = t.receivePath) :
    (s.acquireThen p k).receivePath = s.receivePath := by
  rcases s.acquireThen_cases p k with ⟨-, e⟩ | ⟨-, e⟩ <;> rw [e]
  exact hk _

theorem State.waitThen_receivePath {k : State → State} (hk : ∀ t, (k t).receivePath = t.receivePath) :
    (s.waitThen k).receivePath = s.receivePath := by
  rcases s.waitThen_cases k with ⟨-, e⟩ | ⟨-, e⟩ <;> rw [e]
  exact hk _

section
variable {i : Instr} {latch : Agent → Agent} {checks : List (Bool × FaultCode)} {start : State → State}
  {later : Byte → State → State}

/-- A command leaves the bytes in order if its first step does, at issue on a thread port and at entry on the interrupt
port, and each later step does. -/
theorem State.InOrder.command (h : s.InOrder)
    (hissue : firstFailing checks = none → allowed .thread i = true → (start (s.setResult s.cur 0#32)).InOrder)
    (hentry : firstFailing checks = none → s.atEntry s.cur i.opcode → (start s).InOrder)
    (hlater : ∀ ph, s.atStep s.cur i.opcode ph → (later ph s).InOrder) :
    (s.command i latch checks start later).InOrder := by
  rcases s.command_cases i latch checks start later with e | ⟨hf, hcase⟩
  · rw [e]; exact h
  rcases hcase with ⟨-, -, e⟩ | ⟨-, -, -, e⟩ | ⟨c, -, -, e⟩ | ⟨hc, -, -, ha, e⟩ | ⟨hc, hi, ho, hk, hie, e⟩
    | ⟨-, -, ho, e⟩ <;> rw [e]
  · exact h.of_receivePath_eq rfl
  · exact h.of_receivePath_eq rfl
  · exact h.of_receivePath_eq rfl
  · exact hissue hc ha
  · exact hentry hc ⟨rfl, hk, hf, ho, hi, hie⟩
  · exact hlater _ ⟨rfl, hf, ho, rfl⟩

/-- A command none of whose steps touches the receive path leaves the bytes in order. -/
theorem State.InOrder.command_of_receivePath_eq (h : s.InOrder)
    (hstart : ∀ t, (start t).receivePath = t.receivePath)
    (hlater : ∀ ph t, (later ph t).receivePath = t.receivePath) : (s.command i latch checks start later).InOrder :=
  h.command (fun _ _ => h.of_receivePath_eq (hstart _)) (fun _ _ => h.of_receivePath_eq (hstart _))
    fun _ _ => h.of_receivePath_eq (hlater _ _)

/-- The same for a command that has no step after its first. -/
theorem State.InOrder.oneStep_of_receivePath_eq (h : s.InOrder)
    (hstart : ∀ t, (start t).receivePath = t.receivePath) : (s.oneStep i latch checks start).InOrder :=
  h.command_of_receivePath_eq hstart fun _ _ => rfl

/-- A command of one step whose checks demand that the RingBuffer is not initialized, and which initializes it. -/
theorem State.InOrder.oneStep_of_rbInit (h : s.InOrder) (hinv : s.Inv) {c : Word}
    (hc : firstFailing checks = none → s.rbInitDone = false)
    (hstart : ∀ t, (start t).receivePath = (t.rbInit c).receivePath) : (s.oneStep i latch checks start).InOrder :=
  h.command (fun hn _ => (h.rbInit hinv (hc hn) c).of_receivePath_eq (hstart _))
    (fun hn _ => (h.rbInit hinv (hc hn) c).of_receivePath_eq (hstart _)) fun _ _ => h

end

/-! ### The commands -/

/-- A state in which no command takes a byte out of turn or puts one in: failure mode is off, so that `POLL_GETC` has no
step (44_panic.md R235), and no `RB_PUSH` is in progress; the bytes are in order. -/
structure State.Receiving (s : State) : Prop where
  inv : s.Inv
  failureMode_off : s.failureMode = false
  no_push : (s.port s.intPort).opc ≠ 0x21#8
  inOrder : s.InOrder

/-- The next state of an outcome, if it has one, has the received bytes in order. -/
def KeepsOrder (o : Host.Outcome State Fault Refusal) : Prop := ∀ t, o = .next t → t.InOrder

theorem keepsOrder_next (h : s.InOrder) : KeepsOrder (.next s) := by
  rintro t ⟨⟩; exact h

theorem keepsOrder_refused (r : Refusal) : KeepsOrder (.refused r) := by
  rintro t ⟨⟩

theorem stepGPop_inOrder (h : s.InOrder) (hinv : s.Inv) : (stepGPop p s).InOrder := by
  unfold stepGPop
  split_ifs with he
  · exact (h.rbPop hinv (by simpa using he)).of_receivePath_eq (by simp)
  · exact h.of_receivePath_eq (by simp)
  · exact h

theorem stepPPop_inOrder (h : s.InOrder) (hinv : s.Inv) : (stepPPop p s).InOrder := by
  unfold stepPPop
  split_ifs with he
  · exact (h.rbPop hinv (by simpa using he)).of_receivePath_eq (by simp)
  · exact h.of_receivePath_eq (by simp)
  · exact h

/-- The handler drains into a RingBuffer that has been initialized: it runs after `INIT` (45_lifecycle_dispatch.md
R244, R247). -/
theorem stepIDrain_inOrder (h : s.InOrder) (hinv : s.Inv) (hs : s.atStep p 0x50#8 Phase.iDrain) :
    (stepIDrain p s).InOrder := by
  have hk : s.kind p = .interrupt := hinv.interrupt_of_step hs
  obtain ⟨-, -, -, hph⟩ := hs
  obtain ⟨-, hinit⟩ := hinv.handler_at hk (by rw [hph]; decide) (by rw [hph]; decide)
  obtain ⟨-, hd⟩ := hinv.boot_order hinit
  unfold stepIDrain
  split
  · exact h.of_receivePath_eq (by simp)
  · next hx =>
    split_ifs with hf
    · exact h.of_receivePath_eq (by simp)
    · exact (h.drain hinv hd (by simpa using hf) hx).of_receivePath_eq (by simp)

theorem execGetbyte_keepsOrder (h : s.Receiving) (w : Bool) : KeepsOrder (execGetbyte w s) := by
  refine keepsOrder_next (h.inOrder.command (fun _ _ => h.inOrder.of_receivePath_eq (by simp))
    (fun _ _ => h.inOrder.of_receivePath_eq (by simp)) fun ph _ => ?_)
  split_ifs
  · exact stepGPop_inOrder h.inOrder h.inv
  · exact h.inOrder.of_receivePath_eq (State.acquireThen_receivePath (by simp))
  · unfold stepGUnmask
    split_ifs <;> exact h.inOrder.of_receivePath_eq (by simp)
  · exact h.inOrder

theorem execRbPop_keepsOrder (h : s.Receiving) (w : Bool) : KeepsOrder (execRbPop w s) := by
  refine keepsOrder_next (h.inOrder.command (fun _ _ => h.inOrder.of_receivePath_eq (by simp))
    (fun _ _ => h.inOrder.of_receivePath_eq (by simp)) fun ph _ => ?_)
  split_ifs
  · exact stepPPop_inOrder h.inOrder h.inv
  · exact h.inOrder

/-- Only the entry step pushes, and no `RB_PUSH` is in progress. -/
theorem execRbPush_keepsOrder (h : s.Receiving) (b : Byte) : KeepsOrder (execRbPush b s) := by
  refine keepsOrder_next (h.inOrder.command (fun _ ha => by simp [allowed] at ha) (fun _ he => ?_) fun _ _ => h.inOrder)
  obtain ⟨-, hk, -, ho, -, -⟩ := he
  rw [State.eq_intPort hk] at ho
  exact absurd ho h.no_push

/-- Outside failure mode the checks of `POLL_GETC` do not pass (R235). -/
theorem execPollGetc_keepsOrder (h : s.Receiving) : KeepsOrder (execPollGetc s) := by
  have hc : firstFailing [(!s.earlyDone, .notInit), (!s.failureMode, .pollOutsideFailure)] ≠ none := by
    simp [firstFailing_none, h.failureMode_off]
  exact keepsOrder_next (h.inOrder.command (fun hn _ => absurd hn hc) (fun hn _ => absurd hn hc) fun _ _ => h.inOrder)

/-- The checks of `RBInit` let it run once only (40_ringbuffer.md R142). -/
theorem rbInitDone_of_rbInitChecks {c : Word} (hc : ∀ e ∈ s.rbInitChecks c, e.1 = false) : s.rbInitDone = false :=
  hc (s.rbInitDone, .rbReinit) (by simp [State.rbInitChecks])

theorem execRbInit_keepsOrder (h : s.Receiving) : KeepsOrder (execRbInit s) :=
  keepsOrder_next (h.inOrder.oneStep_of_rbInit h.inv (fun hn => rbInitDone_of_rbInitChecks (firstFailing_none.mp hn))
    fun _ => rfl)

theorem execInit_keepsOrder (h : s.Receiving) : KeepsOrder (execInit s) := by
  refine keepsOrder_next (h.inOrder.oneStep_of_rbInit h.inv (c := (s.port s.cur).arg0) (fun hn => ?_) fun _ => rfl)
  exact rbInitDone_of_rbInitChecks (c := (s.port s.cur).arg0) fun e he => firstFailing_none.mp hn e (by simp [he])

theorem execIrqDispatch_keepsOrder (h : s.Receiving) : KeepsOrder (execIrqDispatch s) := by
  refine keepsOrder_next (h.inOrder.command (fun _ ha => by simp [allowed] at ha)
    (fun _ _ => h.inOrder.of_receivePath_eq (by simp)) fun ph hs => ?_)
  split_ifs with _ _ hdrain
  · exact h.inOrder.of_receivePath_eq (State.acquireThen_receivePath (by simp))
  · unfold stepIRxsel
    split_ifs <;> exact h.inOrder.of_receivePath_eq (by simp)
  · subst hdrain
    exact stepIDrain_inOrder h.inOrder h.inv hs
  · unfold stepIRxend
    split_ifs <;> exact h.inOrder.of_receivePath_eq (by simp)
  · unfold stepITx
    split_ifs <;> exact h.inOrder.of_receivePath_eq (by simp)
  · exact h.inOrder.of_receivePath_eq (by simp [stepIExit])
  · exact h.inOrder

/-- `WRITE` has nothing to do with the receive path (43_txpath.md R202 to R207). -/
theorem execWrite_keepsOrder (h : s.Receiving) (w n : Bool) : KeepsOrder (execWrite w n s) := by
  refine keepsOrder_next (h.inOrder.command_of_receivePath_eq (fun t => ?_) fun ph t => ?_)
  · unfold startWrite
    dsimp only
    split_ifs <;> simp
  · split_ifs
    · unfold stepWSelect
      dsimp only
      split_ifs <;> simp
    · exact State.acquireThen_receivePath (by simp)
    · unfold stepWCheck
      dsimp only
      split_ifs <;> simp
    · exact State.waitThen_receivePath (by simp)
    · rfl
    · rfl

theorem execPollPutc_keepsOrder (h : s.Receiving) (b : Byte) : KeepsOrder (execPollPutc b s) := by
  refine keepsOrder_next (h.inOrder.command_of_receivePath_eq (by simp) fun ph t => ?_)
  unfold stepQSpin
  split_ifs <;> simp

theorem execLockAcq_keepsOrder (h : s.Receiving) : KeepsOrder (execLockAcq s) := by
  refine keepsOrder_next (h.inOrder.command_of_receivePath_eq (by simp) fun ph t => ?_)
  split_ifs
  · exact State.acquireThen_receivePath (by simp)
  · rfl

theorem execWakeWait_keepsOrder (h : s.Receiving) : KeepsOrder (execWakeWait s) := by
  refine keepsOrder_next (h.inOrder.command_of_receivePath_eq (by simp) fun ph t => ?_)
  split_ifs
  · exact State.waitThen_receivePath (by simp)
  · rfl

/-- One step of any command leaves the received bytes in order. -/
theorem exec_keepsOrder (i : Instr) (h : s.Receiving) : KeepsOrder (exec i s) :=
  match i with
  | .getbyte w => execGetbyte_keepsOrder h w
  | .rbPop w => execRbPop_keepsOrder h w
  | .rbPush b => execRbPush_keepsOrder h b
  | .pollGetc => execPollGetc_keepsOrder h
  | .rbInit => execRbInit_keepsOrder h
  | .init => execInit_keepsOrder h
  | .irqDispatch => execIrqDispatch_keepsOrder h
  | .write w n => execWrite_keepsOrder h w n
  | .pollPutc b => execPollPutc_keepsOrder h b
  | .lockAcq => execLockAcq_keepsOrder h
  | .wakeWait => execWakeWait_keepsOrder h
  | .initEarly => keepsOrder_next (h.inOrder.oneStep_of_receivePath_eq fun _ => State.done_receivePath _ _ _)
  | .enterFail => keepsOrder_next (h.inOrder.oneStep_of_receivePath_eq fun _ => State.done_receivePath _ _ _)
  | .lockRel => keepsOrder_next (h.inOrder.oneStep_of_receivePath_eq (by simp))
  | .wakeSignal => keepsOrder_next (h.inOrder.oneStep_of_receivePath_eq (by simp))
  | .yield => keepsOrder_next (h.inOrder.oneStep_of_receivePath_eq (by simp))
  | .rxMask => keepsOrder_next (h.inOrder.oneStep_of_receivePath_eq (by simp))
  | .rxUnmask => keepsOrder_next (h.inOrder.oneStep_of_receivePath_eq (by simp))
  | .txMask => keepsOrder_next (h.inOrder.oneStep_of_receivePath_eq (by simp))
  | .txUnmask => keepsOrder_next (h.inOrder.oneStep_of_receivePath_eq (by simp))

/-! ### The events -/

/-- The operand registers have no part in this (10_state.md R33). -/
theorem State.Receiving.setArgs (h : s.Receiving) (p : PortId) (a b : Word) :
    (s.setPort p { s.port p with arg0 := a, arg1 := b }).Receiving :=
  { inv := h.inv.setArgs p a b
    failureMode_off := h.failureMode_off
    no_push := by
      rw [State.setPort_intPort, State.setPort_port]
      split
      · next e => rw [← e]; exact h.no_push
      · exact h.no_push
    inOrder := h.inOrder.of_receivePath_eq (by simp) }

/-- A command on the port whose agent is made to act. -/
theorem exec_cur_keepsOrder (i : Instr) (h : s.Receiving) (p : PortId) : KeepsOrder (exec i { s with cur := p }) :=
  exec_keepsOrder i
    { inv := { h.inv with }, failureMode_off := h.failureMode_off, no_push := h.no_push, inOrder := h.inOrder }

theorem writeCmd_keepsOrder (h : s.Receiving) (p : PortId) (w : Word) : KeepsOrder (s.writeCmd p w) := by
  unfold State.writeCmd
  split_ifs
  · exact keepsOrder_next h.inOrder
  · exact keepsOrder_next (h.inOrder.of_receivePath_eq (by simp))
  · split
    · exact keepsOrder_next (h.inOrder.of_receivePath_eq (by simp))
    · exact exec_cur_keepsOrder _ h p

theorem agentStep_keepsOrder (h : s.Receiving) (p : PortId) : KeepsOrder (s.agentStep p) := by
  unfold State.agentStep
  split_ifs
  · exact keepsOrder_next h.inOrder
  · split
    · exact exec_cur_keepsOrder _ h p
    · exact keepsOrder_next h.inOrder
  · split
    · next l _ =>
      split_ifs
      · exact keepsOrder_next h.inOrder
      · rcases s.writeArgs_cases p l with e | ⟨a, b, e⟩ <;> rw [e]
        · exact writeCmd_keepsOrder h p _
        · exact writeCmd_keepsOrder (h.setArgs p a b) p _
    · exact keepsOrder_next h.inOrder

theorem deliver_keepsOrder (h : s.Receiving) : KeepsOrder s.deliver := by
  unfold State.deliver
  split_ifs
  · exact writeCmd_keepsOrder (s := { s with delivered := s.delivered + 1#32 })
      { inv := { h.inv with }, failureMode_off := h.failureMode_off, no_push := h.no_push, inOrder := h.inOrder } _ _
  · exact keepsOrder_next h.inOrder

theorem busFault_receivePath (s : State) (p : PortId) (o : Nat) : (s.busFault p o).receivePath = s.receivePath := by
  unfold State.busFault
  split_ifs <;> simp

theorem windowWrite_keepsOrder (h : s.Receiving) (p : PortId) (o : Nat) (v : Word) :
    KeepsOrder (s.windowWrite p o v) := by
  unfold State.windowWrite
  split_ifs
  · exact writeCmd_keepsOrder h p v
  · exact keepsOrder_next h.inOrder
  · exact keepsOrder_next (h.inOrder.of_receivePath_eq (by simp))
  · exact keepsOrder_next h.inOrder
  · exact keepsOrder_next (h.inOrder.of_receivePath_eq (by simp))
  · exact keepsOrder_next (h.inOrder.of_receivePath_eq (busFault_receivePath s p o))

theorem access_keepsOrder (h : s.Receiving) (a : Access) : KeepsOrder (s.access a) := by
  unfold State.access
  dsimp only
  split_ifs
  · exact keepsOrder_next h.inOrder
  · exact keepsOrder_refused _
  · exact keepsOrder_next (h.inOrder.of_receivePath_eq (busFault_receivePath s _ _))
  · split
    · split
      · exact keepsOrder_next (h.inOrder.of_receivePath_eq (rfl))
      · exact keepsOrder_next (h.inOrder.of_receivePath_eq (busFault_receivePath s _ _))
    · exact windowWrite_keepsOrder h _ _ _

theorem lineRxTimeout_receivePath (s : State) : s.lineRxTimeout.receivePath = s.receivePath := by
  unfold State.lineRxTimeout
  split_ifs <;> rfl

theorem lineTx_receivePath (s : State) : s.lineTx.receivePath = s.receivePath := by
  unfold State.lineTx
  split_ifs
  · rfl
  · split <;> rfl

theorem spuriousWake_receivePath (s : State) (p : PortId) : (s.spuriousWake p).receivePath = s.receivePath := by
  unfold State.spuriousWake
  split_ifs <;> simp

/-- Every event but reset leaves the received bytes in order. -/
theorem runEvent_keepsOrder (h : s.Receiving) {e : Event} (he : e ≠ .reset) : KeepsOrder (s.runEvent e) :=
  match e with
  | .port p => agentStep_keepsOrder h p
  | .spuriousWake p => keepsOrder_next (h.inOrder.of_receivePath_eq (spuriousWake_receivePath s p))
  | .access a => access_keepsOrder h a
  | .lineRx b => keepsOrder_next (h.inOrder.lineRx b)
  | .lineRxTimeout => keepsOrder_next (h.inOrder.of_receivePath_eq (lineRxTimeout_receivePath s))
  | .lineTx => keepsOrder_next (h.inOrder.of_receivePath_eq (lineTx_receivePath s))
  | .deliver => deliver_keepsOrder h
  | .hostStore _ _ => keepsOrder_next (h.inOrder.of_receivePath_eq (rfl))
  | .reset => absurd rfl he

/-- Settles O60: the step takes an event other than reset, and every such event leaves the bytes in order. -/
theorem receiveKeepsArrivalOrder : Obligations.ReceiveKeepsArrivalOrder := by
  intro s t hinv hmode hpush hreset horder hs
  rw [step, if_pos hinv.params_wf] at hs
  have h : s.advance.Receiving :=
    { inv := hinv.advance, failureMode_off := hmode, no_push := hpush, inOrder := horder }
  exact runEvent_keepsOrder h hreset t hs

end Sys2Proof.Machine
end

section
/-! SUPPORT. The run of one `GETBYTE`, its steps put one after the other (41_rxpath.md R162 to R166). -/

namespace Sys2Proof.Machine

variable {s : State} {p : PortId}

/-- A run of a command goes on from its first step. -/
theorem runCommand_next {i : Instr} {t : State} (n : Nat) (h : exec i s = .next t) :
    runCommand i (n + 1) s = runCommand i n t := by
  simp [runCommand, h]

/-- The state after the pop of step `G_POP` (R165). -/
def State.afterGPop (s : State) (p : PortId) : State :=
  (s.rbPop.setAgent p { s.agent p with data := s.rbHead }).goto p Phase.gLock

/-- The state after the pop and the taking of the lock in step `G_LOCK` (R166). -/
def State.afterGLock (s : State) (p : PortId) : State := ((s.afterGPop p).takeLock p).goto p Phase.gUnmask

theorem State.atStep_afterGPop (h : s.atStep p 0x12#8 Phase.gPop) : (s.afterGPop p).atStep p 0x12#8 Phase.gLock := by
  obtain ⟨hcur, hf, ho, -⟩ := h
  simp [State.atStep, State.afterGPop, State.goto_port, hcur, hf, ho]

theorem State.atStep_afterGLock (h : s.atStep p 0x12#8 Phase.gPop) :
    (s.afterGLock p).atStep p 0x12#8 Phase.gUnmask := by
  obtain ⟨hcur, hf, ho, -⟩ := State.atStep_afterGPop h
  simp [State.atStep, State.afterGLock, State.goto_port, hcur, hf, ho]

/-- From `G_POP` on, with a byte to pop and the lock free, three steps complete `GETBYTE`. -/
theorem runCommand_getbyte_at_gPop (w : Bool) (h : s.atStep p 0x12#8 Phase.gPop) (he : s.isEmpty = false)
    (hl : s.lockHeld = false) : runCommand (.getbyte w) 3 s = .next (stepGUnmask p (s.afterGLock p)) := by
  have hpop : exec (.getbyte w) s = .next (s.afterGPop p) := by
    rw [exec_getbyte_at_gPop w h, stepGPop_nonempty he]; rfl
  have hlock : exec (.getbyte w) (s.afterGPop p) = .next (s.afterGLock p) := by
    rw [exec_getbyte_at_gLock w (State.atStep_afterGPop h), stepGLock, State.acquireThen_free (s := s.afterGPop p) hl]
    rfl
  have hunmask : exec (.getbyte w) (s.afterGLock p) = .next (stepGUnmask p (s.afterGLock p)) :=
    exec_getbyte_at_gUnmask w (State.atStep_afterGLock h)
  rw [runCommand_next 2 hpop, runCommand_next 1 hlock, runCommand_next 0 hunmask, runCommand]

theorem stepGUnmask_not_full (hf : s.isFull = false) :
    stepGUnmask p s = ((s.maskRx false).release p).done p (resByte (s.agent p).data) := by
  simp [stepGUnmask, hf]

/-- The agent's registers under the lock: the popped byte and the interrupt enable to give back. -/
theorem State.afterGLock_agent (s : State) (p q : PortId) :
    (s.afterGLock p).agent q =
      if q = p then { s.agent p with data := s.rbHead, savedIe := s.ie (s.core p) } else s.agent q := by
  by_cases hq : q = p <;> simp [State.afterGLock, State.afterGPop, State.takeLock_agent, State.setAgent_agent, hq]

theorem State.afterGLock_ie (s : State) (p : PortId) (c : Nat) :
    (s.afterGLock p).ie c = if c = s.core p then false else s.ie c := by
  by_cases hc : c = s.core p <;> simp [State.afterGLock, State.afterGPop, State.takeLock_ie, hc]

theorem State.afterGLock_port_other {q : PortId} (hq : q ≠ p) : (s.afterGLock p).port q = s.port q := by
  simp [State.afterGLock, State.afterGPop, State.goto_port, hq]

/-- What is given back at `G_UNMASK` is what was saved at `G_LOCK`: every interrupt enable is as it was. -/
theorem stepGUnmask_afterGLock_ie (s : State) (p : PortId) (c : Nat) :
    (stepGUnmask p (s.afterGLock p)).ie c = s.ie c := by
  obtain ⟨hsame, hother, -⟩ := stepGUnmask_spec (s.afterGLock p) p
  have hcore : (s.afterGLock p).core p = s.core p := by simp [State.afterGLock, State.afterGPop]
  rw [hcore] at hsame hother
  by_cases hc : c = s.core p
  · subst hc
    exact hsame.trans (by rw [State.afterGLock_agent, if_pos rfl])
  · exact (hother c hc).trans (by rw [State.afterGLock_ie, if_neg hc])

/-- The last three steps of `GETBYTE`, on a buffer that is not full after the pop: what the command leaves behind. -/
theorem stepGUnmask_afterGLock {t : State} (ht : t = stepGUnmask p (s.afterGLock p)) (hf : s.rbPop.isFull = false) :
    (t.port p).result = s.rbHead.setWidth 32 ||| 0x500#32 ∧ (t.port p).phase = 0x00#8 ∧ (t.port p).opc = 0x00#8
      ∧ (t.agent p).pc = (s.agent p).pc + 1#32 ∧ t.ring = s.rbPop.ring ∧ t.rxOut = s.rxOut ++ [s.rbHead]
      ∧ t.imask = { s.imask with rxrdyM := false, rxtoM := false } ∧ t.lockHeld = false
      ∧ t.rxf = s.rxf ∧ t.txf = s.txf ∧ t.txLog = s.txLog ∧ t.wakePend = s.wakePend ∧ t.mem = s.mem
      ∧ ∀ q, q ≠ p → t.port q = s.port q ∧ t.agent q = s.agent q := by
  have hfull : (s.afterGLock p).isFull = false := by simpa [State.afterGLock, State.afterGPop] using hf
  rw [stepGUnmask_not_full hfull] at ht
  have hpath : t.receivePath = s.rbPop.receivePath := by simp [ht, State.afterGLock, State.afterGPop]
  obtain ⟨-, hout, hring, hrxf⟩ : t.rxIn = s.rbPop.rxIn ∧ t.rxOut = s.rbPop.rxOut ∧ t.ring = s.rbPop.ring
      ∧ t.rxf = s.rbPop.rxf := by
    simpa [State.receivePath] using hpath
  subst ht
  refine ⟨?_, ?_, ?_, ?_, ?_, ?_, ?_, ?_, ?_, ?_, ?_, ?_, ?_, fun q hq => ⟨?_, ?_⟩⟩
  · simp [State.done_port, State.afterGLock_agent, resByte_or_doneBit]
  · simp [State.done_port]
  · simp [State.done_port]
  · simp [State.done_agent, State.afterGLock_agent]
  · exact hring
  · exact hout
  · simp [State.maskRx, State.afterGLock, State.afterGPop]
  · simp
  · exact hrxf
  · simp [State.afterGLock, State.afterGPop]
  · simp [State.afterGLock, State.afterGPop]
  · simp [State.afterGLock, State.afterGPop]
  · simp [State.afterGLock, State.afterGPop]
  · simp [State.done_port, hq, State.afterGLock_port_other]
  · simp [State.done_agent, hq, State.afterGLock_agent]

/-! ### The issue reads and writes nothing of the RingBuffer -/

@[simp] theorem State.setPort_ring (s : State) (p : PortId) (x : Port) : (s.setPort p x).ring = s.ring := rfl
@[simp] theorem State.setAgent_ring (s : State) (p : PortId) (x : Agent) : (s.setAgent p x).ring = s.ring := rfl
theorem State.setPort_rbPop (s : State) (p : PortId) (x : Port) : (s.setPort p x).rbPop = s.rbPop.setPort p x := rfl
theorem State.setAgent_rbPop (s : State) (p : PortId) (x : Agent) : (s.setAgent p x).rbPop = s.rbPop.setAgent p x := rfl

/-- The state after the issue of `GETBYTE` (R162). -/
def State.afterGetbyteIssue (s : State) (p : PortId) (w : Bool) : State :=
  (s.setPort p { s.port p with result := 0#32, opc := 0x12#8, phase := Phase.gPop }).setAgent p
    { s.agent p with wt := w }

theorem State.atStep_afterGetbyteIssue (w : Bool) (h : s.atIssue p) :
    (s.afterGetbyteIssue p w).atStep p 0x12#8 Phase.gPop := by
  obtain ⟨hcur, -, hf, -⟩ := h
  simp [State.atStep, State.afterGetbyteIssue, hcur, hf]

theorem State.afterGetbyteIssue_other {q : PortId} (w : Bool) (hq : q ≠ p) :
    (s.afterGetbyteIssue p w).port q = s.port q ∧ (s.afterGetbyteIssue p w).agent q = s.agent q := by
  simp [State.afterGetbyteIssue, State.setPort_port, State.setAgent_agent, hq]

/-- Settles O20: the issue step, then the three steps from `G_POP` on. -/
theorem getbyteReturnsOldestByteInFourSteps : Obligations.GetbyteReturnsOldestByteInFourSteps := by
  intro s p w b rest hinv hissue hd hl hx hring
  have he : s.isEmpty = false := by simp [State.isEmpty, ← State.ring_length, hring]
  obtain ⟨rfl, rfl⟩ : s.rbHead = b ∧ s.rbPop.ring = rest := by
    simpa [hring, eq_comm] using hinv.ring_of_nonempty he
  have hbegin : exec (.getbyte w) s = .next (s.afterGetbyteIssue p w) :=
    exec_getbyte_begins w hissue (by simp [firstFailing, State.getbyteChecks, State.holdsLock, hd, hl, hx])
  have hrun := runCommand_getbyte_at_gPop w (State.atStep_afterGetbyteIssue w hissue)
    (by simpa [State.afterGetbyteIssue] using he) (by simpa [State.afterGetbyteIssue] using hl)
  have hfull : (s.afterGetbyteIssue p w).rbPop.isFull = false := by
    simpa [State.afterGetbyteIssue, State.setAgent_rbPop, State.setPort_rbPop] using hinv.rbPop_not_full he
  obtain ⟨hres, hph, ho, hpc, hleft, hout, hmask, hlock, hrxf, htxf, hlog, hwake, hmem, hothers⟩ :=
    stepGUnmask_afterGLock rfl hfull
  refine ⟨_, (runCommand_next 3 hbegin).trans hrun, hres.trans ?_, hph, ho, hpc.trans ?_, hleft.trans ?_,
    hout.trans ?_, hmask.trans ?_, hlock, fun c => (stepGUnmask_afterGLock_ie _ p c).trans ?_, hrxf.trans ?_,
    htxf.trans ?_, hlog.trans ?_, hwake.trans ?_, hmem.trans ?_, fun q hq => ⟨(hothers q hq).1.trans (State.afterGetbyteIssue_other w hq).1,
      (hothers q hq).2.trans (State.afterGetbyteIssue_other w hq).2⟩⟩
  all_goals simp [State.afterGetbyteIssue, State.setAgent_rbPop, State.setPort_rbPop]

end Sys2Proof.Machine
end

section
/-! SUPPORT. Who may change the lock: a step of a command, and each event, leaves a held lock as it is, or its holder
gives it back (42_lock_wake.md R181, R183, R193). -/

namespace Sys2Proof.Machine

variable {s t : State} {p : PortId}

/-! ### A lock that is left as it is or given back by its holder -/

/-- The lock: whether it is held, and by whom (10_state.md R30). -/
def State.lock (s : State) : Bool × PortId := (s.lockHeld, s.lockOwner)

/-- From `s` to `t` the lock stays as it is, or port `p` holds it and gives it back. -/
def State.LockStep (s : State) (p : PortId) (t : State) : Prop :=
  t.lock = s.lock ∨ s.holdsLock p = true ∧ t.lockHeld = false

/-- The next state of an outcome, if it has one, is reached by such a step of port `p`. -/
def State.LeavesLockTo (s : State) (p : PortId) (o : Host.Outcome State Fault Refusal) : Prop :=
  ∀ t, o = .next t → s.LockStep p t

theorem State.LockStep.of_lock_eq (h : t.lock = s.lock) : s.LockStep p t := .inl h

theorem State.LockStep.refl (s : State) (p : PortId) : s.LockStep p s := .inl rfl

/-- Only the lock of the state a step starts from counts. -/
theorem State.LockStep.from_lock_eq {r : State} (h : r.LockStep p t) (e : r.lock = s.lock) : s.LockStep p t := by
  obtain ⟨hheld, howner⟩ : r.lockHeld = s.lockHeld ∧ r.lockOwner = s.lockOwner := by simpa [State.lock] using e
  rwa [State.LockStep, e, State.holdsLock, hheld, howner] at h

theorem State.leavesLockTo_next (h : s.LockStep p t) : s.LeavesLockTo p (.next t) := by
  rintro _ ⟨⟩; exact h

theorem State.leavesLockTo_refused (r : Refusal) : s.LeavesLockTo p (.refused r) := by
  rintro _ ⟨⟩

theorem State.LeavesLockTo.from_lock_eq {r : State} {o : Host.Outcome State Fault Refusal} (h : r.LeavesLockTo p o)
    (e : r.lock = s.lock) : s.LeavesLockTo p o := fun t ht => (h t ht).from_lock_eq e

theorem State.waitThen_lock {k : State → State} (hk : ∀ t, (k t).lock = t.lock) : (s.waitThen k).lock = s.lock := by
  rcases s.waitThen_cases k with ⟨-, e⟩ | ⟨-, e⟩ <;> rw [e]
  exact hk _

/-- A step that acquires changes nothing while the lock is held (R181). -/
theorem State.acquireThen_lockStep (hl : s.lockHeld = true) (k : State → State) :
    s.LockStep p (s.acquireThen p k) := by
  rw [State.acquireThen_held hl]; exact .refl s p

section
variable {i : Instr} {latch : Agent → Agent} {checks : List (Bool × FaultCode)} {start : State → State}
  {later : Byte → State → State}

/-- A command leaves the lock to its port if its first step does, from a state with the same lock and with every check
passed, and each later step does. -/
theorem State.command_lockStep
    (hstart : firstFailing checks = none → ∀ t : State, t.lock = s.lock → s.LockStep s.cur (start t))
    (hlater : ∀ ph, s.atStep s.cur i.opcode ph → s.LockStep s.cur (later ph s)) :
    s.LockStep s.cur (s.command i latch checks start later) := by
  rcases s.command_cases i latch checks start later with e | ⟨hf, hcase⟩
  · rw [e]; exact .refl s _
  rcases hcase with ⟨-, -, e⟩ | ⟨-, -, -, e⟩ | ⟨c, -, -, e⟩ | ⟨hc, -, -, -, e⟩ | ⟨hc, -, -, -, -, e⟩
    | ⟨-, -, ho, e⟩ <;> rw [e]
  · exact .of_lock_eq rfl
  · exact .of_lock_eq rfl
  · exact .of_lock_eq rfl
  · exact hstart hc _ rfl
  · exact hstart hc s rfl
  · exact hlater _ ⟨rfl, hf, ho, rfl⟩

/-- A command whose first step does not touch the lock. -/
theorem State.command_lockStep_of_start (hstart : ∀ t, (start t).lock = t.lock)
    (hlater : ∀ ph, s.atStep s.cur i.opcode ph → s.LockStep s.cur (later ph s)) :
    s.LockStep s.cur (s.command i latch checks start later) :=
  State.command_lockStep (fun _ t e => .of_lock_eq ((hstart t).trans e)) hlater

/-- A command of one step that does not touch the lock. -/
theorem State.oneStep_leavesLockTo (hstart : ∀ t, (start t).lock = t.lock) :
    s.LeavesLockTo s.cur (.next (s.oneStep i latch checks start)) :=
  State.leavesLockTo_next (State.command_lockStep_of_start hstart fun _ _ => .refl s _)

end

/-! ### The steps that give the lock back: `G_UNMASK`, `W_CHECK`, `I_EXIT` -/

theorem stepGUnmask_lockHeld (s : State) (p : PortId) : (stepGUnmask p s).lockHeld = false := by simp [stepGUnmask]

theorem stepWCheck_lockHeld (s : State) (p : PortId) : (stepWCheck p s).lockHeld = false := by
  unfold stepWCheck
  dsimp only
  split_ifs <;> simp

theorem stepIExit_lockHeld (s : State) (p : PortId) : (stepIExit p s).lockHeld = false := by simp [stepIExit]

/-- The port of such a step holds the lock (41_rxpath.md R166, 43_txpath.md R205, 45_lifecycle_dispatch.md R253). -/
theorem stepGUnmask_lockStep (h : s.Inv) (hs : s.atStep p 0x12#8 Phase.gUnmask) : s.LockStep p (stepGUnmask p s) :=
  .inr ⟨h.holdsLock_of_step hs (h.thread_of_step hs), stepGUnmask_lockHeld s p⟩

theorem stepWCheck_lockStep (h : s.Inv) (hs : s.atStep p 0x13#8 Phase.wCheck) : s.LockStep p (stepWCheck p s) :=
  .inr ⟨h.holdsLock_of_step hs (h.thread_of_step hs), stepWCheck_lockHeld s p⟩

theorem stepIExit_lockStep (h : s.Inv) (hs : s.atStep p 0x50#8 Phase.iExit) : s.LockStep p (stepIExit p s) :=
  .inr ⟨h.holdsLock_of_step hs (h.interrupt_of_step hs), stepIExit_lockHeld s p⟩

/-! ### The steps that do not touch the lock -/

theorem stepGPop_lock (s : State) (p : PortId) : (stepGPop p s).lock = s.lock := by
  unfold stepGPop
  split_ifs <;> simp [State.lock]

theorem stepPPop_lock (s : State) (p : PortId) : (stepPPop p s).lock = s.lock := by
  unfold stepPPop
  split_ifs <;> simp [State.lock]

theorem startWrite_lock (s : State) (p : PortId) (w n : Bool) : (startWrite p w n s).lock = s.lock := by
  unfold startWrite
  dsimp only
  split_ifs <;> simp [State.lock]

theorem stepWSelect_lock (s : State) (p : PortId) : (stepWSelect p s).lock = s.lock := by
  unfold stepWSelect
  dsimp only
  split_ifs <;> simp [State.lock]

theorem stepWWait_lock (s : State) (p : PortId) : (stepWWait p s).lock = s.lock := State.waitThen_lock fun _ => rfl

theorem stepKWait_lock (s : State) (p : PortId) : (stepKWait p s).lock = s.lock :=
  State.waitThen_lock (by simp [State.lock])

theorem stepIRxsel_lock (s : State) (p : PortId) : (stepIRxsel p s).lock = s.lock := by
  unfold stepIRxsel
  split_ifs <;> rfl

theorem stepIDrain_lock (s : State) (p : PortId) : (stepIDrain p s).lock = s.lock := by
  unfold stepIDrain
  split
  · rfl
  · split_ifs <;> rfl

theorem stepIRxend_lock (s : State) (p : PortId) : (stepIRxend p s).lock = s.lock := by
  unfold stepIRxend
  split_ifs <;> rfl

theorem stepITx_lock (s : State) (p : PortId) : (stepITx p s).lock = s.lock := by
  unfold stepITx
  split_ifs <;> rfl

theorem stepQSpin_lock (s : State) (p : PortId) : (stepQSpin p s).lock = s.lock := by
  unfold stepQSpin
  split_ifs <;> simp [State.lock]

theorem startPollGetc_lock (s : State) (p : PortId) : (startPollGetc p s).lock = s.lock := by
  unfold startPollGetc
  split <;> simp [State.lock]

/-! ### The commands, while the lock is held -/

theorem execGetbyte_leavesLockTo (h : s.Inv) (hl : s.lockHeld = true) (w : Bool) :
    s.LeavesLockTo s.cur (execGetbyte w s) := by
  refine State.leavesLockTo_next (State.command_lockStep_of_start (fun _ => rfl) fun ph hs => ?_)
  split_ifs with _ _ hunmask
  · exact .of_lock_eq (stepGPop_lock s _)
  · exact State.acquireThen_lockStep hl _
  · subst hunmask
    exact stepGUnmask_lockStep h hs
  · exact .refl s _

theorem execWrite_leavesLockTo (h : s.Inv) (hl : s.lockHeld = true) (w n : Bool) :
    s.LeavesLockTo s.cur (execWrite w n s) := by
  refine State.leavesLockTo_next (State.command_lockStep_of_start (fun t => startWrite_lock t _ w n) fun ph hs => ?_)
  split_ifs with _ _ hcheck
  · exact .of_lock_eq (stepWSelect_lock s _)
  · exact State.acquireThen_lockStep hl _
  · subst hcheck
    exact stepWCheck_lockStep h hs
  · exact .of_lock_eq (stepWWait_lock s _)
  · exact .of_lock_eq rfl
  · exact .refl s _

theorem execIrqDispatch_leavesLockTo (h : s.Inv) (hl : s.lockHeld = true) :
    s.LeavesLockTo s.cur (execIrqDispatch s) := by
  refine State.leavesLockTo_next (State.command_lockStep_of_start (by simp [State.lock]) fun ph hs => ?_)
  split_ifs with _ _ _ _ _ hexit
  · exact State.acquireThen_lockStep hl _
  · exact .of_lock_eq (stepIRxsel_lock s _)
  · exact .of_lock_eq (stepIDrain_lock s _)
  · exact .of_lock_eq (stepIRxend_lock s _)
  · exact .of_lock_eq (stepITx_lock s _)
  · subst hexit
    exact stepIExit_lockStep h hs
  · exact .refl s _

theorem execLockAcq_leavesLockTo (hl : s.lockHeld = true) : s.LeavesLockTo s.cur (execLockAcq s) := by
  refine State.leavesLockTo_next (State.command_lockStep_of_start (fun _ => rfl) fun ph _ => ?_)
  split_ifs
  · exact State.acquireThen_lockStep hl _
  · exact .refl s _

/-- The check of `LOCK_REL` lets only the holder release (R182). -/
theorem execLockRel_leavesLockTo (s : State) : s.LeavesLockTo s.cur (execLockRel s) := by
  refine State.leavesLockTo_next (State.command_lockStep (fun hc t _ => .inr ⟨?_, ?_⟩) fun _ _ => .refl s _)
  · simpa [firstFailing_none] using hc
  · simp

theorem execWakeWait_leavesLockTo (s : State) : s.LeavesLockTo s.cur (execWakeWait s) := by
  refine State.leavesLockTo_next (State.command_lockStep_of_start (fun _ => rfl) fun ph _ => ?_)
  split_ifs
  · exact .of_lock_eq (stepKWait_lock s _)
  · exact .refl s _

theorem execPollPutc_leavesLockTo (s : State) (b : Byte) : s.LeavesLockTo s.cur (execPollPutc b s) := by
  refine State.leavesLockTo_next (State.command_lockStep_of_start (fun _ => rfl) fun ph _ => ?_)
  split_ifs
  · exact .of_lock_eq (stepQSpin_lock s _)
  · exact .refl s _

theorem execRbPop_leavesLockTo (s : State) (w : Bool) : s.LeavesLockTo s.cur (execRbPop w s) := by
  refine State.leavesLockTo_next (State.command_lockStep_of_start (fun _ => rfl) fun ph _ => ?_)
  split_ifs
  · exact .of_lock_eq (stepPPop_lock s _)
  · exact .refl s _

/-- While the lock is held, one step of any command leaves it as it is, or its port is the holder and gives it back. -/
theorem exec_leavesLockTo (i : Instr) (h : s.Inv) (hl : s.lockHeld = true) : s.LeavesLockTo s.cur (exec i s) :=
  match i with
  | .getbyte w => execGetbyte_leavesLockTo h hl w
  | .write w n => execWrite_leavesLockTo h hl w n
  | .irqDispatch => execIrqDispatch_leavesLockTo h hl
  | .lockAcq => execLockAcq_leavesLockTo hl
  | .lockRel => execLockRel_leavesLockTo s
  | .wakeWait => execWakeWait_leavesLockTo s
  | .pollPutc b => execPollPutc_leavesLockTo s b
  | .rbPop w => execRbPop_leavesLockTo s w
  | .pollGetc => State.oneStep_leavesLockTo fun t => startPollGetc_lock t _
  | .initEarly | .init | .enterFail | .rbInit | .rbPush _ | .wakeSignal | .yield | .rxMask | .rxUnmask | .txMask
  | .txUnmask => State.oneStep_leavesLockTo (by simp [State.lock])

/-! ### The events, while the lock is held -/

/-- A command on the port whose agent is made to act. -/
theorem exec_cur_leavesLockTo (i : Instr) (h : s.Inv) (hl : s.lockHeld = true) (p : PortId) :
    s.LeavesLockTo p (exec i { s with cur := p }) :=
  (exec_leavesLockTo i (s := { s with cur := p }) { h with } hl).from_lock_eq rfl

theorem writeCmd_leavesLockTo (h : s.Inv) (hl : s.lockHeld = true) (p : PortId) (w : Word) :
    s.LeavesLockTo p (s.writeCmd p w) := by
  unfold State.writeCmd
  split_ifs
  · exact State.leavesLockTo_next (.refl s p)
  · exact State.leavesLockTo_next (.of_lock_eq rfl)
  · split
    · exact State.leavesLockTo_next (.of_lock_eq rfl)
    · exact exec_cur_leavesLockTo _ h hl p

theorem agentStep_leavesLockTo (h : s.Inv) (hl : s.lockHeld = true) (p : PortId) :
    s.LeavesLockTo p (s.agentStep p) := by
  unfold State.agentStep
  split_ifs
  · exact State.leavesLockTo_next (.refl s p)
  · split
    · exact exec_cur_leavesLockTo _ h hl p
    · exact State.leavesLockTo_next (.refl s p)
  · split
    · next l _ =>
      split_ifs
      · exact State.leavesLockTo_next (.refl s p)
      · rcases s.writeArgs_cases p l with e | ⟨a, b, e⟩ <;> rw [e]
        · exact writeCmd_leavesLockTo h hl p _
        · exact (writeCmd_leavesLockTo (h.setArgs p a b) hl p _).from_lock_eq rfl
    · exact State.leavesLockTo_next (.refl s p)

theorem busFault_lock (s : State) (p : PortId) (o : Nat) : (s.busFault p o).lock = s.lock := by
  unfold State.busFault
  split_ifs <;> rfl

theorem windowWrite_leavesLockTo (h : s.Inv) (hl : s.lockHeld = true) (p : PortId) (o : Nat) (v : Word) :
    s.LeavesLockTo p (s.windowWrite p o v) := by
  unfold State.windowWrite
  split_ifs
  · exact writeCmd_leavesLockTo h hl p v
  · exact State.leavesLockTo_next (.refl s p)
  · exact State.leavesLockTo_next (.of_lock_eq rfl)
  · exact State.leavesLockTo_next (.refl s p)
  · exact State.leavesLockTo_next (.of_lock_eq rfl)
  · exact State.leavesLockTo_next (.of_lock_eq (busFault_lock s p o))

theorem access_leavesLockTo (h : s.Inv) (hl : s.lockHeld = true) (a : Access) :
    s.LeavesLockTo a.port (s.access a) := by
  unfold State.access
  dsimp only
  split_ifs
  · exact State.leavesLockTo_next (.refl s _)
  · exact State.leavesLockTo_refused _
  · exact State.leavesLockTo_next (.of_lock_eq (busFault_lock s _ _))
  · split
    · split
      · exact State.leavesLockTo_next (.of_lock_eq rfl)
      · exact State.leavesLockTo_next (.of_lock_eq (busFault_lock s _ _))
    · exact windowWrite_leavesLockTo h hl _ _ _

theorem spuriousWake_lock (s : State) (p : PortId) : (s.spuriousWake p).lock = s.lock := by
  unfold State.spuriousWake
  split_ifs <;> simp [State.lock]

theorem lineRx_lock (s : State) (b : Byte) : (s.lineRx b).lock = s.lock := by
  unfold State.lineRx
  split_ifs <;> rfl

theorem lineRxTimeout_lock (s : State) : s.lineRxTimeout.lock = s.lock := by
  unfold State.lineRxTimeout
  split_ifs <;> rfl

theorem lineTx_lock (s : State) : s.lineTx.lock = s.lock := by
  unfold State.lineTx
  split_ifs
  · rfl
  · split <;> rfl

/-- The `IRQ_DISPATCH` word is latched on the idle interrupt port, which does not touch the lock (30_encoding.md
R101). -/
theorem writeCmd_dispatch_lock (hf : s.faulted = false) (hk : s.kind p = .interrupt) (hb : s.busy p = false)
    (ht : s.writeCmd p dispatchWord = .next t) : t.lock = s.lock := by
  have hi : (s.port p).phase = Phase.idle := by simpa [State.busy] using hb
  rw [State.writeCmd_legal hf hb (decode_eq_irqDispatch.mpr rfl),
    exec_latch (s := { s with cur := p }) (p := p) ⟨rfl, hk, hf, hi⟩ rfl] at ht
  cases ht; rfl

/-- A delivery finds the interrupt port idle (46_environment.md R266). -/
theorem deliver_lock (ht : s.deliver = .next t) : t.lock = s.lock := by
  unfold State.deliver at ht
  split_ifs at ht with he
  · obtain ⟨⟨⟨hf, -⟩, hb⟩, -⟩ : ((s.faulted = false ∧ s.irqOut = true) ∧ s.busy s.intPort = false)
        ∧ s.ie s.params.irqCpu = true := by simpa [State.deliverEnabled] using he
    exact writeCmd_dispatch_lock (s := { s with delivered := s.delivered + 1#32 }) hf State.kind_intPort hb ht
  · cases ht; rfl

/-- The events by which a held lock may be freed: reset, and a step or register access of its owner's agent (R193). -/
def State.MayFreeLock (s : State) (e : Event) : Prop :=
  e = .reset ∨ e = .port s.lockOwner ∨ ∃ a, e = .access a ∧ a.port = s.lockOwner

/-- While the lock is held, an event leaves it as it is, or is one that may free it and does. -/
theorem runEvent_lock (h : s.Inv) (hl : s.lockHeld = true) (e : Event) (ht : s.runEvent e = .next t) :
    t.lock = s.lock ∨ t.lockHeld = false ∧ s.MayFreeLock e := by
  have hport {p : PortId} (hp : s.holdsLock p = true) : p = s.lockOwner := by
    simp only [State.holdsLock, Bool.and_eq_true, decide_eq_true_eq] at hp
    exact hp.2.symm
  cases e with
  | port p =>
    rcases agentStep_leavesLockTo h hl p t ht with he | ⟨hp, hfree⟩
    · exact .inl he
    · exact .inr ⟨hfree, .inr (.inl (by rw [hport hp]))⟩
  | access a =>
    rcases access_leavesLockTo h hl a t ht with he | ⟨hp, hfree⟩
    · exact .inl he
    · exact .inr ⟨hfree, .inr (.inr ⟨a, rfl, hport hp⟩)⟩
  | reset => cases ht; exact .inr ⟨rfl, .inl rfl⟩
  | deliver => exact .inl (deliver_lock ht)
  | spuriousWake p => cases ht; exact .inl (spuriousWake_lock s p)
  | lineRx b => cases ht; exact .inl (lineRx_lock s b)
  | lineRxTimeout => cases ht; exact .inl (lineRxTimeout_lock s)
  | lineTx => cases ht; exact .inl (lineTx_lock s)
  | hostStore a b => cases ht; exact .inl rfl

/-- Settles O30: the step takes an event, and no event takes a held lock from its owner. -/
theorem lockLeavesOnlyByItsOwner : Obligations.LockLeavesOnlyByItsOwner := by
  intro s t h hl hs
  rw [step, if_pos h.params_wf] at hs
  refine (runEvent_lock h.advance hl s.nextEvent hs).imp_left fun e => ?_
  simpa [State.lock, hl] using e

end Sys2Proof.Machine
end

section
/-! SUPPORT. What each step of the lock and wake commands does, and what raises `LOCK_MISUSE` (42_lock_wake.md R180 to
R191). -/

namespace Sys2Proof.Machine

variable {s : State} {p : PortId}

/-! ### Issue (30_encoding.md R101) -/

/-- The issue step of a command that keeps no operand. -/
theorem State.setResult_begin (s : State) (p : PortId) (opc ph : Byte) :
    (s.setResult p 0#32).begin p opc ph = s.begun p opc ph := by
  simp [State.begin, State.begun, State.setResult, State.setPort, State.port]

/-- The interrupt enable that port `p`'s lock takes and gives back is the one of its core (R181). -/
theorem State.core_eq (h : s.params.nthread ≤ 7) (p : PortId) :
    s.core p = if p.val = s.params.nthread then s.params.irqCpu else s.params.cpu.getD p.val 0 := by
  simp only [State.core, Fin.ext_iff, s.intPort_val h]

/-- Who holds the lock (R188). -/
theorem State.holdsLock_iff : s.holdsLock p = true ↔ s.lockHeld = true ∧ s.lockOwner = p := by
  simp [State.holdsLock]

/-! ### `LOCK_ACQ` (R180, R181) -/

theorem exec_lockAcq_begins (h : s.atIssue p) (hl : s.holdsLock p = false) :
    exec .lockAcq s = .next (s.begun p 0x30#8 Phase.lSpin) := by
  obtain rfl := h.1
  refine congrArg Host.Outcome.next ((State.command_issue_starts (i := .lockAcq) h rfl ?_).trans ?_)
  · simp [firstFailing, hl]
  · exact s.setResult_begin s.cur _ _

theorem exec_lockAcq_faults (h : s.atIssue p) (hl : s.holdsLock p = true) :
    exec .lockAcq s = .next (s.faultedWith p 0x0A#8 0x30#8) := by
  obtain rfl := h.1
  exact congrArg Host.Outcome.next
    (State.command_issue_faults (i := .lockAcq) (c := .lockMisuse) h rfl (by simp [firstFailing, hl]))

theorem exec_lockAcq_at_lSpin (h : s.atStep p 0x30#8 Phase.lSpin) : exec .lockAcq s = .next (stepLSpin p s) := by
  obtain rfl := h.1
  exact congrArg Host.Outcome.next (State.command_at_step (i := .lockAcq) h (by decide) (by decide))

/-- The lock taken and the command completed: the core's interrupt enable is saved and cleared, no other is touched. -/
theorem State.takeLock_done_spec (s : State) (p : PortId) :
    ((s.takeLock p).done p resNone).ie (s.core p) = false
      ∧ (∀ c, c ≠ s.core p → ((s.takeLock p).done p resNone).ie c = s.ie c)
      ∧ (s.takeLock p).done p resNone =
          { s.completed p 0x400#32 with
            lockHeld := true, lockOwner := p, ieBits := ((s.takeLock p).done p resNone).ieBits
            agents := s.agents.set p
              { s.agent p with savedIe := s.ie (s.core p), pc := (s.agent p).pc + 1#32 } } := by
  have hagents : (s.takeLock p).agents = s.agents.set p { s.agent p with savedIe := s.ie (s.core p) } := by
    rw [State.takeLock]; rfl
  refine ⟨by simp [State.takeLock_ie], fun c hc => by simp [State.takeLock_ie, hc], ?_⟩
  simp [State.done_eq_completed, State.completed, State.takeLock_agent, hagents, resNone, doneBit]

/-- Settles O22: the core of a port, the issue step, and the two outcomes of step `L_SPIN`. -/
theorem lockAcqTakesFreeLock : Obligations.LockAcqTakesFreeLock := by
  intro s p
  refine ⟨fun hn => State.core_eq hn p, exec_lockAcq_begins, fun h hl => ?_,
    fun h hl => ⟨_, ?_, s.takeLock_done_spec p⟩⟩
  · rw [exec_lockAcq_at_lSpin h, stepLSpin, State.acquireThen_held hl]
  · rw [exec_lockAcq_at_lSpin h, stepLSpin, State.acquireThen_free hl]

/-! ### `LOCK_REL` (R182, R183) -/

theorem exec_lockRel_completes (h : s.atIssue p) (hl : s.holdsLock p = true) :
    exec .lockRel s = .next ((s.release p).completed p 0x400#32) := by
  obtain rfl := h.1
  refine congrArg Host.Outcome.next ((State.command_issue_starts (i := .lockRel) h rfl ?_).trans ?_)
  · simp [firstFailing, hl]
  · exact (s.release s.cur).setResult_completed s.cur 0#32 0x400#32

theorem exec_lockRel_faults (h : s.atIssue p) (hl : s.holdsLock p = false) :
    exec .lockRel s = .next (s.faultedWith p 0x0A#8 0x31#8) := by
  obtain rfl := h.1
  exact congrArg Host.Outcome.next
    (State.command_issue_faults (i := .lockRel) (c := .lockMisuse) h rfl (by simp [firstFailing, hl]))

/-- Settles O23: the release through what it does to each core's interrupt enable, or the failing check. -/
theorem lockRelRestoresInterruptEnable : Obligations.LockRelRestoresInterruptEnable := by
  intro s p h
  refine ⟨fun hl => ⟨_, exec_lockRel_completes h hl, ?_, fun c hc => ?_, rfl⟩, exec_lockRel_faults h⟩
  · exact (s.release_ie p _).trans (if_pos rfl)
  · exact (s.release_ie p c).trans (if_neg hc)

/-! ### `WAKE_SIGNAL`, `WAKE_WAIT`, `YIELD` (R184 to R187, R189) -/

/-- Settles O25: one step on either kind of port, behind no check. -/
theorem wakeSignalLeavesOneWakePending : Obligations.WakeSignalLeavesOneWakePending := by
  intro s p h
  obtain rfl := State.cur_of_issue_or_entry h
  exact congrArg Host.Outcome.next
    (State.oneStep_starts (i := .wakeSignal) h rfl rfl (s.signal.setResult_completed s.cur 0#32 0x400#32))

theorem exec_wakeWait_begins (h : s.atIssue p) (hl : s.holdsLock p = false) :
    exec .wakeWait s = .next { s.begun p 0x33#8 Phase.kWait with waitCnt := s.waitCnt + 1#32 } := by
  obtain rfl := h.1
  refine congrArg Host.Outcome.next ((State.command_issue_starts (i := .wakeWait) h rfl ?_).trans ?_)
  · simp [firstFailing, hl]
  · exact s.countWait.setResult_begin s.cur _ _

theorem exec_wakeWait_faults (h : s.atIssue p) (hl : s.holdsLock p = true) :
    exec .wakeWait s = .next (s.faultedWith p 0x0A#8 0x33#8) := by
  obtain rfl := h.1
  exact congrArg Host.Outcome.next
    (State.command_issue_faults (i := .wakeWait) (c := .lockMisuse) h rfl (by simp [firstFailing, hl]))

theorem exec_wakeWait_at_kWait (h : s.atStep p 0x33#8 Phase.kWait) : exec .wakeWait s = .next (stepKWait p s) := by
  obtain rfl := h.1
  exact congrArg Host.Outcome.next (State.command_at_step (i := .wakeWait) h (by decide) (by decide))

/-- A wait step holds while no wake is pending (R187). -/
theorem State.waitThen_holds (hw : s.wakePend = false) (k : State → State) : s.waitThen k = s := by
  simp [State.waitThen, hw]

theorem State.waitThen_consumes (hw : s.wakePend = true) (k : State → State) :
    s.waitThen k = k { s with wakePend := false } := by
  simp [State.waitThen, hw]

theorem stepKWait_consumes (hw : s.wakePend = true) :
    stepKWait p s = { s with wakePend := false }.completed p 0x400#32 :=
  State.waitThen_consumes hw _

/-- Settles O26: the issue step, and the two outcomes of step `K_WAIT`. -/
theorem wakeWaitConsumesPendingWake : Obligations.WakeWaitConsumesPendingWake := by
  intro s p
  refine ⟨exec_wakeWait_begins, fun h hw => ?_, fun h hw => ?_⟩
  · rw [exec_wakeWait_at_kWait h, stepKWait_consumes hw]
  · rw [exec_wakeWait_at_kWait h, stepKWait, State.waitThen_holds hw]

/-- Settles O29: the issue step, behind no check. -/
theorem yieldOnlyCompletes : Obligations.YieldOnlyCompletes := by
  intro s p h
  obtain rfl := h.1
  exact congrArg Host.Outcome.next
    ((State.command_issue_starts (i := .yield) h rfl rfl).trans (s.setResult_completed s.cur 0#32 0x400#32))

/-! ### What raises `LOCK_MISUSE` (R188, 60_exceptions.md R286) -/

/-- The checks of `WRITE`, in their order (43_txpath.md R202). -/
def State.writeChecks (s : State) (p : PortId) : List (Bool × FaultCode) :=
  [(!s.earlyDone, .notInit), (s.holdsLock p, .lockMisuse)]

theorem exec_write_faults (w n : Bool) (h : s.atIssue p) {c : FaultCode}
    (hc : firstFailing (s.writeChecks p) = some c) :
    exec (.write w n) s = .next (s.faultedWith p c.toByte 0x13#8) := by
  obtain rfl := h.1
  exact congrArg Host.Outcome.next (State.command_issue_faults (i := .write w n) h rfl hc)

/-- Settles O24: who holds the lock, then the failing check of each command that a holder, or a non-holder, may not
issue. -/
theorem lockMisuseFaultsAtIssue : Obligations.LockMisuseFaultsAtIssue := by
  intro s p h
  refine ⟨State.holdsLock_iff, exec_lockRel_faults h, fun hl => ⟨exec_lockAcq_faults h hl,
    exec_wakeWait_faults h hl, fun w hd => exec_getbyte_faults w h (c := .lockMisuse) ?_,
    fun w n hd => exec_write_faults w n h (c := .lockMisuse) ?_,
    fun hd => exec_rbPop_faults true h (c := .lockMisuse) ?_⟩⟩
  · simp [firstFailing, State.getbyteChecks, hd, hl]
  · simp [firstFailing, State.writeChecks, hd, hl]
  · simp [firstFailing, State.rbPopChecks, hd, hl]

/-! ### Spurious wakes and signals that coalesce (R190, R191) -/

section
variable (hf : s.faulted = false) (hm : s.mayStep p = true) (hk : s.kind p = .thread)
include hf hm hk

/-- A spurious wake in `K_WAIT` completes `WAKE_WAIT` (R190). -/
theorem State.spuriousWake_kWait (ho : (s.port p).opc = 0x33#8) (hp : (s.port p).phase = Phase.kWait) :
    s.spuriousWake p = s.completed p 0x400#32 := by
  simp only [State.spuriousWake, hf, hm, hk, ho, hp]; rfl

/-- A spurious wake in `W_WAIT` sends `WRITE` back to `W_LOCK` (R190). -/
theorem State.spuriousWake_wWait (ho : (s.port p).opc = 0x13#8) (hp : (s.port p).phase = Phase.wWait) :
    s.spuriousWake p = s.movedTo p Phase.wLock := by
  simp only [State.spuriousWake, hf, hm, hk, ho, hp]; rfl

end

/-- Settles O27: the event in each of the two phases that wait. -/
theorem spuriousWakeWritesOnlyThePort : Obligations.SpuriousWakeWritesOnlyThePort := by
  intro s p hf hm hk
  exact ⟨fun ho hp => congrArg Host.Outcome.next (State.spuriousWake_kWait hf hm hk ho hp),
    fun ho hp => congrArg Host.Outcome.next (State.spuriousWake_wWait hf hm hk ho hp)⟩

/-- However many signals there are, one wake is pending after them (R185, R191). -/
theorem repeat_signal (s : State) (k : Nat) : Nat.repeat State.signal (k + 1) s = { s with wakePend := true } := by
  induction k with
  | zero => rfl
  | succ k ih => rw [Nat.repeat, ih]; rfl

/-- Settles O28: the signals leave one wake, the first wait step consumes it, and every wait step after it holds. -/
theorem signalsCoalesceToOneWake : Obligations.SignalsCoalesceToOneWake := by
  intro s k p q hk _ t u
  have ht : t = { s with wakePend := true } := by
    obtain ⟨n, rfl⟩ := Nat.exists_eq_add_of_le' hk
    exact repeat_signal s n
  have hu : u = { s with wakePend := false }.completed p 0x400#32 :=
    (stepKWait_consumes (by rw [ht])).trans (by rw [ht])
  have hnone : u.wakePend = false := by rw [hu]; rfl
  exact ⟨ht, hu, State.waitThen_holds hnone _, State.waitThen_holds hnone _⟩

end Sys2Proof.Machine
end

section
/-! SUPPORT. The transmit path step by step: the issue of `WRITE`, its later steps, and the two transmit mask commands
(43_txpath.md R202 to R211). -/

namespace Sys2Proof.Machine

variable {s : State} {p : PortId}

/-! ### The issue of `WRITE` (R202) -/

/-- The agent's registers after the issue of `WRITE`: the operands copied, the index at the start (R202). -/
def State.writeOperands (s : State) (p : PortId) (w n : Bool) : Agent :=
  { s.agent p with src := (s.port p).arg0, len := (s.port p).arg1, idx := 0#32, blk := w, nl := n, crp := false }

/-- With every check passed, the issue step of `WRITE` copies the operands. -/
theorem exec_write_starts (w n : Bool) (h : s.atIssue p) (hd : s.earlyDone = true) (hl : s.holdsLock p = false) :
    exec (.write w n) s = .next (startWrite p w n (s.setResult p 0#32)) := by
  obtain rfl := h.1
  exact congrArg Host.Outcome.next
    (State.command_issue_starts (i := .write w n) h rfl (by simp [firstFailing, hd, hl]))

/-- A length other than 0 begins the command at `W_SELECT`. -/
theorem startWrite_begins (w n : Bool) (hlen : (s.port p).arg1 ≠ 0#32) :
    startWrite p w n (s.setResult p 0#32) =
      { s.begun p 0x13#8 Phase.wSelect with agents := s.agents.set p (s.writeOperands p w n) } := by
  rw [← s.setResult_begin_setAgent]
  simp [startWrite, State.setResult_port, hlen, State.writeOperands]

/-- A length of 0 completes the command at once. -/
theorem startWrite_completes (w n : Bool) (hlen : (s.port p).arg1 = 0#32) :
    startWrite p w n (s.setResult p 0#32) = (s.setAgent p (s.writeOperands p w n)).done p resNone := by
  rw [State.done_eq_completed, ← State.setResult_completed _ p 0#32]
  simp only [startWrite, State.setResult_port, hlen, if_true, State.writeOperands]
  rfl

/-- Settles O31: the two outcomes of the copied length, and the failing checks. -/
theorem writeIssuesOrFaults : Obligations.WriteIssuesOrFaults := by
  intro s p w n h
  refine ⟨fun hd hl hlen => ?_, fun hd hl hlen => ?_, fun hd => exec_write_faults w n h (c := .notInit) ?_,
    fun hd hl => exec_write_faults w n h (c := .lockMisuse) ?_⟩
  · rw [exec_write_starts w n h hd hl, startWrite_begins w n hlen]; rfl
  · rw [exec_write_starts w n h hd hl, startWrite_completes w n hlen]
    rw [State.writeOperands, hlen]
    simp [State.done_eq_completed, State.completed, State.setAgent, State.agent, State.port, resNone, doneBit]
  · simp [firstFailing, State.writeChecks, hd]
  · simp [firstFailing, State.writeChecks, hd, hl]

/-! ### The later steps of `WRITE` (R203 to R207) -/

/-- What a later step of `WRITE` at phase `ph` does. -/
def writeStep (p : PortId) (ph : Byte) (s : State) : State :=
  if ph = Phase.wSelect then stepWSelect p s
  else if ph = Phase.wLock then stepWLock p s
  else if ph = Phase.wCheck then stepWCheck p s
  else if ph = Phase.wWait then stepWWait p s
  else if ph = Phase.wYield then stepWYield p s
  else s

theorem exec_write_at_step (w n : Bool) {ph : Byte} (h : s.atStep p 0x13#8 ph) (h0 : ph ≠ Phase.idle := by decide)
    (h1 : ph ≠ Phase.iPend := by decide) : exec (.write w n) s = .next (writeStep p ph s) := by
  obtain rfl := h.1
  exact congrArg Host.Outcome.next (State.command_at_step (i := .write w n) h h0 h1)

/-- Host memory may be read where the platform does not deny it (20_memory.md R73). -/
theorem State.hostOk_iff {a : Word} : s.hostOk a = true ↔ a ∉ s.params.hostDeny := by simp [State.hostOk]

/-- The agent's registers after `W_SELECT` has read the source byte: the CR injected before a newline, or that byte
(R203). -/
def State.selected (s : State) (p : PortId) : Agent :=
  let a := s.agent p
  let c := s.hostByte (a.src + a.idx)
  if injectsCr a.nl a.crp c then { a with out := byteCr, crp := true }
  else { a with out := c, crp := false, idx := a.idx + 1#32 }

theorem stepWSelect_denied (ha : s.hostOk ((s.agent p).src + (s.agent p).idx) = false) : stepWSelect p s = s := by
  simp [stepWSelect, ha]

theorem stepWSelect_selects (ha : s.hostOk ((s.agent p).src + (s.agent p).idx) = true) :
    stepWSelect p s = (s.setAgent p (s.selected p)).goto p Phase.wLock := by
  simp only [stepWSelect, ha, if_true, State.selected]
  split_ifs <;> rfl

/-- What a read of host memory gives after the platform's change of one byte (20_memory.md R73, R85). -/
theorem State.hostStore_hostByte (s : State) (a c : Word) (b : Byte) :
    (s.hostStore a b).hostByte c = if c = a then b else s.hostByte c := by
  have hread := Memory.read_write s.mem a.toNat c.toNat b
  simp only [← BitVec.toNat_eq] at hread
  exact hread

/-- Settles O32: host memory at reset and after a change, then the outcomes of step `W_SELECT`. -/
theorem wSelectChoosesNextByte : Obligations.WSelectChoosesNextByte := by
  refine ⟨fun a => rfl, fun s a b => ⟨_, rfl, rfl, ?_, fun c hc => ?_⟩, fun s p w n h => ?_⟩
  · exact (s.hostStore_hostByte a a b).trans (if_pos rfl)
  · exact (s.hostStore_hostByte a c b).trans (if_neg hc)
  intro a c
  rw [exec_write_at_step w n h]
  refine ⟨fun hden => congrArg _ (stepWSelect_denied ?_), fun hok hnl hc hcr => ?_, fun hok hplain => ?_⟩
  · simpa [State.hostOk] using hden
  · refine congrArg _ ((stepWSelect_selects (State.hostOk_iff.mpr hok)).trans ?_)
    have hinj : injectsCr a.nl a.crp c = true := by simp [injectsCr, hnl, hc, hcr, byteLf]
    rw [State.selected, if_pos hinj]; rfl
  · refine congrArg _ ((stepWSelect_selects (State.hostOk_iff.mpr hok)).trans ?_)
    have hinj : ¬injectsCr a.nl a.crp c = true := by
      rcases hplain with h' | h' | h' <;> simp [injectsCr, h', byteLf]
    rw [State.selected, if_neg hinj]; rfl

/-- Settles O33: the outcomes of the three steps. -/
theorem wLockWaitAndYieldSteps : Obligations.WLockWaitAndYieldSteps := by
  intro s p w n
  refine ⟨fun h hl => ?_, fun h hl => ⟨_, ?_, s.takeLock_goto_spec p Phase.wCheck⟩, fun h hw => ?_, fun h hw => ?_,
    fun h => exec_write_at_step w n h⟩
  all_goals refine (exec_write_at_step w n h).trans (congrArg Host.Outcome.next ?_)
  · show stepWLock p s = s
    rw [stepWLock, State.acquireThen_held hl]
  · show stepWLock p s = _
    rw [stepWLock, State.acquireThen_free hl]
  · show stepWWait p s = _
    rw [stepWWait, State.waitThen_consumes hw]; rfl
  · show stepWWait p s = s
    rw [stepWWait, State.waitThen_holds hw]

/-! ### Step `W_CHECK` (R205) -/

theorem State.txFull_iff : s.txFull = true ↔ s.txf.length = s.params.txfDepth := by simp [State.txFull]

theorem stepWCheck_waits (hf : s.txFull = true) (hb : (s.agent p).blk = true) (ht : s.txIrqEn = true) :
    stepWCheck p s = (((s.countFull.maskTx false).release p).countWait).goto p Phase.wWait := by
  simp [stepWCheck, hf, hb, ht]

theorem stepWCheck_polls (hf : s.txFull = true) (hb : (s.agent p).blk = false ∨ s.txIrqEn = false) :
    stepWCheck p s = (s.countFull.release p).goto p Phase.wYield := by
  rcases hb with hb | hb <;> simp [stepWCheck, hf, hb]

theorem stepWCheck_completes (hf : s.txFull = false) (hi : (s.agent p).idx = (s.agent p).len)
    (hc : (s.agent p).crp = false) :
    stepWCheck p s = ((s.txfPut (s.agent p).out).release p).done p resNone := by
  simp [stepWCheck, hf, hi, hc]

theorem stepWCheck_goes_on (hf : s.txFull = false)
    (hm : (s.agent p).idx ≠ (s.agent p).len ∨ (s.agent p).crp = true) :
    stepWCheck p s = ((s.txfPut (s.agent p).out).release p).goto p Phase.wSelect := by
  have hm' : ¬((s.agent p).idx = (s.agent p).len ∧ (s.agent p).crp = false) := by
    rcases hm with h | h <;> simp [h]
  simp only [stepWCheck, hf, Bool.false_eq_true, if_false, if_neg hm']

/-- `W_CHECK` gives back the interrupt enable that `W_LOCK` saved, in every case (42_lock_wake.md R183). -/
theorem stepWCheck_ie (s : State) (p : PortId) (c : Nat) :
    (stepWCheck p s).ie c = if c = s.core p then (s.agent p).savedIe else s.ie c := by
  unfold stepWCheck
  dsimp only
  split_ifs with hf _ hc hend <;> simp [State.release_ie, *]

/-- Settles O34: the four outcomes of step `W_CHECK`. -/
theorem wCheckPutsByteOrWaits : Obligations.WCheckPutsByteOrWaits := by
  intro s p w n h
  have hstep : exec (.write w n) s = .next (stepWCheck p s) := exec_write_at_step w n h
  refine ⟨_, hstep, (stepWCheck_ie s p _).trans (if_pos rfl), fun c hc => (stepWCheck_ie s p c).trans (if_neg hc),
    fun hf hb ht => ?_, fun hf hb => ?_, fun hr hi hc => ?_, fun hr hm => ?_⟩
  · rw [stepWCheck_waits (State.txFull_iff.mpr hf) hb ht]
    simp [State.goto, State.setPort, State.movedTo]
  · rw [stepWCheck_polls (State.txFull_iff.mpr hf) hb]
    simp [State.goto, State.setPort, State.movedTo]
  all_goals have hroom : s.txFull = false := Bool.eq_false_iff.mpr fun hf => hr (State.txFull_iff.mp hf)
  · rw [stepWCheck_completes hroom hi hc, State.done_eq_completed]
    simp [State.completed, resNone, doneBit]
  · rw [stepWCheck_goes_on hroom hm]
    simp [State.goto, State.setPort, State.movedTo]

/-! ### `TX_MASK` and `TX_UNMASK` (R210, R211, 45_lifecycle_dispatch.md R254) -/

theorem State.maskTx_done_setResult (s : State) (p : PortId) (m : Bool) :
    ((s.setResult p 0#32).maskTx m).done p resNone = (s.maskTx m).done p resNone :=
  (s.maskTx m).setResult_completed p 0#32 0x400#32

/-- Settles O36: one step on either kind of port, behind the one check. -/
theorem txMaskCommandsWriteTheBit : Obligations.TxMaskCommandsWriteTheBit := by
  intro s p
  refine ⟨fun h => ⟨fun hd => ?_, fun hd => ?_⟩, fun h => ⟨fun hd => ?_, fun hd => ?_⟩⟩
  all_goals obtain rfl := State.cur_of_issue_or_entry h
  · exact congrArg Host.Outcome.next (State.oneStep_starts (i := .txMask) h rfl (by simp [firstFailing, hd])
      (s.maskTx_done_setResult _ true))
  · exact congrArg Host.Outcome.next (State.oneStep_faults (i := .txMask) (c := .notInit) h rfl
      (by simp [firstFailing, hd]))
  · exact congrArg Host.Outcome.next (State.oneStep_starts (i := .txUnmask) h rfl (by simp [firstFailing, hd])
      (s.maskTx_done_setResult _ false))
  · exact congrArg Host.Outcome.next (State.oneStep_faults (i := .txUnmask) (c := .notInit) h rfl
      (by simp [firstFailing, hd]))

end Sys2Proof.Machine
end

section
/-! SUPPORT. The run of one `WRITE` with the lock free and room in the transmit FIFO: three steps for each byte that is
sent, one cycle after the other (43_txpath.md R201 to R205). -/

namespace Sys2Proof.Machine

variable {s t u : State} {p : PortId}

/-! ### What a part of the run has sent, and what it leaves as it was -/

/-- From `s` to `t` port `p` has sent the bytes `l`, and but for its own registers the rest is as it was, with the lock
free. -/
structure State.Sent (s : State) (p : PortId) (l : List Byte) (t : State) : Prop where
  txf : t.txf = s.txf ++ l
  txLog : t.txLog = s.txLog ++ l
  lock_free : t.lockHeld = false
  ie : ∀ c, t.ie c = s.ie c
  waitCnt : t.waitCnt = s.waitCnt
  fullCnt : t.fullCnt = s.fullCnt
  imask : t.imask = s.imask
  wakePend : t.wakePend = s.wakePend
  receivePath : t.receivePath = s.receivePath
  mem : t.mem = s.mem
  params : t.params = s.params
  pc : (t.agent p).pc = (s.agent p).pc
  others : ∀ q, q ≠ p → t.port q = s.port q ∧ t.agent q = s.agent q

/-- What two parts of a run send is sent one after the other. -/
theorem State.Sent.trans {l l' : List Byte} (h : s.Sent p l t) (h' : t.Sent p l' u) : s.Sent p (l ++ l') u where
  txf := by rw [h'.txf, h.txf, List.append_assoc]
  txLog := by rw [h'.txLog, h.txLog, List.append_assoc]
  lock_free := h'.lock_free
  ie c := (h'.ie c).trans (h.ie c)
  waitCnt := h'.waitCnt.trans h.waitCnt
  fullCnt := h'.fullCnt.trans h.fullCnt
  imask := h'.imask.trans h.imask
  wakePend := h'.wakePend.trans h.wakePend
  receivePath := h'.receivePath.trans h.receivePath
  mem := h'.mem.trans h.mem
  params := h'.params.trans h.params
  pc := h'.pc.trans h.pc
  others q hq := ⟨(h'.others q hq).1.trans (h.others q hq).1, (h'.others q hq).2.trans (h.others q hq).2⟩

/-- The next step of the same command writes its own port only. -/
theorem State.Sent.goto {l : List Byte} (h : s.Sent p l t) (ph : Byte) : s.Sent p l (t.goto p ph) :=
  { h with others := fun q hq => by rw [State.goto_port, if_neg hq]; exact h.others q hq }

/-! ### The three steps that send one byte (R203 to R205) -/

/-- The state after the choice of a byte in step `W_SELECT`. -/
def State.afterWSelect (s : State) (p : PortId) : State := (s.setAgent p (s.selected p)).goto p Phase.wLock

/-- The state after that and the taking of the lock in step `W_LOCK`. -/
def State.afterWLock (s : State) (p : PortId) : State := ((s.afterWSelect p).takeLock p).goto p Phase.wCheck

/-- The state in which step `W_CHECK` has put the byte into the FIFO and given the lock back. -/
def State.afterByte (s : State) (p : PortId) : State :=
  ((s.afterWLock p).txfPut (s.selected p).out).release p

theorem State.afterWLock_agent (s : State) (p q : PortId) :
    (s.afterWLock p).agent q =
      if q = p then { s.selected p with savedIe := s.ie (s.core p) } else s.agent q := by
  by_cases hq : q = p <;> simp [State.afterWLock, State.afterWSelect, State.takeLock_agent, State.setAgent_agent, hq]

theorem State.afterWLock_ie (s : State) (p : PortId) (c : Nat) :
    (s.afterWLock p).ie c = if c = s.core p then false else s.ie c := by
  by_cases hc : c = s.core p <;> simp [State.afterWLock, State.afterWSelect, State.takeLock_ie, hc]

/-- The interrupt enable given back is the one that was saved. -/
theorem State.afterByte_ie (s : State) (p : PortId) (c : Nat) : (s.afterByte p).ie c = s.ie c := by
  have hcore : (s.afterWLock p).core p = s.core p := by simp [State.afterWLock, State.afterWSelect]
  by_cases hc : c = s.core p <;>
    simp [State.afterByte, State.release_ie, State.afterWLock_agent, State.afterWLock_ie, hcore, hc]

@[simp] theorem State.selected_pc (s : State) (p : PortId) : (s.selected p).pc = (s.agent p).pc := by
  unfold State.selected
  dsimp only
  split_ifs <;> rfl

/-- The three steps send the byte that `W_SELECT` chose. -/
theorem State.sent_afterByte (s : State) (p : PortId) : s.Sent p [(s.selected p).out] (s.afterByte p) where
  txf := by simp [State.afterByte, State.afterWLock, State.afterWSelect]
  txLog := by simp [State.afterByte, State.afterWLock, State.afterWSelect]
  lock_free := by simp [State.afterByte]
  ie := s.afterByte_ie p
  waitCnt := by simp [State.afterByte, State.afterWLock, State.afterWSelect]
  fullCnt := by simp [State.afterByte, State.afterWLock, State.afterWSelect]
  imask := by simp [State.afterByte, State.afterWLock, State.afterWSelect]
  wakePend := by simp [State.afterByte, State.afterWLock, State.afterWSelect]
  receivePath := by simp [State.afterByte, State.afterWLock, State.afterWSelect]
  mem := by simp [State.afterByte, State.afterWLock, State.afterWSelect]
  params := by simp [State.afterByte, State.afterWLock, State.afterWSelect]
  pc := by simp [State.afterByte, State.afterWLock_agent]
  others q hq := by
    have hport : (s.afterWLock p).port q = s.port q := by
      simp [State.afterWLock, State.afterWSelect, State.goto_port, hq]
    simp [State.afterByte, State.afterWLock_agent, hport, hq]

theorem State.atStep_afterWSelect (h : s.atStep p 0x13#8 Phase.wSelect) :
    (s.afterWSelect p).atStep p 0x13#8 Phase.wLock := by
  obtain ⟨hcur, hf, ho, -⟩ := h
  simp [State.atStep, State.afterWSelect, State.goto_port, hcur, hf, ho]

theorem State.atStep_afterWLock (h : s.atStep p 0x13#8 Phase.wSelect) :
    (s.afterWLock p).atStep p 0x13#8 Phase.wCheck := by
  obtain ⟨hcur, hf, ho, -⟩ := State.atStep_afterWSelect h
  simp [State.atStep, State.afterWLock, State.goto_port, hcur, hf, ho]

theorem State.atStep_afterByte (h : s.atStep p 0x13#8 Phase.wSelect) :
    ((s.afterByte p).goto p Phase.wSelect).atStep p 0x13#8 Phase.wSelect := by
  obtain ⟨hcur, hf, ho, -⟩ := State.atStep_afterWLock h
  simp [State.atStep, State.afterByte, State.goto_port, hcur, hf, ho]

/-- With the lock free, a run from `W_SELECT` goes on three steps later, after the byte's `W_CHECK`. -/
theorem runCommand_to_wCheck (w n : Bool) (k : Nat) (h : s.atStep p 0x13#8 Phase.wSelect) (hl : s.lockHeld = false)
    (ha : s.hostOk ((s.agent p).src + (s.agent p).idx) = true) :
    runCommand (.write w n) (k + 3) s = runCommand (.write w n) k (stepWCheck p (s.afterWLock p)) := by
  have hselect : exec (.write w n) s = .next (stepWSelect p s) := exec_write_at_step w n h
  rw [stepWSelect_selects ha] at hselect
  have hlock : exec (.write w n) (s.afterWSelect p) = .next (stepWLock p (s.afterWSelect p)) :=
    exec_write_at_step w n (State.atStep_afterWSelect h)
  rw [stepWLock, State.acquireThen_free (s := s.afterWSelect p) hl] at hlock
  have hcheck : exec (.write w n) (s.afterWLock p) = .next (stepWCheck p (s.afterWLock p)) :=
    exec_write_at_step w n (State.atStep_afterWLock h)
  exact (runCommand_next (k + 2) hselect).trans
    ((runCommand_next (k + 1) hlock).trans (runCommand_next k hcheck))

section
variable (hr : s.txf.length < s.params.txfDepth)
include hr

theorem State.afterWLock_not_full : (s.afterWLock p).txFull = false := by
  simpa [State.afterWLock, State.afterWSelect, State.txFull] using hr.ne

/-- After the last byte the command completes (R205). -/
theorem stepWCheck_last (hi : (s.selected p).idx = (s.selected p).len) (hc : (s.selected p).crp = false) :
    stepWCheck p (s.afterWLock p) = (s.afterByte p).done p resNone := by
  rw [stepWCheck_completes (State.afterWLock_not_full hr) (by simpa [State.afterWLock_agent] using hi)
    (by simpa [State.afterWLock_agent] using hc)]
  simp [State.afterByte, State.afterWLock_agent]

/-- After any other byte the next one is selected (R205). -/
theorem stepWCheck_not_last (hm : (s.selected p).idx ≠ (s.selected p).len ∨ (s.selected p).crp = true) :
    stepWCheck p (s.afterWLock p) = (s.afterByte p).goto p Phase.wSelect := by
  rw [stepWCheck_goes_on (State.afterWLock_not_full hr) (by simpa [State.afterWLock_agent] using hm)]
  simp [State.afterByte, State.afterWLock_agent]

end

/-! ### What is left to send -/

theorem mapNewline_cons (nl : Bool) (c : Byte) (l : List Byte) :
    mapNewline nl (c :: l) = (if nl ∧ c = byteLf then [byteCr, byteLf] else [c]) ++ mapNewline nl l := rfl

theorem State.hostBytes_succ (s : State) (a : Word) (m : Nat) :
    s.hostBytes a (m + 1) = s.hostByte a :: s.hostBytes (a + 1#32) m := by
  have hnext (k : Nat) : a + BitVec.ofNat 32 (k + 1) = a + 1#32 + BitVec.ofNat 32 k := by
    rw [BitVec.add_assoc, Nat.add_comm, BitVec.ofNat_add]
  rw [State.hostBytes, List.range_succ_eq_map, List.map_cons, List.map_map, BitVec.add_zero]
  exact congrArg _ (List.map_congr_left fun k _ => congrArg s.hostByte (hnext k))

/-- The source byte that step `W_SELECT` reads (R203). -/
abbrev State.sourceByte (s : State) (p : PortId) : Byte := s.hostByte ((s.agent p).src + (s.agent p).idx)

/-- What the command on port `p` has still to send with `m` source bytes left: their mapped form, without the CR that is
sent already (R201, R203). -/
def State.unsent (s : State) (p : PortId) (m : Nat) : List Byte :=
  let a := s.agent p
  let l := mapNewline a.nl (s.hostBytes (a.src + a.idx) m)
  if a.crp then l.tail else l

/-- The `WRITE` on port `p` is about to select a byte, with `m` bytes of its source left, all of which it may read, and
the lock free; a CR was sent only before a newline. -/
structure State.Writing (s : State) (p : PortId) (m : Nat) : Prop where
  step : s.atStep p 0x13#8 Phase.wSelect
  lock_free : s.lockHeld = false
  allowed : ∀ k, k < m → (s.agent p).src + (s.agent p).idx + BitVec.ofNat 32 k ∉ s.params.hostDeny
  left : (s.agent p).idx.toNat + m = (s.agent p).len.toNat
  newline : (s.agent p).crp = true → (s.agent p).nl = true ∧ s.sourceByte p = byteLf

/-- How many source bytes are left after the selected byte, of `m + 1` before: an injected CR takes none (R203). -/
def State.leftAfter (s : State) (p : PortId) (m : Nat) : Nat := if (s.selected p).crp then m + 1 else m

theorem injectsCr_iff {nl crp : Bool} {c : Byte} :
    injectsCr nl crp c = true ↔ nl = true ∧ c = byteLf ∧ crp = false := by
  simp [injectsCr, and_assoc]

/-- The two outcomes of the selection: a CR before a newline, or the source byte (R203). -/
theorem State.selected_cases (s : State) (p : PortId) :
    ((s.agent p).nl = true ∧ s.sourceByte p = byteLf ∧ (s.agent p).crp = false
        ∧ s.selected p = { s.agent p with out := byteCr, crp := true })
      ∨ (((s.agent p).nl = true → s.sourceByte p = byteLf → (s.agent p).crp = true)
        ∧ s.selected p =
          { s.agent p with out := s.sourceByte p, crp := false, idx := (s.agent p).idx + 1#32 }) := by
  simp only [State.selected]
  split_ifs with hi
  · obtain ⟨hnl, hc, hcr⟩ := injectsCr_iff.mp hi
    exact .inl ⟨hnl, hc, hcr, rfl⟩
  · exact .inr ⟨fun hnl hc => by_contra fun hcr => hi (injectsCr_iff.mpr ⟨hnl, hc, by simpa using hcr⟩), rfl⟩

theorem State.afterByte_agent (s : State) (p : PortId) :
    (s.afterByte p).agent p = { s.selected p with savedIe := s.ie (s.core p) } := by
  simp [State.afterByte, State.afterWLock_agent]

theorem State.afterByte_hostByte (s : State) (p : PortId) (a : Word) : (s.afterByte p).hostByte a = s.hostByte a := by
  simp [State.afterByte, State.afterWLock, State.afterWSelect]

theorem State.afterByte_hostBytes (s : State) (p : PortId) (a : Word) (m : Nat) :
    (s.afterByte p).hostBytes a m = s.hostBytes a m := by
  simp only [State.hostBytes, State.afterByte_hostByte]

/-- The selected byte is the first of those left to send. -/
theorem State.Writing.unsent_eq {m : Nat} (h : s.Writing p (m + 1)) :
    s.unsent p (m + 1) = (s.selected p).out :: (s.afterByte p).unsent p (s.leftAfter p m) := by
  simp only [State.unsent, State.afterByte_agent, State.afterByte_hostBytes, State.leftAfter]
  rcases s.selected_cases p with ⟨hnl, hc, hcr, e⟩ | ⟨hplain, e⟩ <;> rw [e] <;>
    simp only [State.hostBytes_succ, mapNewline_cons]
  · simp [hnl, hc, hcr, State.hostBytes_succ, mapNewline_cons]
  · rw [← BitVec.add_assoc]
    by_cases hcr : (s.agent p).crp = true
    · obtain ⟨hnl, hc⟩ := h.newline hcr
      simp [hnl, hc, hcr]
    · have hmap : ¬((s.agent p).nl = true ∧ s.sourceByte p = byteLf) := fun ⟨hnl, hc⟩ => hcr (hplain hnl hc)
      simp [hmap, hcr]

theorem State.goto_unsent (s : State) (p q : PortId) (ph : Byte) (m : Nat) :
    (s.goto p ph).unsent q m = s.unsent q m := rfl

/-- The source bytes left after the selected one. -/
theorem State.Writing.leftAfter_eq {m : Nat} (h : s.Writing p (m + 1)) :
    (s.selected p).idx.toNat + s.leftAfter p m = (s.selected p).len.toNat := by
  have hleft := h.left
  rcases s.selected_cases p with ⟨-, -, -, e⟩ | ⟨-, e⟩ <;> simp only [State.leftAfter, e]
  · exact hleft
  · have hlen := (s.agent p).len.isLt
    simp only [BitVec.toNat_add, BitVec.toNat_ofNat, Bool.false_eq_true, if_false]
    omega

/-- With source bytes left after the selected one, the command goes on at `W_SELECT` with those. -/
theorem State.Writing.next {m : Nat} (h : s.Writing p (m + 1)) :
    ((s.afterByte p).goto p Phase.wSelect).Writing p (s.leftAfter p m) := by
  have hagent : ((s.afterByte p).goto p Phase.wSelect).agent p = { s.selected p with savedIe := s.ie (s.core p) } :=
    s.afterByte_agent p
  have hbyte (a : Word) : ((s.afterByte p).goto p Phase.wSelect).hostByte a = s.hostByte a := by
    rw [State.goto_hostByte, State.afterByte_hostByte]
  constructor
  · exact State.atStep_afterByte h.step
  · exact (s.sent_afterByte p).lock_free
  · intro k hk
    rw [hagent, State.goto_params, (s.sent_afterByte p).params]
    rcases s.selected_cases p with ⟨-, -, -, e⟩ | ⟨-, e⟩ <;> simp only [State.leftAfter, e] at hk ⊢
    · exact h.allowed k hk
    · have hnext := h.allowed (k + 1) (by simpa using hk)
      rwa [Nat.add_comm, BitVec.ofNat_add, ← BitVec.add_assoc, BitVec.add_assoc (s.agent p).src] at hnext
  · rw [hagent]; exact h.leftAfter_eq
  · rw [State.sourceByte, hagent, hbyte]
    rcases s.selected_cases p with ⟨hnl, hc, -, e⟩ | ⟨-, e⟩ <;> rw [e]
    · exact fun _ => ⟨hnl, hc⟩
    · exact fun hcr => absurd hcr Bool.false_ne_true

/-- With no source byte left, the selected byte is the last: the index is at the end, and no CR pends. -/
theorem State.Writing.last {m : Nat} (h : s.Writing p (m + 1)) (hm : s.leftAfter p m = 0) :
    (s.selected p).idx = (s.selected p).len ∧ (s.selected p).crp = false := by
  refine ⟨BitVec.eq_of_toNat_eq (by have := h.leftAfter_eq; omega), ?_⟩
  simp only [State.leftAfter] at hm
  split_ifs at hm with hcr
  simpa using hcr

/-- With a source byte left, the selected byte is not the last. -/
theorem State.Writing.not_last {m k : Nat} (h : s.Writing p (m + 1)) (hm : s.leftAfter p m = k + 1) :
    (s.selected p).idx ≠ (s.selected p).len := by
  intro e
  have := h.leftAfter_eq
  rw [e] at this
  omega

/-! ### The run -/

/-- From `W_SELECT` on, with room for all that is left, three steps a byte send it and complete the command. -/
theorem runCommand_sends_unsent (w n : Bool) (l : List Byte) :
    ∀ (s : State) (m : Nat), s.Writing p (m + 1) → s.unsent p (m + 1) = l →
      s.txf.length + l.length ≤ s.params.txfDepth →
      ∃ u, runCommand (.write w n) (3 * l.length) s = .next (u.done p resNone) ∧ s.Sent p l u := by
  induction l with
  | nil => intro s m h hl; simp [h.unsent_eq] at hl
  | cons b l ih =>
    intro s m h hl hroom
    obtain ⟨rfl, htail⟩ : (s.selected p).out = b ∧ (s.afterByte p).unsent p (s.leftAfter p m) = l := by
      simpa [h.unsent_eq] using hl
    have hr : s.txf.length < s.params.txfDepth := by simp only [List.length_cons] at hroom; omega
    have hok : s.hostOk ((s.agent p).src + (s.agent p).idx) = true :=
      State.hostOk_iff.mpr (by simpa using h.allowed 0 (by omega))
    have hrun : runCommand (.write w n) (3 * (l.length + 1)) s =
        runCommand (.write w n) (3 * l.length) (stepWCheck p (s.afterWLock p)) :=
      runCommand_to_wCheck w n _ h.step h.lock_free hok
    rw [List.length_cons, hrun]
    cases hm : s.leftAfter p m with
    | zero =>
      obtain ⟨hi, hc⟩ := h.last hm
      obtain rfl : l = [] := by
        rw [← htail, hm]
        simp [State.unsent, State.hostBytes, mapNewline]
      rw [stepWCheck_last hr hi hc]
      exact ⟨s.afterByte p, rfl, s.sent_afterByte p⟩
    | succ k =>
      have hsent := (s.sent_afterByte p).goto Phase.wSelect
      rw [stepWCheck_not_last hr (.inl (h.not_last hm))]
      have hroom' : ((s.afterByte p).goto p Phase.wSelect).txf.length + l.length ≤
          ((s.afterByte p).goto p Phase.wSelect).params.txfDepth := by
        rw [hsent.txf, hsent.params]
        simp only [List.length_cons, List.length_append, List.length_nil] at hroom ⊢
        omega
      obtain ⟨u, hu, hrest⟩ := ih _ k (hm ▸ h.next) (by rw [State.goto_unsent, ← hm, htail]) hroom'
      exact ⟨u, hu, hsent.trans hrest⟩

/-- The state after the issue of `WRITE` (R202). -/
def State.afterWriteIssue (s : State) (p : PortId) (w n : Bool) : State :=
  (s.setPort p { s.port p with result := 0#32, opc := 0x13#8, phase := Phase.wSelect }).setAgent p
    (s.writeOperands p w n)

/-- The operands are copied, and nothing is sent. -/
theorem State.sent_writeOperands (hl : s.lockHeld = false) (w n : Bool) :
    s.Sent p [] (s.setAgent p (s.writeOperands p w n)) where
  txf := (List.append_nil _).symm
  txLog := (List.append_nil _).symm
  lock_free := hl
  ie _ := rfl
  waitCnt := rfl
  fullCnt := rfl
  imask := rfl
  wakePend := rfl
  receivePath := rfl
  mem := rfl
  params := rfl
  pc := by simp [State.writeOperands]
  others q hq := ⟨rfl, s.setAgent_agent_other _ hq⟩

/-- So it is after the whole issue step, which writes no more than its port besides. -/
theorem State.sent_afterWriteIssue (hl : s.lockHeld = false) (w n : Bool) :
    s.Sent p [] (s.afterWriteIssue p w n) :=
  { State.sent_writeOperands (p := p) hl w n with
    pc := by simp [State.afterWriteIssue, State.writeOperands]
    others := fun q hq => by simp [State.afterWriteIssue, State.setPort_port, State.setAgent_agent, hq] }

/-- The whole run of a `WRITE`, up to the completion with which its last step ends. -/
theorem runCommand_write (w n : Bool) (h : s.atIssue p) (hd : s.earlyDone = true) (hl : s.lockHeld = false)
    (ha : ∀ k, k < (s.port p).arg1.toNat → (s.port p).arg0 + BitVec.ofNat 32 k ∉ s.params.hostDeny)
    {sent : List Byte} (hsent : sent = mapNewline n (s.hostBytes (s.port p).arg0 (s.port p).arg1.toNat))
    (hroom : s.txf.length + sent.length ≤ s.params.txfDepth) :
    ∃ u, runCommand (.write w n) (1 + 3 * sent.length) s = .next (u.done p resNone) ∧ s.Sent p sent u := by
  have hissue := exec_write_starts w n h hd (by simp [State.holdsLock, hl])
  rw [Nat.add_comm, runCommand_next _ hissue]
  cases hm : (s.port p).arg1.toNat with
  | zero =>
    rw [startWrite_completes w n (BitVec.eq_of_toNat_eq hm)]
    obtain rfl : sent = [] := by simp [hsent, hm, State.hostBytes, mapNewline]
    exact ⟨_, rfl, State.sent_writeOperands hl w n⟩
  | succ m =>
    have hbegin : startWrite p w n (s.setResult p 0#32) = s.afterWriteIssue p w n :=
      startWrite_begins w n fun e => by simp [e] at hm
    have hagent : (s.afterWriteIssue p w n).agent p = s.writeOperands p w n := by simp [State.afterWriteIssue]
    obtain ⟨hcur, -, hf, -⟩ := h
    have hwriting : (s.afterWriteIssue p w n).Writing p (m + 1) := by
      constructor
      · simp [State.atStep, State.afterWriteIssue, hcur, hf]
      · exact hl
      · rw [hagent, ← hm]
        simpa [State.writeOperands, State.afterWriteIssue] using ha
      · rw [hagent]
        simpa [State.writeOperands] using hm.symm
      · simp [hagent, State.writeOperands]
    have hunsent : (s.afterWriteIssue p w n).unsent p (m + 1) = sent := by
      rw [hsent, hm, State.unsent, hagent]
      simp [State.writeOperands]; rfl
    obtain ⟨u, hu, hs⟩ := runCommand_sends_unsent w n sent _ m hwriting hunsent hroom
    exact ⟨u, hbegin ▸ hu, (State.sent_afterWriteIssue hl w n).trans hs⟩

/-- Settles O35: the run up to its completion, then what the completion writes. -/
theorem writeSendsMappedInput : Obligations.WriteSendsMappedInput := by
  intro s p w n h hd hl ha sent hroom
  obtain ⟨u, hrun, hs⟩ := runCommand_write w n h hd hl ha rfl hroom
  obtain ⟨-, -, hring, hrxf⟩ : u.rxIn = s.rxIn ∧ u.rxOut = s.rxOut ∧ u.ring = s.ring ∧ u.rxf = s.rxf := by
    simpa [State.receivePath] using hs.receivePath
  have hdone : (u.done p resNone).ring = u.ring := by rw [State.done, State.setAgent_ring, State.setPort_ring]
  refine ⟨_, hrun, by simp [hs.txf, sent], by simp [hs.txLog, sent], by simp [State.done_port, resNone, doneBit],
    by simp [State.done_port], by simp [State.done_port], by simp [State.done_agent, hs.pc], by simp [hs.lock_free],
    fun c => by simp [hs.ie], by simp [hs.waitCnt], by simp [hs.fullCnt], by simp [hs.imask], by simp [hs.wakePend],
    by simp [hrxf], hdone.trans hring, by simp [hs.mem], fun q hq => ?_⟩
  rw [State.done_port, State.done_agent, if_neg hq, if_neg hq]
  exact hs.others q hq

end Sys2Proof.Machine
end

section
/-! SUPPORT. Who may write the transmit-ready mask bit: a step of a command, and each event, leaves it as it is, or is
one of its writers (43_txpath.md R205, R210 to R213). -/

namespace Sys2Proof.Machine

variable {s t : State} {p : PortId}

/-! ### A step that leaves the bit as it is or is one of its writers -/

/-- Port `p` is about to take the first step of its own of a command with opcode `opc`: it is idle, or the command
waits there in `I_PEND` (30_encoding.md R101, R115). -/
def State.atFirstStep (s : State) (p : PortId) (opc : Byte) : Prop :=
  (s.port p).phase = Phase.idle ∨ (s.port p).opc = opc ∧ (s.port p).phase = Phase.iPend

/-- Port `p` is at the `W_CHECK` of a blocking `WRITE` that finds the FIFO full, with interrupt-driven transmit on
(R205). -/
def State.atBlockedWCheck (s : State) (p : PortId) : Prop :=
  (s.port p).opc = 0x13#8 ∧ (s.port p).phase = Phase.wCheck ∧ (s.agent p).blk = true ∧ s.txIrqEn = true
    ∧ s.txf.length = s.params.txfDepth

/-- Port `p` is at `I_TX` (R212). -/
def State.atITx (s : State) (p : PortId) : Prop := (s.port p).opc = 0x50#8 ∧ (s.port p).phase = Phase.iTx

/-- A step of command `i` on port `p` is one that writes `b` to the bit (R213). -/
def State.WritesTxMask (s : State) (p : PortId) (i : Instr) (b : Bool) : Prop :=
  (b = false ∧ (i = .txUnmask ∧ s.atFirstStep p 0x43#8 ∨ s.atBlockedWCheck p))
    ∨ (b = true ∧ (i = .txMask ∧ s.atFirstStep p 0x42#8 ∨ s.atITx p))

/-- From `s` to `t` the bit stays as it is, or a step of command `i` on port `p` writes it. -/
def State.TxMaskStep (s : State) (p : PortId) (i : Instr) (t : State) : Prop :=
  t.imask.txrdyM = s.imask.txrdyM ∨ s.WritesTxMask p i t.imask.txrdyM

section
variable {i : Instr} {latch : Agent → Agent} {checks : List (Bool × FaultCode)} {start : State → State}
  {later : Byte → State → State}

/-- A command writes the bit in its first step or in a later one, if at all. -/
theorem State.command_txMaskStep
    (hstart : s.atFirstStep s.cur i.opcode → ∀ r : State, r.imask = s.imask → s.TxMaskStep s.cur i (start r))
    (hlater : ∀ ph, s.atStep s.cur i.opcode ph → s.TxMaskStep s.cur i (later ph s)) :
    s.TxMaskStep s.cur i (s.command i latch checks start later) := by
  rcases s.command_cases i latch checks start later with e | ⟨hf, hcase⟩
  · rw [e]; exact .inl rfl
  rcases hcase with ⟨-, -, e⟩ | ⟨-, -, -, e⟩ | ⟨c, -, -, e⟩ | ⟨-, hi, -, -, e⟩ | ⟨-, hp, ho, -, -, e⟩
    | ⟨-, -, ho, e⟩ <;> rw [e]
  · exact .inl rfl
  · exact .inl rfl
  · exact .inl rfl
  · exact hstart (.inl hi) _ rfl
  · exact hstart (.inr ⟨ho, hp⟩) s rfl
  · exact hlater _ ⟨rfl, hf, ho, rfl⟩

/-- A command whose first step leaves the bit as it is. -/
theorem State.command_txMaskStep_of_start (hstart : ∀ r, (start r).imask.txrdyM = r.imask.txrdyM)
    (hlater : ∀ ph, s.atStep s.cur i.opcode ph → s.TxMaskStep s.cur i (later ph s)) :
    s.TxMaskStep s.cur i (s.command i latch checks start later) :=
  State.command_txMaskStep (fun _ r e => .inl ((hstart r).trans (by rw [e]))) hlater

/-- A command none of whose steps writes the bit. -/
theorem State.command_txMask_eq (hstart : ∀ r, (start r).imask.txrdyM = r.imask.txrdyM)
    (hlater : ∀ ph r, (later ph r).imask.txrdyM = r.imask.txrdyM) :
    s.TxMaskStep s.cur i (s.command i latch checks start later) :=
  State.command_txMaskStep_of_start hstart fun ph _ => .inl (hlater ph s)

/-- A command of one step that leaves the bit as it is. -/
theorem State.oneStep_txMask_eq (hstart : ∀ r, (start r).imask.txrdyM = r.imask.txrdyM) :
    s.TxMaskStep s.cur i (s.oneStep i latch checks start) :=
  State.command_txMask_eq hstart fun _ _ => rfl

end

/-! ### The steps that leave the bit as it is -/

theorem State.acquireThen_txMask {k : State → State} (hk : ∀ r, (k r).imask.txrdyM = r.imask.txrdyM) :
    (s.acquireThen p k).imask.txrdyM = s.imask.txrdyM := by
  rcases s.acquireThen_cases p k with ⟨-, e⟩ | ⟨-, e⟩ <;> rw [e]
  rw [hk, State.takeLock_imask]

theorem State.waitThen_txMask {k : State → State} (hk : ∀ r, (k r).imask.txrdyM = r.imask.txrdyM) :
    (s.waitThen k).imask.txrdyM = s.imask.txrdyM := by
  rcases s.waitThen_cases k with ⟨-, e⟩ | ⟨-, e⟩ <;> rw [e]
  exact hk _

theorem stepGPop_txMask (s : State) (p : PortId) : (stepGPop p s).imask.txrdyM = s.imask.txrdyM := by
  unfold stepGPop
  split_ifs <;> simp

theorem stepGUnmask_txMask (s : State) (p : PortId) : (stepGUnmask p s).imask.txrdyM = s.imask.txrdyM := by
  unfold stepGUnmask
  split_ifs <;> simp

theorem stepPPop_txMask (s : State) (p : PortId) : (stepPPop p s).imask.txrdyM = s.imask.txrdyM := by
  unfold stepPPop
  split_ifs <;> simp

theorem startWrite_txMask (s : State) (p : PortId) (w n : Bool) :
    (startWrite p w n s).imask.txrdyM = s.imask.txrdyM := by
  unfold startWrite
  dsimp only
  split_ifs <;> simp

theorem stepWSelect_txMask (s : State) (p : PortId) : (stepWSelect p s).imask.txrdyM = s.imask.txrdyM := by
  unfold stepWSelect
  dsimp only
  split_ifs <;> simp

theorem stepIRxsel_txMask (s : State) (p : PortId) : (stepIRxsel p s).imask.txrdyM = s.imask.txrdyM := by
  unfold stepIRxsel
  split_ifs <;> simp

theorem stepIDrain_txMask (s : State) (p : PortId) : (stepIDrain p s).imask.txrdyM = s.imask.txrdyM := by
  unfold stepIDrain
  split
  · simp
  · split_ifs <;> simp

theorem stepIRxend_txMask (s : State) (p : PortId) : (stepIRxend p s).imask.txrdyM = s.imask.txrdyM := by
  unfold stepIRxend
  split_ifs <;> simp

theorem stepQSpin_txMask (s : State) (p : PortId) : (stepQSpin p s).imask.txrdyM = s.imask.txrdyM := by
  unfold stepQSpin
  split_ifs <;> simp

theorem startPollGetc_txMask (s : State) (p : PortId) : (startPollGetc p s).imask.txrdyM = s.imask.txrdyM := by
  unfold startPollGetc
  split <;> simp

/-! ### The writers of the bit -/

/-- Only a blocked writer with interrupt-driven transmit arms the transmit-ready source (R205). -/
theorem stepWCheck_txMaskStep (w n : Bool) (h : s.atStep p 0x13#8 Phase.wCheck) :
    s.TxMaskStep p (.write w n) (stepWCheck p s) := by
  obtain ⟨-, -, ho, hp⟩ := h
  unfold stepWCheck
  dsimp only
  split_ifs with hf hb
  · obtain ⟨hblk, ht⟩ : (s.agent p).blk = true ∧ s.txIrqEn = true := by simpa using hb
    exact .inr (.inl ⟨by simp, .inr ⟨ho, hp, hblk, ht, State.txFull_iff.mp hf⟩⟩)
  all_goals exact .inl (by simp)

theorem execWrite_txMaskStep (s : State) (w n : Bool) (ht : execWrite w n s = .next t) :
    s.TxMaskStep s.cur (.write w n) t := by
  cases ht
  refine State.command_txMaskStep_of_start (startWrite_txMask · _ w n) fun ph hs => ?_
  split_ifs with _ _ hcheck
  · exact .inl (stepWSelect_txMask s _)
  · exact .inl (State.acquireThen_txMask fun _ => rfl)
  · subst hcheck
    exact stepWCheck_txMaskStep w n hs
  · exact .inl (State.waitThen_txMask fun _ => rfl)
  · exact .inl rfl
  · exact .inl rfl

/-- `I_TX` masks the source that it serves (R212). -/
theorem stepITx_txMaskStep (h : s.atStep p 0x50#8 Phase.iTx) : s.TxMaskStep p .irqDispatch (stepITx p s) := by
  obtain ⟨-, -, ho, hp⟩ := h
  unfold stepITx
  split_ifs
  · exact .inr (.inr ⟨rfl, .inr ⟨ho, hp⟩⟩)
  · exact .inl rfl

theorem execIrqDispatch_txMaskStep (s : State) (ht : execIrqDispatch s = .next t) :
    s.TxMaskStep s.cur .irqDispatch t := by
  cases ht
  refine State.command_txMaskStep_of_start (by simp) fun ph hs => ?_
  split_ifs with _ _ _ _ htx
  · exact .inl (State.acquireThen_txMask fun _ => rfl)
  · exact .inl (stepIRxsel_txMask s _)
  · exact .inl (stepIDrain_txMask s _)
  · exact .inl (stepIRxend_txMask s _)
  · subst htx
    exact stepITx_txMaskStep hs
  · exact .inl (by simp [stepIExit])
  · exact .inl rfl

theorem execTxMask_txMaskStep (s : State) (ht : execTxMask s = .next t) : s.TxMaskStep s.cur .txMask t := by
  cases ht
  exact State.command_txMaskStep (fun hfirst _ _ => .inr (.inr ⟨by simp, .inl ⟨rfl, hfirst⟩⟩)) fun _ _ => .inl rfl

theorem execTxUnmask_txMaskStep (s : State) (ht : execTxUnmask s = .next t) : s.TxMaskStep s.cur .txUnmask t := by
  cases ht
  exact State.command_txMaskStep (fun hfirst _ _ => .inr (.inl ⟨by simp, .inl ⟨rfl, hfirst⟩⟩)) fun _ _ => .inl rfl

theorem execGetbyte_txMaskStep (s : State) (w : Bool) (ht : execGetbyte w s = .next t) :
    s.TxMaskStep s.cur (.getbyte w) t := by
  cases ht
  refine State.command_txMask_eq (fun _ => rfl) fun ph r => ?_
  split_ifs
  · exact stepGPop_txMask r _
  · exact State.acquireThen_txMask fun _ => rfl
  · exact stepGUnmask_txMask r _
  · rfl

theorem execLockAcq_txMaskStep (s : State) (ht : execLockAcq s = .next t) : s.TxMaskStep s.cur .lockAcq t := by
  cases ht
  refine State.command_txMask_eq (fun _ => rfl) fun ph r => ?_
  split_ifs
  · exact State.acquireThen_txMask (by simp)
  · rfl

theorem execWakeWait_txMaskStep (s : State) (ht : execWakeWait s = .next t) : s.TxMaskStep s.cur .wakeWait t := by
  cases ht
  refine State.command_txMask_eq (fun _ => rfl) fun ph r => ?_
  split_ifs
  · exact State.waitThen_txMask (by simp)
  · rfl

theorem execPollPutc_txMaskStep (s : State) (b : Byte) (ht : execPollPutc b s = .next t) :
    s.TxMaskStep s.cur (.pollPutc b) t := by
  cases ht
  refine State.command_txMask_eq (fun _ => rfl) fun ph r => ?_
  split_ifs
  · exact stepQSpin_txMask r _
  · rfl

theorem execRbPop_txMaskStep (s : State) (w : Bool) (ht : execRbPop w s = .next t) :
    s.TxMaskStep s.cur (.rbPop w) t := by
  cases ht
  refine State.command_txMask_eq (fun _ => rfl) fun ph r => ?_
  split_ifs
  · exact stepPPop_txMask r _
  · rfl

/-- One step of any command leaves the bit as it is, or is one of its writers. -/
theorem exec_txMaskStep (i : Instr) (s : State) (ht : exec i s = .next t) : s.TxMaskStep s.cur i t := by
  cases i with
  | write w n => exact execWrite_txMaskStep s w n ht
  | irqDispatch => exact execIrqDispatch_txMaskStep s ht
  | txMask => exact execTxMask_txMaskStep s ht
  | txUnmask => exact execTxUnmask_txMaskStep s ht
  | getbyte w => exact execGetbyte_txMaskStep s w ht
  | lockAcq => exact execLockAcq_txMaskStep s ht
  | wakeWait => exact execWakeWait_txMaskStep s ht
  | pollPutc b => exact execPollPutc_txMaskStep s b ht
  | rbPop w => exact execRbPop_txMaskStep s w ht
  | pollGetc => cases ht; exact State.oneStep_txMask_eq (startPollGetc_txMask · _)
  | initEarly | init | enterFail | rbInit | rbPush | lockRel | wakeSignal | yield | rxMask | rxUnmask =>
    cases ht; exact State.oneStep_txMask_eq (by simp)

/-! ### The events -/

/-- Only one word decodes to `TX_MASK`, and one to `TX_UNMASK` (30_encoding.md R104). -/
theorem decode_eq_txMask {w : Word} (h : decode w = some .txMask) : w = 0x42#32 :=
  (encode_of_decode h).symm.trans (by decide)

theorem decode_eq_txUnmask {w : Word} (h : decode w = some .txUnmask) : w = 0x43#32 :=
  (encode_of_decode h).symm.trans (by decide)

/-- A write of a `CMD` register writes the bit only with the word of `TX_UNMASK` or `TX_MASK` (R210, R211): it finds the
port idle, so it is no later step of a command. -/
theorem writeCmd_txMask {w : Word} (ht : s.writeCmd p w = .next t) :
    t.imask.txrdyM = s.imask.txrdyM
      ∨ (t.imask.txrdyM = false ∧ w = 0x43#32) ∨ (t.imask.txrdyM = true ∧ w = 0x42#32) := by
  unfold State.writeCmd at ht
  split_ifs at ht with hf hb
  · cases ht; exact .inl rfl
  · cases ht; exact .inl rfl
  · have hidle : (s.port p).phase = Phase.idle := by simpa [State.busy] using hb
    split at ht
    · cases ht; exact .inl rfl
    · next i hd =>
      rcases exec_txMaskStep i { s with cur := p } ht with e | ⟨e, ⟨rfl, -⟩ | ⟨-, hp, -⟩⟩ | ⟨e, ⟨rfl, -⟩ | ⟨-, hp⟩⟩
      · exact .inl e
      · exact .inr (.inl ⟨e, decode_eq_txUnmask hd⟩)
      · exact absurd (hidle.symm.trans hp) (by decide)
      · exact .inr (.inr ⟨e, decode_eq_txMask hd⟩)
      · exact absurd (hidle.symm.trans hp) (by decide)

/-- Event `e` writes the word `w` to a `CMD` register: as the next line of an idle port's program, or as an agent's
access to its own register (30_encoding.md R117, 10_state.md R49). -/
def State.IssuesWord (s : State) (e : Event) (w : Word) : Prop :=
  (∃ p l, e = .port p ∧ s.busy p = false ∧ s.nextLine p = some l ∧ l.cmd = w)
    ∨ ∃ a, e = .access a ∧ a.kind = .write w
        ∧ (a.addr - s.params.blockBase).toNat = 0x100 + 0x20 * a.port.val

/-- Event `e` is the entry step of the command with opcode `opc` on the interrupt port (30_encoding.md R115). -/
def State.EntersOpcode (s : State) (e : Event) (opc : Byte) : Prop :=
  ∃ p, e = .port p ∧ (s.port p).opc = opc ∧ (s.port p).phase = Phase.iPend

/-- The events that may write 0 to the bit. -/
def State.MayUnmaskTx (s : State) (e : Event) : Prop :=
  (∃ p, e = .port p ∧ s.atBlockedWCheck p) ∨ s.IssuesWord e 0x43#32 ∨ s.EntersOpcode e 0x43#8

/-- The events that may write 1 to the bit. -/
def State.MayMaskTx (s : State) (e : Event) : Prop :=
  e = .reset ∨ (∃ p, e = .port p ∧ s.atITx p) ∨ s.IssuesWord e 0x42#32 ∨ s.EntersOpcode e 0x42#8

/-- From `s` to `t` the bit stays as it is, or event `e` is one that may write it and does. -/
def State.TxMaskEvent (s : State) (e : Event) (t : State) : Prop :=
  t.imask.txrdyM = s.imask.txrdyM ∨ (t.imask.txrdyM = false ∧ s.MayUnmaskTx e)
    ∨ (t.imask.txrdyM = true ∧ s.MayMaskTx e)

/-- The write of a `CMD` register by an event. -/
theorem State.TxMaskEvent.of_writeCmd {r : State} {e : Event} {w : Word} (hr : r.imask = s.imask)
    (he : s.IssuesWord e w) (ht : r.writeCmd p w = .next t) : s.TxMaskEvent e t := by
  rcases writeCmd_txMask ht with hm | ⟨hm, rfl⟩ | ⟨hm, rfl⟩
  · exact .inl (hm.trans (by rw [hr]))
  · exact .inr (.inl ⟨hm, .inr (.inl he)⟩)
  · exact .inr (.inr ⟨hm, .inr (.inr (.inl he))⟩)

/-- The next step of a busy port. -/
theorem State.TxMaskEvent.of_exec {i : Instr} (hb : s.busy p = true) (ht : exec i { s with cur := p } = .next t) :
    s.TxMaskEvent (.port p) t := by
  have hbusy : (s.port p).phase ≠ Phase.idle := by simpa [State.busy] using hb
  rcases exec_txMaskStep i { s with cur := p } ht with
    hm | ⟨hm, ⟨-, hfirst⟩ | hcheck⟩ | ⟨hm, ⟨-, hfirst⟩ | htx⟩
  · exact .inl hm
  · obtain ⟨ho, hp⟩ := hfirst.resolve_left hbusy
    exact .inr (.inl ⟨hm, .inr (.inr ⟨p, rfl, ho, hp⟩)⟩)
  · exact .inr (.inl ⟨hm, .inl ⟨p, rfl, hcheck⟩⟩)
  · obtain ⟨ho, hp⟩ := hfirst.resolve_left hbusy
    exact .inr (.inr ⟨hm, .inr (.inr (.inr ⟨p, rfl, ho, hp⟩))⟩)
  · exact .inr (.inr ⟨hm, .inr (.inl ⟨p, rfl, htx⟩)⟩)

theorem agentStep_txMaskEvent (ht : s.agentStep p = .next t) : s.TxMaskEvent (.port p) t := by
  unfold State.agentStep at ht
  split_ifs at ht with _ hb
  · cases ht; exact .inl rfl
  · split at ht
    · exact .of_exec hb ht
    · cases ht; exact .inl rfl
  · split at ht
    · next l hl =>
      split_ifs at ht
      · cases ht; exact .inl rfl
      · have hargs : (s.writeArgs p l).imask = s.imask := by
          rcases s.writeArgs_cases p l with e | ⟨a, b, e⟩ <;> rw [e]
          rfl
        exact .of_writeCmd hargs (.inl ⟨p, l, rfl, by simpa using hb, hl, rfl⟩) ht
    · cases ht; exact .inl rfl

theorem busFault_imask (s : State) (p : PortId) (o : Nat) : (s.busFault p o).imask = s.imask := by
  unfold State.busFault
  split_ifs <;> rfl

/-- Of the writes of the window only the one of the port's own `CMD` can write the bit (10_state.md R49). -/
theorem windowWrite_txMask {o : Nat} {v : Word} (ht : s.windowWrite p o v = .next t) :
    t.imask = s.imask ∨ o = 0x100 + 0x20 * p.val ∧ s.writeCmd p v = .next t := by
  unfold State.windowWrite at ht
  split_ifs at ht with ho
  · exact .inr ⟨ho, ht⟩
  all_goals cases ht
  · exact .inl rfl
  · exact .inl rfl
  · exact .inl rfl
  · exact .inl rfl
  · exact .inl (busFault_imask s p o)

theorem access_txMaskEvent {a : Access} (ht : s.access a = .next t) : s.TxMaskEvent (.access a) t := by
  unfold State.access at ht
  dsimp only at ht
  split_ifs at ht
  · cases ht; exact .inl rfl
  · cases ht; exact .inl (by rw [busFault_imask])
  · split at ht
    · split at ht <;> cases ht
      · exact .inl rfl
      · exact .inl (by rw [busFault_imask])
    · next v hk =>
      rcases windowWrite_txMask ht with e | ⟨ho, hw⟩
      · exact .inl (by rw [e])
      · exact .of_writeCmd rfl (.inr ⟨a, rfl, hk, ho⟩) hw

/-- A delivery writes the `IRQ_DISPATCH` word, which is neither of the two (46_environment.md R266). -/
theorem deliver_txMask (ht : s.deliver = .next t) : t.imask.txrdyM = s.imask.txrdyM := by
  unfold State.deliver at ht
  split_ifs at ht
  · rcases writeCmd_txMask ht with e | ⟨-, hw⟩ | ⟨-, hw⟩
    · exact e
    · exact absurd hw (by decide)
    · exact absurd hw (by decide)
  · cases ht; rfl

theorem spuriousWake_imask (s : State) (p : PortId) : (s.spuriousWake p).imask = s.imask := by
  unfold State.spuriousWake
  split_ifs <;> simp

theorem lineRx_imask (s : State) (b : Byte) : (s.lineRx b).imask = s.imask := by
  unfold State.lineRx
  split_ifs <;> rfl

theorem lineRxTimeout_imask (s : State) : s.lineRxTimeout.imask = s.imask := by
  unfold State.lineRxTimeout
  split_ifs <;> rfl

theorem lineTx_imask (s : State) : s.lineTx.imask = s.imask := by
  unfold State.lineTx
  split_ifs
  · rfl
  · split <;> rfl

/-- An event leaves the bit as it is, or is one that may write it and does. -/
theorem runEvent_txMaskEvent (e : Event) (ht : s.runEvent e = .next t) : s.TxMaskEvent e t := by
  cases e with
  | port p => exact agentStep_txMaskEvent ht
  | access a => exact access_txMaskEvent ht
  | reset => cases ht; exact .inr (.inr ⟨rfl, .inl rfl⟩)
  | deliver => exact .inl (deliver_txMask ht)
  | spuriousWake p => cases ht; exact .inl (by rw [spuriousWake_imask])
  | lineRx b => cases ht; exact .inl (by rw [lineRx_imask])
  | lineRxTimeout => cases ht; exact .inl (by rw [lineRxTimeout_imask])
  | lineTx => cases ht; exact .inl (by rw [lineTx_imask])
  | hostStore a b => cases ht; exact .inl rfl

/-- Settles O37: the step takes an event, and only the events named write the bit. -/
theorem transmitMaskHasTheseWritersOnly : Obligations.TransmitMaskHasTheseWritersOnly := by
  intro s t h hs hne
  rw [step, if_pos h.params_wf] at hs
  refine ((runEvent_txMaskEvent (s := s.advance) s.nextEvent hs).resolve_left hne).imp ?_ ?_
  · rintro ⟨hm, hcheck | (hline | haccess) | hentry⟩
    · exact ⟨hm, .inl hcheck⟩
    · exact ⟨hm, .inr (.inl hline)⟩
    · exact ⟨hm, .inr (.inr (.inr haccess))⟩
    · exact ⟨hm, .inr (.inr (.inl hentry))⟩
  · rintro ⟨hm, hreset | htx | (hline | haccess) | hentry⟩
    · exact ⟨hm, .inl hreset⟩
    · exact ⟨hm, .inr (.inl htx)⟩
    · exact ⟨hm, .inr (.inr (.inl hline))⟩
    · exact ⟨hm, .inr (.inr (.inr (.inr haccess)))⟩
    · exact ⟨hm, .inr (.inr (.inr (.inl hentry)))⟩

end Sys2Proof.Machine
end

section
/-! SUPPORT. The panic path step by step: `ENTER_FAIL`, and the issue and the later step of the two polling commands
(44_panic.md R231 to R235). -/

namespace Sys2Proof.Machine

variable {s : State} {p : PortId}

/-! ### `ENTER_FAIL` (R231) -/

/-- Settles O38: one step on either kind of port, behind no check. -/
theorem enterFailClearsModeFlag : Obligations.EnterFailClearsModeFlag := by
  intro s p h
  obtain rfl := State.cur_of_issue_or_entry h
  exact congrArg Host.Outcome.next (State.oneStep_starts (i := .enterFail) h rfl rfl
    ({ s with txIrqEn := false, failureMode := true }.setResult_completed s.cur 0#32 0x400#32))

/-! ### The checks of the polling commands (R233, R235) -/

/-- The checks of `POLL_PUTC` and of `POLL_GETC`, in their order. -/
def State.pollChecks (s : State) : List (Bool × FaultCode) :=
  [(!s.earlyDone, .notInit), (!s.failureMode, .pollOutsideFailure)]

theorem State.pollChecks_pass (hd : s.earlyDone = true) (hm : s.failureMode = true) :
    firstFailing s.pollChecks = none := by
  simp [firstFailing, State.pollChecks, hd, hm]

theorem State.pollChecks_notInit (hd : s.earlyDone = false) : firstFailing s.pollChecks = some .notInit := by
  simp [firstFailing, State.pollChecks, hd]

theorem State.pollChecks_outsideFailure (hd : s.earlyDone = true) (hm : s.failureMode = false) :
    firstFailing s.pollChecks = some .pollOutsideFailure := by
  simp [firstFailing, State.pollChecks, hd, hm]

/-! ### `POLL_PUTC` (R233) -/

theorem exec_pollPutc_begins (b : Byte) (h : s.atIssue p) (hc : firstFailing s.pollChecks = none) :
    exec (.pollPutc b) s =
      .next { s.begun p 0x14#8 Phase.qSpin with agents := s.agents.set p { s.agent p with byte := b } } := by
  obtain rfl := h.1
  refine congrArg Host.Outcome.next ((State.command_issue_starts (i := .pollPutc b) h rfl hc).trans ?_)
  exact s.setResult_begin_setAgent s.cur _ 0x14#8 Phase.qSpin

theorem exec_pollPutc_faults (b : Byte) (h : s.atIssue p) {c : FaultCode} (hc : firstFailing s.pollChecks = some c) :
    exec (.pollPutc b) s = .next (s.faultedWith p c.toByte 0x14#8) := by
  obtain rfl := h.1
  exact congrArg Host.Outcome.next (State.command_issue_faults (i := .pollPutc b) h rfl hc)

theorem exec_pollPutc_at_qSpin (b : Byte) (h : s.atStep p 0x14#8 Phase.qSpin) :
    exec (.pollPutc b) s = .next (stepQSpin p s) := by
  obtain rfl := h.1
  exact congrArg Host.Outcome.next (State.command_at_step (i := .pollPutc b) h (by decide) (by decide))

theorem stepQSpin_puts (hr : s.txf.length < s.params.txfDepth) :
    stepQSpin p s = (s.txfPut (s.agent p).byte).completed p 0x400#32 :=
  if_pos hr

theorem stepQSpin_holds (hf : s.params.txfDepth ≤ s.txf.length) : stepQSpin p s = s := if_neg hf.not_gt

/-- Settles O39: the outcomes of the issue step, then those of step `Q_SPIN`. -/
theorem pollPutcPutsByteWhenRoom : Obligations.PollPutcPutsByteWhenRoom := by
  intro s p b
  refine ⟨fun h => ⟨fun hd hm => exec_pollPutc_begins b h (State.pollChecks_pass hd hm),
    fun hd => exec_pollPutc_faults b h (State.pollChecks_notInit hd),
    fun hd hm => exec_pollPutc_faults b h (State.pollChecks_outsideFailure hd hm)⟩, fun h hr => ?_, fun h hf => ?_⟩
  · rw [exec_pollPutc_at_qSpin b h, stepQSpin_puts hr]; rfl
  · rw [exec_pollPutc_at_qSpin b h, stepQSpin_holds hf]

/-! ### `POLL_GETC` (R235) -/

/-- The issue step's write of `RESULT` is lost in the one of `done`. -/
theorem startPollGetc_setResult (s : State) (p : PortId) (r : Word) :
    startPollGetc p (s.setResult p r) = startPollGetc p s := by
  unfold startPollGetc
  rw [State.setResult_rxf]
  split
  · exact s.setResult_completed p r _
  · next b _ _ => exact { s.rxfDrop with rxOut := s.rxOut ++ [b] }.setResult_completed p r _

theorem exec_pollGetc_starts (h : s.atIssue p) (hc : firstFailing s.pollChecks = none) :
    exec .pollGetc s = .next (startPollGetc p s) := by
  obtain rfl := h.1
  exact congrArg Host.Outcome.next
    ((State.command_issue_starts (i := .pollGetc) h rfl hc).trans (startPollGetc_setResult s s.cur 0#32))

theorem exec_pollGetc_faults (h : s.atIssue p) {c : FaultCode} (hc : firstFailing s.pollChecks = some c) :
    exec .pollGetc s = .next (s.faultedWith p c.toByte 0x15#8) := by
  obtain rfl := h.1
  exact congrArg Host.Outcome.next (State.command_issue_faults (i := .pollGetc) h rfl hc)

theorem startPollGetc_nonempty {b : Byte} {rest : List Byte} (hx : s.rxf = b :: rest) :
    startPollGetc p s =
      { s with
          rxf := rest, rxtoP := if rest = [] then false else s.rxtoP
          rxOut := s.rxOut ++ [b] }.completed p (b.setWidth 32 ||| 0x500#32) := by
  simp [startPollGetc, hx, State.rxfDrop_cons hx, State.done_eq_completed, resByte_or_doneBit]

theorem startPollGetc_empty (hx : s.rxf = []) : startPollGetc p s = s.completed p 0x600#32 := by
  simp [startPollGetc, hx, State.done_eq_completed, resEmpty, doneBit]

/-- Settles O40: the outcomes of the issue step, with the receive FIFO empty or not. -/
theorem pollGetcReadsReceiveFifo : Obligations.PollGetcReadsReceiveFifo := by
  intro s p h
  refine ⟨fun b rest hd hm hx => ?_, fun hd hm hx => ?_,
    fun hd => exec_pollGetc_faults h (State.pollChecks_notInit hd),
    fun hd hm => exec_pollGetc_faults h (State.pollChecks_outsideFailure hd hm)⟩
  · rw [exec_pollGetc_starts h (State.pollChecks_pass hd hm), startPollGetc_nonempty hx]
  · rw [exec_pollGetc_starts h (State.pollChecks_pass hd hm), startPollGetc_empty hx]

end Sys2Proof.Machine
end

section
/-! SUPPORT. What an agent's event can do, whichever register is asked about: it takes a step of a command in progress,
writes a word to a `CMD` register, or writes one of the few things named here (30_encoding.md R101, R117,
20_memory.md R71 to R78). -/

namespace Sys2Proof.Machine

variable {s t : State} {p : PortId}

/-- A write of a `CMD` register is a hold, a fault, or a step of the command the word decodes to, on an idle port
(R101). -/
theorem State.writeCmd_cases {w : Word} (ht : s.writeCmd p w = .next t) :
    t = s ∨ (∃ c, t = s.raise p c (fieldOpc w) 0#12)
      ∨ (s.port p).phase = Phase.idle ∧ ∃ i, decode w = some i ∧ exec i { s with cur := p } = .next t := by
  unfold State.writeCmd at ht
  split_ifs at ht with _ hb
  · cases ht; exact .inl rfl
  · cases ht; exact .inr (.inl ⟨_, rfl⟩)
  · split at ht
    · cases ht; exact .inr (.inl ⟨_, rfl⟩)
    · next i hd => exact .inr (.inr ⟨by simpa [State.busy] using hb, i, hd, ht⟩)

/-- An agent's step is a hold, a step of the command in progress, or the issue of its next line (60_exceptions.md
R301). -/
theorem State.agentStep_cases (ht : s.agentStep p = .next t) :
    t = s ∨ ((s.port p).phase ≠ Phase.idle ∧ ∃ i, exec i { s with cur := p } = .next t)
      ∨ s.busy p = false ∧ ∃ l, s.nextLine p = some l ∧ (s.writeArgs p l).writeCmd p l.cmd = .next t := by
  unfold State.agentStep at ht
  split_ifs at ht with _ hb
  · cases ht; exact .inl rfl
  · split at ht
    · exact .inr (.inl ⟨by simpa [State.busy] using hb, _, ht⟩)
    · cases ht; exact .inl rfl
  · split at ht
    · next l hl =>
      split_ifs at ht
      · cases ht; exact .inl rfl
      · exact .inr (.inr ⟨by simpa using hb, l, hl, ht⟩)
    · cases ht; exact .inl rfl

/-- A register access but the one of the port's own `CMD` is a hold or a fault, or writes operands or the bus data. -/
def State.AccessWrites (s : State) (p : PortId) (t : State) : Prop :=
  t = s ∨ (∃ c opc off, t = s.raise p c opc off) ∨ (∃ v, t = { s with busData := v })
    ∨ ∃ a b, t = s.setPort p { s.port p with arg0 := a, arg1 := b }

theorem State.busFault_accessWrites (s : State) (p : PortId) (o : Nat) : s.AccessWrites p (s.busFault p o) := by
  unfold State.busFault
  split_ifs
  · exact .inl rfl
  · exact .inr (.inl ⟨_, _, _, rfl⟩)

/-- Of the registers of the window an agent can write its own `CMD` and its own operands (10_state.md R49). -/
theorem State.windowWrite_cases {o : Nat} {v : Word} (ht : s.windowWrite p o v = .next t) :
    s.AccessWrites p t ∨ o = 0x100 + 0x20 * p.val ∧ s.writeCmd p v = .next t := by
  unfold State.windowWrite at ht
  split_ifs at ht with ho
  · exact .inr ⟨ho, ht⟩
  all_goals cases ht; refine .inl ?_
  · exact .inl rfl
  · exact .inr (.inr (.inr ⟨_, _, rfl⟩))
  · exact .inl rfl
  · exact .inr (.inr (.inr ⟨_, _, rfl⟩))
  · exact s.busFault_accessWrites p o

/-- What a register access of the window can do. -/
theorem State.access_cases {a : Access} (ht : s.access a = .next t) :
    s.AccessWrites a.port t
      ∨ ∃ v, a.kind = .write v ∧ (a.addr - s.params.blockBase).toNat = 0x100 + 0x20 * a.port.val
          ∧ s.writeCmd a.port v = .next t := by
  unfold State.access at ht
  dsimp only at ht
  split_ifs at ht
  · cases ht; exact .inl (.inl rfl)
  · cases ht; exact .inl (s.busFault_accessWrites _ _)
  · split at ht
    · split at ht <;> cases ht
      · exact .inl (.inr (.inr (.inl ⟨_, rfl⟩)))
      · exact .inl (s.busFault_accessWrites _ _)
    · next v hk => exact (State.windowWrite_cases ht).imp_right fun ⟨ho, hw⟩ => ⟨v, hk, ho, hw⟩

end Sys2Proof.Machine
end

section
/-! SUPPORT. What counts a WakeSignal wait invocation: a step of a command, and each event, leaves the wait counter as
it is, or is the first step of `WAKE_WAIT`, the `W_CHECK` of a blocked writer with interrupt-driven transmit on, or
reset (10_state.md R38, 44_panic.md R237). -/

namespace Sys2Proof.Machine

variable {s t : State} {p : PortId}

/-! ### A step that leaves the counter as it is or counts a wait -/

/-- From `s` to `t` the counter stays as it is, or a step of command `i` on port `p` is one that counts a wait. -/
def State.WaitCntStep (s : State) (p : PortId) (i : Instr) (t : State) : Prop :=
  t.waitCnt = s.waitCnt ∨ i = .wakeWait ∧ s.atFirstStep p 0x33#8 ∨ s.atBlockedWCheck p

section
variable {i : Instr} {latch : Agent → Agent} {checks : List (Bool × FaultCode)} {start : State → State}
  {later : Byte → State → State}

/-- A command counts a wait in its first step or in a later one, if at all. -/
theorem State.command_waitCntStep
    (hstart : s.atFirstStep s.cur i.opcode → ∀ r : State, r.waitCnt = s.waitCnt → s.WaitCntStep s.cur i (start r))
    (hlater : ∀ ph, s.atStep s.cur i.opcode ph → s.WaitCntStep s.cur i (later ph s)) :
    s.WaitCntStep s.cur i (s.command i latch checks start later) := by
  rcases s.command_cases i latch checks start later with e | ⟨hf, hcase⟩
  · rw [e]; exact .inl rfl
  rcases hcase with ⟨-, -, e⟩ | ⟨-, -, -, e⟩ | ⟨c, -, -, e⟩ | ⟨-, hi, -, -, e⟩ | ⟨-, hp, ho, -, -, e⟩
    | ⟨-, -, ho, e⟩ <;> rw [e]
  · exact .inl rfl
  · exact .inl rfl
  · exact .inl rfl
  · exact hstart (.inl hi) _ rfl
  · exact hstart (.inr ⟨ho, hp⟩) s rfl
  · exact hlater _ ⟨rfl, hf, ho, rfl⟩

/-- A command whose first step counts no wait. -/
theorem State.command_waitCntStep_of_start (hstart : ∀ r, (start r).waitCnt = r.waitCnt)
    (hlater : ∀ ph, s.atStep s.cur i.opcode ph → s.WaitCntStep s.cur i (later ph s)) :
    s.WaitCntStep s.cur i (s.command i latch checks start later) :=
  State.command_waitCntStep (fun _ r e => .inl ((hstart r).trans e)) hlater

/-- A command none of whose steps counts a wait. -/
theorem State.command_waitCnt_eq (hstart : ∀ r, (start r).waitCnt = r.waitCnt)
    (hlater : ∀ ph r, (later ph r).waitCnt = r.waitCnt) :
    s.WaitCntStep s.cur i (s.command i latch checks start later) :=
  State.command_waitCntStep_of_start hstart fun ph _ => .inl (hlater ph s)

/-- A command of one step that counts no wait. -/
theorem State.oneStep_waitCnt_eq (hstart : ∀ r, (start r).waitCnt = r.waitCnt) :
    s.WaitCntStep s.cur i (s.oneStep i latch checks start) :=
  State.command_waitCnt_eq hstart fun _ _ => rfl

end

/-! ### The steps that leave the counter as it is -/

theorem State.acquireThen_waitCnt {k : State → State} (hk : ∀ r, (k r).waitCnt = r.waitCnt) :
    (s.acquireThen p k).waitCnt = s.waitCnt := by
  rcases s.acquireThen_cases p k with ⟨-, e⟩ | ⟨-, e⟩ <;> rw [e]
  rw [hk, State.takeLock_waitCnt]

/-- The counter counts wait invocations, not the waits that end (R38). -/
theorem State.waitThen_waitCnt {k : State → State} (hk : ∀ r, (k r).waitCnt = r.waitCnt) :
    (s.waitThen k).waitCnt = s.waitCnt := by
  rcases s.waitThen_cases k with ⟨-, e⟩ | ⟨-, e⟩ <;> rw [e]
  exact hk _

@[simp] theorem stepGPop_waitCnt (s : State) (p : PortId) : (stepGPop p s).waitCnt = s.waitCnt := by
  unfold stepGPop
  split_ifs <;> simp

@[simp] theorem stepGLock_waitCnt (s : State) (p : PortId) : (stepGLock p s).waitCnt = s.waitCnt :=
  State.acquireThen_waitCnt (by simp)

@[simp] theorem stepGUnmask_waitCnt (s : State) (p : PortId) : (stepGUnmask p s).waitCnt = s.waitCnt := by
  unfold stepGUnmask
  split_ifs <;> simp

@[simp] theorem stepPPop_waitCnt (s : State) (p : PortId) : (stepPPop p s).waitCnt = s.waitCnt := by
  unfold stepPPop
  split_ifs <;> simp

@[simp] theorem startWrite_waitCnt (s : State) (p : PortId) (w n : Bool) :
    (startWrite p w n s).waitCnt = s.waitCnt := by
  unfold startWrite
  dsimp only
  split_ifs <;> simp

@[simp] theorem stepWSelect_waitCnt (s : State) (p : PortId) : (stepWSelect p s).waitCnt = s.waitCnt := by
  unfold stepWSelect
  dsimp only
  split_ifs <;> simp

@[simp] theorem stepILock_waitCnt (s : State) (p : PortId) : (stepILock p s).waitCnt = s.waitCnt :=
  State.acquireThen_waitCnt (by simp)

@[simp] theorem stepIRxsel_waitCnt (s : State) (p : PortId) : (stepIRxsel p s).waitCnt = s.waitCnt := by
  unfold stepIRxsel
  split_ifs <;> simp

@[simp] theorem stepIDrain_waitCnt (s : State) (p : PortId) : (stepIDrain p s).waitCnt = s.waitCnt := by
  unfold stepIDrain
  split
  · simp
  · split_ifs <;> simp

@[simp] theorem stepIRxend_waitCnt (s : State) (p : PortId) : (stepIRxend p s).waitCnt = s.waitCnt := by
  unfold stepIRxend
  split_ifs <;> simp

@[simp] theorem stepITx_waitCnt (s : State) (p : PortId) : (stepITx p s).waitCnt = s.waitCnt := by
  unfold stepITx
  split_ifs <;> simp

@[simp] theorem stepIExit_waitCnt (s : State) (p : PortId) : (stepIExit p s).waitCnt = s.waitCnt := by
  simp [stepIExit]

@[simp] theorem stepLSpin_waitCnt (s : State) (p : PortId) : (stepLSpin p s).waitCnt = s.waitCnt :=
  State.acquireThen_waitCnt (by simp)

@[simp] theorem stepQSpin_waitCnt (s : State) (p : PortId) : (stepQSpin p s).waitCnt = s.waitCnt := by
  unfold stepQSpin
  split_ifs <;> simp

@[simp] theorem startPollGetc_waitCnt (s : State) (p : PortId) : (startPollGetc p s).waitCnt = s.waitCnt := by
  unfold startPollGetc
  split <;> simp

/-! ### The steps that count a wait -/

/-- Only a blocked writer with interrupt-driven transmit on counts a wait (43_txpath.md R205). -/
theorem stepWCheck_waitCntStep (w n : Bool) (h : s.atStep p 0x13#8 Phase.wCheck) :
    s.WaitCntStep p (.write w n) (stepWCheck p s) := by
  obtain ⟨-, -, ho, hp⟩ := h
  unfold stepWCheck
  dsimp only
  split_ifs with hf hb
  · obtain ⟨hblk, ht⟩ : (s.agent p).blk = true ∧ s.txIrqEn = true := by simpa using hb
    exact .inr (.inr ⟨ho, hp, hblk, ht, State.txFull_iff.mp hf⟩)
  all_goals exact .inl (by simp)

theorem execWrite_waitCntStep (s : State) (w n : Bool) (ht : execWrite w n s = .next t) :
    s.WaitCntStep s.cur (.write w n) t := by
  cases ht
  refine State.command_waitCntStep_of_start (by simp) fun ph hs => ?_
  split_ifs with _ _ hcheck
  · exact .inl (stepWSelect_waitCnt s _)
  · exact .inl (State.acquireThen_waitCnt (by simp))
  · subst hcheck
    exact stepWCheck_waitCntStep w n hs
  · exact .inl (State.waitThen_waitCnt (by simp))
  · exact .inl rfl
  · exact .inl rfl

/-- `WAKE_WAIT` counts its wait in its first step, not when the wake comes (42_lock_wake.md R186). -/
theorem execWakeWait_waitCntStep (s : State) (ht : execWakeWait s = .next t) :
    s.WaitCntStep s.cur .wakeWait t := by
  cases ht
  refine State.command_waitCntStep (fun hfirst _ _ => .inr (.inl ⟨rfl, hfirst⟩)) fun ph _ => ?_
  split_ifs
  · exact .inl (State.waitThen_waitCnt (by simp))
  · exact .inl rfl

/-- One step of any command leaves the counter as it is, or is one that counts a wait. -/
theorem exec_waitCntStep (i : Instr) (s : State) (ht : exec i s = .next t) : s.WaitCntStep s.cur i t := by
  cases i with
  | write w n => exact execWrite_waitCntStep s w n ht
  | wakeWait => exact execWakeWait_waitCntStep s ht
  | getbyte | irqDispatch | lockAcq | pollPutc | rbPop =>
    cases ht
    refine State.command_waitCnt_eq (by simp) fun ph r => ?_
    split_ifs <;> simp
  | initEarly | init | pollGetc | enterFail | rbInit | rbPush | lockRel | wakeSignal | yield | rxMask | rxUnmask
  | txMask | txUnmask => cases ht; exact State.oneStep_waitCnt_eq (by simp)

/-! ### The events -/

/-- Only one word decodes to `WAKE_WAIT` (30_encoding.md R104). -/
theorem decode_eq_wakeWait {w : Word} (h : decode w = some .wakeWait) : w = 0x33#32 :=
  (encode_of_decode h).symm.trans (by decide)

/-- A write of a `CMD` register counts a wait only with the word of `WAKE_WAIT`: it finds the port idle, so it is no
later step of a command. -/
theorem writeCmd_waitCnt {w : Word} (ht : s.writeCmd p w = .next t) : t.waitCnt = s.waitCnt ∨ w = 0x33#32 := by
  rcases State.writeCmd_cases ht with rfl | ⟨c, rfl⟩ | ⟨hidle, i, hd, hi⟩
  · exact .inl rfl
  · exact .inl rfl
  · rcases exec_waitCntStep i { s with cur := p } hi with e | ⟨rfl, -⟩ | ⟨-, hp, -⟩
    · exact .inl e
    · exact .inr (decode_eq_wakeWait hd)
    · exact absurd (hidle.symm.trans hp) (by decide)

/-- From `s` to `t` the counter stays as it is, or event `e` is one that may change it. -/
def State.WaitCntEvent (s : State) (e : Event) (t : State) : Prop :=
  t.waitCnt = s.waitCnt ∨ e = .reset ∨ s.IssuesWord e 0x33#32 ∨ s.EntersOpcode e 0x33#8
    ∨ ∃ p, e = .port p ∧ s.atBlockedWCheck p

/-- The write of a `CMD` register by an event. -/
theorem State.WaitCntEvent.of_writeCmd {r : State} {e : Event} {w : Word} (hr : r.waitCnt = s.waitCnt)
    (he : s.IssuesWord e w) (ht : r.writeCmd p w = .next t) : s.WaitCntEvent e t := by
  rcases writeCmd_waitCnt ht with hc | rfl
  · exact .inl (hc.trans hr)
  · exact .inr (.inr (.inl he))

theorem writeArgs_waitCnt (s : State) (p : PortId) (l : Line) : (s.writeArgs p l).waitCnt = s.waitCnt := by
  rcases s.writeArgs_cases p l with e | ⟨a, b, e⟩ <;> rw [e]
  rfl

theorem agentStep_waitCntEvent (ht : s.agentStep p = .next t) : s.WaitCntEvent (.port p) t := by
  rcases State.agentStep_cases ht with rfl | ⟨hbusy, i, hi⟩ | ⟨hb, l, hl, hw⟩
  · exact .inl rfl
  · rcases exec_waitCntStep i { s with cur := p } hi with hc | ⟨-, hfirst⟩ | hcheck
    · exact .inl hc
    · obtain ⟨ho, hp⟩ := hfirst.resolve_left hbusy
      exact .inr (.inr (.inr (.inl ⟨p, rfl, ho, hp⟩)))
    · exact .inr (.inr (.inr (.inr ⟨p, rfl, hcheck⟩)))
  · exact .of_writeCmd (writeArgs_waitCnt s p l) (.inl ⟨p, l, rfl, hb, hl, rfl⟩) hw

theorem State.AccessWrites.waitCnt_eq (h : s.AccessWrites p t) : t.waitCnt = s.waitCnt := by
  rcases h with rfl | ⟨c, opc, off, rfl⟩ | ⟨v, rfl⟩ | ⟨a, b, rfl⟩ <;> rfl

theorem access_waitCntEvent {a : Access} (ht : s.access a = .next t) : s.WaitCntEvent (.access a) t := by
  rcases State.access_cases ht with h | ⟨v, hk, ho, hw⟩
  · exact .inl h.waitCnt_eq
  · exact .of_writeCmd rfl (.inr ⟨a, rfl, hk, ho⟩) hw

/-- A delivery writes the `IRQ_DISPATCH` word, which is not that of `WAKE_WAIT` (46_environment.md R266). -/
theorem deliver_waitCnt (ht : s.deliver = .next t) : t.waitCnt = s.waitCnt := by
  unfold State.deliver at ht
  split_ifs at ht
  · exact (writeCmd_waitCnt ht).resolve_right (by decide)
  · cases ht; rfl

/-- A spurious wake ends a wait and counts none (42_lock_wake.md R190). -/
theorem spuriousWake_waitCnt (s : State) (p : PortId) : (s.spuriousWake p).waitCnt = s.waitCnt := by
  unfold State.spuriousWake
  split_ifs <;> simp

theorem lineRx_waitCnt (s : State) (b : Byte) : (s.lineRx b).waitCnt = s.waitCnt := by
  unfold State.lineRx
  split_ifs <;> rfl

theorem lineRxTimeout_waitCnt (s : State) : s.lineRxTimeout.waitCnt = s.waitCnt := by
  unfold State.lineRxTimeout
  split_ifs <;> rfl

theorem lineTx_waitCnt (s : State) : s.lineTx.waitCnt = s.waitCnt := by
  unfold State.lineTx
  split_ifs
  · rfl
  · split <;> rfl

/-- An event leaves the counter as it is, or is one that may change it. -/
theorem runEvent_waitCntEvent (e : Event) (ht : s.runEvent e = .next t) : s.WaitCntEvent e t := by
  cases e with
  | port p => exact agentStep_waitCntEvent ht
  | access a => exact access_waitCntEvent ht
  | reset => exact .inr (.inl rfl)
  | deliver => exact .inl (deliver_waitCnt ht)
  | spuriousWake p => cases ht; exact .inl (spuriousWake_waitCnt s p)
  | lineRx b => cases ht; exact .inl (lineRx_waitCnt s b)
  | lineRxTimeout => cases ht; exact .inl (lineRxTimeout_waitCnt s)
  | lineTx => cases ht; exact .inl (lineTx_waitCnt s)
  | hostStore a b => cases ht; exact .inl rfl

/-! ### In failure mode (44_panic.md R232, R237) -/

/-- `WAKE_WAIT` never waits in `I_PEND`: the interrupt port does not accept it (30_encoding.md R114). -/
theorem State.Inv.not_entersOpcode_wakeWait (h : s.Inv) (e : Event) : ¬s.EntersOpcode e 0x33#8 := by
  rintro ⟨p, -, ho, hp⟩
  have hshape := h.shape_at ho hp
  cases hk : s.kind p <;> rw [hk] at hshape <;> exact absurd hshape (by decide)

/-- In failure mode no writer blocks, since interrupt-driven transmit is off (R232). -/
theorem State.Inv.not_atBlockedWCheck (h : s.Inv) (hm : s.failureMode = true) (p : PortId) :
    ¬s.atBlockedWCheck p := by
  rintro ⟨-, -, -, ht, -⟩
  exact absurd ht (by simp [h.fail_mode hm])

/-- Settles O41: of the events that may change the counter, failure mode and the invariant leave reset and the issue of
a `WAKE_WAIT`. -/
theorem failureModeCountsOnlyWakeWaits : Obligations.FailureModeCountsOnlyWakeWaits := by
  intro s t h hm hs hne
  rw [step, if_pos h.params_wf] at hs
  rcases (runEvent_waitCntEvent (s := s.advance) s.nextEvent hs).resolve_left hne with
    hreset | hissue | hentry | ⟨p, -, hcheck⟩
  · exact .inl hreset
  · exact .inr hissue
  · exact absurd hentry (h.advance.not_entersOpcode_wakeWait _)
  · exact absurd hcheck (h.advance.not_atBlockedWCheck hm p)

end Sys2Proof.Machine
end

section
/-! SUPPORT. Initialization and interrupt dispatch step by step: the issue of `INIT_EARLY` and of `INIT`, and the entry
and the exit of `IRQ_DISPATCH` (45_lifecycle_dispatch.md R241 to R253). -/

namespace Sys2Proof.Machine

variable {s : State} {p : PortId}

/-! ### `INIT_EARLY` (R241) -/

/-- The checks of `INIT_EARLY`, in their order. -/
def State.initEarlyChecks (s : State) (p : PortId) : List (Bool × FaultCode) :=
  [(s.earlyDone, .initOrder),
    (decide ((s.port p).arg0 = 0#32) || decide ((s.port p).arg0.toNat % 4 ≠ 0), .configError),
    (!s.irqLineValid (s.port p).arg1, .configError)]

theorem firstFailing_initEarlyChecks (s : State) (p : PortId) :
    firstFailing (s.initEarlyChecks p) =
      if s.earlyDone = true then some .initOrder
      else if (s.port p).arg0 = 0#32 ∨ (s.port p).arg0.toNat % 4 ≠ 0 ∨ (s.port p).arg1 ∈ s.params.irqInvalid
        then some .configError
      else none := by
  by_cases hbase : (s.port p).arg0 = 0#32 ∨ (s.port p).arg0.toNat % 4 ≠ 0
  · have hany := hbase.imp_right (Or.inl (b := (s.port p).arg1 ∈ s.params.irqInvalid))
    simp [State.initEarlyChecks, firstFailing, hbase, hany]
  · obtain ⟨h0, h4⟩ := not_or.mp hbase
    simp [State.initEarlyChecks, firstFailing, State.irqLineValid, h0, not_not.mp h4]

theorem exec_initEarly_faults (h : s.atIssue p) {c : FaultCode} (hc : firstFailing (s.initEarlyChecks p) = some c) :
    exec .initEarly s = .next (s.faultedWith p c.toByte 0x10#8) := by
  obtain rfl := h.1
  exact congrArg Host.Outcome.next (State.command_issue_faults (i := .initEarly) h rfl hc)

theorem exec_initEarly_completes (h : s.atIssue p) (hc : firstFailing (s.initEarlyChecks p) = none) :
    exec .initEarly s = .next
      ({ s with mmioBase := (s.port p).arg0, irqLine := (s.port p).arg1, earlyDone := true }.completed p 0x400#32) := by
  obtain rfl := h.1
  refine congrArg Host.Outcome.next ((State.command_issue_starts (i := .initEarly) h rfl hc).trans ?_)
  exact State.setResult_completed
    { s with mmioBase := (s.port s.cur).arg0, irqLine := (s.port s.cur).arg1, earlyDone := true } s.cur 0#32 0x400#32

/-- Settles O9: the outcome of `INIT_EARLY` for each outcome of its checks. -/
theorem initEarlyRecordsDeviceOrFaults : Obligations.InitEarlyRecordsDeviceOrFaults := by
  intro s p h
  refine ⟨fun hd h0 h4 hline => exec_initEarly_completes h ?_, fun hd => exec_initEarly_faults h (c := .initOrder) ?_,
    fun hd hbad => exec_initEarly_faults h (c := .configError) ?_⟩
  all_goals rw [firstFailing_initEarlyChecks]
  · simp [hd, h0, h4, hline]
  · simp [hd]
  · simp [hd, hbad]

/-! ### `INIT` (R244) -/

/-- The checks of `INIT`, in their order: those of `RBInit` come between its own. -/
def State.initChecks (s : State) (p : PortId) : List (Bool × FaultCode) :=
  (!s.earlyDone, .initOrder) :: s.rbInitChecks (s.port p).arg0 ++ [(cfgReserved (s.port p).arg1, .configError)]

theorem firstFailing_initChecks (s : State) (p : PortId) :
    firstFailing (s.initChecks p) =
      if s.earlyDone = false then some .initOrder
      else if s.rbInitDone = true then some .rbReinit
      else if (s.port p).arg0 = 0#32 then some .rbZeroCap
      else if s.params.capMax < (s.port p).arg0.toNat then some .allocFailure
      else if (s.port p).arg1.extractLsb' 1 31 ≠ 0#31 then some .configError
      else none := by
  simp [State.initChecks, State.rbInitChecks, firstFailing, cfgReserved]

theorem exec_init_faults (h : s.atIssue p) {c : FaultCode} (hc : firstFailing (s.initChecks p) = some c) :
    exec .init s = .next (s.faultedWith p c.toByte 0x11#8) := by
  obtain rfl := h.1
  exact congrArg Host.Outcome.next (State.command_issue_faults (i := .init) h rfl hc)

/-- The state that `INIT` sets up, before its completion: the RingBuffer, the receive pair and the mode flag. -/
def State.afterInit (s : State) (p : PortId) : State :=
  { (s.rbInit (s.port p).arg0).maskRx false with
    txIrqEn := cfgTxIrqUse (s.port p).arg1 && !s.failureMode, initDone := true }

theorem exec_init_completes (h : s.atIssue p) (hc : firstFailing (s.initChecks p) = none) :
    exec .init s = .next ((s.afterInit p).completed p 0x400#32) := by
  obtain rfl := h.1
  refine congrArg Host.Outcome.next ((State.command_issue_starts (i := .init) h rfl hc).trans ?_)
  exact (s.afterInit s.cur).setResult_completed s.cur 0#32 0x400#32

/-- Settles O10: the outcome of `INIT` for each outcome of its checks. -/
theorem initStartsReceptionOrFaults : Obligations.InitStartsReceptionOrFaults := by
  intro s p h
  refine ⟨fun he hd h0 hle hres => exec_init_completes h ?_, fun he => exec_init_faults h (c := .initOrder) ?_,
    fun he hd => exec_init_faults h (c := .rbReinit) ?_, fun he hd h0 => exec_init_faults h (c := .rbZeroCap) ?_,
    fun he hd h0 hlt => exec_init_faults h (c := .allocFailure) ?_,
    fun he hd h0 hle hres => exec_init_faults h (c := .configError) ?_⟩
  all_goals rw [firstFailing_initChecks]
  · simp [he, hd, h0, hle.not_gt, hres]
  · simp [he]
  · simp [he, hd]
  · simp [he, hd, h0]
  · simp [he, hd, h0, hlt]
  · simp [he, hd, h0, hle.not_gt, hres]

/-! ### Entry and exit of `IRQ_DISPATCH` (R247, R253) -/

/-- The interrupt port's core is `IRQ_CPU` (42_lock_wake.md R181). -/
theorem State.core_of_interrupt (hk : s.kind p = .interrupt) : s.core p = s.params.irqCpu := by
  rw [State.core, if_pos (State.eq_intPort hk)]

theorem exec_irqDispatch_enters (h : s.atEntry p 0x50#8) (hd : s.initDone = true) :
    exec .irqDispatch s = .next ((s.irqEnter p).goto p Phase.iLock) := by
  obtain rfl := h.1
  exact congrArg Host.Outcome.next (State.command_entry_starts (i := .irqDispatch) h (by simp [firstFailing, hd]))

theorem exec_irqDispatch_faults (h : s.atEntry p 0x50#8) (hd : s.initDone = false) :
    exec .irqDispatch s = .next (s.faultedWith p 0x07#8 0x50#8) := by
  obtain rfl := h.1
  exact congrArg Host.Outcome.next
    (State.command_entry_faults (i := .irqDispatch) (c := .notInit) h (by simp [firstFailing, hd]))

/-- Settles O42: the entry through what it does to each core's interrupt enable, or the failing check. -/
theorem dispatchEntrySavesInterruptEnable : Obligations.DispatchEntrySavesInterruptEnable := by
  intro s p h
  refine ⟨fun hd => ⟨_, exec_irqDispatch_enters h hd, ?_, fun c hc => ?_, rfl⟩, exec_irqDispatch_faults h⟩
  · exact (s.irqEnter_ie p _).trans (if_pos rfl)
  · exact (s.irqEnter_ie p c).trans (if_neg hc)

theorem exec_irqDispatch_at_iExit (h : s.atStep p 0x50#8 Phase.iExit) :
    exec .irqDispatch s = .next (stepIExit p s) :=
  exec_irqDispatch_at_step h

/-- On the interrupt port the lock's saved interrupt enable is overwritten by the one that entry saved (R253). -/
theorem stepIExit_ie (hk : s.kind p = .interrupt) (c : Nat) :
    (stepIExit p s).ie c = if c = s.params.irqCpu then (s.agent p).entryIe else s.ie c := by
  rw [stepIExit, State.done_ie, State.irqReturn_ie, State.core_of_interrupt hk]
  split_ifs <;> rfl

/-- The return frees the lock; of the rest it writes the interrupt enables only. -/
theorem State.irqReturn_eq (s : State) (p : PortId) :
    s.irqReturn p = { s with lockHeld := false, lockOwner := 0, ieBits := (s.irqReturn p).ieBits } := by
  rw [State.irqReturn, State.release]; rfl

/-- The exit completes the command besides. -/
theorem stepIExit_eq (s : State) (p : PortId) :
    stepIExit p s =
      { s.completed p 0x400#32 with lockHeld := false, lockOwner := 0, ieBits := (stepIExit p s).ieBits } := by
  have hret := s.irqReturn_eq p
  rw [stepIExit, State.done_eq_completed]
  generalize s.irqReturn p = r at hret
  rw [hret]; rfl

/-- Settles O45: step `I_EXIT`, with each core's interrupt enable after it. -/
theorem dispatchExitRestoresInterruptEnable : Obligations.DispatchExitRestoresInterruptEnable := by
  intro s p hk h
  refine ⟨stepIExit p s, exec_irqDispatch_at_iExit h, ?_, fun c hc => ?_, stepIExit_eq s p⟩
  · rw [stepIExit_ie hk, if_pos rfl]
  · rw [stepIExit_ie hk, if_neg hc]

end Sys2Proof.Machine
end

section
/-! SUPPORT. The run of one `IRQ_DISPATCH` with the lock free and a receive source active: the steps up to the drain,
one step for each byte that fits, and the steps after the drain (41_rxpath.md R167 to R169, 45_lifecycle_dispatch.md
R246 to R253). -/

namespace Sys2Proof.Machine

variable {s t : State} {p : PortId}

/-- A run of a dispatch goes on from the step at which it stands. -/
theorem runCommand_dispatchStep (n : Nat) {ph : Byte} (h : s.atStep p 0x50#8 ph) (ht : dispatchStep p ph s = t)
    (h0 : ph ≠ Phase.idle := by decide) (h1 : ph ≠ Phase.iPend := by decide) :
    runCommand .irqDispatch (n + 1) s = runCommand .irqDispatch n t :=
  ht ▸ runCommand_next n (exec_irqDispatch_at_step h h0 h1)

/-- The next step of the same command. -/
theorem State.atStep_goto {opc ph : Byte} (h : s.atStep p opc ph) (ph' : Byte) : (s.goto p ph').atStep p opc ph' := by
  obtain ⟨hcur, hf, ho, -⟩ := h
  simp [State.atStep, State.goto_port, hcur, hf, ho]

/-! ### What every part of a dispatch leaves as it was -/

/-- From `s` to `t` nothing has changed of what a dispatch on port `p` leaves alone. -/
structure State.DispatchKeeps (s : State) (p : PortId) (t : State) : Prop where
  rbInitDone : t.rbInitDone = s.rbInitDone
  cap : t.cap = s.cap
  rxOut : t.rxOut = s.rxOut
  txf : t.txf = s.txf
  mem : t.mem = s.mem
  params : t.params = s.params
  others : ∀ q, q ≠ p → t.port q = s.port q ∧ t.agent q = s.agent q

theorem State.DispatchKeeps.trans {u : State} (h : s.DispatchKeeps p t) (h' : t.DispatchKeeps p u) :
    s.DispatchKeeps p u where
  rbInitDone := h'.rbInitDone.trans h.rbInitDone
  cap := h'.cap.trans h.cap
  rxOut := h'.rxOut.trans h.rxOut
  txf := h'.txf.trans h.txf
  mem := h'.mem.trans h.mem
  params := h'.params.trans h.params
  others q hq := ⟨(h'.others q hq).1.trans (h.others q hq).1, (h'.others q hq).2.trans (h.others q hq).2⟩

theorem State.DispatchKeeps.kind (h : s.DispatchKeeps p t) (q : PortId) : t.kind q = s.kind q := by
  rw [State.kind, State.intPort, h.params]; rfl

/-! ### Up to the drain (R247, R248, R167) -/

/-- The state after the entry step. -/
def State.afterIEntry (s : State) (p : PortId) : State := (s.irqEnter p).goto p Phase.iLock

/-- The state after that and the taking of the lock in step `I_LOCK`. -/
def State.afterILock (s : State) (p : PortId) : State := ((s.afterIEntry p).takeLock p).goto p Phase.iRxsel

/-- The state after that and step `I_RXSEL`, with a receive source active. -/
def State.afterIRxsel (s : State) (p : PortId) : State := (s.afterILock p).goto p Phase.iDrain

theorem State.atStep_afterIEntry (h : s.atEntry p 0x50#8) : (s.afterIEntry p).atStep p 0x50#8 Phase.iLock := by
  obtain ⟨hcur, -, hf, ho, -, -⟩ := h
  simp [State.atStep, State.afterIEntry, State.goto_port, hcur, hf, ho]

theorem State.atStep_afterILock (h : s.atEntry p 0x50#8) : (s.afterILock p).atStep p 0x50#8 Phase.iRxsel := by
  refine State.atStep_goto (s := (s.afterIEntry p).takeLock p) (ph := Phase.iLock) ?_ _
  simpa [State.atStep] using State.atStep_afterIEntry h

theorem State.atStep_afterIRxsel (h : s.atEntry p 0x50#8) : (s.afterIRxsel p).atStep p 0x50#8 Phase.iDrain :=
  State.atStep_goto (State.atStep_afterILock h) _

theorem State.afterIEntry_lockHeld (s : State) (p : PortId) : (s.afterIEntry p).lockHeld = s.lockHeld := by
  simp [State.afterIEntry]

theorem State.afterILock_rxA (s : State) (p : PortId) : (s.afterILock p).rxA = s.rxA := by
  simp [State.afterILock, State.afterIEntry]

theorem stepILock_free (hl : s.lockHeld = false) : stepILock p s = (s.takeLock p).goto p Phase.iRxsel := by
  rw [stepILock, State.acquireThen_free hl]

theorem stepIRxsel_active (hx : s.rxA = true) : stepIRxsel p s = s.goto p Phase.iDrain := if_pos hx

section
variable (h : s.atEntry p 0x50#8) (hd : s.initDone = true) (hl : s.lockHeld = false) (hx : s.rxA = true)
include h hd hl hx

/-- With the lock free and a receive source active, the first three steps of a dispatch lead to the drain. -/
theorem runCommand_to_iDrain (n : Nat) :
    runCommand .irqDispatch (n + 3) s = runCommand .irqDispatch n (s.afterIRxsel p) := by
  have hlock : stepILock p (s.afterIEntry p) = s.afterILock p := stepILock_free (by rwa [State.afterIEntry_lockHeld])
  have hsel : stepIRxsel p (s.afterILock p) = s.afterIRxsel p := stepIRxsel_active (by rwa [State.afterILock_rxA])
  calc runCommand .irqDispatch (n + 3) s
      = runCommand .irqDispatch (n + 2) (s.afterIEntry p) := runCommand_next _ (exec_irqDispatch_enters h hd)
    _ = runCommand .irqDispatch (n + 1) (s.afterILock p) :=
        runCommand_dispatchStep _ (State.atStep_afterIEntry h) hlock
    _ = runCommand .irqDispatch n (s.afterIRxsel p) := runCommand_dispatchStep _ (State.atStep_afterILock h) hsel

/-- The invariant holds when the drain begins. -/
theorem State.Inv.afterIRxsel (hinv : s.Inv) : (s.afterIRxsel p).Inv := by
  have hentry : (s.afterIEntry p).Inv := irqEnter_goto_inv hinv h hd
  have hp : p = (s.afterIEntry p).intPort :=
    State.eq_intPort (hentry.interrupt_of_step (State.atStep_afterIEntry h))
  have hact : (s.afterIEntry p).mayAct p := by
    have hm := hentry.mayAct_intPort
    rwa [← hp] at hm
  have hlock := stepILock_inv hentry hact (State.atStep_afterIEntry h)
  rw [stepILock_free (by rwa [State.afterIEntry_lockHeld])] at hlock
  have hsel := stepIRxsel_inv (s := s.afterILock p) hlock (State.atStep_afterILock h)
  rwa [stepIRxsel_active (by rwa [State.afterILock_rxA])] at hsel

end

/-- The interrupt enable of `IRQ_CPU` is off when the drain begins, and no other is touched. -/
theorem State.afterIRxsel_ie (hk : s.kind p = .interrupt) (c : Nat) :
    (s.afterIRxsel p).ie c = if c = s.params.irqCpu then false else s.ie c := by
  by_cases hc : c = s.params.irqCpu <;>
    simp [State.afterIRxsel, State.afterILock, State.afterIEntry, State.takeLock_ie, State.irqEnter_ie,
      State.core_of_interrupt hk, hc]

/-- The interrupt enable to restore at the exit is the one before the entry. -/
theorem State.afterIRxsel_entryIe (s : State) (p : PortId) :
    ((s.afterIRxsel p).agent p).entryIe = s.ie s.params.irqCpu := by
  simp [State.afterIRxsel, State.afterILock, State.afterIEntry, State.takeLock_agent, State.irqEnter_agent]

/-- The bytes received, the masks and the wake signal are as they were when the drain begins. -/
theorem State.afterIRxsel_frame (s : State) (p : PortId) :
    (s.afterIRxsel p).ring = s.ring ∧ (s.afterIRxsel p).rxf = s.rxf ∧ (s.afterIRxsel p).imask = s.imask
      ∧ (s.afterIRxsel p).wakePend = s.wakePend ∧ (s.afterIRxsel p).txrdyA = s.txrdyA := by
  have hpath : (s.afterIRxsel p).receivePath = s.receivePath := by
    simp [State.afterIRxsel, State.afterILock, State.afterIEntry]
  obtain ⟨-, -, hring, hrxf⟩ : (s.afterIRxsel p).rxIn = s.rxIn ∧ (s.afterIRxsel p).rxOut = s.rxOut
      ∧ (s.afterIRxsel p).ring = s.ring ∧ (s.afterIRxsel p).rxf = s.rxf := by simpa [State.receivePath] using hpath
  refine ⟨hring, hrxf, ?_⟩
  simp [State.afterIRxsel, State.afterILock, State.afterIEntry]

theorem State.afterIRxsel_keeps (s : State) (p : PortId) : s.DispatchKeeps p (s.afterIRxsel p) := by
  constructor <;>
    simp +contextual [State.afterIRxsel, State.afterILock, State.afterIEntry, State.takeLock_agent,
      State.irqEnter_agent, State.goto_port]

/-! ### The drain (R168) -/

/-- From `s` to `t` the drain has moved the `k` oldest bytes of the receive FIFO, in order, to the end of the
RingBuffer, and nothing else is touched. -/
structure State.Drained (s : State) (k : Nat) (t : State) : Prop where
  ring : t.ring = s.ring ++ s.rxf.take k
  rxf : t.rxf = s.rxf.drop k
  frame : t = { s with rxf := t.rxf, rxtoP := t.rxtoP, store := t.store, wr := t.wr }

theorem State.Drained.refl (s : State) : s.Drained 0 s := ⟨by simp, by simp, rfl⟩

/-- One byte, then `k` more. -/
theorem State.Drained.cons {k : Nat} {b : Byte} {rest : List Byte} (hx : s.rxf = b :: rest)
    (hring : (s.rxfDrop.rbPush b).ring = s.ring ++ [b]) (h : (s.rxfDrop.rbPush b).Drained k t) :
    s.Drained (k + 1) t where
  ring := by rw [h.ring, hring]; simp [hx]
  rxf := by rw [h.rxf]; simp [hx]
  frame := h.frame

/-- How many bytes the RingBuffer holds after the drain. -/
theorem State.Drained.count_eq {k : Nat} (h : s.Drained k t) (hk : k ≤ s.rxf.length) : t.count = s.count + k := by
  simp [← State.ring_length, h.ring, hk]

theorem State.Drained.keeps {k : Nat} (h : s.Drained k t) (p : PortId) : s.DispatchKeeps p t := by
  rw [h.frame]
  exact ⟨rfl, rfl, rfl, rfl, rfl, rfl, fun _ _ => ⟨rfl, rfl⟩⟩

/-- The masks, the wake signal, the interrupt enables and the agents' registers are no part of the drain. -/
theorem State.Drained.untouched {k : Nat} (h : s.Drained k t) :
    t.imask = s.imask ∧ t.wakePend = s.wakePend ∧ t.txrdyA = s.txrdyA ∧ (∀ c, t.ie c = s.ie c)
      ∧ ∀ q, t.agent q = s.agent q := by
  rw [h.frame]
  exact ⟨rfl, rfl, rfl, fun _ => rfl, fun _ => rfl⟩

theorem State.Drained.atStep {k : Nat} (h : s.Drained k t) {opc ph : Byte} (hs : s.atStep p opc ph) :
    t.atStep p opc ph := by
  rw [h.frame]; exact hs

/-- With a byte received for each and room for all, `k` steps of the drain move `k` bytes. -/
theorem runCommand_drains (n k : Nat) :
    ∀ s : State, s.Inv → s.rbInitDone = true → s.atStep p 0x50#8 Phase.iDrain → k ≤ s.rxf.length →
      s.count + k ≤ s.cap →
      ∃ t, runCommand .irqDispatch (n + k) s = runCommand .irqDispatch n t ∧ s.Drained k t := by
  induction k with
  | zero => intro s _ _ _ _ _; exact ⟨s, rfl, .refl s⟩
  | succ k ih =>
    intro s hinv hd h hlen hroom
    obtain ⟨b, rest, hx⟩ := List.exists_cons_of_length_pos (Nat.zero_lt_of_lt hlen)
    have hf : s.isFull = false := by simp [State.isFull]; omega
    have hph : (s.port p).phase = Phase.iDrain := by obtain ⟨-, -, -, hph⟩ := h; exact hph
    have hring : (s.rxfDrop.rbPush b).ring = s.ring ++ [b] :=
      (pushAppendsAndPopTakesFirst s.rxfDrop hinv.rxfDrop hd).1 b hf
    have hcount : (s.rxfDrop.rbPush b).count = s.count + 1 := by simp [← State.ring_length, hring]
    have hnext : runCommand .irqDispatch (n + k + 1) s = runCommand .irqDispatch (n + k) (s.rxfDrop.rbPush b) :=
      runCommand_dispatchStep _ h (stepIDrain_moves hph hx hf)
    obtain ⟨t, hrun, ht⟩ := ih (s.rxfDrop.rbPush b) (hinv.rxfDrop.rbPush b hd hf) hd h
      (by simp [hx] at hlen ⊢; omega) (by rw [hcount]; simpa using by omega)
    exact ⟨t, hnext.trans hrun, ht.cons hx hring⟩

/-! ### After the drain (R169, R212, R253) -/

/-- The state after the end of the drain, the mask decision of step `I_RXEND` and the transmit service of step
`I_TX`. -/
def State.afterITx (s : State) (p : PortId) : State := stepITx p (stepIRxend p (s.goto p Phase.iRxend))

theorem stepIRxend_eq (s : State) (p : PortId) :
    stepIRxend p s =
      { s.goto p Phase.iTx with
        imask := { s.imask with rxrdyM := s.imask.rxrdyM || s.isFull, rxtoM := s.imask.rxtoM || s.isFull } } := by
  cases hf : s.isFull <;> simp only [stepIRxend, hf, Bool.or_true, Bool.or_false] <;> rfl

theorem stepITx_eq (s : State) (p : PortId) :
    stepITx p s =
      { s.goto p Phase.iExit with
        wakePend := s.wakePend || s.txrdyA, imask := { s.imask with txrdyM := s.imask.txrdyM || s.txrdyA } } := by
  cases ht : s.txrdyA <;> simp only [stepITx, ht, Bool.or_true, Bool.or_false] <;> rfl

/-- These steps write no more than the three mask bits, the wake signal and the port's step. -/
theorem State.afterITx_eq (s : State) (p : PortId) :
    s.afterITx p =
      { s.goto p Phase.iExit with
        wakePend := s.wakePend || s.txrdyA
        imask :=
          { rxrdyM := s.imask.rxrdyM || s.isFull, rxtoM := s.imask.rxtoM || s.isFull
            txrdyM := s.imask.txrdyM || s.txrdyA } } := by
  have hports : ((s.goto p Phase.iRxend).goto p Phase.iTx).goto p Phase.iExit = s.goto p Phase.iExit := by
    simp [State.goto, State.setPort, State.port]
  rw [← hports, State.afterITx, stepITx_eq, stepIRxend_eq]
  rfl

theorem State.afterITx_keeps (s : State) (p : PortId) : s.DispatchKeeps p (s.afterITx p) := by
  rw [State.afterITx_eq]
  exact ⟨rfl, rfl, rfl, rfl, rfl, rfl, fun q hq => ⟨(s.goto_port p q _).trans (if_neg hq), rfl⟩⟩

theorem stepIExit_keeps (s : State) (p : PortId) : s.DispatchKeeps p (stepIExit p s) := by
  constructor <;> simp +contextual [stepIExit, State.done_port, State.done_agent]

theorem stepIExit_receivePath (s : State) (p : PortId) : (stepIExit p s).receivePath = s.receivePath := by
  simp [stepIExit]

/-- The steps after the drain move no byte. -/
theorem stepIExit_afterITx_bytes (s : State) (p : PortId) :
    (stepIExit p (s.afterITx p)).ring = s.ring ∧ (stepIExit p (s.afterITx p)).rxf = s.rxf := by
  have hpath : (stepIExit p (s.afterITx p)).receivePath = s.receivePath := by
    rw [stepIExit_receivePath, State.afterITx_eq]; rfl
  simp only [State.receivePath, Prod.mk.injEq] at hpath
  obtain ⟨-, -, hring, hrxf⟩ := hpath
  exact ⟨hring, hrxf⟩

/-- What the steps after the drain write. -/
theorem stepIExit_afterITx_writes (s : State) (p : PortId) :
    let t := stepIExit p (s.afterITx p)
    t.imask =
        { rxrdyM := s.imask.rxrdyM || s.isFull, rxtoM := s.imask.rxtoM || s.isFull
          txrdyM := s.imask.txrdyM || s.txrdyA }
      ∧ t.wakePend = (s.wakePend || s.txrdyA) ∧ t.lockHeld = false
      ∧ (t.port p).result = 0x400#32 ∧ (t.port p).phase = 0x00#8 := by
  simp [stepIExit, State.done_port, State.afterITx_eq, resNone, doneBit]

/-- The steps after the drain restore the interrupt enable that entry saved. -/
theorem stepIExit_afterITx_ie (hk : s.kind p = .interrupt) (c : Nat) :
    (stepIExit p (s.afterITx p)).ie c = if c = s.params.irqCpu then (s.agent p).entryIe else s.ie c := by
  have hkeep := s.afterITx_keeps p
  rw [stepIExit_ie ((hkeep.kind p).trans hk), hkeep.params, State.afterITx_eq]
  rfl

section
variable {opc ph : Byte} (h : s.atStep p opc ph)
include h

theorem State.atStep_stepIRxend : (stepIRxend p s).atStep p opc Phase.iTx := by
  rw [stepIRxend_eq]; exact State.atStep_goto h Phase.iTx

theorem State.atStep_stepITx : (stepITx p s).atStep p opc Phase.iExit := by
  rw [stepITx_eq]; exact State.atStep_goto h Phase.iExit

end

/-- With nothing more to drain, four more steps complete the dispatch. -/
theorem runCommand_from_iDrain (h : s.atStep p 0x50#8 Phase.iDrain) (he : s.rxf = [] ∨ s.isFull = true) :
    runCommand .irqDispatch 4 s = .next (stepIExit p (s.afterITx p)) := by
  have hend : (s.goto p Phase.iRxend).atStep p 0x50#8 Phase.iRxend := State.atStep_goto h _
  have hmask := State.atStep_stepIRxend hend
  calc runCommand .irqDispatch 4 s
      = runCommand .irqDispatch 3 (s.goto p Phase.iRxend) := runCommand_dispatchStep 3 h (stepIDrain_ends he)
    _ = runCommand .irqDispatch 2 (stepIRxend p (s.goto p Phase.iRxend)) := runCommand_dispatchStep 2 hend rfl
    _ = runCommand .irqDispatch 1 (s.afterITx p) := runCommand_dispatchStep 1 hmask rfl
    _ = runCommand .irqDispatch 0 (stepIExit p (s.afterITx p)) :=
        runCommand_dispatchStep 0 (State.atStep_stepITx hmask) rfl
    _ = .next (stepIExit p (s.afterITx p)) := rfl

/-! ### The whole run -/

/-- The whole run of a dispatch, with `k` bytes to move. -/
theorem runCommand_dispatch (hinv : s.Inv) (h : s.atEntry p 0x50#8) (hd : s.initDone = true) (hl : s.lockHeld = false)
    (hx : s.rxA = true) {k : Nat} (hk : k = min s.rxf.length (s.cap - s.count)) :
    ∃ t, runCommand .irqDispatch (k + 7) s = .next (stepIExit p (t.afterITx p)) ∧ (s.afterIRxsel p).Drained k t := by
  have hle := hinv.count_le
  have hkeep := s.afterIRxsel_keeps p
  have hrb : (s.afterIRxsel p).rbInitDone = true := hkeep.rbInitDone.trans (hinv.boot_order hd).2
  obtain ⟨hring, hrxf, -⟩ := s.afterIRxsel_frame p
  have hcount : (s.afterIRxsel p).count = s.count := by rw [← State.ring_length, hring, State.ring_length]
  have hlen : k ≤ (s.afterIRxsel p).rxf.length := by rw [hrxf]; omega
  obtain ⟨t, hrun, ht⟩ := runCommand_drains 4 k _ (hinv.afterIRxsel h hd hl hx) hrb (State.atStep_afterIRxsel h) hlen
    (by rw [hcount, hkeep.cap]; omega)
  have hend : t.rxf = [] ∨ t.isFull = true := by
    have htkeep := hkeep.trans (ht.keeps p)
    rw [ht.rxf, hrxf, List.drop_eq_nil_iff, State.isFull, htkeep.rbInitDone, (hinv.boot_order hd).2,
      ht.count_eq hlen, hcount, htkeep.cap]
    simp only [Bool.true_and, decide_eq_true_eq]
    omega
  refine ⟨t, ?_, ht⟩
  rw [show k + 7 = 4 + k + 3 by omega, runCommand_to_iDrain h hd hl hx, hrun,
    runCommand_from_iDrain (ht.atStep (State.atStep_afterIRxsel h)) hend]

/-- Settles O46: the run up to the drain, the drain, and what the steps after it write. -/
theorem dispatchDrainsWhatFits : Obligations.DispatchDrainsWhatFits := by
  intro s p hinv h hd hl hx k
  obtain ⟨t, hrun, ht⟩ := runCommand_dispatch hinv h hd hl hx (k := k) rfl
  have hk : s.kind p = .interrupt := by obtain ⟨-, hk, -⟩ := h; exact hk
  obtain ⟨hring, hrxf, himask, hwake, htx⟩ := s.afterIRxsel_frame p
  obtain ⟨himask', hwake', htx', hie', hagent'⟩ := ht.untouched
  have hdrain := (s.afterIRxsel_keeps p).trans (ht.keeps p)
  have hkeep := hdrain.trans ((t.afterITx_keeps p).trans (stepIExit_keeps _ p))
  obtain ⟨hbytes, hleft⟩ := stepIExit_afterITx_bytes t p
  obtain ⟨hmask, hsignal, hlock, hres, hph⟩ := stepIExit_afterITx_writes t p
  have hcount : (stepIExit p (t.afterITx p)).count = t.count := by
    rw [← State.ring_length, hbytes, State.ring_length]
  have hmasked (m : Bool) : (m || t.isFull) =
      if (stepIExit p (t.afterITx p)).count = (stepIExit p (t.afterITx p)).cap then true else m := by
    rw [State.isFull, hdrain.rbInitDone, (hinv.boot_order hd).2, hkeep.cap, hdrain.cap, hcount]
    split_ifs with hc <;> simp [hc]
  refine ⟨_, hrun, ?_, ?_, ?_, ?_, hlock, fun c => ?_, ?_, ?_, hres, hph, hkeep.rxOut, hkeep.txf, hkeep.mem,
    hkeep.others⟩
  · rw [hbytes, ht.ring, hring, hrxf]
  · rw [hleft, ht.rxf, hrxf]
  · rw [← hmasked, hmask, himask', himask]
  · rw [← hmasked, hmask, himask', himask]
  · rw [stepIExit_afterITx_ie ((hdrain.kind p).trans hk), hdrain.params, hagent', State.afterIRxsel_entryIe, hie',
      State.afterIRxsel_ie hk]
    split_ifs with hc <;> simp [hc]
  · rw [hsignal, hwake', hwake, htx', htx]
  · rw [hmask, himask', himask, htx', htx]

end Sys2Proof.Machine
end

section
/-! SUPPORT. The line agent's three steps, each with and without its effect (46_environment.md R261 to R263). -/

namespace Sys2Proof.Machine

variable {s : State}

theorem State.lineRx_room (hf : s.faulted = false) (hr : s.rxf.length < s.params.rxfDepth) (b : Byte) :
    s.lineRx b = { s with rxf := s.rxf ++ [b], rxIn := s.rxIn ++ [b] } := by simp [State.lineRx, hf, hr]

/-- A byte that finds the receive FIFO full is lost (R261). -/
theorem State.lineRx_full (hr : s.params.rxfDepth ≤ s.rxf.length) (b : Byte) : s.lineRx b = s := by
  simp [State.lineRx, hr.not_gt]

theorem State.lineRxTimeout_rises (hf : s.faulted = false) (hx : s.rxf ≠ []) (ht : s.rxtoP = false) :
    s.lineRxTimeout = { s with rxtoP := true } := by
  simp [State.lineRxTimeout, hf, ht, List.length_pos_iff.mpr hx]

theorem State.lineRxTimeout_holds (h : s.rxf = [] ∨ s.rxtoP = true) : s.lineRxTimeout = s := by
  rcases h with h | h <;> simp [State.lineRxTimeout, h]

theorem State.lineTx_departs (hf : s.faulted = false) {b : Byte} {rest : List Byte} (hx : s.txf = b :: rest) :
    s.lineTx = { s with txf := rest, lineOut := s.lineOut ++ [b] } := by simp [State.lineTx, hf, hx]

theorem State.lineTx_empty (hx : s.txf = []) : s.lineTx = s := by simp [State.lineTx, hx]

/-- Settles O48: each of the three events, with its effect and without. -/
theorem lineAgentSteps : Obligations.LineAgentSteps := fun _ hf =>
  ⟨fun b hr => congrArg _ (State.lineRx_room hf hr b), fun b hr => congrArg _ (State.lineRx_full hr b),
    fun hx ht => congrArg _ (State.lineRxTimeout_rises hf hx ht), fun h => congrArg _ (State.lineRxTimeout_holds h),
    fun _ _ hx => congrArg _ (State.lineTx_departs hf hx), fun hx => congrArg _ (State.lineTx_empty hx)⟩

end Sys2Proof.Machine
end

section
/-! SUPPORT. The delivery of the interrupt, the only issuer of `IRQ_DISPATCH` (46_environment.md R260, R266): which
command is in progress on a port changes only on the port that steps, where a command begins on an idle port and ends
on a busy one, and no event but a delivery begins an `IRQ_DISPATCH` on the interrupt port. -/

namespace Sys2Proof.Machine

variable {s r t : State} {p : PortId} {o : Byte}

/-! ### A step that leaves the command in progress, ends it, or begins one -/

/-- From `s` to `t` no port's opcode changes but port `p`'s, and that becomes 0 or `o`. -/
def State.OpcStep (s : State) (p : PortId) (o : Byte) (t : State) : Prop :=
  ∀ q, (t.port q).opc = (s.port q).opc ∨ q = p ∧ ((t.port q).opc = 0#8 ∨ (t.port q).opc = o)

theorem State.port_congr (h : t.ports = s.ports) (q : PortId) : t.port q = s.port q := by
  rw [State.port, h]; rfl

theorem State.setPort_opc {x : Port} (hx : x.opc = (s.port p).opc) (q : PortId) :
    ((s.setPort p x).port q).opc = (s.port q).opc := by
  rw [State.setPort_port]
  split_ifs with hq
  · rw [hx, hq]
  · rfl

theorem State.OpcStep.of_ports_eq (h : t.ports = s.ports) : s.OpcStep p o t := fun q => .inl (by
  rw [State.port_congr h])

@[simp] theorem State.OpcStep.refl (s : State) : s.OpcStep p o s := .of_ports_eq rfl

theorem State.OpcStep.goto (h : r.ports = s.ports) (ph : Byte) : s.OpcStep p o (r.goto p ph) := fun q =>
  .inl ((State.setPort_opc (by rfl) q).trans (by rw [State.port_congr h]))

theorem State.OpcStep.done (h : r.ports = s.ports) (w : Word) : s.OpcStep p o (r.done p w) := fun q => by
  rw [State.done_port, State.port_congr h, State.port_congr h]
  split_ifs with hq
  · exact .inr ⟨hq, .inl rfl⟩
  · exact .inl rfl

theorem State.OpcStep.begin (h : r.ports = s.ports) (ph : Byte) : s.OpcStep p o (r.begin p o ph) := fun q => by
  rw [State.begin_port, State.port_congr h, State.port_congr h]
  split_ifs with hq
  · exact .inr ⟨hq, .inr rfl⟩
  · exact .inl rfl

theorem State.OpcStep.acquireThen {k : State → State} (hk : ∀ r : State, r.ports = s.ports → s.OpcStep p o (k r)) :
    s.OpcStep p o (s.acquireThen p k) := by
  rcases s.acquireThen_cases p k with ⟨-, e⟩ | ⟨-, e⟩ <;> rw [e]
  · exact .of_ports_eq rfl
  · exact hk _ (s.takeLock_ports p)

theorem State.OpcStep.waitThen {k : State → State} (hk : ∀ r : State, r.ports = s.ports → s.OpcStep p o (k r)) :
    s.OpcStep p o (s.waitThen k) := by
  rcases s.waitThen_cases k with ⟨-, e⟩ | ⟨-, e⟩ <;> rw [e]
  · exact hk _ rfl
  · exact .of_ports_eq rfl

/-- A step that writes to the opcode, if anything, what it was, begins nothing. -/
theorem State.OpcStep.of_same (h : s.OpcStep p o t) (ho : (s.port p).opc = o) : s.OpcStep p 0#8 t := fun q => by
  rcases h q with e | ⟨rfl, e | e⟩
  · exact .inl e
  · exact .inr ⟨rfl, .inl e⟩
  · exact .inl (e.trans ho.symm)

/-! ### One step of any command -/

/-- The opcode that a step of command `i` may give its port: its own on an idle port, none on a busy one. -/
def State.mayBegin (s : State) (p : PortId) (i : Instr) : Byte :=
  if (s.port p).phase = Phase.idle then i.opcode else 0#8

theorem State.mayBegin_idle (h : (s.port p).phase = Phase.idle) (i : Instr) : s.mayBegin p i = i.opcode := if_pos h

theorem State.mayBegin_busy (h : (s.port p).phase ≠ Phase.idle) (i : Instr) : s.mayBegin p i = 0#8 := if_neg h

/-- A command begins on an idle port, at issue or when the interrupt port latches it; every other step leaves it in
progress or ends it (30_encoding.md R101, R115). -/
theorem State.command_opcStep {i : Instr} {latch : Agent → Agent} {checks : List (Bool × FaultCode)}
    {start : State → State} {later : Byte → State → State} (hstart : ∀ r : State, r.OpcStep s.cur i.opcode (start r))
    (hlater : ∀ ph (r : State), r.OpcStep s.cur i.opcode (later ph r)) :
    s.OpcStep s.cur (s.mayBegin s.cur i) (s.command i latch checks start later) := by
  rcases s.command_cases i latch checks start later with e | ⟨-, hcase⟩
  · rw [e]; exact .of_ports_eq rfl
  rcases hcase with ⟨-, -, e⟩ | ⟨hi, -, -, e⟩ | ⟨c, -, -, e⟩ | ⟨-, hi, -, -, e⟩ | ⟨-, hp, ho, -, -, e⟩
    | ⟨hi, -, ho, e⟩ <;> rw [e]
  · exact .of_ports_eq rfl
  · rw [State.mayBegin_idle hi]
    intro q
    rw [State.setAgent_port, State.setPort_port]
    split_ifs with hq
    · exact .inr ⟨hq, .inr rfl⟩
    · exact .inl rfl
  · exact .of_ports_eq rfl
  · rw [State.mayBegin_idle hi]
    intro q
    have hres : ((s.setResult s.cur 0#32).port q).opc = (s.port q).opc := State.setPort_opc (by rfl) q
    rw [← hres]
    exact hstart _ q
  · rw [State.mayBegin_busy (by rw [hp]; decide)]
    exact (hstart s).of_same ho
  · rw [State.mayBegin_busy hi]
    exact (hlater _ s).of_same ho

theorem State.oneStep_opcStep {i : Instr} {latch : Agent → Agent} {checks : List (Bool × FaultCode)}
    {start : State → State} (hstart : ∀ r : State, r.OpcStep s.cur i.opcode (start r)) :
    s.OpcStep s.cur (s.mayBegin s.cur i) (s.oneStep i latch checks start) :=
  State.command_opcStep hstart fun _ _ => .of_ports_eq rfl

section
variable (s : State) (p : PortId) (o : Byte)

@[simp] theorem stepGPop_opcStep : s.OpcStep p o (stepGPop p s) := by
  unfold stepGPop
  split_ifs
  · exact .goto rfl _
  · exact .done rfl _
  · exact .refl s

@[simp] theorem stepGLock_opcStep : s.OpcStep p o (stepGLock p s) := .acquireThen fun _ h => .goto h _

@[simp] theorem stepGUnmask_opcStep : s.OpcStep p o (stepGUnmask p s) := by
  unfold stepGUnmask
  split_ifs <;> exact .done rfl _

@[simp] theorem stepPPop_opcStep : s.OpcStep p o (stepPPop p s) := by
  unfold stepPPop
  split_ifs
  · exact .done rfl _
  · exact .done rfl _
  · exact .refl s

theorem startWrite_opcStep (w n : Bool) : s.OpcStep p 0x13#8 (startWrite p w n s) := by
  unfold startWrite
  dsimp only
  split_ifs
  · exact .done rfl _
  · exact .begin rfl _

@[simp] theorem stepWSelect_opcStep : s.OpcStep p o (stepWSelect p s) := by
  unfold stepWSelect
  dsimp only
  split_ifs
  · exact .goto rfl _
  · exact .goto rfl _
  · exact .refl s

@[simp] theorem stepWLock_opcStep : s.OpcStep p o (stepWLock p s) := .acquireThen fun _ h => .goto h _

@[simp] theorem stepWCheck_opcStep : s.OpcStep p o (stepWCheck p s) := by
  unfold stepWCheck
  dsimp only
  split_ifs
  · exact .goto (by simp) _
  · exact .goto (by simp) _
  · exact .done (by simp) _
  · exact .goto (by simp) _

@[simp] theorem stepWWait_opcStep : s.OpcStep p o (stepWWait p s) := .waitThen fun _ h => .goto h _

@[simp] theorem stepWYield_opcStep : s.OpcStep p o (stepWYield p s) := .goto rfl _

@[simp] theorem stepILock_opcStep : s.OpcStep p o (stepILock p s) := .acquireThen fun _ h => .goto h _

@[simp] theorem stepIRxsel_opcStep : s.OpcStep p o (stepIRxsel p s) := by
  unfold stepIRxsel
  split_ifs <;> exact .goto rfl _

@[simp] theorem stepIDrain_opcStep : s.OpcStep p o (stepIDrain p s) := by
  unfold stepIDrain
  split
  · exact .goto rfl _
  · split_ifs <;> exact .goto rfl _

@[simp] theorem stepIRxend_opcStep : s.OpcStep p o (stepIRxend p s) := by
  unfold stepIRxend
  split_ifs <;> exact .goto rfl _

@[simp] theorem stepITx_opcStep : s.OpcStep p o (stepITx p s) := by
  unfold stepITx
  split_ifs <;> exact .goto rfl _

@[simp] theorem stepIExit_opcStep : s.OpcStep p o (stepIExit p s) := .done (s.irqReturn_ports p) _

@[simp] theorem stepLSpin_opcStep : s.OpcStep p o (stepLSpin p s) := .acquireThen fun _ h => .done h _

@[simp] theorem stepKWait_opcStep : s.OpcStep p o (stepKWait p s) := .waitThen fun _ h => .done h _

@[simp] theorem stepQSpin_opcStep : s.OpcStep p o (stepQSpin p s) := by
  unfold stepQSpin
  split_ifs
  · exact .done rfl _
  · exact .refl s

theorem startPollGetc_opcStep : s.OpcStep p o (startPollGetc p s) := by
  unfold startPollGetc
  split <;> exact .done rfl _

end

/-- One step of any command changes no opcode but its own port's, and begins itself only on an idle port. -/
theorem exec_opcStep (i : Instr) (s : State) (ht : exec i s = .next t) : s.OpcStep s.cur (s.mayBegin s.cur i) t := by
  cases i with
  | getbyte | lockAcq | wakeWait | pollPutc | rbPop =>
    cases ht
    refine State.command_opcStep (fun _ => .begin rfl _) fun ph r => ?_
    split_ifs <;> simp
  | write w n =>
    cases ht
    refine State.command_opcStep (startWrite_opcStep · _ w n) fun ph r => ?_
    split_ifs <;> simp
  | irqDispatch =>
    cases ht
    refine State.command_opcStep (fun _ => .goto rfl _) fun ph r => ?_
    split_ifs <;> simp
  | pollGetc => cases ht; exact State.oneStep_opcStep (startPollGetc_opcStep · _ _)
  | initEarly | init | enterFail | rbInit | rbPush | lockRel | wakeSignal | yield | rxMask | rxUnmask | txMask
  | txUnmask => cases ht; exact State.oneStep_opcStep fun _ => .done rfl _

theorem exec_cur_opcStep {i : Instr} (ht : exec i { s with cur := p } = .next t) : s.OpcStep p (s.mayBegin p i) t :=
  exec_opcStep i { s with cur := p } ht

/-! ### The events that begin no `IRQ_DISPATCH` -/

/-- From `s` to `t` an `IRQ_DISPATCH` comes to be in progress on the interrupt port. -/
def State.BeginsDispatch (s t : State) : Prop := (t.port s.intPort).opc = 0x50#8 ∧ (s.port s.intPort).opc ≠ 0x50#8

theorem State.not_beginsDispatch_self (s : State) : ¬s.BeginsDispatch s := fun h => h.2 h.1

/-- A step that begins an `IRQ_DISPATCH` is one of the interrupt port that may write that opcode. -/
theorem State.OpcStep.of_beginsDispatch (h : s.OpcStep p o t) (hb : s.BeginsDispatch t) :
    p = s.intPort ∧ o = 0x50#8 := by
  obtain ⟨hd, hne⟩ := hb
  rcases h s.intPort with e | ⟨hp, e | e⟩
  · exact absurd (e.symm.trans hd) hne
  · exact absurd (e.symm.trans hd) (by decide)
  · exact ⟨hp.symm, e.symm.trans hd⟩

/-- A step that only leaves or ends what is in progress begins no `IRQ_DISPATCH`. -/
theorem State.OpcStep.not_beginsDispatch (h : s.OpcStep p 0#8 t) : ¬s.BeginsDispatch t := fun hb =>
  absurd (h.of_beginsDispatch hb).2 (by decide)

theorem Instr.opcode_eq_dispatch {i : Instr} : i.opcode = 0x50#8 ↔ i = .irqDispatch := by
  cases i <;> simp [Instr.opcode]

/-- A write of a `CMD` register begins an `IRQ_DISPATCH` only with the word, and on the port, of a delivery. -/
theorem writeCmd_beginsDispatch {w : Word} (ht : s.writeCmd p w = .next t) (hb : s.BeginsDispatch t) :
    s.deliverOnly p w = true := by
  rcases State.writeCmd_cases ht with rfl | ⟨c, rfl⟩ | ⟨hidle, i, hd, hi⟩
  · exact absurd hb t.not_beginsDispatch_self
  · exact absurd hb s.not_beginsDispatch_self
  · obtain ⟨hp, ho⟩ := (exec_cur_opcStep hi).of_beginsDispatch hb
    rw [State.mayBegin_idle hidle] at ho
    exact (State.deliverOnly_iff hd).mpr ⟨hp ▸ State.kind_intPort, Instr.opcode_eq_dispatch.mp ho⟩

/-- The operand writes of a line change no opcode and nothing that bars the line (30_encoding.md R117). -/
theorem State.writeArgs_frame (s : State) (p : PortId) (l : Line) :
    (s.writeArgs p l).intPort = s.intPort ∧ (s.writeArgs p l).deliverOnly p l.cmd = s.deliverOnly p l.cmd
      ∧ ∀ q, ((s.writeArgs p l).port q).opc = (s.port q).opc := by
  rcases s.writeArgs_cases p l with e | ⟨a, b, e⟩ <;> rw [e]
  · exact ⟨rfl, rfl, fun _ => rfl⟩
  · exact ⟨rfl, rfl, State.setPort_opc (by rfl)⟩

/-- No agent's program begins an `IRQ_DISPATCH` on the interrupt port (46_environment.md R269). -/
theorem agentStep_not_beginsDispatch (ht : s.agentStep p = .next t) : ¬s.BeginsDispatch t := by
  intro hb
  rcases State.agentStep_cases ht with rfl | ⟨hbusy, i, hi⟩ | ⟨hidle, l, hl, hw⟩
  · exact t.not_beginsDispatch_self hb
  · have hstep := exec_cur_opcStep hi
    rw [State.mayBegin_busy hbusy] at hstep
    exact hstep.not_beginsDispatch hb
  · obtain ⟨hint, honly, hopc⟩ := s.writeArgs_frame p l
    have hb' : (s.writeArgs p l).BeginsDispatch t := by rwa [State.BeginsDispatch, hint, hopc]
    have hd : s.deliverOnly p l.cmd = true := honly.symm.trans (writeCmd_beginsDispatch hw hb')
    cases ht.symm.trans (State.agentStep_deliverOnly hidle hl hd)
    exact s.not_beginsDispatch_self hb

theorem State.AccessWrites.opcStep (h : s.AccessWrites p t) : s.OpcStep p 0#8 t := by
  rcases h with rfl | ⟨c, opc, off, rfl⟩ | ⟨v, rfl⟩ | ⟨a, b, rfl⟩
  · exact .refl t
  · exact .of_ports_eq rfl
  · exact .of_ports_eq rfl
  · exact fun q => .inl (State.setPort_opc (by rfl) q)

/-- An access of another width than 32 bits writes no `CMD` register (20_memory.md R75). -/
theorem State.access_narrow {a : Access} (hw : a.width ≠ 32) (ht : s.access a = .next t) : s.AccessWrites a.port t := by
  simp only [State.access, hw, ne_eq, not_false_eq_true, true_or, if_true] at ht
  split_ifs at ht <;> cases ht
  · exact .inl rfl
  · exact s.busFault_accessWrites a.port _

/-- No register access begins an `IRQ_DISPATCH` on the interrupt port (46_environment.md R260). -/
theorem access_not_beginsDispatch {a : Access} (ht : s.access a = .next t) : ¬s.BeginsDispatch t := by
  intro hb
  rcases State.access_cases ht with h | ⟨v, hk, ho, hcmd⟩
  · exact h.opcStep.not_beginsDispatch hb
  by_cases hw : a.width = 32
  · cases ht.symm.trans (State.access_cmd_barred hw hk ho (writeCmd_beginsDispatch hcmd hb))
    exact s.not_beginsDispatch_self hb
  · exact (State.access_narrow hw ht).opcStep.not_beginsDispatch hb

theorem spuriousWake_opcStep (s : State) (p : PortId) : s.OpcStep p 0#8 (s.spuriousWake p) := by
  unfold State.spuriousWake
  split_ifs
  · exact .refl s
  · exact .done rfl _
  · exact .goto rfl _
  · exact .refl s

theorem lineRx_ports (s : State) (b : Byte) : (s.lineRx b).ports = s.ports := by
  unfold State.lineRx
  split_ifs <;> rfl

theorem lineRxTimeout_ports (s : State) : s.lineRxTimeout.ports = s.ports := by
  unfold State.lineRxTimeout
  split_ifs <;> rfl

theorem lineTx_ports (s : State) : s.lineTx.ports = s.ports := by
  unfold State.lineTx
  split_ifs
  · rfl
  · split <;> rfl

theorem State.not_beginsDispatch_of_ports_eq (h : t.ports = s.ports) : ¬s.BeginsDispatch t :=
  (State.OpcStep.of_ports_eq (p := s.intPort) h).not_beginsDispatch

/-- Reset leaves every port idle (70_reset_and_hazards.md R320). -/
theorem resetEvent_not_beginsDispatch (s : State) : ¬s.BeginsDispatch s.resetEvent := by
  rintro ⟨hd, -⟩
  rw [show s.resetEvent.port s.intPort = {} from State.reset_port s.intPort] at hd
  exact absurd hd (by decide)

/-! ### The delivery (R266) -/

theorem State.deliverEnabled_iff : s.deliverEnabled = true ↔
    s.faulted = false ∧ s.irqOut = true ∧ s.busy s.intPort = false ∧ s.ie s.params.irqCpu = true := by
  simp [State.deliverEnabled, and_assoc]

theorem State.deliver_disabled (h : s.deliverEnabled = false) : s.deliver = .next s := by simp [State.deliver, h]

theorem State.setAgent_self (s : State) (p : PortId) : s.setAgent p (s.agent p) = s := by
  simp [State.setAgent, State.agent]

/-- The `IRQ_DISPATCH` word is latched on the idle interrupt port and waits in `I_PEND` (30_encoding.md R101). -/
theorem State.writeCmd_dispatch (hf : s.faulted = false) (hk : s.kind p = .interrupt) (hb : s.busy p = false) :
    s.writeCmd p dispatchWord = .next { s.begun p 0x50#8 Phase.iPend with cur := p } := by
  have hi : (s.port p).phase = Phase.idle := by simpa [State.busy] using hb
  rw [State.writeCmd_legal hf hb (decode_eq_irqDispatch.mpr rfl),
    exec_latch (s := { s with cur := p }) ⟨rfl, hk, hf, hi⟩ rfl]
  exact congrArg Host.Outcome.next (State.setAgent_self { s.begun p 0x50#8 Phase.iPend with cur := p } p)

theorem State.deliver_enabled (h : s.deliverEnabled = true) : s.deliver = .next
    { s.begun s.intPort 0x50#8 Phase.iPend with delivered := s.delivered + 1#32, cur := s.intPort } := by
  obtain ⟨hf, -, hb, -⟩ := State.deliverEnabled_iff.mp h
  rw [State.deliver, if_pos h]
  exact State.writeCmd_dispatch (s := { s with delivered := s.delivered + 1#32 }) hf State.kind_intPort hb

/-- The only event that begins an `IRQ_DISPATCH` on the interrupt port is an enabled delivery (R260). -/
theorem runEvent_beginsDispatch (e : Event) (ht : s.runEvent e = .next t) (hb : s.BeginsDispatch t) :
    e = .deliver ∧ s.deliverEnabled = true := by
  cases e with
  | deliver =>
    refine ⟨rfl, ?_⟩
    by_contra hd
    cases ht.symm.trans (State.deliver_disabled (by simpa using hd))
    exact s.not_beginsDispatch_self hb
  | port p => exact absurd hb (agentStep_not_beginsDispatch ht)
  | access a => exact absurd hb (access_not_beginsDispatch ht)
  | spuriousWake p => cases ht; exact absurd hb (spuriousWake_opcStep s p).not_beginsDispatch
  | lineRx b => cases ht; exact absurd hb (State.not_beginsDispatch_of_ports_eq (lineRx_ports s b))
  | lineRxTimeout => cases ht; exact absurd hb (State.not_beginsDispatch_of_ports_eq (lineRxTimeout_ports s))
  | lineTx => cases ht; exact absurd hb (State.not_beginsDispatch_of_ports_eq (lineTx_ports s))
  | hostStore a b => cases ht; exact absurd hb (State.not_beginsDispatch_of_ports_eq rfl)
  | reset => cases ht; exact absurd hb (resetEvent_not_beginsDispatch s)

/-- Settles O47: the step takes an event, which is an enabled delivery if it begins an `IRQ_DISPATCH`; and the delivery
by whether it is enabled. -/
theorem deliverIssuesDispatch : Obligations.DeliverIssuesDispatch := by
  refine ⟨fun s t hs hd hne => ?_, fun s => ⟨fun hf ho hb hie => ?_, fun h => ?_⟩⟩
  · unfold step at hs
    split_ifs at hs
    obtain ⟨he, hen⟩ := runEvent_beginsDispatch (s := s.advance) s.nextEvent hs ⟨hd, hne⟩
    exact ⟨he, State.deliverEnabled_iff.mp hen⟩
  · exact State.deliver_enabled (State.deliverEnabled_iff.mpr ⟨hf, ho, hb, hie⟩)
  · refine State.deliver_disabled ?_
    rcases h with h | h | h | h <;> simp [State.deliverEnabled, h]

end Sys2Proof.Machine
end

section
/-! SUPPORT. What is left to a halted block: register reads, which write the bus data, and the platform's own changes of
host memory (60_exceptions.md R282, 46_environment.md R260). -/

namespace Sys2Proof.Machine

variable {s t : State} {p : PortId}

/-- Event `e` takes a halted block from `s` to `t`: only the bus data may change, and host memory if `e` is the
platform's own store. -/
def State.HaltedStep (s : State) (e : Event) (t : State) : Prop :=
  ∃ m v, t = { s with mem := m, busData := v } ∧ ((∀ a b, e ≠ .hostStore a b) → m = s.mem)

theorem State.HaltedStep.refl (s : State) (e : Event) : s.HaltedStep e s := ⟨_, _, rfl, fun _ => rfl⟩

section
variable (hf : s.faulted = true)
include hf

theorem State.agentStep_halted : s.agentStep p = .next s := by simp [State.agentStep, hf]

theorem State.spuriousWake_halted : s.spuriousWake p = s := by simp [State.spuriousWake, hf]

theorem State.lineRx_halted (b : Byte) : s.lineRx b = s := if_pos hf

theorem State.lineRxTimeout_halted : s.lineRxTimeout = s := if_pos hf

theorem State.lineTx_halted : s.lineTx = s := if_pos hf

theorem State.deliver_halted : s.deliver = .next s := State.deliver_disabled (by simp [State.deliverEnabled, hf])

/-- The first fault stays the one recorded (R282). -/
theorem State.busFault_halted (p : PortId) (o : Nat) : s.busFault p o = s := if_pos hf

theorem State.windowWrite_halted (o : Nat) (v : Word) : s.windowWrite p o v = .next s := by
  unfold State.windowWrite
  split_ifs
  · exact State.writeCmd_halted hf v
  · rfl
  · rfl
  · rw [State.busFault_halted hf]

/-- Of the register accesses only a read has an effect, and that on the bus data alone (30_encoding.md R101). -/
theorem State.access_halted {a : Access} (ht : s.access a = .next t) : t = s ∨ ∃ v, t = { s with busData := v } := by
  unfold State.access at ht
  simp only [State.busFault_halted hf, State.windowWrite_halted hf] at ht
  split_ifs at ht
  · cases ht; exact .inl rfl
  · cases ht; exact .inl rfl
  · split at ht
    · split at ht <;> cases ht
      · exact .inr ⟨_, rfl⟩
      · exact .inl rfl
    · cases ht; exact .inl rfl

/-- Every event but reset leaves a halted block as it is. -/
theorem runEvent_halted {e : Event} (he : e ≠ .reset) (ht : s.runEvent e = .next t) : s.HaltedStep e t := by
  cases e with
  | port p => cases ht.symm.trans (State.agentStep_halted hf); exact .refl s _
  | spuriousWake p => cases ht; rw [State.spuriousWake_halted hf]; exact .refl s _
  | access a =>
    rcases State.access_halted hf ht with rfl | ⟨v, rfl⟩
    · exact .refl t _
    · exact ⟨_, _, rfl, fun _ => rfl⟩
  | lineRx b => cases ht; rw [State.lineRx_halted hf]; exact .refl s _
  | lineRxTimeout => cases ht; rw [State.lineRxTimeout_halted hf]; exact .refl s _
  | lineTx => cases ht; rw [State.lineTx_halted hf]; exact .refl s _
  | deliver => cases ht.symm.trans (State.deliver_halted hf); exact .refl s _
  | hostStore a b => cases ht; exact ⟨_, _, rfl, fun hne => absurd rfl (hne a b)⟩
  | reset => exact absurd rfl he

end

/-- Settles O52: the step takes an event other than reset, and every such event leaves a halted block as it is. -/
theorem haltedBlockKeepsItsState : Obligations.HaltedBlockKeepsItsState := by
  intro s t hf hreset hs
  unfold step at hs
  split_ifs at hs
  obtain ⟨m, v, rfl, hm⟩ := runEvent_halted (s := s.advance) hf hreset hs
  exact ⟨rfl, hm⟩

end Sys2Proof.Machine
end

section
/-! SUPPORT. What records a fault: a step of a command does so in its first step of its own alone, and then writes
nothing else; of the events, only an issue, an interrupt-port entry or a register access does (60_exceptions.md R282,
R283). -/

namespace Sys2Proof.Machine

variable {s t : State} {p : PortId}

/-! ### A step that leaves the fault record as it is or writes nothing else -/

/-- From `s` to `t` a fault is recorded, and nothing else is written but the model's own `cur`. -/
def State.Raised (s t : State) : Prop := ∃ f c, t = { s with fault := f, cur := c }

/-- Port `p` is about to issue a command, or to enter one on the interrupt port: a step in which a check can fail
(30_encoding.md R101, R115). -/
def State.atChecks (s : State) (p : PortId) : Prop :=
  (s.port p).phase = Phase.idle ∨ s.kind p = .interrupt ∧ (s.port p).phase = Phase.iPend

/-- From `s` to `t` the fault record stays as it is, or a check of port `p`'s command fails. -/
def State.FaultStep (s : State) (p : PortId) (t : State) : Prop :=
  t.fault = s.fault ∨ s.atChecks p ∧ s.Raised t

section
variable {i : Instr} {latch : Agent → Agent} {checks : List (Bool × FaultCode)} {start : State → State}
  {later : Byte → State → State}

/-- A command whose own steps leave the fault record alone faults only by its checks. -/
theorem State.command_faultStep (hstart : ∀ r, (start r).fault = r.fault)
    (hlater : ∀ ph r, (later ph r).fault = r.fault) :
    s.FaultStep s.cur (s.command i latch checks start later) := by
  rcases s.command_cases i latch checks start later with e | ⟨-, hcase⟩
  · rw [e]; exact .inl rfl
  rcases hcase with ⟨hi, -, e⟩ | ⟨-, -, -, e⟩ | ⟨c, -, hat, e⟩ | ⟨-, -, -, -, e⟩ | ⟨-, -, -, -, -, e⟩
    | ⟨-, -, -, e⟩ <;> rw [e]
  · exact .inr ⟨.inl hi, _, _, rfl⟩
  · exact .inl rfl
  · exact .inr ⟨hat.imp_right fun ⟨hp, _, hk⟩ => ⟨hk, hp⟩, _, _, rfl⟩
  · exact .inl (hstart _)
  · exact .inl (hstart s)
  · exact .inl (hlater _ s)

theorem State.oneStep_faultStep (hstart : ∀ r, (start r).fault = r.fault) :
    s.FaultStep s.cur (s.oneStep i latch checks start) :=
  State.command_faultStep hstart fun _ _ => rfl

end

/-! ### The commands' own steps -/

theorem State.acquireThen_fault {k : State → State} (hk : ∀ r, (k r).fault = r.fault) :
    (s.acquireThen p k).fault = s.fault := by
  rcases s.acquireThen_cases p k with ⟨-, e⟩ | ⟨-, e⟩ <;> rw [e]
  rw [hk, State.takeLock_fault]

theorem State.waitThen_fault {k : State → State} (hk : ∀ r, (k r).fault = r.fault) :
    (s.waitThen k).fault = s.fault := by
  rcases s.waitThen_cases k with ⟨-, e⟩ | ⟨-, e⟩ <;> rw [e]
  exact hk _

section
variable (s : State) (p : PortId)

@[simp] theorem stepGPop_fault : (stepGPop p s).fault = s.fault := by
  unfold stepGPop
  split_ifs <;> simp

@[simp] theorem stepGLock_fault : (stepGLock p s).fault = s.fault := State.acquireThen_fault (by simp)

@[simp] theorem stepGUnmask_fault : (stepGUnmask p s).fault = s.fault := by
  unfold stepGUnmask
  split_ifs <;> simp

@[simp] theorem stepPPop_fault : (stepPPop p s).fault = s.fault := by
  unfold stepPPop
  split_ifs <;> simp

@[simp] theorem startWrite_fault (w n : Bool) : (startWrite p w n s).fault = s.fault := by
  unfold startWrite
  dsimp only
  split_ifs <;> simp

@[simp] theorem stepWSelect_fault : (stepWSelect p s).fault = s.fault := by
  unfold stepWSelect
  dsimp only
  split_ifs <;> simp

@[simp] theorem stepWLock_fault : (stepWLock p s).fault = s.fault := State.acquireThen_fault (by simp)

@[simp] theorem stepWCheck_fault : (stepWCheck p s).fault = s.fault := by
  unfold stepWCheck
  dsimp only
  split_ifs <;> simp

@[simp] theorem stepWWait_fault : (stepWWait p s).fault = s.fault := State.waitThen_fault (by simp)

@[simp] theorem stepWYield_fault : (stepWYield p s).fault = s.fault := rfl

@[simp] theorem stepILock_fault : (stepILock p s).fault = s.fault := State.acquireThen_fault (by simp)

@[simp] theorem stepIRxsel_fault : (stepIRxsel p s).fault = s.fault := by
  unfold stepIRxsel
  split_ifs <;> simp

@[simp] theorem stepIDrain_fault : (stepIDrain p s).fault = s.fault := by
  unfold stepIDrain
  split
  · simp
  · split_ifs <;> simp

@[simp] theorem stepIRxend_fault : (stepIRxend p s).fault = s.fault := by
  unfold stepIRxend
  split_ifs <;> simp

@[simp] theorem stepITx_fault : (stepITx p s).fault = s.fault := by
  unfold stepITx
  split_ifs <;> simp

@[simp] theorem stepIExit_fault : (stepIExit p s).fault = s.fault := by simp [stepIExit]

@[simp] theorem stepLSpin_fault : (stepLSpin p s).fault = s.fault := State.acquireThen_fault (by simp)

@[simp] theorem stepKWait_fault : (stepKWait p s).fault = s.fault := State.waitThen_fault (by simp)

@[simp] theorem stepQSpin_fault : (stepQSpin p s).fault = s.fault := by
  unfold stepQSpin
  split_ifs <;> simp

@[simp] theorem startPollGetc_fault : (startPollGetc p s).fault = s.fault := by
  unfold startPollGetc
  split <;> simp

end

/-- One step of any command leaves the fault record as it is, or one of its checks fails. -/
theorem exec_faultStep (i : Instr) (s : State) (ht : exec i s = .next t) : s.FaultStep s.cur t := by
  cases i with
  | getbyte | write | irqDispatch | lockAcq | wakeWait | pollPutc | rbPop =>
    cases ht
    refine State.command_faultStep (by simp) fun ph r => ?_
    split_ifs <;> simp
  | initEarly | init | pollGetc | enterFail | rbInit | rbPush | lockRel | wakeSignal | yield | rxMask | rxUnmask
  | txMask | txUnmask => cases ht; exact State.oneStep_faultStep (by simp)

/-- A command on the port whose agent is made to act. -/
theorem exec_cur_faultStep {i : Instr} (ht : exec i { s with cur := p } = .next t) : s.FaultStep p t :=
  (exec_faultStep i { s with cur := p } ht).imp_right fun ⟨hat, f, c, e⟩ => ⟨hat, f, c, e⟩

/-! ### The events -/

/-- A write of a `CMD` register that records a fault writes nothing else (30_encoding.md R101). -/
theorem writeCmd_fault {w : Word} (ht : s.writeCmd p w = .next t) : t.fault = s.fault ∨ s.Raised t := by
  rcases State.writeCmd_cases ht with rfl | ⟨c, rfl⟩ | ⟨-, i, -, hi⟩
  · exact .inl rfl
  · exact .inr ⟨_, _, rfl⟩
  · exact (exec_cur_faultStep hi).imp_right And.right

/-- The operand writes of a line change only the ports' registers (R117). -/
theorem State.writeArgs_eq (s : State) (p : PortId) (l : Line) :
    s.writeArgs p l = { s with ports := (s.writeArgs p l).ports } := by
  rcases s.writeArgs_cases p l with e | ⟨a, b, e⟩ <;> rw [e]
  rfl

/-- Port `p` issues its next program line `l`, which faults after its operand writes (R117, log 8). -/
def State.IssueFaults (s : State) (p : PortId) (l : Line) (t : State) : Prop :=
  s.busy p = false ∧ s.nextLine p = some l ∧ (s.writeArgs p l).Raised t

/-- Port `p` is the interrupt port, and the command that waits there faults at its entry (R115). -/
def State.EntryFaults (s : State) (p : PortId) (t : State) : Prop :=
  s.kind p = .interrupt ∧ (s.port p).phase = Phase.iPend ∧ s.Raised t

theorem agentStep_fault (ht : s.agentStep p = .next t) :
    t.fault = s.fault ∨ (∃ l, s.IssueFaults p l t) ∨ s.EntryFaults p t := by
  rcases State.agentStep_cases ht with rfl | ⟨hbusy, i, hi⟩ | ⟨hidle, l, hl, hw⟩
  · exact .inl rfl
  · refine (exec_cur_faultStep hi).imp_right fun ⟨hat, hr⟩ => ?_
    obtain ⟨hk, hp⟩ := hat.resolve_left hbusy
    exact .inr ⟨hk, hp, hr⟩
  · have hargs : (s.writeArgs p l).fault = s.fault := by rw [State.writeArgs_eq]
    exact (writeCmd_fault hw).imp (·.trans hargs) fun hr => .inl ⟨l, hidle, hl, hr⟩

theorem access_fault {a : Access} (ht : s.access a = .next t) : t.fault = s.fault ∨ s.Raised t := by
  rcases State.access_cases ht with (rfl | ⟨c, opc, off, rfl⟩ | ⟨v, rfl⟩ | ⟨x, y, rfl⟩) | ⟨v, -, -, hw⟩
  · exact .inl rfl
  · exact .inr ⟨_, _, rfl⟩
  · exact .inl rfl
  · exact .inl rfl
  · exact writeCmd_fault hw

/-- A delivery is enabled only where the word it writes can be latched (46_environment.md R266). -/
theorem deliver_fault (ht : s.deliver = .next t) : t.fault = s.fault := by
  cases he : s.deliverEnabled with
  | true => cases ht.symm.trans (State.deliver_enabled he); rfl
  | false => cases ht.symm.trans (State.deliver_disabled he); rfl

theorem spuriousWake_fault (s : State) (p : PortId) : (s.spuriousWake p).fault = s.fault := by
  unfold State.spuriousWake
  split_ifs <;> simp

theorem lineRx_fault (s : State) (b : Byte) : (s.lineRx b).fault = s.fault := by
  unfold State.lineRx
  split_ifs <;> rfl

theorem lineRxTimeout_fault (s : State) : s.lineRxTimeout.fault = s.fault := by
  unfold State.lineRxTimeout
  split_ifs <;> rfl

theorem lineTx_fault (s : State) : s.lineTx.fault = s.fault := by
  unfold State.lineTx
  split_ifs
  · rfl
  · split <;> rfl

/-- A block that is not halted stays so while its fault record stays as it is. -/
theorem State.not_faulted_of_fault_eq (hf : s.faulted = false) (h : t.fault = s.fault) : ¬t.faulted = true := by
  rw [State.faulted, h]; exact Bool.eq_false_iff.mp hf

/-- The event that halts a block is an issue, an interrupt-port entry or a register access (R283). -/
theorem runEvent_faults (e : Event) (hf : s.faulted = false) (ht : s.runEvent e = .next t)
    (hft : t.faulted = true) :
    (∃ p l, e = .port p ∧ s.IssueFaults p l t) ∨ (∃ p, e = .port p ∧ s.EntryFaults p t)
      ∨ ∃ a, e = .access a ∧ s.Raised t := by
  have hne : t.fault ≠ s.fault := fun h => State.not_faulted_of_fault_eq hf h hft
  cases e with
  | port p =>
    rcases (agentStep_fault ht).resolve_left hne with ⟨l, h⟩ | h
    · exact .inl ⟨p, l, rfl, h⟩
    · exact .inr (.inl ⟨p, rfl, h⟩)
  | access a => exact .inr (.inr ⟨a, rfl, (access_fault ht).resolve_left hne⟩)
  | deliver => exact absurd (deliver_fault ht) hne
  | spuriousWake p => cases ht; exact absurd (spuriousWake_fault s p) hne
  | lineRx b => cases ht; exact absurd (lineRx_fault s b) hne
  | lineRxTimeout => cases ht; exact absurd (lineRxTimeout_fault s) hne
  | lineTx => cases ht; exact absurd (lineTx_fault s) hne
  | hostStore a b => cases ht; exact absurd rfl hne
  | reset => cases ht; exact absurd hft (by decide : ¬State.reset.faulted = true)

/-- The operand writes of a line do not depend on the schedule. -/
theorem State.writeArgs_advance_ports (s : State) (p : PortId) (l : Line) :
    (s.advance.writeArgs p l).ports = (s.writeArgs p l).ports := by
  unfold State.writeArgs
  split <;> rfl

/-- Settles O53: the step takes an event, which is one of the three if it halts the block; each leaves what it is to
leave. -/
theorem faultsArePrecise : Obligations.FaultsArePrecise := by
  intro s t hf hs hft
  unfold step at hs
  split_ifs at hs
  rcases runEvent_faults (s := s.advance) s.nextEvent hf hs hft with
    ⟨p, l, he, hb, hl, f, c, e⟩ | ⟨p, he, hk, hp, f, c, rfl⟩ | ⟨a, he, f, c, rfl⟩
  · have hports : t.ports = (s.writeArgs p l).ports := by rw [e]; exact s.writeArgs_advance_ports p l
    rw [State.writeArgs_eq] at e
    refine ⟨?_, .inl ⟨p, l, he, hb, hl, hports⟩⟩
    subst e
    rfl
  · exact ⟨rfl, .inr (.inl ⟨⟨p, he, hk, hp⟩, rfl⟩)⟩
  · exact ⟨rfl, .inr (.inr ⟨⟨a, he⟩, rfl⟩)⟩

end Sys2Proof.Machine
end

section
/-! SUPPORT. Which events are not enabled, and that they change nothing: the holds of the commands in progress, command
by command, the agents that the same-core exclusion bars, and the other events (60_exceptions.md R290, R296, R301,
R302, 46_environment.md R266). -/

namespace Sys2Proof.Machine

variable {s : State} {p q : PortId}

/-! ### Who may step (R302) -/

/-- "the interrupt port is entered" (R302). -/
theorem State.irqEntered_iff (hn : s.params.nthread ≤ 7) : s.irqEntered = true ↔
    ∃ i : PortId, i.val = s.params.nthread ∧ (s.port i).phase ≠ 0x00#8 ∧ (s.port i).phase ≠ 0x0F#8 := by
  have hentered : s.irqEntered = true ↔ (s.port s.intPort).phase ≠ 0x00#8 ∧ (s.port s.intPort).phase ≠ 0x0F#8 := by
    simp [State.irqEntered, State.busy]
  rw [hentered]
  refine ⟨fun h => ⟨s.intPort, s.intPort_val hn, h⟩, ?_⟩
  rintro ⟨i, hi, h⟩
  rwa [← State.eq_intPort ((s.kind_eq_interrupt hn i).mpr hi)]

/-- The existing ports below `NTHREAD` are the thread ports (R33). -/
theorem State.kind_eq_thread (hq : s.hasPort q = true) (hn : s.params.nthread ≤ 7) :
    s.kind q = .thread ↔ q.val < s.params.nthread := by
  have hint := s.kind_eq_interrupt hn q
  have hle : q.val ≤ s.params.nthread := by simpa [State.hasPort] using hq
  cases hk : s.kind q <;> simp only [hk, reduceCtorEq, false_iff, true_iff] at hint ⊢ <;> omega

/-- The interrupt port is never barred. -/
theorem State.mayStep_interrupt (hn : s.params.nthread ≤ 7) (hp : p.val = s.params.nthread) : s.mayStep p = true := by
  simp [State.mayStep, State.hasPort, (s.kind_eq_interrupt hn p).mpr hp, hp]

/-- Thread `q` is barred: it is on `IRQ_CPU` and the interrupt port is entered, or another thread of its core holds the
lock (R302). -/
def State.barred (s : State) (q : PortId) : Prop :=
  (∃ i : PortId, i.val = s.params.nthread ∧ (s.port i).phase ≠ 0x00#8 ∧ (s.port i).phase ≠ 0x0F#8
      ∧ s.params.cpu.getD q.val 0 = s.params.irqCpu)
    ∨ ∃ r : PortId, r.val < s.params.nthread ∧ r ≠ q ∧ s.lockHeld = true ∧ s.lockOwner = r
      ∧ s.params.cpu.getD r.val 0 = s.params.cpu.getD q.val 0

/-- A thread is kept from stepping by the handler on its core, or by the lock held by another thread there. -/
theorem State.mayStep_thread (hk : s.kind p = .thread) (hp : s.hasPort p = true) : s.mayStep p = true ↔
    ¬(s.irqEntered = true ∧ s.core p = s.params.irqCpu)
      ∧ ¬(s.lockHeld = true ∧ s.kind s.lockOwner = .thread ∧ s.lockOwner ≠ p ∧ s.core s.lockOwner = s.core p) := by
  simp only [State.mayStep, hk, hp, Bool.true_and, Bool.and_eq_true, Bool.not_eq_true', ← Bool.not_eq_true,
    decide_eq_true_eq, and_assoc]

theorem State.core_thread (hn : s.params.nthread ≤ 7) (hq : q.val < s.params.nthread) :
    s.core q = s.params.cpu.getD q.val 0 := by
  rw [State.core_eq hn, if_neg hq.ne]

/-- A thread may step exactly if it is not barred. -/
theorem State.Inv.mayStep_iff (h : s.Inv) (hq : q.val < s.params.nthread) : s.mayStep q = true ↔ ¬s.barred q := by
  have hn := h.nthread_le
  have hp : s.hasPort q = true := by simpa [State.hasPort] using hq.le
  rw [State.mayStep_thread ((State.kind_eq_thread hp hn).mpr hq) hp, State.barred, not_or, State.core_thread hn hq]
  refine and_congr (not_congr ?_) (not_congr ?_)
  · rw [State.irqEntered_iff hn]
    exact ⟨fun ⟨⟨i, hi, h0, h1⟩, hc⟩ => ⟨i, hi, h0, h1, hc⟩, fun ⟨i, hi, h0, h1, hc⟩ => ⟨⟨i, hi, h0, h1⟩, hc⟩⟩
  · constructor
    · rintro ⟨hl, hk, hne, hc⟩
      have ho := (State.kind_eq_thread (h.lock_ie hl).1 hn).mp hk
      exact ⟨s.lockOwner, ho, hne, hl, rfl, (State.core_thread hn ho).symm.trans hc⟩
    · rintro ⟨r, hr, hne, hl, rfl, hc⟩
      exact ⟨hl, (State.kind_eq_thread (h.lock_ie hl).1 hn).mpr hr, hne, (State.core_thread hn hr).trans hc⟩

/-! ### An agent that may not step -/

section
variable (hm : s.mayStep p = false)
include hm

theorem State.agentStep_not_mayStep : s.agentStep p = .next s := by simp [State.agentStep, hm]

theorem State.spuriousWake_not_mayStep : s.spuriousWake p = s := by simp [State.spuriousWake, hm]

end

/-- An access is barred with its agent, or is the write that only a delivery makes (46_environment.md R260). -/
theorem State.access_disabled {a : Access} (h : s.enabled (.access a) = false) : s.access a = .next s := by
  cases hm : s.mayStep a.port with
  | false => simp [State.access, hm]
  | true =>
    have hd : s.dispatchAccess a = true := by simpa [State.enabled, hm] using h
    simp [State.access, hd]

theorem State.access_not_mayStep {a : Access} (hm : s.mayStep a.port = false) : s.access a = .next s :=
  State.access_disabled (by simp [State.enabled, hm])

/-! ### The commands in progress (R296) -/

/-- The command in progress is read back with the opcode of its port (10_state.md R35). -/
theorem opcode_of_commandOf {opc : Byte} {a : Agent} {i : Instr} (h : commandOf opc a = some i) : i.opcode = opc :=
  opcode_of_byOpcode i h

/-- The only code of a command with one step after its issue. -/
theorem phase_eq_one {ph : Byte} (h0 : ph ≠ Phase.idle) (h1 : ph.toNat ≤ 1) : ph = 1#8 := by
  simp only [Phase.idle] at h0
  bv_omega

section
variable {ph : Byte} (hk : s.kind p = .thread) (he : s.stepEnabled p = false)
include hk he

/-- `GETBYTE` holds at `G_POP` and at `G_LOCK` (41_rxpath.md R165, R166). -/
theorem exec_getbyte_disabled (w : Bool) (h : s.atStep p 0x12#8 ph) : exec (.getbyte w) s = .next s := by
  obtain ⟨-, -, ho, hp⟩ := id h
  simp only [State.stepEnabled, hk, ho, hp, if_true] at he
  split_ifs at he with hpop hlock
  · subst hpop
    obtain ⟨hempty, hwt⟩ : s.isEmpty = true ∧ (s.agent p).wt = true := by simpa using he
    rw [exec_getbyte_at_gPop w h, stepGPop_waits hempty hwt]
  · subst hlock
    rw [exec_getbyte_at_gLock w h, stepGLock, State.acquireThen_held (by simpa using he)]

/-- `WRITE` holds at `W_SELECT`, where the platform denies the address, at `W_LOCK` and at `W_WAIT` (43_txpath.md R203,
R204, R206). -/
theorem exec_write_disabled (w n : Bool) (h : s.atStep p 0x13#8 ph) : exec (.write w n) s = .next s := by
  obtain ⟨-, -, ho, hp⟩ := id h
  simp only [State.stepEnabled, hk, ho, hp, show (0x13#8 = 0x12#8) = False by decide, if_true, if_false] at he
  split_ifs at he with hselect hlock hwait
  · subst hselect
    exact (exec_write_at_step w n h).trans (congrArg Host.Outcome.next (stepWSelect_denied he))
  · subst hlock
    refine (exec_write_at_step w n h).trans (congrArg Host.Outcome.next ?_)
    show stepWLock p s = s
    rw [stepWLock, State.acquireThen_held (by simpa using he)]
  · subst hwait
    refine (exec_write_at_step w n h).trans (congrArg Host.Outcome.next ?_)
    show stepWWait p s = s
    rw [stepWWait, State.waitThen_holds he]

/-- `POLL_PUTC` holds at `Q_SPIN` (44_panic.md R233). -/
theorem exec_pollPutc_disabled (b : Byte) (h : s.atStep p 0x14#8 Phase.qSpin) : exec (.pollPutc b) s = .next s := by
  have hfull : s.params.txfDepth ≤ s.txf.length := by simpa [State.stepEnabled, hk, h.2.2.1] using he
  rw [exec_pollPutc_at_qSpin b h, stepQSpin_holds hfull]

/-- `RB_POP` holds at `P_POP` (40_ringbuffer.md R149). -/
theorem exec_rbPop_disabled (w : Bool) (h : s.atStep p 0x22#8 Phase.pPop) : exec (.rbPop w) s = .next s := by
  obtain ⟨hempty, hwt⟩ : s.isEmpty = true ∧ (s.agent p).wt = true := by
    simpa [State.stepEnabled, hk, h.2.2.1] using he
  rw [exec_rbPop_at_pPop w h, stepPPop_waits hempty hwt]

/-- `LOCK_ACQ` holds at `L_SPIN` (42_lock_wake.md R180). -/
theorem exec_lockAcq_disabled (h : s.atStep p 0x30#8 Phase.lSpin) : exec .lockAcq s = .next s := by
  have hheld : s.lockHeld = true := by simpa [State.stepEnabled, hk, h.2.2.1] using he
  rw [exec_lockAcq_at_lSpin h, stepLSpin, State.acquireThen_held hheld]

/-- `WAKE_WAIT` holds at `K_WAIT` (R187). -/
theorem exec_wakeWait_disabled (h : s.atStep p 0x33#8 Phase.kWait) : exec .wakeWait s = .next s := by
  have hnone : s.wakePend = false := by simpa [State.stepEnabled, hk, h.2.2.1] using he
  rw [exec_wakeWait_at_kWait h, stepKWait, State.waitThen_holds hnone]

/-- On a thread port, a step of the command in progress that is not enabled holds. -/
theorem exec_thread_disabled (h : s.Inv) {i : Instr} (hs : s.atStep p i.opcode ph) (hb : ph ≠ Phase.idle) :
    exec i s = .next s := by
  obtain ⟨-, -, ho, hp⟩ := id hs
  have hshape := hk ▸ h.shape_at ho hp
  simp only [Port.shapeOk, if_neg hb] at hshape
  cases i with
  | getbyte w => exact exec_getbyte_disabled hk he w hs
  | write w n => exact exec_write_disabled hk he w n hs
  | pollPutc b =>
    obtain rfl := phase_eq_one hb (by simpa [Instr.opcode] using hshape)
    exact exec_pollPutc_disabled hk he b hs
  | rbPop w =>
    obtain rfl := phase_eq_one hb (by simpa [Instr.opcode] using hshape)
    exact exec_rbPop_disabled hk he w hs
  | lockAcq =>
    obtain rfl := phase_eq_one hb (by simpa [Instr.opcode] using hshape)
    exact exec_lockAcq_disabled hk he hs
  | wakeWait =>
    obtain rfl := phase_eq_one hb (by simpa [Instr.opcode] using hshape)
    exact exec_wakeWait_disabled hk he hs
  | initEarly | init | pollGetc | enterFail | rbInit | rbPush | lockRel | wakeSignal | yield | rxMask | rxUnmask
  | txMask | txUnmask | irqDispatch => simp [Instr.opcode] at hshape

end

/-- On the interrupt port, a command waits in `I_PEND` with interrupts off, and `IRQ_DISPATCH` holds at `I_LOCK` (R290,
45_lifecycle_dispatch.md R248). -/
theorem exec_interrupt_disabled (h : s.Inv) (hk : s.kind p = .interrupt) (he : s.stepEnabled p = false) {i : Instr}
    {ph : Byte} (hs : s.atStep p i.opcode ph) : exec i s = .next s := by
  obtain ⟨hcur, -, ho, hp⟩ := id hs
  simp only [State.stepEnabled, hk, hp] at he
  split_ifs at he with hpend hlock
  · exact exec_pending hcur ho (hp.trans hpend) he
  · subst hlock
    have hshape := hk ▸ h.shape_at ho hp
    obtain rfl : i = .irqDispatch := Instr.opcode_eq_dispatch.mp (by
      simpa [Port.shapeOk, Phase.iLock, Phase.iPend] using hshape)
    refine (exec_irqDispatch_at_step hs).trans (congrArg Host.Outcome.next ?_)
    show stepILock p s = s
    rw [stepILock, State.acquireThen_held (by simpa using he)]

/-- A step of the command in progress that is not enabled holds. -/
theorem exec_disabled (h : s.Inv) (hf : s.faulted = false) (hp : s.cur = p) (hb : s.busy p = true)
    (he : s.stepEnabled p = false) {i : Instr} (ho : i.opcode = (s.port p).opc) : exec i s = .next s := by
  have hs : s.atStep p i.opcode (s.port p).phase := ⟨hp, hf, ho.symm, rfl⟩
  cases hk : s.kind p with
  | thread => exact exec_thread_disabled hk he h hs (by simpa [State.busy] using hb)
  | interrupt => exact exec_interrupt_disabled h hk he hs

/-! ### The events (R301) -/

/-- A busy port's step that is not enabled is a hold of its command. -/
theorem State.agentStep_busy_disabled (h : s.Inv) (hb : s.busy p = true) (he : s.stepEnabled p = false) :
    ∃ c, s.agentStep p = .next { s with cur := c } := by
  unfold State.agentStep
  split_ifs with hx
  · exact ⟨s.cur, rfl⟩
  · split
    · next i hc =>
      have hf : s.faulted = false := by simp at hx; exact hx.1
      exact ⟨p, exec_disabled (s := { s with cur := p }) { h with } hf rfl hb he (opcode_of_commandOf hc)⟩
    · exact ⟨s.cur, rfl⟩

/-- A port's step that is not enabled: the block is halted, the agent is barred, the command in progress holds, or
there is no line to issue. -/
theorem State.agentStep_disabled (h : s.Inv) (he : s.portEnabled p = false) :
    ∃ c, s.agentStep p = .next { s with cur := c } := by
  by_cases hf : s.faulted = true
  · exact ⟨s.cur, State.agentStep_halted hf⟩
  by_cases hm : s.mayStep p = true
  swap
  · exact ⟨s.cur, State.agentStep_not_mayStep (by simpa using hm)⟩
  simp only [State.portEnabled, hf, hm, Bool.not_false, Bool.true_and] at he
  split_ifs at he with hb
  · exact State.agentStep_busy_disabled h hb he
  refine ⟨s.cur, ?_⟩
  have hidle : s.busy p = false := by simpa using hb
  cases hl : s.nextLine p with
  | none => exact State.agentStep_no_line hidle hl
  | some l => exact State.agentStep_deliverOnly hidle hl (by simpa [hl] using he)

/-- A spurious wake that is not enabled: the block is halted, the thread is barred, or it does not wait (42_lock_wake.md
R190). -/
theorem State.spuriousWake_disabled (h : s.enabled (.spuriousWake p) = false) : s.spuriousWake p = s := by
  by_cases hx : (s.faulted || !s.mayStep p || decide (s.kind p = .interrupt)) = true
  · exact if_pos hx
  · obtain ⟨⟨hf, hm⟩, hint⟩ : (s.faulted = false ∧ s.mayStep p = true) ∧ s.kind p ≠ .interrupt := by simpa using hx
    have hk : s.kind p = .thread := by
      cases e : s.kind p
      · rfl
      · exact absurd e hint
    obtain ⟨hkwait, hwwait⟩ : ¬((s.port p).opc = 0x33#8 ∧ (s.port p).phase = Phase.kWait)
        ∧ ¬((s.port p).opc = 0x13#8 ∧ (s.port p).phase = Phase.wWait) := by
      simpa [State.enabled, hf, hm, hk] using h
    rw [State.spuriousWake, if_neg hx, if_neg hkwait, if_neg hwwait]

theorem State.lineRxTimeout_disabled (h : s.enabled .lineRxTimeout = false) : s.lineRxTimeout = s := by
  by_cases hf : s.faulted = true
  · exact State.lineRxTimeout_halted hf
  · exact State.lineRxTimeout_holds ((Classical.em (s.rxf = [])).imp_right fun hx => by
      simpa [State.enabled, hf, List.length_pos_iff, hx] using h)

theorem State.lineTx_disabled (h : s.enabled .lineTx = false) : s.lineTx = s := by
  by_cases hf : s.faulted = true
  · exact State.lineTx_halted hf
  · exact State.lineTx_empty (by simpa [State.enabled, hf] using h)

/-- An event that is not enabled changes nothing but the model's own `cur`. -/
theorem runEvent_disabled (h : s.Inv) (e : Event) (he : s.enabled e = false) :
    ∃ c, s.runEvent e = .next { s with cur := c } := by
  cases e with
  | port p => exact State.agentStep_disabled h he
  | spuriousWake p => exact ⟨s.cur, congrArg _ (State.spuriousWake_disabled he)⟩
  | access a => exact ⟨s.cur, State.access_disabled he⟩
  | lineRx b => exact ⟨s.cur, congrArg _ (State.lineRx_halted (by simpa [State.enabled] using he) b)⟩
  | lineRxTimeout => exact ⟨s.cur, congrArg _ (State.lineRxTimeout_disabled he)⟩
  | lineTx => exact ⟨s.cur, congrArg _ (State.lineTx_disabled he)⟩
  | deliver => exact ⟨s.cur, State.deliver_disabled he⟩
  | hostStore a b => simp [State.enabled] at he
  | reset => simp [State.enabled] at he

/-- Settles O55: every event that is not enabled, the interrupt port, and a thread that is barred. -/
theorem disabledEventsChangeNothing : Obligations.DisabledEventsChangeNothing := by
  refine ⟨fun s e h he => runEvent_disabled h e he, fun s i hn hi => State.mayStep_interrupt hn hi, ?_⟩
  intro s q h hq barred
  have hiff : s.mayStep q = true ↔ ¬barred := h.mayStep_iff hq
  refine ⟨hiff, fun hbar => ?_⟩
  have hm : s.mayStep q = false := Bool.eq_false_iff.mpr fun hm => hiff.mp hm hbar
  refine ⟨State.agentStep_not_mayStep hm, congrArg _ (State.spuriousWake_not_mayStep hm), ?_⟩
  rintro a rfl
  exact State.access_not_mayStep hm

end Sys2Proof.Machine
end

section
/-! SUPPORT. The registers that are set once and stay so until reset, and the parameters: a step of a command, and each
event but reset, leaves them as they are or sets one of them for the first time (10_state.md R21, R22, R24, R25,
70_reset_and_hazards.md R324). -/

namespace Sys2Proof.Machine

variable {s t : State} {p : PortId}

/-! ### What is set once -/

/-- What only reset may take back: the lifecycle flags and failure mode, the device that goes with `EARLY_DONE`, the
capacity that goes with `RB_INIT_DONE`, and the parameters, which nothing changes. -/
structure Lifecycle where
  earlyDone : Bool
  initDone : Bool
  rbInitDone : Bool
  failureMode : Bool
  mmioBase : Word
  irqLine : Word
  cap : Nat
  params : Params

/-- These registers of a state. -/
def State.lifecycle (s : State) : Lifecycle :=
  ⟨s.earlyDone, s.initDone, s.rbInitDone, s.failureMode, s.mmioBase, s.irqLine, s.cap, s.params⟩

/-- From `a` to `b` nothing that is set is cleared or recorded anew. -/
structure Lifecycle.Kept (a b : Lifecycle) : Prop where
  earlyDone : a.earlyDone = true → b.earlyDone = true
  initDone : a.initDone = true → b.initDone = true
  rbInitDone : a.rbInitDone = true → b.rbInitDone = true ∧ b.cap = a.cap
  failureMode : a.failureMode = true → b.failureMode = true
  device : a.earlyDone = true → b.mmioBase = a.mmioBase ∧ b.irqLine = a.irqLine
  params : b.params = a.params

namespace Lifecycle.Kept

variable {a : Lifecycle}

theorem refl (a : Lifecycle) : a.Kept a :=
  ⟨id, id, fun h => ⟨h, rfl⟩, id, fun _ => ⟨rfl, rfl⟩, rfl⟩

/-- The device base and line are recorded once (45_lifecycle_dispatch.md R241). -/
theorem setDevice (h : a.earlyDone = false) (base line : Word) :
    a.Kept { a with earlyDone := true, mmioBase := base, irqLine := line } :=
  { refl a with
    earlyDone := fun _ => rfl
    device := fun hd => absurd hd (by simp [h]) }

/-- The capacity is set once (40_ringbuffer.md R142, R144). -/
theorem setCap (h : a.rbInitDone = false) (cap : Nat) : a.Kept { a with rbInitDone := true, cap := cap } :=
  { refl a with rbInitDone := fun hd => absurd hd (by simp [h]) }

/-- `INIT_DONE` is set with the capacity (45_lifecycle_dispatch.md R244). -/
theorem setInit (h : a.rbInitDone = false) (cap : Nat) :
    a.Kept { a with rbInitDone := true, cap := cap, initDone := true } :=
  { setCap h cap with initDone := fun _ => rfl }

/-- Failure mode is entered and not left (44_panic.md R231). -/
theorem setFailureMode (a : Lifecycle) : a.Kept { a with failureMode := true } :=
  { refl a with failureMode := fun _ => rfl }

end Lifecycle.Kept

/-- From `s` to `t` nothing that is set is cleared or recorded anew. -/
def State.KeepsLifecycle (s t : State) : Prop := s.lifecycle.Kept t.lifecycle

theorem State.KeepsLifecycle.of_eq (h : t.lifecycle = s.lifecycle) : s.KeepsLifecycle t := by
  rw [State.KeepsLifecycle, h]
  exact .refl _

/-! ### The operations of the state that set nothing -/

section
variable (s : State) (p : PortId)

@[simp] theorem State.setPort_lifecycle (x : Port) : (s.setPort p x).lifecycle = s.lifecycle := rfl
@[simp] theorem State.setAgent_lifecycle (x : Agent) : (s.setAgent p x).lifecycle = s.lifecycle := rfl
@[simp] theorem State.setIe_lifecycle (c : Nat) (b : Bool) : (s.setIe c b).lifecycle = s.lifecycle := rfl
@[simp] theorem State.setLock_lifecycle (b : Bool) : (s.setLock b p).lifecycle = s.lifecycle := rfl
@[simp] theorem State.goto_lifecycle (ph : Byte) : (s.goto p ph).lifecycle = s.lifecycle := rfl
@[simp] theorem State.begin_lifecycle (o ph : Byte) : (s.begin p o ph).lifecycle = s.lifecycle := rfl
@[simp] theorem State.signal_lifecycle : s.signal.lifecycle = s.lifecycle := rfl
@[simp] theorem State.countWait_lifecycle : s.countWait.lifecycle = s.lifecycle := rfl
@[simp] theorem State.countFull_lifecycle : s.countFull.lifecycle = s.lifecycle := rfl
@[simp] theorem State.maskRx_lifecycle (m : Bool) : (s.maskRx m).lifecycle = s.lifecycle := rfl
@[simp] theorem State.maskTx_lifecycle (m : Bool) : (s.maskTx m).lifecycle = s.lifecycle := rfl
@[simp] theorem State.rbPush_lifecycle (b : Byte) : (s.rbPush b).lifecycle = s.lifecycle := rfl
@[simp] theorem State.rbPop_lifecycle : s.rbPop.lifecycle = s.lifecycle := rfl
@[simp] theorem State.rxfDrop_lifecycle : s.rxfDrop.lifecycle = s.lifecycle := rfl
@[simp] theorem State.txfPut_lifecycle (b : Byte) : (s.txfPut b).lifecycle = s.lifecycle := rfl

@[simp] theorem State.done_lifecycle (w : Word) : (s.done p w).lifecycle = s.lifecycle := by simp [State.done]

@[simp] theorem State.takeLock_lifecycle : (s.takeLock p).lifecycle = s.lifecycle := by simp [State.takeLock]

@[simp] theorem State.release_lifecycle : (s.release p).lifecycle = s.lifecycle := by simp [State.release]

@[simp] theorem State.irqEnter_lifecycle : (s.irqEnter p).lifecycle = s.lifecycle := by simp [State.irqEnter]

@[simp] theorem State.irqReturn_lifecycle : (s.irqReturn p).lifecycle = s.lifecycle := by simp [State.irqReturn]

end

/-! ### The shape of a command -/

section
variable {i : Instr} {latch : Agent → Agent} {checks : List (Bool × FaultCode)} {start : State → State}
  {later : Byte → State → State}

/-- A command may set something in its first step, which its checks have let pass, and in no later one. -/
theorem State.command_keepsLifecycle
    (hstart : firstFailing checks = none → ∀ r : State, r.lifecycle = s.lifecycle → s.KeepsLifecycle (start r))
    (hlater : ∀ ph (r : State), (later ph r).lifecycle = r.lifecycle) :
    s.KeepsLifecycle (s.command i latch checks start later) := by
  rcases s.command_cases i latch checks start later with e | ⟨-, hcase⟩
  · rw [e]; exact .of_eq rfl
  rcases hcase with ⟨-, -, e⟩ | ⟨-, -, -, e⟩ | ⟨c, -, -, e⟩ | ⟨hc, -, -, -, e⟩ | ⟨hc, -, -, -, -, e⟩
    | ⟨-, -, -, e⟩ <;> rw [e]
  · exact .of_eq rfl
  · exact .of_eq rfl
  · exact .of_eq rfl
  · exact hstart hc _ rfl
  · exact hstart hc s rfl
  · exact .of_eq (hlater _ s)

/-- A command of one step may set something, if its checks have let it pass. -/
theorem State.oneStep_keepsLifecycle
    (hstart : firstFailing checks = none → ∀ r : State, r.lifecycle = s.lifecycle → s.KeepsLifecycle (start r)) :
    s.KeepsLifecycle (s.oneStep i latch checks start) :=
  State.command_keepsLifecycle hstart fun _ _ => rfl

/-- A command none of whose steps sets anything. -/
theorem State.command_lifecycle_eq (hstart : ∀ r : State, (start r).lifecycle = r.lifecycle)
    (hlater : ∀ ph (r : State), (later ph r).lifecycle = r.lifecycle) :
    s.KeepsLifecycle (s.command i latch checks start later) :=
  State.command_keepsLifecycle (fun _ r e => .of_eq ((hstart r).trans e)) hlater

theorem State.oneStep_lifecycle_eq (hstart : ∀ r : State, (start r).lifecycle = r.lifecycle) :
    s.KeepsLifecycle (s.oneStep i latch checks start) :=
  State.command_lifecycle_eq hstart fun _ _ => rfl

end

/-! ### The steps that set nothing -/

theorem State.acquireThen_lifecycle {k : State → State} (hk : ∀ r : State, (k r).lifecycle = r.lifecycle) :
    (s.acquireThen p k).lifecycle = s.lifecycle := by
  rcases s.acquireThen_cases p k with ⟨-, e⟩ | ⟨-, e⟩ <;> rw [e]
  rw [hk, State.takeLock_lifecycle]

theorem State.waitThen_lifecycle {k : State → State} (hk : ∀ r : State, (k r).lifecycle = r.lifecycle) :
    (s.waitThen k).lifecycle = s.lifecycle := by
  rcases s.waitThen_cases k with ⟨-, e⟩ | ⟨-, e⟩ <;> rw [e]
  exact hk _

section
variable (s : State) (p : PortId)

@[simp] theorem stepGPop_lifecycle : (stepGPop p s).lifecycle = s.lifecycle := by
  unfold stepGPop
  split_ifs <;> simp

@[simp] theorem stepGLock_lifecycle : (stepGLock p s).lifecycle = s.lifecycle :=
  State.acquireThen_lifecycle (by simp)

@[simp] theorem stepGUnmask_lifecycle : (stepGUnmask p s).lifecycle = s.lifecycle := by
  unfold stepGUnmask
  split_ifs <;> simp

@[simp] theorem stepPPop_lifecycle : (stepPPop p s).lifecycle = s.lifecycle := by
  unfold stepPPop
  split_ifs <;> simp

@[simp] theorem startWrite_lifecycle (w n : Bool) : (startWrite p w n s).lifecycle = s.lifecycle := by
  unfold startWrite
  dsimp only
  split_ifs <;> simp

@[simp] theorem stepWSelect_lifecycle : (stepWSelect p s).lifecycle = s.lifecycle := by
  unfold stepWSelect
  dsimp only
  split_ifs <;> simp

@[simp] theorem stepWLock_lifecycle : (stepWLock p s).lifecycle = s.lifecycle :=
  State.acquireThen_lifecycle (by simp)

@[simp] theorem stepWCheck_lifecycle : (stepWCheck p s).lifecycle = s.lifecycle := by
  unfold stepWCheck
  dsimp only
  split_ifs <;> simp

@[simp] theorem stepWWait_lifecycle : (stepWWait p s).lifecycle = s.lifecycle :=
  State.waitThen_lifecycle (by simp)

@[simp] theorem stepWYield_lifecycle : (stepWYield p s).lifecycle = s.lifecycle := rfl

@[simp] theorem stepILock_lifecycle : (stepILock p s).lifecycle = s.lifecycle :=
  State.acquireThen_lifecycle (by simp)

@[simp] theorem stepIRxsel_lifecycle : (stepIRxsel p s).lifecycle = s.lifecycle := by
  unfold stepIRxsel
  split_ifs <;> simp

@[simp] theorem stepIDrain_lifecycle : (stepIDrain p s).lifecycle = s.lifecycle := by
  unfold stepIDrain
  split
  · simp
  · split_ifs <;> simp

@[simp] theorem stepIRxend_lifecycle : (stepIRxend p s).lifecycle = s.lifecycle := by
  unfold stepIRxend
  split_ifs <;> simp

@[simp] theorem stepITx_lifecycle : (stepITx p s).lifecycle = s.lifecycle := by
  unfold stepITx
  split_ifs <;> simp

@[simp] theorem stepIExit_lifecycle : (stepIExit p s).lifecycle = s.lifecycle := by simp [stepIExit]

@[simp] theorem stepLSpin_lifecycle : (stepLSpin p s).lifecycle = s.lifecycle :=
  State.acquireThen_lifecycle (by simp)

@[simp] theorem stepKWait_lifecycle : (stepKWait p s).lifecycle = s.lifecycle :=
  State.waitThen_lifecycle (by simp)

@[simp] theorem stepQSpin_lifecycle : (stepQSpin p s).lifecycle = s.lifecycle := by
  unfold stepQSpin
  split_ifs <;> simp

@[simp] theorem startPollGetc_lifecycle : (startPollGetc p s).lifecycle = s.lifecycle := by
  unfold startPollGetc
  split
  · simp
  · rw [State.done_lifecycle]
    rfl

end

/-! ### The commands that set something -/

/-- `INIT_EARLY` passes its first check only before `EARLY_DONE` is set (R241). -/
theorem execInitEarly_keepsLifecycle (ht : execInitEarly s = .next t) : s.KeepsLifecycle t := by
  cases ht
  refine State.oneStep_keepsLifecycle fun hc r hr => ?_
  have hearly : s.lifecycle.earlyDone = false := firstFailing_none.mp hc (s.earlyDone, .initOrder) (by simp)
  rw [← hr] at hearly
  rw [State.KeepsLifecycle, ← hr, State.done_lifecycle]
  exact .setDevice hearly _ _

/-- `RBInit` passes its first check only before `RB_INIT_DONE` is set (R142). -/
theorem execRbInit_keepsLifecycle (ht : execRbInit s = .next t) : s.KeepsLifecycle t := by
  cases ht
  refine State.oneStep_keepsLifecycle fun hc r hr => ?_
  have hrb : s.lifecycle.rbInitDone = false := rbInitDone_of_rbInitChecks (firstFailing_none.mp hc)
  rw [← hr] at hrb
  rw [State.KeepsLifecycle, ← hr, State.done_lifecycle]
  exact .setCap hrb _

/-- `INIT` makes the checks of `RBInit` among its own (R244). -/
theorem execInit_keepsLifecycle (ht : execInit s = .next t) : s.KeepsLifecycle t := by
  cases ht
  refine State.oneStep_keepsLifecycle fun hc r hr => ?_
  have hrb : s.lifecycle.rbInitDone = false :=
    rbInitDone_of_rbInitChecks (c := (s.port s.cur).arg0) fun e he => firstFailing_none.mp hc e (by simp [he])
  rw [← hr] at hrb
  rw [State.KeepsLifecycle, ← hr, State.done_lifecycle]
  exact .setInit hrb _

theorem execEnterFail_keepsLifecycle (ht : execEnterFail s = .next t) : s.KeepsLifecycle t := by
  cases ht
  refine State.oneStep_keepsLifecycle fun _ r hr => ?_
  rw [State.KeepsLifecycle, ← hr, State.done_lifecycle]
  exact .setFailureMode _

/-- One step of any command clears nothing that is set and records nothing anew (R324). -/
theorem exec_keepsLifecycle (i : Instr) (s : State) (ht : exec i s = .next t) : s.KeepsLifecycle t := by
  cases i with
  | initEarly => exact execInitEarly_keepsLifecycle ht
  | init => exact execInit_keepsLifecycle ht
  | rbInit => exact execRbInit_keepsLifecycle ht
  | enterFail => exact execEnterFail_keepsLifecycle ht
  | getbyte | write | irqDispatch | lockAcq | wakeWait | pollPutc | rbPop =>
    cases ht
    refine State.command_lifecycle_eq (by simp) fun ph r => ?_
    split_ifs <;> simp
  | pollGetc => cases ht; exact State.oneStep_lifecycle_eq (by simp)
  | rbPush | lockRel | wakeSignal | yield | rxMask | rxUnmask | txMask | txUnmask =>
    cases ht
    exact State.oneStep_lifecycle_eq (by simp)

/-! ### The events -/

theorem writeCmd_keepsLifecycle {w : Word} (ht : s.writeCmd p w = .next t) : s.KeepsLifecycle t := by
  rcases State.writeCmd_cases ht with rfl | ⟨c, rfl⟩ | ⟨-, i, -, hi⟩
  · exact .of_eq rfl
  · exact .of_eq rfl
  · exact exec_keepsLifecycle i { s with cur := p } hi

theorem writeArgs_lifecycle (s : State) (p : PortId) (l : Line) : (s.writeArgs p l).lifecycle = s.lifecycle := by
  rw [State.writeArgs_eq]
  rfl

theorem agentStep_keepsLifecycle (ht : s.agentStep p = .next t) : s.KeepsLifecycle t := by
  rcases State.agentStep_cases ht with rfl | ⟨-, i, hi⟩ | ⟨-, l, -, hw⟩
  · exact .of_eq rfl
  · exact exec_keepsLifecycle i { s with cur := p } hi
  · rw [State.KeepsLifecycle, ← writeArgs_lifecycle s p l]
    exact writeCmd_keepsLifecycle hw

theorem access_keepsLifecycle {a : Access} (ht : s.access a = .next t) : s.KeepsLifecycle t := by
  rcases State.access_cases ht with (rfl | ⟨c, opc, off, rfl⟩ | ⟨v, rfl⟩ | ⟨x, y, rfl⟩) | ⟨v, -, -, hw⟩
  · exact .of_eq rfl
  · exact .of_eq rfl
  · exact .of_eq rfl
  · exact .of_eq rfl
  · exact writeCmd_keepsLifecycle hw

theorem deliver_lifecycle (ht : s.deliver = .next t) : t.lifecycle = s.lifecycle := by
  cases he : s.deliverEnabled with
  | true => cases ht.symm.trans (State.deliver_enabled he); rfl
  | false => cases ht.symm.trans (State.deliver_disabled he); rfl

theorem spuriousWake_lifecycle (s : State) (p : PortId) : (s.spuriousWake p).lifecycle = s.lifecycle := by
  unfold State.spuriousWake
  split_ifs <;> simp

theorem lineRx_lifecycle (s : State) (b : Byte) : (s.lineRx b).lifecycle = s.lifecycle := by
  unfold State.lineRx
  split_ifs <;> rfl

theorem lineRxTimeout_lifecycle (s : State) : s.lineRxTimeout.lifecycle = s.lifecycle := by
  unfold State.lineRxTimeout
  split_ifs <;> rfl

theorem lineTx_lifecycle (s : State) : s.lineTx.lifecycle = s.lifecycle := by
  unfold State.lineTx
  split_ifs
  · rfl
  · split <;> rfl

/-- Every event but reset clears nothing that is set and records nothing anew. -/
theorem runEvent_keepsLifecycle {e : Event} (he : e ≠ .reset) (ht : s.runEvent e = .next t) :
    s.KeepsLifecycle t := by
  cases e with
  | port p => exact agentStep_keepsLifecycle ht
  | access a => exact access_keepsLifecycle ht
  | deliver => exact .of_eq (deliver_lifecycle ht)
  | spuriousWake p => cases ht; exact .of_eq (spuriousWake_lifecycle s p)
  | lineRx b => cases ht; exact .of_eq (lineRx_lifecycle s b)
  | lineRxTimeout => cases ht; exact .of_eq (lineRxTimeout_lifecycle s)
  | lineTx => cases ht; exact .of_eq (lineTx_lifecycle s)
  | hostStore a b => cases ht; exact .of_eq rfl
  | reset => exact absurd rfl he

/-- Settles O54: the step takes an event other than reset, and each of those leaves set what is set. -/
theorem lifecycleIsNeverUndone : Obligations.LifecycleIsNeverUndone := by
  intro s t hreset hs
  unfold step at hs
  split_ifs at hs
  have h : s.lifecycle.Kept t.lifecycle := runEvent_keepsLifecycle (s := s.advance) hreset hs
  exact ⟨h.earlyDone, h.initDone, h.rbInitDone, h.failureMode, h.device, h.params⟩

end Sys2Proof.Machine
end

section
/-! SUPPORT. What the reset event leaves of a state: it is `State.reset` but for what R321 and logs 7 and 23 keep
(70_reset_and_hazards.md R320, R321). -/

namespace Sys2Proof.Machine

/-- Every agent restarts at the start of its program, with its transaction registers 0 (R320, 10_state.md R52). -/
theorem State.resetEvent_agent (s : State) (p : PortId) : s.resetEvent.agent p = { prog := (s.agent p).prog } := by
  simp [State.agent, State.resetEvent]

/-- Settles O57: the step takes the reset event, whose state is `State.reset` with what is kept, its agents all
restarted. -/
theorem resetEventRestoresResetValues : Obligations.ResetEventRestoresResetValues := by
  intro s t hw he hs
  rw [step, if_pos hw, he] at hs
  obtain rfl : s.advance.resetEvent = t := Host.Outcome.next.inj hs
  exact ⟨rfl, s.advance.resetEvent_agent⟩

end Sys2Proof.Machine
end
